-- ==== Sys2Proof/Word.lean ====
section
/-! DEFINITION. The two word types of IMGDEC: bytes of the byte memories, and the 32-bit words of registers, Colors and the host bus. -/

namespace Sys2Proof

/-- One byte (00_scope R6: a byte is 8 bits, bit 0 the least significant). -/
abbrev Byte := BitVec 8

/-- A 32-bit word: a host register, a Color, a command word, a bus address. -/
abbrev Word := BitVec 32

end Sys2Proof
end

