-- ==== Sys2Proof/Config.lean ====
section
/-! DEFINITION. What one instance of IMGDEC fixes (00_scope R5), and the free values of the model. -/

namespace Sys2Proof

/-- The capacities of one instance (00_scope R5; `OPEN` in 92_eei_decisions D3): the model takes them
as arguments, and State carries them unchanged. -/
structure Capacities where
  /-- IMEM_BYTES -/
  imemBytes : Nat
  /-- ZMEM_BYTES -/
  zmemBytes : Nat
  /-- PMEM_PIXELS; XMEM has as many bytes -/
  pmemPixels : Nat
  deriving DecidableEq, Repr

/-- The bounds of 00_scope R5. -/
def Capacities.legal (c : Capacities) : Bool :=
  decide (1 ≤ c.imemBytes) && decide (c.imemBytes ≤ 2 ^ 24) &&
  decide (1 ≤ c.zmemBytes) && decide (c.zmemBytes ≤ 2 ^ 24) &&
  decide (1 ≤ c.pmemPixels) && decide (c.pmemPixels ≤ 2 ^ 22)

/-- DESIGN CHOICE (unsafe, log 1): the instance that `State.reset` stands for, the largest one the bounds of
00_scope R5 allow. Statements over every state hold for every choice. -/
def Config.capacities : Capacities := ⟨2 ^ 24, 2 ^ 24, 2 ^ 22⟩

/-- A free value (93 U10, `any value`; log 6): what a host read returns for a location that is not part of
the data. Nothing constrains it. -/
opaque Config.freeWord : Nat → Word

end Sys2Proof
end

