-- ==== Sys2Proof/Syntax.lean ====
section
/-! DEFINITION. The instructions of IMGDEC at both levels: one constructor per row of spec/opcode_table.json. -/

namespace Sys2Proof

/-- The encoding formats of opcode_table.json: the command word (30_encoding R90) and the six kinds of
stream opcode (30_encoding, introduction). -/
inductive Format
  | command      -- CMD, 32 bits
  | chunkType    -- PNG_CHUNK_TYPE, 32 bits, first byte high
  | filterByte   -- PNG_FILTER_BYTE, 8 bits
  | blockHeader  -- DEFLATE_BLOCK_HEADER, 3 bits, read least significant bit first
  | headerSize   -- BMP_HEADER_SIZE, 32 bits, little-endian
  | bitCount     -- BMP_BITCOUNT, 16 bits, little-endian
  | payloadHead  -- ICO_PAYLOAD_HEAD, 64 bits, first byte high
  deriving DecidableEq, Repr

/-- Bits of one instruction of the format (the table's `width`). -/
def Format.width : Format → Nat
  | .command => 32
  | .chunkType => 32
  | .filterByte => 8
  | .blockHeader => 3
  | .headerSize => 32
  | .bitCount => 16
  | .payloadHead => 64

/-- The instructions. `depth` is the DEPTH field of a command word (30_encoding R94), `bfinal` the BFINAL bit of
a DEFLATE block header (43_inflate R213), `head` the eight bytes that made the payload select choose the BMP path
(46_ico R304). -/
inductive Instr
  -- commands, 30_encoding R92
  | nop
  | clr
  | newbm (depth : BitVec 8)
  | getpx
  | setpx
  | des (depth : BitVec 8)
  | ser (depth : BitVec 8)
  | conv (depth : BitVec 8)
  | decbmp (depth : BitVec 8)
  | decpng (depth : BitVec 8)
  | decico (depth : BitVec 8)
  | inflate
  | unfilt
  | palmap
  -- PNG chunk types, 30_encoding R102
  | pngChunkIHDR
  | pngChunkIDAT
  | pngChunkIEND
  -- PNG filter bytes, 30_encoding R105
  | pngFilterNone
  | pngFilterSub
  | pngFilterUp
  | pngFilterAverage
  | pngFilterPaeth
  -- DEFLATE block headers, 43_inflate R213
  | deflateStored (bfinal : Bool)
  | deflateFixed (bfinal : Bool)
  | deflateDynamic (bfinal : Bool)
  -- BMP info-header sizes, 30_encoding R111
  | bmpHeaderCore
  | bmpHeader40
  | bmpHeader52
  | bmpHeader56
  | bmpHeader108
  | bmpHeader124
  -- BMP bit counts, 30_encoding R115
  | bmpBits1
  | bmpBits4
  | bmpBits8
  | bmpBits16
  | bmpBits24
  | bmpBits32
  -- ICO payload heads, 30_encoding R122
  | icoPayloadPng
  | icoPayloadBmp (head : BitVec 64)
  deriving DecidableEq, Repr

/-- The format an instruction is encoded in. -/
def Instr.format : Instr → Format
  | .nop => .command
  | .clr => .command
  | .newbm _ => .command
  | .getpx => .command
  | .setpx => .command
  | .des _ => .command
  | .ser _ => .command
  | .conv _ => .command
  | .decbmp _ => .command
  | .decpng _ => .command
  | .decico _ => .command
  | .inflate => .command
  | .unfilt => .command
  | .palmap => .command
  | .pngChunkIHDR => .chunkType
  | .pngChunkIDAT => .chunkType
  | .pngChunkIEND => .chunkType
  | .pngFilterNone => .filterByte
  | .pngFilterSub => .filterByte
  | .pngFilterUp => .filterByte
  | .pngFilterAverage => .filterByte
  | .pngFilterPaeth => .filterByte
  | .deflateStored _ => .blockHeader
  | .deflateFixed _ => .blockHeader
  | .deflateDynamic _ => .blockHeader
  | .bmpHeaderCore => .headerSize
  | .bmpHeader40 => .headerSize
  | .bmpHeader52 => .headerSize
  | .bmpHeader56 => .headerSize
  | .bmpHeader108 => .headerSize
  | .bmpHeader124 => .headerSize
  | .bmpBits1 => .bitCount
  | .bmpBits4 => .bitCount
  | .bmpBits8 => .bitCount
  | .bmpBits16 => .bitCount
  | .bmpBits24 => .bitCount
  | .bmpBits32 => .bitCount
  | .icoPayloadPng => .payloadHead
  | .icoPayloadBmp _ => .payloadHead

end Sys2Proof
end

