-- ==== Sys2Proof/WellFormed.lean ====
section
/-! DEFINITION. Which instructions are legal: the two operand checks of the spec. -/

namespace Sys2Proof

/-- The PixelFormats (30_encoding R94): the only legal DEPTH fields. -/
def legalDepth (d : BitVec 8) : Bool :=
  d == 1#8 || d == 8#8 || d == 16#8 || d == 24#8 || d == 32#8

/-- The PNG signature as one number, first byte high (30_encoding R100). -/
def pngSignatureHead : BitVec 64 := 0x89504E470D0A1A0A#64

/-- A command with a DEPTH operand has a legal one (30_encoding R94, R96); a payload that is taken as BMP does not
begin with the PNG signature (46_ico R304, `ico.payload.png` has priority). -/
def Instr.wellFormed : Instr → Bool
  | .newbm d => legalDepth d
  | .des d => legalDepth d
  | .ser d => legalDepth d
  | .conv d => legalDepth d
  | .decbmp d => legalDepth d
  | .decpng d => legalDepth d
  | .decico d => legalDepth d
  | .icoPayloadBmp head => head != pngSignatureHead
  | .nop => true
  | .clr => true
  | .getpx => true
  | .setpx => true
  | .inflate => true
  | .unfilt => true
  | .palmap => true
  | .pngChunkIHDR => true
  | .pngChunkIDAT => true
  | .pngChunkIEND => true
  | .pngFilterNone => true
  | .pngFilterSub => true
  | .pngFilterUp => true
  | .pngFilterAverage => true
  | .pngFilterPaeth => true
  | .deflateStored _ => true
  | .deflateFixed _ => true
  | .deflateDynamic _ => true
  | .bmpHeaderCore => true
  | .bmpHeader40 => true
  | .bmpHeader52 => true
  | .bmpHeader56 => true
  | .bmpHeader108 => true
  | .bmpHeader124 => true
  | .bmpBits1 => true
  | .bmpBits4 => true
  | .bmpBits8 => true
  | .bmpBits16 => true
  | .bmpBits24 => true
  | .bmpBits32 => true
  | .icoPayloadPng => true

end Sys2Proof
end

