-- ==== Sys2Proof/Decode.lean ====
section
/-! DEFINITION. The decoder, total on every word of every format and rejecting by name, and the encoder, both written
from the tables of 30_encoding R92, R102, R105, R111, R115, R122 and 43_inflate R213. -/

namespace Sys2Proof

/-- Why a word is no instruction. -/
inductive DecodeError
  | reservedBits       -- a command word with bits 31:16 not zero (30_encoding R96)
  | unknownOpcode      -- an unassigned OPC (30_encoding R96)
  | depthNotAllowed    -- a DEPTH on a command without one (30_encoding R96)
  | otherChunkType     -- a chunk type the walker skips (30_encoding R102)
  | illegalFilter      -- filter bytes 5 to 255 (30_encoding R105)
  | reservedBlockType  -- BTYPE 3 (43_inflate R213)
  | unknownHeaderSize  -- a BMP header size not listed (30_encoding R111)
  | unknownBitCount    -- a bitCount not listed (30_encoding R115)
  deriving DecidableEq, Repr

/-- A command without DEPTH operand: its DEPTH field must be 0 (30_encoding R90). -/
def decodeNoDepth (d : BitVec 8) (i : Instr) : Except DecodeError Instr :=
  if d = 0#8 then .ok i else .error .depthNotAllowed

/-- The command word (30_encoding R90): check RSV, look up OPC, check DEPTH. A DEPTH outside the PixelFormats still
selects its command (R92 leaves the field out of the mask); the command then raises UnsupportedFormat (R94). -/
def decodeCommand (w : Word) : Except DecodeError Instr :=
  let opc := w.extractLsb' 0 8
  let depth := w.extractLsb' 8 8
  if w.extractLsb' 16 16 ≠ 0#16 then .error .reservedBits
  else if opc = 0x00#8 then decodeNoDepth depth .nop
  else if opc = 0x01#8 then decodeNoDepth depth .clr
  else if opc = 0x02#8 then .ok (.newbm depth)
  else if opc = 0x03#8 then decodeNoDepth depth .getpx
  else if opc = 0x04#8 then decodeNoDepth depth .setpx
  else if opc = 0x10#8 then .ok (.des depth)
  else if opc = 0x11#8 then .ok (.ser depth)
  else if opc = 0x12#8 then .ok (.conv depth)
  else if opc = 0x20#8 then .ok (.decbmp depth)
  else if opc = 0x21#8 then .ok (.decpng depth)
  else if opc = 0x22#8 then .ok (.decico depth)
  else if opc = 0x30#8 then decodeNoDepth depth .inflate
  else if opc = 0x31#8 then decodeNoDepth depth .unfilt
  else if opc = 0x40#8 then decodeNoDepth depth .palmap
  else .error .unknownOpcode

/-- The four type bytes of a PNG chunk, first byte in bits 31:24 (30_encoding R102). -/
def decodeChunkType (w : BitVec 32) : Except DecodeError Instr :=
  if w = 0x49484452#32 then .ok .pngChunkIHDR
  else if w = 0x49444154#32 then .ok .pngChunkIDAT
  else if w = 0x49454E44#32 then .ok .pngChunkIEND
  else .error .otherChunkType

/-- The filter byte of a scanline (30_encoding R105). -/
def decodeFilter (b : BitVec 8) : Except DecodeError Instr :=
  if b = 0#8 then .ok .pngFilterNone
  else if b = 1#8 then .ok .pngFilterSub
  else if b = 2#8 then .ok .pngFilterUp
  else if b = 3#8 then .ok .pngFilterAverage
  else if b = 4#8 then .ok .pngFilterPaeth
  else .error .illegalFilter

/-- The block header: bit 0 BFINAL, bits 2:1 BTYPE (43_inflate R213). -/
def decodeBlockHeader (h : BitVec 3) : Except DecodeError Instr :=
  let bfinal := h.extractLsb' 0 1 == 1#1
  let btype := h.extractLsb' 1 2
  if btype = 0#2 then .ok (.deflateStored bfinal)
  else if btype = 1#2 then .ok (.deflateFixed bfinal)
  else if btype = 2#2 then .ok (.deflateDynamic bfinal)
  else .error .reservedBlockType

/-- The info-header size (30_encoding R111). -/
def decodeHeaderSize (w : BitVec 32) : Except DecodeError Instr :=
  if w = 12#32 then .ok .bmpHeaderCore
  else if w = 40#32 then .ok .bmpHeader40
  else if w = 52#32 then .ok .bmpHeader52
  else if w = 56#32 then .ok .bmpHeader56
  else if w = 108#32 then .ok .bmpHeader108
  else if w = 124#32 then .ok .bmpHeader124
  else .error .unknownHeaderSize

/-- bitCount (30_encoding R115). -/
def decodeBitCount (w : BitVec 16) : Except DecodeError Instr :=
  if w = 1#16 then .ok .bmpBits1
  else if w = 4#16 then .ok .bmpBits4
  else if w = 8#16 then .ok .bmpBits8
  else if w = 16#16 then .ok .bmpBits16
  else if w = 24#16 then .ok .bmpBits24
  else if w = 32#16 then .ok .bmpBits32
  else .error .unknownBitCount

/-- The first eight payload bytes, first byte in bits 63:56 (30_encoding R122). -/
def decodePayloadHead (w : BitVec 64) : Except DecodeError Instr :=
  if w = pngSignatureHead then .ok .icoPayloadPng else .ok (.icoPayloadBmp w)

/-- The decoder: the instruction a word of the given format stands for. Bits above the format's width are dropped. -/
def decode (f : Format) (w : Nat) : Except DecodeError Instr :=
  match f with
  | .command => decodeCommand (BitVec.ofNat 32 w)
  | .chunkType => decodeChunkType (BitVec.ofNat 32 w)
  | .filterByte => decodeFilter (BitVec.ofNat 8 w)
  | .blockHeader => decodeBlockHeader (BitVec.ofNat 3 w)
  | .headerSize => decodeHeaderSize (BitVec.ofNat 32 w)
  | .bitCount => decodeBitCount (BitVec.ofNat 16 w)
  | .payloadHead => decodePayloadHead (BitVec.ofNat 64 w)

/-- A command word from its opcode and DEPTH field (30_encoding R90; RSV is 0). -/
def commandWord (opc depth : BitVec 8) : Nat := opc.toNat + 256 * depth.toNat

/-- A block header from BFINAL and BTYPE (43_inflate R213). -/
def blockHeaderWord (bfinal : Bool) (btype : Nat) : Nat := bfinal.toNat + 2 * btype

/-- The encoder: the word of an instruction, in its own format (`Instr.format`). -/
def encode : Instr → Nat
  | .nop => commandWord 0x00#8 0#8
  | .clr => commandWord 0x01#8 0#8
  | .newbm d => commandWord 0x02#8 d
  | .getpx => commandWord 0x03#8 0#8
  | .setpx => commandWord 0x04#8 0#8
  | .des d => commandWord 0x10#8 d
  | .ser d => commandWord 0x11#8 d
  | .conv d => commandWord 0x12#8 d
  | .decbmp d => commandWord 0x20#8 d
  | .decpng d => commandWord 0x21#8 d
  | .decico d => commandWord 0x22#8 d
  | .inflate => commandWord 0x30#8 0#8
  | .unfilt => commandWord 0x31#8 0#8
  | .palmap => commandWord 0x40#8 0#8
  | .pngChunkIHDR => 0x49484452
  | .pngChunkIDAT => 0x49444154
  | .pngChunkIEND => 0x49454E44
  | .pngFilterNone => 0
  | .pngFilterSub => 1
  | .pngFilterUp => 2
  | .pngFilterAverage => 3
  | .pngFilterPaeth => 4
  | .deflateStored b => blockHeaderWord b 0
  | .deflateFixed b => blockHeaderWord b 1
  | .deflateDynamic b => blockHeaderWord b 2
  | .bmpHeaderCore => 12
  | .bmpHeader40 => 40
  | .bmpHeader52 => 52
  | .bmpHeader56 => 56
  | .bmpHeader108 => 108
  | .bmpHeader124 => 124
  | .bmpBits1 => 1
  | .bmpBits4 => 4
  | .bmpBits8 => 8
  | .bmpBits16 => 16
  | .bmpBits24 => 24
  | .bmpBits32 => 32
  | .icoPayloadPng => pngSignatureHead.toNat
  | .icoPayloadBmp head => head.toNat

/-- The decoder's answer without the reason of a rejection. -/
def decode? (f : Format) (w : Nat) : Option Instr :=
  match decode f w with
  | .ok i => some i
  | .error _ => none

/-- The instruction of a table word (log 10): `nbits` tells the format where it can. A 32-bit word is a command word
if its command exists, else a chunk type, else a header size (no word is two of these); an 8-bit word is a filter byte,
and where it is none, the 3-bit block header in the low bits of a byte. -/
def decodeTableWord (nbits w : Nat) : Option Instr :=
  if nbits = 32 then
    if w < 2 ^ 32 then
      (decode? .command w).or ((decode? .chunkType w).or (decode? .headerSize w))
    else none
  else if nbits = 8 then
    if w < 2 ^ 8 then
      (decode? .filterByte w).or (if w < 8 then decode? .blockHeader w else none)
    else none
  else if nbits = 3 then
    if w < 2 ^ 3 then decode? .blockHeader w else none
  else if nbits = 16 then
    if w < 2 ^ 16 then decode? .bitCount w else none
  else if nbits = 64 then
    if w < 2 ^ 64 then decode? .payloadHead w else none
  else none

end Sys2Proof
end

