-- ==== Sys2Proof/Machine/State.lean ====
section
/-! DEFINITION. The state of IMGDEC as plain data: everything 10_state.md gives the machine, the engine's hidden state
while a command runs, the host's pending actions, and the state after reset. -/

namespace Sys2Proof.Machine

/-- ST, the engine state (10_state R27). -/
inductive Status
  | idle  -- 0: no command since reset or CLR
  | busy  -- 1: a command is executing
  | done  -- 2: the last command completed without error
  | err   -- 3: the last command raised an error
  deriving DecidableEq, Repr

/-- The error kinds (60_exceptions R322). -/
inductive ErrorKind
  | invalidSignature   -- 1
  | unsupportedFormat  -- 2
  | truncatedData      -- 3
  | outOfBounds        -- 4
  | corruptData        -- 5
  deriving DecidableEq, Repr

/-- A register that a failed command may leave without a value (60_exceptions R325): the spec forbids a model to give it
one, and a read of it is a fault (93 U2; log 5). -/
inductive Reg
  | val (w : Word)
  | unspecified
  deriving DecidableEq, Repr

/-- The host registers of 10_state R37, in the order of their offsets. -/
inductive RegName
  | cmd | status | errcode | ctrl | ilen | ipos | arg0 | arg1 | arg2 | res0 | res1
  | bmW | bmH | bmD | paln | zlen
  | pngW | pngH | pngBd | pngCt | pngBpp | pngRowb
  | bmpHsize | bmpW | bmpH | bmpBits | bmpComp | bmpOff | bmpStride
  | icoCount | icoEW | icoEH | icoECc | icoEPlanes | icoEBits | icoESize | icoEOff | icoSel
  deriving DecidableEq, Repr

/-- The five memories (20_memory R60). -/
inductive Space
  | imem | zmem | pmem | pal | xmem
  deriving DecidableEq, Repr

/-- A memory whose locations hold values of `n` bits: (index, value) pairs, indices strictly rising. An unlisted location
holds no value (10_state R42). `Mem 8` is a list of `Host.Cell`. -/
abbrev Mem (n : Nat) := List (Nat × BitVec n)

/-- The width of a host access (20_memory R63). -/
inductive Width
  | byte | half | word
  deriving DecidableEq, Repr

/-- One action of the host (20_memory R63, R75) or of the reset pin (70_reset R360). Addresses are offsets from
IMGDEC_BASE (log 15); `rst` is asserted and released in one action (log 27). -/
inductive HostOp
  | write (width : Width) (addr : Word) (value : Word)
  | read (width : Width) (addr : Word)
  | rst
  deriving DecidableEq, Repr

/-- PNG header registers (10_state R34). -/
structure PngRegs where
  w : Reg
  h : Reg
  bd : Reg
  ct : Reg
  bpp : Reg
  rowb : Reg
  deriving DecidableEq, Repr

/-- BMP header registers (10_state R35). -/
structure BmpRegs where
  hsize : Reg
  w : Reg
  h : Reg
  bits : Reg
  comp : Reg
  off : Reg
  stride : Reg
  deriving DecidableEq, Repr

/-- ICO directory registers (10_state R36). -/
structure IcoRegs where
  count : Reg
  eW : Reg
  eH : Reg
  eCc : Reg
  ePlanes : Reg
  eBits : Reg
  eSize : Reg
  eOff : Reg
  sel : Reg
  deriving DecidableEq, Repr

/-- What IHDR yields (44_png R254). -/
structure Ihdr where
  w : Nat
  h : Nat
  bd : Nat
  ct : Nat
  deriving DecidableEq, Repr

/-- The chunk walk (44_png R253): the chunk at `pos` is next, the window ends at `lim`; `hdr` is what IHDR gave once seen, `idat` the
IDAT accumulator (R255); `ico` says that DECICO runs the walk. -/
structure ChunkCtx where
  ico : Bool
  depth : BitVec 8
  lim : Nat
  pos : Nat
  hdr : Option Ihdr
  idat : List Byte
  deriving DecidableEq, Repr

/-- What the later stages of a PNG decode need of the walk: its header and the cursor after IEND (44_png R251). -/
structure PngImage where
  ico : Bool
  depth : BitVec 8
  hdr : Ihdr
  pos : Nat
  deriving DecidableEq, Repr

/-- The byte sequence `S` of the decompressor: `IMEM[0 .. len-1]` for INFLATE (43_inflate R210), the concatenated IDAT
payloads for a PNG (44_png R257). -/
inductive Source
  | imem (len : Nat)
  | bytes (l : List Byte)
  deriving DecidableEq, Repr

/-- The decompressor before a block header (43_inflate R227): the bit position `bp`, the output so far newest byte first, and
the image a PNG decode is on (`none`: the INFLATE command). -/
structure BlockCtx where
  src : Source
  bp : Nat
  rout : List Byte
  png : Option PngImage
  deriving DecidableEq, Repr

/-- The filter unit before scanline `row` (44_png R262); `png` as in BlockCtx (`none`: the UNFILT command). -/
structure RowCtx where
  rowbytes : Nat
  rows : Nat
  bpp : Nat
  row : Nat
  png : Option PngImage
  deriving DecidableEq, Repr

/-- The BMP decoder before the info header at `h0` (42_bmp R182, 46_ico R306): the window ends at `lim`; `off` is the file
header's pixel-data offset (of no use in an ICO, where it is 0). -/
structure BmpCtx where
  ico : Bool
  depth : BitVec 8
  h0 : Nat
  lim : Nat
  off : Nat
  deriving DecidableEq, Repr

/-- The BMP decoder before bitCount, the rest of the info header parsed (42_bmp R182): header size, core or modern, width and height
as read, colorsUsed. -/
structure BmpHeader where
  ctx : BmpCtx
  hs : Nat
  core : Bool
  w : Int
  h : Int
  clrUsed : Nat
  deriving DecidableEq, Repr

/-- The payload select of an ICO (46_ico R304): the payload window `[off, lim)`. -/
structure PayloadCtx where
  depth : BitVec 8
  off : Nat
  lim : Nat
  deriving DecidableEq, Repr

/-- The engine's hidden state (10_state R40): which stream opcode it reads next, and what it carries there. `idle` in every state in
which no command is in flight. -/
inductive Engine
  | idle
  | payload (c : PayloadCtx)
  | header (c : BmpCtx)
  | pixels (c : BmpHeader)
  | chunks (c : ChunkCtx)
  | blocks (c : BlockCtx)
  | rows (c : RowCtx)
  deriving DecidableEq, Repr

/-- The state of one IMGDEC (10_state R21, R37), its hidden engine state (R40), its parameters (R41) and the model's own fields. -/
structure State where
  /-- STATUS.ST (R27) -/
  st : Status
  /-- ERRCODE, `none` for code 0 (R28) -/
  errcode : Option ErrorKind
  /-- CTRL.IE (R29) -/
  ie : Bool
  ilen : Word
  ipos : Reg
  arg0 : Word
  arg1 : Word
  arg2 : Word
  res0 : Word
  res1 : Word
  bmW : Reg
  bmH : Reg
  bmD : Reg
  paln : Reg
  zlen : Reg
  png : PngRegs
  bmp : BmpRegs
  ico : IcoRegs
  imem : Mem 8
  zmem : Mem 8
  pmem : Mem 32
  pal : Mem 32
  xmem : Mem 8
  /-- hidden engine state (R40) -/
  engine : Engine
  /-- the capacities of this instance (00_scope R5); no step changes them -/
  cap : Capacities
  /-- the MODEL's own: the host's pending actions, the next one first (70_reset R369; log 2) -/
  script : List HostOp
  /-- the MODEL's own: the data of the last host read (log 7) -/
  rdata : Option Word
  /-- the MODEL's own: counts the free values drawn (log 6) -/
  fresh : Nat
  deriving DecidableEq, Repr

/-- The faults: the model stops where the spec forbids it a value. Both are safe (the hardware goes on with some value). -/
inductive Fault
  /-- Raised by an engine or host read of a memory location that holds no value: never written since reset, or written by a
  command that then failed (20_memory R69, 60_exceptions R325, 93 U1, U2). Safe. -/
  | unwrittenRead (space : Space) (index : Nat)
  /-- Raised by an engine or host read of a register that a failed command left unspecified (60_exceptions R325, 93 U2). Safe. -/
  | unspecifiedRead (reg : RegName)
  deriving DecidableEq, Repr

/-- The refusals: the spec gives the access or the instruction no meaning there. All are safe (the model stops). -/
inductive Refusal
  /-- Raised by exec for an instruction that has no meaning yet. Safe. -/
  | notModelled (mnemonic : String)
  /-- Raised by a host access that is misaligned, of a wrong width, or to an unmapped address (20_memory R65, 93 U5: a model refuses
  it). Safe. -/
  | busError
  /-- Raised by a host access while ST = BUSY other than a STATUS read and a CMD write (70_reset R365, 93 U3: a model refuses it). Safe. -/
  | accessWhileBusy
  /-- Raised by a stream opcode when the engine is not in the phase of a command that reads it: the spec gives the opcode no meaning there
  (30_encoding, introduction; log 11). Safe. -/
  | outsideItsPhase
  deriving DecidableEq, Repr

/-- Why a step of a command ends early: it raises an error of the hardware, or the model faults. -/
inductive Stop
  | raised (e : ErrorKind)
  | faulted (f : Fault)
  deriving DecidableEq, Repr

/-- A register at its reset value (10_state R37: every host register resets to 0). -/
def Reg.zero : Reg := .val 0#32

/-- The state after reset of the instance with capacities `c` (10_state R42, 70_reset R360): every register 0, ST IDLE, IE 0, no location of
a memory holding a value, no command in flight; the model's own fields empty (log 2, 6, 7). -/
def State.resetWith (c : Capacities) : State :=
  { st := .idle
    errcode := none
    ie := false
    ilen := 0#32
    ipos := Reg.zero
    arg0 := 0#32
    arg1 := 0#32
    arg2 := 0#32
    res0 := 0#32
    res1 := 0#32
    bmW := Reg.zero
    bmH := Reg.zero
    bmD := Reg.zero
    paln := Reg.zero
    zlen := Reg.zero
    png := ⟨Reg.zero, Reg.zero, Reg.zero, Reg.zero, Reg.zero, Reg.zero⟩
    bmp := ⟨Reg.zero, Reg.zero, Reg.zero, Reg.zero, Reg.zero, Reg.zero, Reg.zero⟩
    ico := ⟨Reg.zero, Reg.zero, Reg.zero, Reg.zero, Reg.zero, Reg.zero, Reg.zero, Reg.zero, Reg.zero⟩
    imem := []
    zmem := []
    pmem := []
    pal := []
    xmem := []
    engine := .idle
    cap := c
    script := []
    rdata := none
    fresh := 0 }

/-- The machine right after reset (log 1: of the largest instance). -/
def State.reset : State := State.resetWith Config.capacities

end Sys2Proof.Machine
end

