-- ==== Sys2Proof/Machine/Flags.lean ====
section
/-! DEFINITION. The flags of IMGDEC are ST and ERRCODE (10_state R27, R28): their codes, the completion of a command, and the
interrupt line they drive. -/

namespace Sys2Proof.Machine

/-- STATUS[1:0] (10_state R27). -/
def statusCode : Status → Word
  | .idle => 0#32
  | .busy => 1#32
  | .done => 2#32
  | .err => 3#32

/-- The code of an error kind (60_exceptions R322). -/
def errorCode : ErrorKind → Word
  | .invalidSignature => 1#32
  | .unsupportedFormat => 2#32
  | .truncatedData => 3#32
  | .outOfBounds => 4#32
  | .corruptData => 5#32

/-- ERRCODE as read: 0 if no error since reset or CLR (10_state R28). -/
def errcodeValue : Option ErrorKind → Word
  | none => 0#32
  | some e => errorCode e

/-- Normal completion: ST <- DONE, ERRCODE kept (60_exceptions R321); no hidden state survives (10_state R40). -/
def complete (s : State) : State := { s with st := .done, engine := .idle }

/-- The interrupt line (60_exceptions R330): irq = CTRL.IE and (ST = DONE or ST = ERR). -/
def irq (s : State) : Bool := s.ie && (s.st == .done || s.st == .err)

end Sys2Proof.Machine
end

