-- ==== Sys2Proof/Machine/Ops.lean ====
section
/-! DEFINITION. The named operations over memories and registers, and the error entry and return that every command shares. -/

namespace Sys2Proof.Machine

/-! ## Memories (20_memory R60, R66) -/

/-- The value a location holds, if any (20_memory R69). -/
def memRead {n : Nat} : Mem n → Nat → Option (BitVec n)
  | [], _ => none
  | (k, v) :: m, a => if k = a then some v else memRead m a

/-- Write one location, keeping the indices rising. -/
def memWrite {n : Nat} : Mem n → Nat → BitVec n → Mem n
  | [], a, v => [(a, v)]
  | (k, w) :: m, a, v =>
    if a < k then (a, v) :: (k, w) :: m
    else if a = k then (a, v) :: m
    else (k, w) :: memWrite m a v

/-- Write consecutive locations from `a` on. -/
def memWriteRun {n : Nat} (m : Mem n) (a : Nat) (vs : List (BitVec n)) : Mem n :=
  m.filter (fun e => decide (e.1 < a)) ++ ((vs.zipIdx a).map (fun p => (p.2, p.1)) ++
    m.filter (fun e => decide (a + vs.length ≤ e.1)))

/-- The canonical form of a memory: indices strictly rising (so no location is listed twice; an unlisted location holds no value,
so no listed one reads as an unlisted one does). -/
abbrev memWf {n : Nat} (m : Mem n) : Prop := m.Pairwise (fun x y => x.1 < y.1)

/-- Every listed location is one the memory has. -/
abbrev memWithin {n : Nat} (m : Mem n) (size : Nat) : Prop := ∀ e ∈ m, e.1 < size

/-! ## The primitives of 00_scope R7 -/

/-- `raise E` (00_scope R7). -/
def raise {α : Type} (e : ErrorKind) : Except Stop α := .error (.raised e)

/-- `need(p, n, lim)`: TruncatedData if `p + n > lim`, without wrap-around (00_scope R7). -/
def need (p n lim : Nat) : Except Stop Unit :=
  if p + n > lim then raise .truncatedData else .ok ()

/-- Read one location; one that holds no value is a fault of the model (20_memory R69). -/
def readCell {n : Nat} (sp : Space) (m : Mem n) (a : Nat) : Except Stop (BitVec n) :=
  match memRead m a with
  | some v => .ok v
  | none => .error (.faulted (.unwrittenRead sp a))

/-- `MemRead(S, a, n)`, little-endian (00_scope R7). -/
def readLE (sp : Space) (m : Mem 8) : Nat → Nat → Except Stop Nat
  | 0, _ => .ok 0
  | n + 1, a => do
    let b ← readCell sp m a
    let rest ← readLE sp m n (a + 1)
    .ok (b.toNat + 256 * rest)

/-- `MemReadBE(S, a, n)`, big-endian (00_scope R7). -/
def readBE (sp : Space) (m : Mem 8) : Nat → Nat → Except Stop Nat
  | 0, _ => .ok 0
  | n + 1, a => do
    let b ← readCell sp m a
    let rest ← readBE sp m n (a + 1)
    .ok (b.toNat * 256 ^ n + rest)

/-- The `n` bytes from `a` on, in order. -/
def readRun (sp : Space) (m : Mem 8) : Nat → Nat → Except Stop (List Byte)
  | 0, _ => .ok []
  | n + 1, a => do
    let b ← readCell sp m a
    let rest ← readRun sp m n (a + 1)
    .ok (b :: rest)

/-- `U16LE(a)`, `U32LE(a)`, `U32BE(a)` of 00_scope R7, over IMEM. -/
def u8 (s : State) (a : Nat) : Except Stop Byte := readCell .imem s.imem a
def u16le (s : State) (a : Nat) : Except Stop Nat := readLE .imem s.imem 2 a
def u32le (s : State) (a : Nat) : Except Stop Nat := readLE .imem s.imem 4 a
def u32be (s : State) (a : Nat) : Except Stop Nat := readBE .imem s.imem 4 a

/-- `sext_32` (00_scope R6). -/
def sext32 (v : Nat) : Int := (BitVec.ofNat 32 v).toInt

/-- `S32LE(a)` (00_scope R7). -/
def s32le (s : State) (a : Nat) : Except Stop Int := do
  let v ← u32le s a
  .ok (sext32 v)

/-- `for j in i .. i + n - 1`, in ascending order (00_scope R7). -/
def forLoop {σ : Type} (f : Nat → σ → Except Stop σ) : Nat → Nat → σ → Except Stop σ
  | 0, _, x => .ok x
  | n + 1, i, x => do
    let y ← f i x
    forLoop f n (i + 1) y

/-! ## Registers -/

/-- A register holding a number (`zext_32`; every value the rules store fits). -/
def regOf (v : Nat) : Reg := .val (BitVec.ofNat 32 v)

/-- The two's-complement pattern of a header field (42_bmp R194). -/
def regOfInt (v : Int) : Reg := .val (BitVec.ofInt 32 v)

/-- The value of a register; an unspecified one is a fault of the model (60_exceptions R325). -/
def regValue (r : RegName) : Reg → Except Stop Word
  | .val w => .ok w
  | .unspecified => .error (.faulted (.unspecifiedRead r))

/-- A register as the host reads it (10_state R37): CMD reads 0, bits the register lacks read 0. -/
def readReg (s : State) : RegName → Reg
  | .cmd => .val 0#32
  | .status => .val (statusCode s.st)
  | .errcode => .val (errcodeValue s.errcode)
  | .ctrl => .val (if s.ie then 1#32 else 0#32)
  | .ilen => .val s.ilen
  | .ipos => s.ipos
  | .arg0 => .val s.arg0
  | .arg1 => .val s.arg1
  | .arg2 => .val s.arg2
  | .res0 => .val s.res0
  | .res1 => .val s.res1
  | .bmW => s.bmW
  | .bmH => s.bmH
  | .bmD => s.bmD
  | .paln => s.paln
  | .zlen => s.zlen
  | .pngW => s.png.w
  | .pngH => s.png.h
  | .pngBd => s.png.bd
  | .pngCt => s.png.ct
  | .pngBpp => s.png.bpp
  | .pngRowb => s.png.rowb
  | .bmpHsize => s.bmp.hsize
  | .bmpW => s.bmp.w
  | .bmpH => s.bmp.h
  | .bmpBits => s.bmp.bits
  | .bmpComp => s.bmp.comp
  | .bmpOff => s.bmp.off
  | .bmpStride => s.bmp.stride
  | .icoCount => s.ico.count
  | .icoEW => s.ico.eW
  | .icoEH => s.ico.eH
  | .icoECc => s.ico.eCc
  | .icoEPlanes => s.ico.ePlanes
  | .icoEBits => s.ico.eBits
  | .icoESize => s.ico.eSize
  | .icoEOff => s.ico.eOff
  | .icoSel => s.ico.sel

/-- The number a register holds, for a command that reads it. -/
def regNat (s : State) (r : RegName) : Except Stop Nat := do
  let w ← regValue r (readReg s r)
  .ok w.toNat

/-- A length register clamps what the host stores (10_state R31, R32, R33). -/
def clamp (v : Word) (most : Nat) : Word := BitVec.ofNat 32 (min v.toNat most)

/-- A host write of a register other than CMD (10_state R37): the read-write registers store, CTRL only bit 0 (R29), the length registers
a clamped value; a write to a read-only register is ignored. -/
def writeReg (s : State) (r : RegName) (v : Word) : State :=
  match r with
  | .ctrl => { s with ie := v.getLsbD 0 }
  | .ilen => { s with ilen := clamp v s.cap.imemBytes }
  | .arg0 => { s with arg0 := v }
  | .arg1 => { s with arg1 := v }
  | .arg2 => { s with arg2 := v }
  | .paln => { s with paln := .val (clamp v 256) }
  | .zlen => { s with zlen := .val (clamp v s.cap.zmemBytes) }
  | _ => s

/-! ## Error entry and return (60_exceptions R324, R325, R328) -/

/-- The rows of the table of 60_exceptions R325: what a failed command leaves unspecified. -/
inductive Scope
  | nothing  -- an illegal command word, NEWBM, GETPX, SETPX, DES, PALMAP
  | decbmp
  | decpng
  | decico
  | inflate
  | unfilt
  deriving DecidableEq, Repr

/-- No value is left in the Bitmap (60_exceptions R325). -/
def loseBitmap (s : State) : State :=
  { s with bmW := .unspecified, bmH := .unspecified, bmD := .unspecified, pmem := [] }

/-- No value is left in PAL, PALN and the BMP_* registers. -/
def loseBmp (s : State) : State :=
  { s with
    pal := [], paln := .unspecified
    bmp := ⟨.unspecified, .unspecified, .unspecified, .unspecified, .unspecified, .unspecified, .unspecified⟩ }

/-- No value is left in ZMEM, ZLEN. -/
def loseZmem (s : State) : State := { s with zmem := [], zlen := .unspecified }

/-- No value is left in the PNG_* registers. -/
def losePng (s : State) : State :=
  { s with png := ⟨.unspecified, .unspecified, .unspecified, .unspecified, .unspecified, .unspecified⟩ }

/-- No value is left in the ICO_* registers. -/
def loseIco (s : State) : State :=
  { s with
    ico := ⟨.unspecified, .unspecified, .unspecified, .unspecified, .unspecified, .unspecified, .unspecified,
      .unspecified, .unspecified⟩ }

/-- No value is left in IPOS. -/
def loseIpos (s : State) : State := { s with ipos := .unspecified }

/-- The table of 60_exceptions R325. -/
def clobber : Scope → State → State
  | .nothing, s => s
  | .decbmp, s => loseIpos (loseBmp (loseBitmap s))
  | .decpng, s => loseIpos (losePng (loseZmem (loseBitmap s)))
  | .decico, s => loseIco (loseIpos (losePng (loseZmem (loseBmp (loseBitmap s)))))
  | .inflate, s => loseIpos (loseZmem s)
  | .unfilt, s => { s with zmem := [] }

/-- TAKING AN ERROR (60_exceptions R324): ERRCODE <- code(E), ST <- ERR, the command ends; the locations of R325 hold no value. Nothing
else is saved and control goes nowhere. -/
def takeError (k : Scope) (e : ErrorKind) (s : State) : State :=
  { clobber k s with errcode := some e, st := .err, engine := .idle }

/-- RETURN FROM ERROR (60_exceptions R328): ERRCODE <- 0, ST <- IDLE; nothing is restored. -/
def returnFromError (s : State) : State := { s with errcode := none, st := .idle }

/-- The end of a (part of a) command begun in `s`: its new state, or the error taken, or the fault. -/
def settle (k : Scope) (s : State) : Except Stop State → Host.Outcome State Fault Refusal
  | .ok t => .next t
  | .error (.raised e) => .next (takeError k e s)
  | .error (.faulted f) => .fault f

end Sys2Proof.Machine
end

