-- ==== Sys2Proof/Machine/Operands.lean ====
section
/-! DEFINITION. Operand forms: the DEPTH field and its byte counts, Colors in words, and the two conversions of the depth unit. -/

namespace Sys2Proof.Machine

/-- PixelFormat (30_encoding R94). -/
inductive Depth
  | d1 | d8 | d16 | d24 | d32
  deriving DecidableEq, Repr

/-- The PixelFormat a DEPTH field encodes as its bits-per-pixel number (30_encoding R94). -/
def depthOfField (f : BitVec 8) : Option Depth :=
  if f = 1#8 then some .d1
  else if f = 8#8 then some .d8
  else if f = 16#8 then some .d16
  else if f = 24#8 then some .d24
  else if f = 32#8 then some .d32
  else none

/-- The DEPTH operand of a command: any other value raises UnsupportedFormat (30_encoding R94, 41_depth_converter R165). -/
def depthOperand (f : BitVec 8) : Except Stop Depth :=
  match depthOfField f with
  | some d => .ok d
  | none => raise .unsupportedFormat

/-- `nbytes(d)` (30_encoding R95). -/
def nbytes : Depth → Nat
  | .d1 => 1
  | .d8 => 1
  | .d16 => 2
  | .d24 => 3
  | .d32 => 4

/-- BM_D holds the number that encodes the depth (30_encoding R94). -/
def depthReg (f : BitVec 8) : Reg := .val (f.setWidth 32)

/-- A Color (00_scope R6). -/
structure Color where
  r : Byte
  g : Byte
  b : Byte
  a : Byte
  deriving DecidableEq, Repr

/-- A Color in a word: R in bits 7:0, then G, B, A (10_state R24). -/
def packColor (c : Color) : Word := c.a ++ c.b ++ c.g ++ c.r

/-- The Color in a word (10_state R24). -/
def unpackColor (w : Word) : Color :=
  ⟨w.extractLsb' 0 8, w.extractLsb' 8 8, w.extractLsb' 16 8, w.extractLsb' 24 8⟩

/-- `des(buf, o, d)` on the bytes from `buf[o]` on (41_depth_converter R160 to R164). -/
def des (d : Depth) (buf : List Byte) : Color :=
  match d with
  | .d1 => ⟨if 0#8 < buf.getD 0 0#8 then 255#8 else 0#8, 0#8, 0#8, 0#8⟩
  | .d8 => ⟨buf.getD 0 0#8, buf.getD 0 0#8, buf.getD 0 0#8, 255#8⟩
  | .d16 => ⟨buf.getD 0 0#8, buf.getD 1 0#8, 0#8, 255#8⟩
  | .d24 => ⟨buf.getD 0 0#8, buf.getD 1 0#8, buf.getD 2 0#8, 255#8⟩
  | .d32 => ⟨buf.getD 0 0#8, buf.getD 1 0#8, buf.getD 2 0#8, buf.getD 3 0#8⟩

/-- `ser(c, d)` (41_depth_converter R166). -/
def ser (d : Depth) (c : Color) : List Byte :=
  match d with
  | .d1 => [if 127#8 < c.r then 1#8 else 0#8]
  | .d8 => [c.r]
  | .d16 => [c.r, c.g]
  | .d24 => [c.r, c.g, c.b]
  | .d32 => [c.r, c.g, c.b, c.a]

/-- Bytes packed little-endian, unused high bytes 0 (41_depth_converter R168). -/
def packBytes : List Byte → Nat
  | [] => 0
  | b :: bs => b.toNat + 256 * packBytes bs

/-- CONV.d on one pixel: `des(ser(c, d), 0, d)` (41_depth_converter R169). -/
def convColor (d : Depth) (c : Color) : Color := des d (ser d c)

end Sys2Proof.Machine
end

