-- ==== Sys2Proof/Machine/Filter.lean ====
section
/-! DEFINITION. Scanline-filter reconstruction in ZMEM (44_png R260 to R268). -/

namespace Sys2Proof.Machine

/-- `paeth(a, b, c)` (44_png R267): signed arithmetic, ties to `a`, then `b`. -/
def paeth (a b c : Byte) : Byte :=
  let p : Int := (a.toNat : Int) + b.toNat - c.toNat
  let pa := (p - a.toNat).natAbs
  let pb := (p - b.toNat).natAbs
  let pc := (p - c.toNat).natAbs
  if pa ≤ pb ∧ pa ≤ pc then a else if pb ≤ pc then b else c

/-- The predictors of 44_png R263 to R267, from left, above and above-left. -/
def predNone (_ _ _ : Byte) : Byte := 0#8
def predSub (a _ _ : Byte) : Byte := a
def predUp (_ b _ : Byte) : Byte := b
def predAverage (a b _ : Byte) : Byte := BitVec.ofNat 8 ((a.toNat + b.toNat) / 2)
def predPaeth (a b c : Byte) : Byte := paeth a b c

/-- A neighbour of the byte being reconstructed: 0 where the row or the column does not exist (44_png R262). -/
def neighbour (m : Mem 8) (there : Bool) (a : Nat) : Except Stop Byte :=
  if there then readCell .zmem m a else .ok 0#8

/-- Byte `i` of scanline `r` (44_png R262): reconstructed in place, modulo 256, from neighbours already reconstructed. -/
def unfilterByte (pred : Byte → Byte → Byte → Byte) (rowbytes bpp r i : Nat) (m : Mem 8) : Except Stop (Mem 8) := do
  let at_ := r * (rowbytes + 1) + 1 + i
  let up := (r - 1) * (rowbytes + 1) + 1 + i
  let x ← readCell .zmem m at_
  let a ← neighbour m (decide (bpp ≤ i)) (at_ - bpp)
  let b ← neighbour m (decide (1 ≤ r)) up
  let c ← neighbour m (decide (1 ≤ r) && decide (bpp ≤ i)) (up - bpp)
  .ok (memWrite m at_ (x + pred a b c))

/-- One scanline, left to right (44_png R262). -/
def unfilterRow (pred : Byte → Byte → Byte → Byte) (rowbytes bpp r : Nat) (m : Mem 8) : Except Stop (Mem 8) :=
  forLoop (unfilterByte pred rowbytes bpp r) rowbytes 0 m

end Sys2Proof.Machine
end

