-- ==== Sys2Proof/Machine/Unpack.lean ====
section
/-! DEFINITION. PNG geometry and sample unpack (44_png R256, R258, R270, R271). -/

namespace Sys2Proof.Machine

/-- Samples per pixel (44_png R256); only for the accepted color types. -/
def samplesPerPixel (ct : Nat) : Nat :=
  if ct = 2 then 3 else if ct = 4 then 2 else if ct = 6 then 4 else 1

/-- `bpp`, bytes per pixel of the filter unit (44_png R256). -/
def bytesPerPixel (h : Ihdr) : Nat := samplesPerPixel h.ct * ((h.bd + 7) / 8)

/-- `rowbytes`, data bytes per scanline (44_png R256). -/
def rowBytes (h : Ihdr) : Nat := (h.w * samplesPerPixel h.ct * h.bd + 7) / 8

/-- A sub-byte sample: `bd` bits of the byte from bit offset `o mod 8` on, most significant first, scaled to 8 bits (44_png R270). -/
def subByteSample (bd o : Nat) (b : Byte) : Byte :=
  BitVec.ofNat 8 (((b.toNat >>> (8 - bd - o % 8)) % 2 ^ bd) * 255 / (2 ^ bd - 1))

/-- `sample(y, i)` scaled to 8 bits (44_png R270); of a 16-bit sample the first, high byte. -/
def sample (zmem : Mem 8) (h : Ihdr) (y i : Nat) : Except Stop Byte :=
  let rb := y * (rowBytes h + 1) + 1
  if h.bd = 8 then readCell .zmem zmem (rb + i)
  else if h.bd = 16 then readCell .zmem zmem (rb + 2 * i)
  else do
    let b ← readCell .zmem zmem (rb + i * h.bd / 8)
    .ok (subByteSample h.bd (i * h.bd) b)

/-- `color(y, x)` (44_png R271). -/
def sampleColor (zmem : Mem 8) (h : Ihdr) (y x : Nat) : Except Stop Color :=
  if h.ct = 2 then do
    let r ← sample zmem h y (3 * x)
    let g ← sample zmem h y (3 * x + 1)
    let b ← sample zmem h y (3 * x + 2)
    .ok ⟨r, g, b, 255#8⟩
  else if h.ct = 4 then do
    let g ← sample zmem h y (2 * x)
    let a ← sample zmem h y (2 * x + 1)
    .ok ⟨g, g, g, a⟩
  else if h.ct = 6 then do
    let r ← sample zmem h y (4 * x)
    let g ← sample zmem h y (4 * x + 1)
    let b ← sample zmem h y (4 * x + 2)
    let a ← sample zmem h y (4 * x + 3)
    .ok ⟨r, g, b, a⟩
  else do
    let g ← sample zmem h y x
    .ok ⟨g, g, g, 255#8⟩

/-- One pixel of `unpack_samples` (44_png R271). -/
def unpackPixel (zmem : Mem 8) (h : Ihdr) (y x : Nat) (pmem : Mem 32) : Except Stop (Mem 32) := do
  let c ← sampleColor zmem h y x
  .ok (memWrite pmem (y * h.w + x) (packColor c))

/-- `unpack_samples` (44_png R271): rows top-down. -/
def unpackSamples (zmem : Mem 8) (h : Ihdr) (pmem : Mem 32) : Except Stop (Mem 32) :=
  forLoop (fun y m => forLoop (unpackPixel zmem h y) h.w 0 m) h.h 0 pmem

/-- The last stages of `pngdec`: sample unpack and write-back (44_png R251, R258). -/
def pngFinish (s : State) (p : PngImage) : Except Stop State := do
  let pmem ← unpackSamples s.zmem p.hdr s.pmem
  .ok (complete { s with
    pmem := pmem
    bmW := regOf p.hdr.w, bmH := regOf p.hdr.h, bmD := depthReg p.depth
    ipos := regOf p.pos })

end Sys2Proof.Machine
end

