-- ==== Sys2Proof/Machine/Rows.lean ====
section
/-! DEFINITION. The filter bytes: the meaning of each of the five, one scanline at a time (44_png R260 to R267). -/

namespace Sys2Proof.Machine

/-- Which command a PNG decode belongs to, for the table of 60_exceptions R325. -/
def pngScope (ico : Bool) : Scope := if ico then .decico else .decpng
def bmpScope (ico : Bool) : Scope := if ico then .decico else .decbmp

/-- The row of 60_exceptions R325 of the command in flight. -/
def engineScope : Engine → Scope
  | .idle => .nothing
  | .payload _ => .decico
  | .header c => bmpScope c.ico
  | .pixels c => bmpScope c.ctx.ico
  | .chunks c => pngScope c.ico
  | .blocks c =>
    match c.png with
    | none => .inflate
    | some p => pngScope p.ico
  | .rows c =>
    match c.png with
    | none => .unfilt
    | some p => pngScope p.ico

/-- Before scanline `c.row`: more rows to do, or the end of the unfilter stage (44_png R251, R260, R262). -/
def enterRows (s : State) (c : RowCtx) : Except Stop State :=
  if c.row < c.rows then .ok { s with st := .busy, engine := .rows c }
  else
    match c.png with
    | none => .ok (complete s)
    | some p => pngFinish s p

/-- One scanline with the given predictor, then the next (44_png R262). -/
def filterStep (pred : Byte → Byte → Byte → Byte) (s : State) : Host.Outcome State Fault Refusal :=
  match s.engine with
  | .rows c =>
    settle (engineScope s.engine) s (do
      let zmem ← unfilterRow pred c.rowbytes c.bpp c.row s.zmem
      enterRows { s with zmem := zmem } { c with row := c.row + 1 })
  | _ => .refused .outsideItsPhase

/-- Filter 0, None (44_png R263). -/
def execPngFilterNone (s : State) : Host.Outcome State Fault Refusal := filterStep predNone s

/-- Filter 1, Sub (44_png R264). -/
def execPngFilterSub (s : State) : Host.Outcome State Fault Refusal := filterStep predSub s

/-- Filter 2, Up (44_png R265). -/
def execPngFilterUp (s : State) : Host.Outcome State Fault Refusal := filterStep predUp s

/-- Filter 3, Average (44_png R266). -/
def execPngFilterAverage (s : State) : Host.Outcome State Fault Refusal := filterStep predAverage s

/-- Filter 4, Paeth (44_png R267). -/
def execPngFilterPaeth (s : State) : Host.Outcome State Fault Refusal := filterStep predPaeth s

/-- The checks of UNFILT and its entry into the scanlines (44_png R260). -/
def unfiltStart (s : State) : Except Stop State := do
  let rowbytes := s.arg0.toNat
  let rows := s.arg1.toNat
  let bpp := s.arg2.toNat
  if bpp < 1 ∨ bpp > 8 then raise .unsupportedFormat
  else
    let zlen ← regNat s .zlen
    if rows * (rowbytes + 1) > zlen then raise .truncatedData
    else enterRows s ⟨rowbytes, rows, bpp, 0, none⟩

end Sys2Proof.Machine
end

