-- ==== Sys2Proof/Machine/Bmp.lean ====
section
/-! DEFINITION. The BMP raster unpacker and index-to-color mapper (42_bmp.md), shared with the embedded BMP of an ICO (46_ico R306
to R309): the meaning of each info-header size and of each bitCount. -/

namespace Sys2Proof.Machine

/-- `check_signature()`, the pixel-data offset, and the entry into the info header (42_bmp R181, R182). -/
def bmpStart (depth : BitVec 8) (s : State) : Except Stop State := do
  let lim := s.ilen.toNat
  need 0 2 lim
  let b0 ← u8 s 0
  let b1 ← u8 s 1
  if b0 ≠ 0x42#8 ∨ b1 ≠ 0x4D#8 then raise .invalidSignature
  else
    need 0 14 lim
    let off ← u32le s 10
    .ok { s with st := .busy, engine := .header ⟨false, depth, 14, lim, off⟩ }

/-! ## Info headers (42_bmp R182, R183; 46_ico R306) -/

/-- The core header (30_encoding R112): unsigned 16-bit width and height, no compression and palette-size fields. An ICO payload
may not have one (46_ico R306). -/
def coreHeader (s : State) (c : BmpCtx) : Except Stop State := do
  if c.ico then raise .unsupportedFormat
  else
    need c.h0 12 c.lim
    let w ← u16le s (c.h0 + 4)
    let h ← u16le s (c.h0 + 6)
    let _ ← u16le s (c.h0 + 10)
    .ok { s with engine := .pixels ⟨c, 12, true, w, h, 0⟩ }

/-- A modern header of `hs` bytes (30_encoding R113): the bytes from 40 on are skipped but must exist; compression is judged before
bitCount (42_bmp R183). -/
def modernHeader (hs : Nat) (s : State) (c : BmpCtx) : Except Stop State := do
  need c.h0 hs c.lim
  let w ← s32le s (c.h0 + 4)
  let h ← s32le s (c.h0 + 8)
  let _ ← u16le s (c.h0 + 14)
  let comp ← u32le s (c.h0 + 16)
  let clrUsed ← u32le s (c.h0 + 32)
  if comp ≠ 0 then raise .unsupportedFormat
  else .ok { s with engine := .pixels ⟨c, hs, false, w, h, clrUsed⟩ }

/-- A header opcode in the header phase. -/
def headerStep (parse : State → BmpCtx → Except Stop State) (s : State) : Host.Outcome State Fault Refusal :=
  match s.engine with
  | .header c => settle (engineScope s.engine) s (parse s c)
  | _ => .refused .outsideItsPhase

/-- Header size 12 (30_encoding R112). -/
def execBmpHeaderCore (s : State) : Host.Outcome State Fault Refusal := headerStep coreHeader s

/-- Header size 40 (30_encoding R113). -/
def execBmpHeader40 (s : State) : Host.Outcome State Fault Refusal := headerStep (modernHeader 40) s

/-- Header size 52 (30_encoding R113). -/
def execBmpHeader52 (s : State) : Host.Outcome State Fault Refusal := headerStep (modernHeader 52) s

/-- Header size 56 (30_encoding R113). -/
def execBmpHeader56 (s : State) : Host.Outcome State Fault Refusal := headerStep (modernHeader 56) s

/-- Header size 108 (30_encoding R113). -/
def execBmpHeader108 (s : State) : Host.Outcome State Fault Refusal := headerStep (modernHeader 108) s

/-- Header size 124 (30_encoding R113). -/
def execBmpHeader124 (s : State) : Host.Outcome State Fault Refusal := headerStep (modernHeader 124) s

/-! ## Pixels (42_bmp R183 to R189, R194; 46_ico R306 to R309) -/

/-- Where bitCount stands in the input (30_encoding R112, R113). -/
def bitCountAddr (c : BmpHeader) : Nat := c.ctx.h0 + if c.core then 10 else 14

/-- The size checks: width, height and row order (42_bmp R183, R184; 46_ico R306, where the height field is doubled and top-down
is rejected). -/
def bmpSize (cap : Capacities) (c : BmpHeader) : Except Stop (Nat × Nat × Bool) :=
  if c.ctx.ico then
    if c.w ≤ 0 ∨ c.h ≤ 0 then raise .unsupportedFormat
    else if c.h.toNat / 2 = 0 ∨ c.w.toNat * (c.h.toNat / 2) > cap.pmemPixels then raise .unsupportedFormat
    else .ok (c.w.toNat, c.h.toNat / 2, false)
  else if c.w ≤ 0 ∨ c.h = 0 then raise .unsupportedFormat
  else if c.w.toNat * c.h.natAbs > cap.pmemPixels then raise .unsupportedFormat
  else .ok (c.w.toNat, c.h.natAbs, decide (c.h < 0))

/-- One color-table entry: B, G, R, and in 4-byte entries a reserved byte; A = 255 (42_bmp R185). -/
def tableEntry (s : State) (pos es i : Nat) (pal : Mem 32) : Except Stop (Mem 32) := do
  let b ← u8 s (pos + es * i)
  let g ← u8 s (pos + es * i + 1)
  let r ← u8 s (pos + es * i + 2)
  .ok (memWrite pal i (packColor ⟨r, g, b, 255#8⟩))

/-- The number of color-table entries (42_bmp R185). -/
def tableEntries (bits clrUsed : Nat) : Nat := if clrUsed ≠ 0 then clrUsed else 2 ^ bits

/-- `load_color_table(pos, lim, bits, clrUsed, es)` (42_bmp R185): the state with PAL and PALN written, the number of entries and the
address after the table. -/
def loadColorTable (s : State) (pos lim bits clrUsed es : Nat) : Except Stop (State × Nat × Nat) := do
  let n := tableEntries bits clrUsed
  if n > 256 then raise .unsupportedFormat
  else
    need pos (n * es) lim
    let pal ← forLoop (tableEntry s pos es) n 0 s.pal
    .ok ({ s with pal := pal, paln := regOf n }, n, pos + n * es)

/-- The color table where the pixels are indexed, nothing where they are direct (42_bmp R180, R185; 46_ico R307). -/
def pixelTable (bits : Nat) (s : State) (c : BmpHeader) : Except Stop (State × Nat × Nat) :=
  if bits ≤ 8 then loadColorTable s (c.ctx.h0 + c.hs) c.ctx.lim bits c.clrUsed (if c.core then 3 else 4)
  else .ok (s, 0, c.ctx.h0 + c.hs)

/-- Row stride (42_bmp R187). -/
def bmpStride (bits w : Nat) : Nat := (bits * w + 31) / 32 * 4

/-- The index-to-color map (42_bmp R188): an index that is not below PALN is CorruptData. -/
def indexColor (s : State) (n idx : Nat) : Except Stop Word :=
  if idx ≥ n then raise .corruptData else readCell .pal s.pal idx

/-- `unpack16(v)` (42_bmp R189): 5-6-5, green from the top 5 of its 6 bits, scaled by `k * 255 div 31`. -/
def unpack16 (v : Nat) : Color :=
  let scale (k : Nat) : Byte := BitVec.ofNat 8 (k * 255 / 31)
  ⟨scale (v / 2 ^ 11 % 32), scale (v / 2 ^ 6 % 32), scale (v % 32), 255#8⟩

/-- Pixel `x` of the row at `rb`, per bitCount (42_bmp R188); `n` is PALN. -/
def pixel1 (s : State) (n rb x : Nat) : Except Stop Word := do
  let b ← u8 s (rb + x / 8)
  indexColor s n ((b.toNat >>> (7 - x % 8)) % 2)

def pixel4 (s : State) (n rb x : Nat) : Except Stop Word := do
  let b ← u8 s (rb + x / 2)
  indexColor s n (if x % 2 = 0 then b.toNat / 16 else b.toNat % 16)

def pixel8 (s : State) (n rb x : Nat) : Except Stop Word := do
  let b ← u8 s (rb + x)
  indexColor s n b.toNat

def pixel16 (s : State) (_ rb x : Nat) : Except Stop Word := do
  let v ← u16le s (rb + 2 * x)
  .ok (packColor (unpack16 v))

def pixel24 (s : State) (_ rb x : Nat) : Except Stop Word := do
  let b ← u8 s (rb + 3 * x)
  let g ← u8 s (rb + 3 * x + 1)
  let r ← u8 s (rb + 3 * x + 2)
  .ok (packColor ⟨r, g, b, 255#8⟩)

def pixel32 (s : State) (_ rb x : Nat) : Except Stop Word := do
  let b ← u8 s (rb + 4 * x)
  let g ← u8 s (rb + 4 * x + 1)
  let r ← u8 s (rb + 4 * x + 2)
  let a ← u8 s (rb + 4 * x + 3)
  .ok (packColor ⟨r, g, b, a⟩)

/-- The image row of stored row `r` (42_bmp R184). -/
def imageRow (topdown : Bool) (h r : Nat) : Nat := if topdown then r else h - 1 - r

/-- The loops of `unpack_rows` (42_bmp R188): `pix rb x` is the Color of pixel `x` of the row at `rb`. -/
def unpackRows (pix : Nat → Nat → Except Stop Word) (pos stride w h : Nat) (topdown : Bool) (pmem : Mem 32) :
    Except Stop (Mem 32) :=
  forLoop (fun r m => forLoop (fun x m' => do
    let c ← pix (pos + r * stride) x
    .ok (memWrite m' (imageRow topdown h r * w + x) c)) w 0 m) h 0 pmem

/-- One pixel of the AND mask merge (46_ico R308): mask bit 1 forces alpha 0, mask bit 0 forces alpha 255. -/
def maskPixel (s : State) (mrow y w x : Nat) (pmem : Mem 32) : Except Stop (Mem 32) := do
  let b ← u8 s (mrow + x / 8)
  let c ← readCell .pmem pmem (y * w + x)
  let alpha : Byte := if (b.toNat >>> (7 - x % 8)) % 2 = 1 then 0#8 else 255#8
  .ok (memWrite pmem (y * w + x) (packColor { unpackColor c with a := alpha }))

/-- The AND mask merge, bottom-up like the XOR rows (46_ico R308). -/
def mergeMask (s : State) (pos w h : Nat) (pmem : Mem 32) : Except Stop (Mem 32) :=
  forLoop (fun r m => forLoop (maskPixel s (pos + r * bmpStride 1 w) (h - 1 - r) w) w 0 m) h 0 pmem

/-- The end of a BMP file's pixels: write-back (42_bmp R194). The end of an ICO's: the mask, then write-back (46_ico R308, R309). -/
def bmpFinish (s : State) (c : BmpHeader) (bits w h stride pos : Nat) (pmem : Mem 32) : Except Stop State :=
  let t : State := { s with
    bmW := regOf w, bmH := regOf h, bmD := depthReg c.ctx.depth
    bmp := ⟨regOf c.hs, regOfInt c.w, regOfInt c.h, regOf bits, regOf 0, regOf c.ctx.off, regOf stride⟩ }
  if c.ctx.ico then do
    need pos (bmpStride 1 w * h) c.ctx.lim
    let pmem' ← mergeMask s pos w h pmem
    .ok (complete { t with pmem := pmem', ipos := regOf (pos + bmpStride 1 w * h) })
  else .ok (complete { t with pmem := pmem, ipos := regOf pos })

/-- Where the pixel rows begin (42_bmp R186: the cursor jumps to the pixel-data offset; 46_ico R307: directly after the table). -/
def pixelStart (c : BmpHeader) (pos : Nat) : Except Stop Nat :=
  if c.ctx.ico then .ok pos
  else if c.ctx.off < pos then raise .corruptData
  else .ok c.ctx.off

/-- From the size checks to the end of the command (42_bmp R180; 46_ico R306 to R309). -/
def decodePixels (bits : Nat) (pix : State → Nat → Nat → Nat → Except Stop Word) (s : State) (c : BmpHeader) :
    Except Stop State := do
  let (w, h, topdown) ← bmpSize s.cap c
  let (t, n, afterTable) ← pixelTable bits s c
  let pos ← pixelStart c afterTable
  let stride := bmpStride bits w
  need pos (stride * h) c.ctx.lim
  let pmem ← unpackRows (pix t n) pos stride w h topdown t.pmem
  bmpFinish t c bits w h stride (pos + stride * h) pmem

/-- A bitCount opcode in the pixel phase. -/
def pixelStep (decodeAll : State → BmpHeader → Except Stop State) (s : State) : Host.Outcome State Fault Refusal :=
  match s.engine with
  | .pixels c => settle (engineScope s.engine) s (decodeAll s c)
  | _ => .refused .outsideItsPhase

/-- bitCount 1: indexed (42_bmp R188). -/
def execBmpBits1 (s : State) : Host.Outcome State Fault Refusal := pixelStep (decodePixels 1 pixel1) s

/-- bitCount 4: indexed (42_bmp R188). -/
def execBmpBits4 (s : State) : Host.Outcome State Fault Refusal := pixelStep (decodePixels 4 pixel4) s

/-- bitCount 8: indexed (42_bmp R188). -/
def execBmpBits8 (s : State) : Host.Outcome State Fault Refusal := pixelStep (decodePixels 8 pixel8) s

/-- bitCount 16 (42_bmp R189); not accepted inside an ICO (30_encoding R115, 46_ico R306). -/
def execBmpBits16 (s : State) : Host.Outcome State Fault Refusal :=
  pixelStep (fun t c => if c.ctx.ico then raise .unsupportedFormat else decodePixels 16 pixel16 t c) s

/-- bitCount 24: B, G, R (42_bmp R188). -/
def execBmpBits24 (s : State) : Host.Outcome State Fault Refusal := pixelStep (decodePixels 24 pixel24) s

/-- bitCount 32: B, G, R, A (42_bmp R188). -/
def execBmpBits32 (s : State) : Host.Outcome State Fault Refusal := pixelStep (decodePixels 32 pixel32) s

end Sys2Proof.Machine
end

