-- ==== Sys2Proof/Machine/Inflate.lean ====
section
/-! DEFINITION. The DEFLATE decompressor: bit reader, Huffman codes, blocks (43_inflate.md). -/

namespace Sys2Proof.Machine

/-! ## The input sequence and the bit reader -/

/-- `|S|` (43_inflate R227). -/
def srcLen : Source → Nat
  | .imem n => n
  | .bytes l => l.length

/-- `S[i]`; only for `i < |S|` (log 12: a byte of IMEM is read when the decompressor reads it). -/
def srcByte (imem : Mem 8) (src : Source) (i : Nat) : Except Stop Byte :=
  match src with
  | .imem _ => readCell .imem imem i
  | .bytes l => .ok (l.getD i 0#8)

/-- One bit of `S` (43_inflate R212). -/
def getBit (imem : Mem 8) (src : Source) (bp : Nat) : Except Stop Nat :=
  if bp / 8 ≥ srcLen src then raise .truncatedData
  else do
    let b ← srcByte imem src (bp / 8)
    .ok ((b.toNat >>> (bp % 8)) % 2)

/-- `getbits(n)`: the value, first bit read least significant, and the new bit position (43_inflate R212). -/
def getBits (imem : Mem 8) (src : Source) : Nat → Nat → Except Stop (Nat × Nat)
  | 0, bp => .ok (0, bp)
  | n + 1, bp => do
    let b ← getBit imem src bp
    let (v, bp') ← getBits imem src n (bp + 1)
    .ok (b + 2 * v, bp')

/-! ## Huffman codes (43_inflate R219, R220) -/

/-- The table kinds of 43_inflate R220. -/
inductive TableKind
  | codes | lens | dists
  deriving DecidableEq, Repr

/-- A canonical code: for the lengths 1, 2, …, 15 in order, the first code value of that length and the symbols of that length in
increasing order, which have consecutive code values (43_inflate R219). -/
abbrev Code := List (Nat × List Nat)

/-- `count[l]`, with `count[0] = 0` (43_inflate R219). -/
def countLen (lens : List Nat) (l : Nat) : Nat := if l = 0 then 0 else lens.count l

/-- `next[l]`, the first code value of length `l` (43_inflate R219). -/
def firstCode (lens : List Nat) : Nat → Nat
  | 0 => 0
  | l + 1 => (firstCode lens l + countLen lens l) * 2

/-- The symbols of length `l`, in increasing order. -/
def symbolsOf (lens : List Nat) (l : Nat) : List Nat :=
  (lens.zipIdx.filter (fun p => p.1 == l)).map (fun p => p.2)

/-- The `left` of 43_inflate R220 after the lengths `l .. l + n - 1`; over-subscribed codes are CorruptData. -/
def leftOver (lens : List Nat) : Nat → Nat → Nat → Except Stop Nat
  | 0, _, left => .ok left
  | n + 1, l, left =>
    if left * 2 < countLen lens l then raise .corruptData
    else leftOver lens n (l + 1) (left * 2 - countLen lens l)

/-- `validate(count, kind)` (43_inflate R220). -/
def validateCode (lens : List Nat) (kind : TableKind) : Except Stop Unit :=
  if lens.all (fun l => l == 0) then .ok ()
  else do
    let left ← leftOver lens 15 1 1
    if left > 0 ∧ (kind = .codes ∨ lens.foldl max 0 ≠ 1) then raise .corruptData else .ok ()

/-- `build_code(L, kind)` (43_inflate R219). -/
def buildCode (lens : List Nat) (kind : TableKind) : Except Stop Code := do
  validateCode lens kind
  .ok ((List.range 15).map (fun k => (firstCode lens (k + 1), symbolsOf lens (k + 1))))

/-- The symbol with length `l` (1 to 15) and code value `v`, if any. -/
def lookupCode (t : Code) (l v : Nat) : Option Nat :=
  match t[l - 1]? with
  | some (first, syms) => if first ≤ v then syms[v - first]? else none
  | none => none

/-- `decode_sym(C)` from length `l + 1` on, with `n` lengths left to try (43_inflate R219): the symbol and the new bit position. -/
def decodeSymFrom (imem : Mem 8) (src : Source) (c : Code) : Nat → Nat → Nat → Nat → Except Stop (Nat × Nat)
  | 0, _, _, _ => raise .corruptData
  | n + 1, l, code, bp => do
    let b ← getBit imem src bp
    match lookupCode c (l + 1) (code * 2 + b) with
    | some s => .ok (s, bp + 1)
    | none => decodeSymFrom imem src c n (l + 1) (code * 2 + b) (bp + 1)

/-- `decode_sym(C)` (43_inflate R219). -/
def decodeSym (imem : Mem 8) (src : Source) (c : Code) (bp : Nat) : Except Stop (Nat × Nat) :=
  decodeSymFrom imem src c 15 0 0 bp

/-! ## Output (43_inflate R224, R225, R227). The output is held newest byte first. -/

/-- `put(b)`: UnsupportedFormat beyond ZMEM_BYTES. -/
def putByte (cap : Nat) (rout : List Byte) (b : Byte) : Except Stop (List Byte) :=
  if cap ≤ rout.length then raise .unsupportedFormat else .ok (b :: rout)

/-- `put` of a sequence of bytes, in order. -/
def putBytes (cap : Nat) : List Byte → List Byte → Except Stop (List Byte)
  | [], rout => .ok rout
  | b :: bs, rout => do
    let rout' ← putByte cap rout b
    putBytes cap bs rout'

/-- The loop of `copy(len, d)`: one byte at a time from `d` bytes before the end. -/
def copyLoop (cap d : Nat) : Nat → List Byte → Except Stop (List Byte)
  | 0, rout => .ok rout
  | n + 1, rout => do
    let rout' ← putByte cap rout (rout.getD (d - 1) 0#8)
    copyLoop cap d n rout'

/-- `copy(len, d)` (43_inflate R224). -/
def copyBack (cap len d : Nat) (rout : List Byte) : Except Stop (List Byte) :=
  if d > rout.length then raise .corruptData else copyLoop cap d len rout

/-! ## Compressed data (43_inflate R221 to R223) -/

/-- LBASE and LEXT for the symbols 257 to 285 (43_inflate R222). -/
def lengthTable : List (Nat × Nat) :=
  [(3, 0), (4, 0), (5, 0), (6, 0), (7, 0), (8, 0), (9, 0), (10, 0), (11, 1), (13, 1), (15, 1), (17, 1), (19, 2), (23, 2),
   (27, 2), (31, 2), (35, 3), (43, 3), (51, 3), (59, 3), (67, 4), (83, 4), (99, 4), (115, 4), (131, 5), (163, 5), (195, 5),
   (227, 5), (258, 0)]

/-- DBASE and DEXT for the symbols 0 to 29 (43_inflate R223). -/
def distanceTable : List (Nat × Nat) :=
  [(1, 0), (2, 0), (3, 0), (4, 0), (5, 1), (7, 1), (9, 2), (13, 2), (17, 3), (25, 3), (33, 4), (49, 4), (65, 5), (97, 5),
   (129, 6), (193, 6), (257, 7), (385, 7), (513, 8), (769, 8), (1025, 9), (1537, 9), (2049, 10), (3073, 10), (4097, 11),
   (6145, 11), (8193, 12), (12289, 12), (16385, 13), (24577, 13)]

/-- A base plus its extra bits; CorruptData where the table ends. -/
def baseAndExtra (imem : Mem 8) (src : Source) (table : List (Nat × Nat)) (k bp : Nat) : Except Stop (Nat × Nat) :=
  match table[k]? with
  | some (base, ext) => do
    let (x, bp') ← getBits imem src ext bp
    .ok (base + x, bp')
  | none => raise .corruptData

/-- `compressed_block(lit, dist)` (43_inflate R221): every symbol consumes a bit of `S`, so the symbols left are at most the bits
left, and where none is left the next read is past the end of `S`. -/
def compressedBlock (imem : Mem 8) (src : Source) (cap : Nat) (lit dist : Code) :
    Nat → Nat → List Byte → Except Stop (Nat × List Byte)
  | 0, _, _ => raise .truncatedData
  | n + 1, bp, rout => do
    let (s, bp1) ← decodeSym imem src lit bp
    if s ≤ 255 then
      let rout' ← putByte cap rout (BitVec.ofNat 8 s)
      compressedBlock imem src cap lit dist n bp1 rout'
    else if s = 256 then .ok (bp1, rout)
    else
      let (len, bp2) ← baseAndExtra imem src lengthTable (s - 257) bp1
      let (ds, bp3) ← decodeSym imem src dist bp2
      let (d, bp4) ← baseAndExtra imem src distanceTable ds bp3
      let rout' ← copyBack cap len d rout
      compressedBlock imem src cap lit dist n bp4 rout'

/-! ## Blocks (43_inflate R214 to R218) -/

/-- `stored_block()` (43_inflate R214), from the bit after the block header. -/
def storedBlock (imem : Mem 8) (src : Source) (cap bp : Nat) (rout : List Byte) : Except Stop (Nat × List Byte) := do
  let p := (bp + 7) / 8
  need p 4 (srcLen src)
  let len0 ← srcByte imem src p
  let len1 ← srcByte imem src (p + 1)
  let nlen0 ← srcByte imem src (p + 2)
  let nlen1 ← srcByte imem src (p + 3)
  let len := len0.toNat + 256 * len1.toNat
  let nlen := nlen0.toNat + 256 * nlen1.toNat
  if len ≠ 0xFFFF - nlen then raise .corruptData
  else
    need (p + 4) len (srcLen src)
    let rout' ← forLoop (fun i out => do
      let b ← srcByte imem src (p + 4 + i)
      putByte cap out b) len 0 rout
    .ok (8 * (p + 4 + len), rout')

/-- The code lengths of BTYPE 1 (43_inflate R215). -/
def fixedLitLens : List Nat :=
  List.replicate 144 8 ++ (List.replicate 112 9 ++ (List.replicate 24 7 ++ List.replicate 8 8))
def fixedDistLens : List Nat := List.replicate 32 5

/-- `fixed_codes()` (43_inflate R215). -/
def fixedCodes : Except Stop (Code × Code) := do
  let lit ← buildCode fixedLitLens .lens
  let dist ← buildCode fixedDistLens .dists
  .ok (lit, dist)

/-- The order of the code-length code's lengths (43_inflate R217). -/
def codeOrder : List Nat := [16, 17, 18, 0, 8, 7, 9, 6, 10, 5, 11, 4, 12, 3, 13, 2, 14, 1, 15]

/-- Read 3-bit lengths for the symbols of the list, in order (43_inflate R217). -/
def readCodeLens (imem : Mem 8) (src : Source) : List Nat → Nat → List Nat → Except Stop (List Nat × Nat)
  | [], bp, cl => .ok (cl, bp)
  | sym :: syms, bp, cl => do
    let (v, bp') ← getBits imem src 3 bp
    readCodeLens imem src syms bp' (cl.set sym v)

/-- The repeat symbols 16, 17, 18 of 43_inflate R218, after the symbol: the length to repeat, how often, and the new bit position. -/
def readRepeat (imem : Mem 8) (src : Source) (s : Nat) (rlens : List Nat) (bp : Nat) : Except Stop (Nat × Nat × Nat) :=
  if s = 16 then
    match rlens with
    | [] => raise .corruptData
    | last :: _ => do
      let (x, b) ← getBits imem src 2 bp
      .ok (last, 3 + x, b)
  else if s = 17 then do
    let (x, b) ← getBits imem src 3 bp
    .ok (0, 3 + x, b)
  else do
    let (x, b) ← getBits imem src 7 bp
    .ok (0, 11 + x, b)

/-- The loop of 43_inflate R218, lengths newest first: each turn adds at least one length, so `total` turns suffice. -/
def readLens (imem : Mem 8) (src : Source) (clcode : Code) (total : Nat) :
    Nat → Nat → List Nat → Except Stop (List Nat × Nat)
  | 0, bp, rlens => .ok (rlens, bp)
  | n + 1, bp, rlens =>
    if rlens.length ≥ total then .ok (rlens, bp)
    else do
      let (s, bp1) ← decodeSym imem src clcode bp
      if s ≤ 15 then readLens imem src clcode total n bp1 (s :: rlens)
      else
        let (v, rep, bp2) ← readRepeat imem src s rlens bp1
        if rlens.length + rep > total then raise .corruptData
        else readLens imem src clcode total n bp2 (List.replicate rep v ++ rlens)

/-- `dynamic_codes()` (43_inflate R216 to R218): the two codes and the new bit position. -/
def dynamicCodes (imem : Mem 8) (src : Source) (bp : Nat) : Except Stop (Code × Code × Nat) := do
  let (hl, bp1) ← getBits imem src 5 bp
  let (hd, bp2) ← getBits imem src 5 bp1
  let (hc, bp3) ← getBits imem src 4 bp2
  let hlit := hl + 257
  let hdist := hd + 1
  if hlit > 286 ∨ hdist > 30 then raise .corruptData
  else
    let (cl, bp4) ← readCodeLens imem src (codeOrder.take (hc + 4)) bp3 (List.replicate 19 0)
    let clcode ← buildCode cl .codes
    let (rlens, bp5) ← readLens imem src clcode (hlit + hdist) (hlit + hdist) bp4 []
    let lens := rlens.reverse
    if lens.getD 256 0 = 0 then raise .corruptData
    else
      let lit ← buildCode (lens.take hlit) .lens
      let dist ← buildCode (lens.drop hlit) .dists
      .ok (lit, dist, bp5)

/-- Bits of `S` from `bp` on: at most this many symbols are left. -/
def bitsLeft (src : Source) (bp : Nat) : Nat := 8 * srcLen src - bp + 1

/-- The body of a fixed block (43_inflate R215, R221), from the bit after the block header. -/
def fixedBlock (imem : Mem 8) (src : Source) (cap bp : Nat) (rout : List Byte) : Except Stop (Nat × List Byte) := do
  let (lit, dist) ← fixedCodes
  compressedBlock imem src cap lit dist (bitsLeft src bp) bp rout

/-- The body of a dynamic block (43_inflate R216 to R218, R221), from the bit after the block header. -/
def dynamicBlock (imem : Mem 8) (src : Source) (cap bp : Nat) (rout : List Byte) : Except Stop (Nat × List Byte) := do
  let (lit, dist, bp') ← dynamicCodes imem src bp
  compressedBlock imem src cap lit dist (bitsLeft src bp') bp' rout

/-- `check_zlib_header(S, s0)` (43_inflate R211). -/
def checkZlibHeader (imem : Mem 8) (src : Source) (s0 : Nat) : Except Stop Unit := do
  need s0 2 (srcLen src)
  let cmf ← srcByte imem src s0
  let flg ← srcByte imem src (s0 + 1)
  if cmf.extractLsb' 0 4 ≠ 8#4 ∨ (cmf.extractLsb' 4 4).toNat > 7 ∨ (cmf.toNat * 256 + flg.toNat) % 31 ≠ 0 ∨
      flg.getLsbD 5 = true
  then raise .corruptData
  else .ok ()

end Sys2Proof.Machine
end

