-- ==== Sys2Proof/Machine/Blocks.lean ====
section
/-! DEFINITION. The DEFLATE block types: the meaning of each of the three, one block at a time, and the end of the stream
(43_inflate R210, R213 to R218, R227; 44_png R257). -/

namespace Sys2Proof.Machine

/-- The end of the zlib stream: the output goes to ZMEM. INFLATE completes with the end byte in IPOS (43_inflate R210); a PNG decode
checks the length it needs and goes on to the scanlines (44_png R257). -/
def inflateDone (s : State) (c : BlockCtx) (bp : Nat) (rout : List Byte) : Except Stop State :=
  let out := rout.reverse
  let t : State := { s with zmem := memWriteRun s.zmem 0 out, zlen := regOf out.length }
  match c.png with
  | none => .ok (complete { t with ipos := regOf ((bp + 7) / 8) })
  | some p =>
    if out.length < p.hdr.h * (rowBytes p.hdr + 1) then raise .truncatedData
    else enterRows t ⟨rowBytes p.hdr, p.hdr.h, bytesPerPixel p.hdr, 0, some p⟩

/-- One block: the three header bits are consumed, the body runs, and after the last block the stream ends (43_inflate R227). -/
def blockStep (body : Mem 8 → Source → Nat → Nat → List Byte → Except Stop (Nat × List Byte)) (bfinal : Bool) (s : State) :
    Host.Outcome State Fault Refusal :=
  match s.engine with
  | .blocks c =>
    settle (engineScope s.engine) s (do
      let (bp, rout) ← body s.imem c.src s.cap.zmemBytes (c.bp + 3) c.rout
      if bfinal then inflateDone s c bp rout
      else .ok { s with engine := .blocks { c with bp := bp, rout := rout } })
  | _ => .refused .outsideItsPhase

/-- BTYPE 0, stored (43_inflate R214). -/
def execDeflateStored (bfinal : Bool) (s : State) : Host.Outcome State Fault Refusal := blockStep storedBlock bfinal s

/-- BTYPE 1, fixed Huffman codes (43_inflate R215). -/
def execDeflateFixed (bfinal : Bool) (s : State) : Host.Outcome State Fault Refusal := blockStep fixedBlock bfinal s

/-- BTYPE 2, dynamic Huffman codes (43_inflate R216). -/
def execDeflateDynamic (bfinal : Bool) (s : State) : Host.Outcome State Fault Refusal := blockStep dynamicBlock bfinal s

/-- The header check of INFLATE and its entry into the blocks (43_inflate R210, R227). -/
def inflateStart (s : State) : Except Stop State := do
  let src := Source.imem s.ilen.toNat
  checkZlibHeader s.imem src s.arg0.toNat
  .ok { s with st := .busy, engine := .blocks ⟨src, 8 * (s.arg0.toNat + 2), [], none⟩ }

end Sys2Proof.Machine
end

