-- ==== Sys2Proof/Machine/Chunks.lean ====
section
/-! DEFINITION. The PNG chunk walker: the meaning of each chunk type (44_png R251 to R257; 30_encoding R100 to R104). -/

namespace Sys2Proof.Machine

/-- The PNG signature (30_encoding R100). -/
def pngSignature : List Byte := [0x89#8, 0x50#8, 0x4E#8, 0x47#8, 0x0D#8, 0x0A#8, 0x1A#8, 0x0A#8]

/-- `check_png_signature(base, lim)` and the entry into the chunk walk (44_png R251, R252). -/
def pngStart (s : State) (ico : Bool) (depth : BitVec 8) (base lim : Nat) : Except Stop State := do
  need base 8 lim
  let sig ← readRun .imem s.imem 8 base
  if sig ≠ pngSignature then raise .invalidSignature
  else .ok { s with st := .busy, engine := .chunks ⟨ico, depth, lim, base + 8, none, []⟩ }

/-- The head of the chunk at the cursor: its length and type, the payload and the CRC bytes present (44_png R253). -/
def chunkHead (s : State) (c : ChunkCtx) : Except Stop (Nat × Nat) := do
  need c.pos 8 c.lim
  let len ← u32be s c.pos
  let type ← u32be s (c.pos + 4)
  need (c.pos + 8) len c.lim
  need (c.pos + 8 + len) 4 c.lim
  .ok (len, type)

/-- The accepted (colorType, bitDepth) pairs (30_encoding R104). -/
def acceptedFormat (ct bd : Nat) : Bool :=
  if ct = 0 then bd == 1 || bd == 2 || bd == 4 || bd == 8 || bd == 16
  else if ct = 2 ∨ ct = 4 ∨ ct = 6 then bd == 8 || bd == 16
  else false

/-- `parse_ihdr(q, len)` (44_png R254): length, interlace, format, size, in this order. -/
def parseIhdr (s : State) (q len : Nat) : Except Stop Ihdr := do
  if len < 13 then raise .truncatedData
  else
    let w ← u32be s q
    let h ← u32be s (q + 4)
    let bd ← u8 s (q + 8)
    let ct ← u8 s (q + 9)
    let _ ← u8 s (q + 10)
    let _ ← u8 s (q + 11)
    let il ← u8 s (q + 12)
    if il ≠ 0#8 then raise .unsupportedFormat
    else if acceptedFormat ct.toNat bd.toNat = false then raise .unsupportedFormat
    else if w = 0 ∨ h = 0 ∨ w * h > s.cap.pmemPixels then raise .unsupportedFormat
    else .ok ⟨w, h, bd.toNat, ct.toNat⟩

/-- Past the chunk at the cursor: `pos <- pos + 12 + len` (44_png R253). -/
def nextChunk (c : ChunkCtx) (len : Nat) : ChunkCtx := { c with pos := c.pos + 12 + len }

/-- IHDR: first and only once (44_png R253, R254). -/
def execPngChunkIHDR (s : State) : Host.Outcome State Fault Refusal :=
  match s.engine with
  | .chunks c =>
    settle (engineScope s.engine) s (do
      let (len, _) ← chunkHead s c
      if c.hdr.isSome then raise .invalidSignature
      else
        let h ← parseIhdr s (c.pos + 8) len
        .ok { s with
          png := { s.png with w := regOf h.w, h := regOf h.h, bd := regOf h.bd, ct := regOf h.ct }
          engine := .chunks { nextChunk c len with hdr := some h } })
  | _ => .refused .outsideItsPhase

/-- IDAT: the payload joins the compressed stream (44_png R253, R255). -/
def execPngChunkIDAT (s : State) : Host.Outcome State Fault Refusal :=
  match s.engine with
  | .chunks c =>
    settle (engineScope s.engine) s (do
      let (len, _) ← chunkHead s c
      if c.hdr.isNone then raise .invalidSignature
      else
        let payload ← readRun .imem s.imem len (c.pos + 8)
        .ok { s with engine := .chunks { nextChunk c len with idat := c.idat ++ payload } })
  | _ => .refused .outsideItsPhase

/-- After the walk: the geometry, the capacity check and the zlib header (44_png R256, R257). -/
def pngDecompress (s : State) (p : PngImage) (idat : List Byte) : Except Stop State := do
  if p.hdr.h * (rowBytes p.hdr + 1) > s.cap.zmemBytes then raise .unsupportedFormat
  else
    checkZlibHeader s.imem (.bytes idat) 0
    .ok { s with
      png := { s.png with bpp := regOf (bytesPerPixel p.hdr), rowb := regOf (rowBytes p.hdr) }
      engine := .blocks ⟨.bytes idat, 16, [], some p⟩ }

/-- IEND: the walk ends, the decompression begins (44_png R253, R257). -/
def execPngChunkIEND (s : State) : Host.Outcome State Fault Refusal :=
  match s.engine with
  | .chunks c =>
    settle (engineScope s.engine) s (do
      let (len, _) ← chunkHead s c
      match c.hdr with
      | none => raise .invalidSignature
      | some h => pngDecompress s ⟨c.ico, c.depth, h, c.pos + 12 + len⟩ c.idat)
  | _ => .refused .outsideItsPhase

/-- Any other chunk type is skipped, once IHDR has been seen (44_png R253, 30_encoding R102). -/
def skipChunk (s : State) : Host.Outcome State Fault Refusal :=
  match s.engine with
  | .chunks c =>
    settle (engineScope s.engine) s (do
      let (len, _) ← chunkHead s c
      if c.hdr.isNone then raise .invalidSignature
      else .ok { s with engine := .chunks (nextChunk c len) })
  | _ => .refused .outsideItsPhase

end Sys2Proof.Machine
end

