-- ==== Sys2Proof/Machine/Ico.lean ====
section
/-! DEFINITION. The ICO directory and the payload dispatcher (46_ico.md): the meaning of the two payload heads. -/

namespace Sys2Proof.Machine

/-- `check_icondir`, `read_entry0`, `open_window` and the entry into the payload select (46_ico R300 to R303). -/
def icoStart (depth : BitVec 8) (s : State) : Except Stop State := do
  let l := s.ilen.toNat
  need 0 6 l
  let reserved ← u16le s 0
  let type ← u16le s 2
  let count ← u16le s 4
  if reserved ≠ 0 ∨ type ≠ 1 ∨ count = 0 then raise .invalidSignature
  else
    need 6 (16 * count) l
    let eW ← u8 s 6
    let eH ← u8 s 7
    let eCc ← u8 s 8
    let ePlanes ← u16le s 10
    let eBits ← u16le s 12
    let size ← u32le s 14
    let off ← u32le s 18
    let lim := off + size
    if lim > l then raise .truncatedData
    else
      need off 8 lim
      .ok { s with
        st := .busy
        ico := ⟨regOf count, regOf eW.toNat, regOf eH.toNat, regOf eCc.toNat, regOf ePlanes, regOf eBits, regOf size,
          regOf off, s.ico.sel⟩
        engine := .payload ⟨depth, off, lim⟩ }

/-- The payload begins with the PNG signature: ICO_SEL <- 1, `pngdec(off, lim, d)` (46_ico R304, R305). -/
def execIcoPayloadPng (s : State) : Host.Outcome State Fault Refusal :=
  match s.engine with
  | .payload c =>
    settle (engineScope s.engine) s (pngStart { s with ico := { s.ico with sel := regOf 1 } } true c.depth c.off c.lim)
  | _ => .refused .outsideItsPhase

/-- Any other payload: ICO_SEL <- 0, `icobmp(off, lim, d)` from its info header on (46_ico R304, R306). The head itself is read
again by the header. -/
def execIcoPayloadBmp (_head : BitVec 64) (s : State) : Host.Outcome State Fault Refusal :=
  match s.engine with
  | .payload c =>
    .next { s with ico := { s.ico with sel := regOf 0 }, engine := .header ⟨true, c.depth, c.off, c.lim, 0⟩ }
  | _ => .refused .outsideItsPhase

end Sys2Proof.Machine
end

