-- ==== Sys2Proof/Machine/Engine.lean ====
section
/-! DEFINITION. The engine as a second instruction level: fetching and running one stream opcode, and running a command to its end
(10_state R25, 30_encoding R91, R125; log 3). -/

namespace Sys2Proof.Machine

/-- The answer of the decoder to the engine: no instruction is an error of the given kind. -/
def opcodeOr (e : ErrorKind) (d : Except DecodeError Instr) : Except Stop (Option Instr) :=
  match d with
  | .ok i => .ok (some i)
  | .error _ => raise e

/-- FETCH of the next stream opcode, where the engine's phase reads it: `none` is a chunk of a type that is skipped (30_encoding R102);
an illegal value raises what 30_encoding R126 says. -/
def fetchStream (s : State) : Except Stop (Option Instr) :=
  match s.engine with
  | .idle => .ok none
  | .payload c => do
    let head ← readBE .imem s.imem 8 c.off
    opcodeOr .corruptData (decodePayloadHead (BitVec.ofNat 64 head))
  | .header c => do
    need c.h0 4 c.lim
    let hs ← u32le s c.h0
    opcodeOr .unsupportedFormat (decodeHeaderSize (BitVec.ofNat 32 hs))
  | .pixels c => do
    let bits ← u16le s (bitCountAddr c)
    opcodeOr .unsupportedFormat (decodeBitCount (BitVec.ofNat 16 bits))
  | .chunks c => do
    let (_, type) ← chunkHead s c
    match decodeChunkType (BitVec.ofNat 32 type) with
    | .ok i => .ok (some i)
    | .error _ => .ok none
  | .blocks c => do
    let (h, _) ← getBits s.imem c.src 3 c.bp
    opcodeOr .corruptData (decodeBlockHeader (BitVec.ofNat 3 h))
  | .rows c => do
    let ft ← readCell .zmem s.zmem (c.row * (c.rowbytes + 1))
    opcodeOr .corruptData (decodeFilter ft)

/-- The meaning of a stream opcode; a command is no stream opcode. -/
def execStream (i : Instr) (s : State) : Host.Outcome State Fault Refusal :=
  match i with
  | .pngChunkIHDR => execPngChunkIHDR s
  | .pngChunkIDAT => execPngChunkIDAT s
  | .pngChunkIEND => execPngChunkIEND s
  | .pngFilterNone => execPngFilterNone s
  | .pngFilterSub => execPngFilterSub s
  | .pngFilterUp => execPngFilterUp s
  | .pngFilterAverage => execPngFilterAverage s
  | .pngFilterPaeth => execPngFilterPaeth s
  | .deflateStored b => execDeflateStored b s
  | .deflateFixed b => execDeflateFixed b s
  | .deflateDynamic b => execDeflateDynamic b s
  | .bmpHeaderCore => execBmpHeaderCore s
  | .bmpHeader40 => execBmpHeader40 s
  | .bmpHeader52 => execBmpHeader52 s
  | .bmpHeader56 => execBmpHeader56 s
  | .bmpHeader108 => execBmpHeader108 s
  | .bmpHeader124 => execBmpHeader124 s
  | .bmpBits1 => execBmpBits1 s
  | .bmpBits4 => execBmpBits4 s
  | .bmpBits8 => execBmpBits8 s
  | .bmpBits16 => execBmpBits16 s
  | .bmpBits24 => execBmpBits24 s
  | .bmpBits32 => execBmpBits32 s
  | .icoPayloadPng => execIcoPayloadPng s
  | .icoPayloadBmp head => execIcoPayloadBmp head s
  | .nop => .refused .outsideItsPhase
  | .clr => .refused .outsideItsPhase
  | .newbm _ => .refused .outsideItsPhase
  | .getpx => .refused .outsideItsPhase
  | .setpx => .refused .outsideItsPhase
  | .des _ => .refused .outsideItsPhase
  | .ser _ => .refused .outsideItsPhase
  | .conv _ => .refused .outsideItsPhase
  | .decbmp _ => .refused .outsideItsPhase
  | .decpng _ => .refused .outsideItsPhase
  | .decico _ => .refused .outsideItsPhase
  | .inflate => .refused .outsideItsPhase
  | .unfilt => .refused .outsideItsPhase
  | .palmap => .refused .outsideItsPhase

/-- One stream step of a command in flight: fetch, decode, run. -/
def engineStep (s : State) : Host.Outcome State Fault Refusal :=
  match fetchStream s with
  | .error (.raised e) => .next (takeError (engineScope s.engine) e s)
  | .error (.faulted f) => .fault f
  | .ok none => skipChunk s
  | .ok (some i) => execStream i s

/-- How many scanlines a PNG decode has still to do at most. -/
def rowsAhead : Option PngImage → Nat
  | none => 0
  | some p => p.hdr.h + 1

/-- A bound on the stream steps left of the command in flight (70_reset R368): a chunk consumes at least 12 bytes, a block at least 3
bits, a scanline is one of the rows left, of which there are at most ZMEM_BYTES. -/
def engineWork (s : State) : Nat :=
  match s.engine with
  | .idle => 0
  | .payload c => 9 * c.lim + s.cap.zmemBytes + 6
  | .header _ => 2
  | .pixels _ => 1
  | .chunks c => 9 * (c.lim - c.pos) + 8 * c.idat.length + s.cap.zmemBytes + 5
  | .blocks c => 8 * srcLen c.src - c.bp + rowsAhead c.png + 2
  | .rows c => c.rows - c.row + 1

/-- Run the engine for at most `n` stream steps, until ST has left BUSY (30_encoding R91). -/
def runEngine : Nat → State → Host.Outcome State Fault Refusal
  | 0, s => .next s
  | n + 1, s =>
    if s.st = .busy then
      match engineStep s with
      | .next t => runEngine n t
      | .fault f => .fault f
      | .refused r => .refused r
    else .next s

/-- A command after its start: the engine runs to completion, all within the step of the command (20_memory R66; log 3). -/
def runCommand (o : Host.Outcome State Fault Refusal) : Host.Outcome State Fault Refusal :=
  match o with
  | .next t => runEngine (engineWork t) t
  | .fault f => .fault f
  | .refused r => .refused r

end Sys2Proof.Machine
end

