-- ==== Sys2Proof/Machine/Commands.lean ====
section
/-! DEFINITION. The commands that run the engine over a stream: DECBMP, DECPNG, DECICO, INFLATE, UNFILT. -/

namespace Sys2Proof.Machine

/-- A decode command: an illegal DEPTH raises UnsupportedFormat and changes nothing else (30_encoding R94, R96; 60_exceptions R325);
otherwise the decode starts and runs to its end. -/
def decodeCommandRun (k : Scope) (depth : BitVec 8) (start : State → Except Stop State) (s : State) :
    Host.Outcome State Fault Refusal :=
  match depthOfField depth with
  | none => .next (takeError .nothing .unsupportedFormat s)
  | some _ => runCommand (settle k s (start s))

/-- DECBMP.d (42_bmp R180). -/
def execDecbmp (depth : BitVec 8) (s : State) : Host.Outcome State Fault Refusal :=
  decodeCommandRun .decbmp depth (bmpStart depth) s

/-- DECPNG.d (44_png R250): `pngdec(0, ILEN, d)`. -/
def execDecpng (depth : BitVec 8) (s : State) : Host.Outcome State Fault Refusal :=
  decodeCommandRun .decpng depth (fun t => pngStart t false depth 0 t.ilen.toNat) s

/-- DECICO.d (46_ico R300). -/
def execDecico (depth : BitVec 8) (s : State) : Host.Outcome State Fault Refusal :=
  decodeCommandRun .decico depth (icoStart depth) s

/-- INFLATE (43_inflate R210). -/
def execInflate (s : State) : Host.Outcome State Fault Refusal :=
  runCommand (settle .inflate s (inflateStart s))

/-- UNFILT (44_png R260). -/
def execUnfilt (s : State) : Host.Outcome State Fault Refusal :=
  runCommand (settle .unfilt s (unfiltStart s))

end Sys2Proof.Machine
end

