-- ==== Sys2Proof/Machine/Control.lean ====
section
/-! DEFINITION. Control and Bitmap-access commands: NOP, CLR, NEWBM, GETPX, SETPX (40_bitmap_ctrl.md). -/

namespace Sys2Proof.Machine

/-- NOP (40_bitmap_ctrl R140). -/
def execNop (s : State) : Host.Outcome State Fault Refusal := .next (complete s)

/-- CLR (40_bitmap_ctrl R141): the return from error; it does not end in DONE. -/
def execClr (s : State) : Host.Outcome State Fault Refusal := .next (returnFromError s)

/-- NEWBM.d (40_bitmap_ctrl R142): `w * h` is a mathematical integer. -/
def execNewbm (depth : BitVec 8) (s : State) : Host.Outcome State Fault Refusal :=
  settle .nothing s (do
    let _ ← depthOperand depth
    let w := s.arg0.toNat
    let h := s.arg1.toNat
    if w = 0 ∨ h = 0 ∨ w * h > s.cap.pmemPixels then raise .unsupportedFormat
    else
      .ok (complete { s with
        pmem := memWriteRun s.pmem 0 (List.replicate (w * h) 0#32)
        bmW := .val s.arg0, bmH := .val s.arg1, bmD := depthReg depth }))

/-- The index of the pixel that ARG0 and ARG1 name; OutOfBounds outside the Bitmap (40_bitmap_ctrl R143, R144). -/
def pixelOperand (s : State) : Except Stop Nat := do
  let w ← regNat s .bmW
  let h ← regNat s .bmH
  if s.arg0.toNat ≥ w ∨ s.arg1.toNat ≥ h then raise .outOfBounds
  else .ok (s.arg1.toNat * w + s.arg0.toNat)

/-- GETPX (40_bitmap_ctrl R143). -/
def execGetpx (s : State) : Host.Outcome State Fault Refusal :=
  settle .nothing s (do
    let i ← pixelOperand s
    let c ← readCell .pmem s.pmem i
    .ok (complete { s with res0 := c }))

/-- SETPX (40_bitmap_ctrl R144): the Color is stored with all four channels whatever BM_D is. -/
def execSetpx (s : State) : Host.Outcome State Fault Refusal :=
  settle .nothing s (do
    let i ← pixelOperand s
    .ok (complete { s with pmem := memWrite s.pmem i s.arg2 }))

end Sys2Proof.Machine
end

