-- ==== Sys2Proof/Machine/Depth.lean ====
section
/-! DEFINITION. The pixel-format depth converter: DES, SER, CONV (41_depth_converter.md). -/

namespace Sys2Proof.Machine

/-- DES.d (41_depth_converter R167): the offset needs no alignment, the bound is ILEN without wrap-around. -/
def execDes (depth : BitVec 8) (s : State) : Host.Outcome State Fault Refusal :=
  settle .nothing s (do
    let d ← depthOperand depth
    need s.arg0.toNat (nbytes d) s.ilen.toNat
    let bytes ← readRun .imem s.imem (nbytes d) s.arg0.toNat
    .ok (complete { s with res0 := packColor (des d bytes), res1 := BitVec.ofNat 32 (nbytes d) }))

/-- SER.d (41_depth_converter R168). -/
def execSer (depth : BitVec 8) (s : State) : Host.Outcome State Fault Refusal :=
  settle .nothing s (do
    let d ← depthOperand depth
    .ok (complete { s with
      res0 := BitVec.ofNat 32 (packBytes (ser d (unpackColor s.arg2)))
      res1 := BitVec.ofNat 32 (nbytes d) }))

/-- One pixel of CONV.d (41_depth_converter R169). -/
def convPixel (d : Depth) (i : Nat) (m : Mem 32) : Except Stop (Mem 32) := do
  let c ← readCell .pmem m i
  .ok (memWrite m i (packColor (convColor d (unpackColor c))))

/-- CONV.d (41_depth_converter R169). -/
def execConv (depth : BitVec 8) (s : State) : Host.Outcome State Fault Refusal :=
  settle .nothing s (do
    let d ← depthOperand depth
    let w ← regNat s .bmW
    let h ← regNat s .bmH
    let pmem ← forLoop (convPixel d) (w * h) 0 s.pmem
    .ok (complete { s with pmem := pmem, bmD := depthReg depth }))

end Sys2Proof.Machine
end

