-- ==== Sys2Proof/Machine/Palmap.lean ====
section
/-! DEFINITION. The palette-indexed color mapper: PALMAP (45_palmap.md). -/

namespace Sys2Proof.Machine

/-- The exact lookup over the entries `k .. k + n - 1`: all four channels equal, lowest index (45_palmap R291). -/
def palExact (pal : Mem 32) (c : Word) : Nat → Nat → Except Stop (Option Nat)
  | 0, _ => .ok none
  | n + 1, k => do
    let e ← readCell .pal pal k
    if e = c then .ok (some k) else palExact pal c n (k + 1)

/-- `(x - y)^2` of two channels (45_palmap R293: differences are signed). -/
def channelDist (x y : Byte) : Nat :=
  if x.toNat ≤ y.toNat then (y.toNat - x.toNat) ^ 2 else (x.toNat - y.toNat) ^ 2

/-- The squared RGB distance; alpha is ignored (45_palmap R291). -/
def rgbDist (p c : Color) : Nat :=
  channelDist p.r c.r + channelDist p.g c.g + channelDist p.b c.b

/-- The nearest entry among the best so far and the entries `k .. k + n - 1`; strict `<`, so the first minimum wins
(45_palmap R291, R292). -/
def palNearest (pal : Mem 32) (c : Word) : Nat → Nat → Option (Nat × Nat) → Except Stop (Option (Nat × Nat))
  | 0, _, best => .ok best
  | n + 1, k, best => do
    let e ← readCell .pal pal k
    let dk := rgbDist (unpackColor e) (unpackColor c)
    match best with
    | none => palNearest pal c n (k + 1) (some (k, dk))
    | some (b, bd) => palNearest pal c n (k + 1) (if dk < bd then some (k, dk) else some (b, bd))

/-- `map_index(c)` over a palette of `n` entries (45_palmap R291). With no entry there is no index; R290 raises before that. -/
def mapIndex (pal : Mem 32) (n : Nat) (c : Word) : Except Stop Nat := do
  let exact ← palExact pal c n 0
  match exact with
  | some k => .ok k
  | none =>
    let near ← palNearest pal c n 0 none
    match near with
    | some (k, _) => .ok k
    | none => raise .unsupportedFormat

/-- One pixel of PALMAP (45_palmap R290). -/
def palmapPixel (pmem pal : Mem 32) (paln i : Nat) (xmem : Mem 8) : Except Stop (Mem 8) := do
  let c ← readCell .pmem pmem i
  let k ← mapIndex pal paln c
  .ok (memWrite xmem i (BitVec.ofNat 8 k))

/-- PALMAP (45_palmap R290). -/
def execPalmap (s : State) : Host.Outcome State Fault Refusal :=
  settle .nothing s (do
    let w ← regNat s .bmW
    let h ← regNat s .bmH
    if w * h = 0 then .ok (complete s)
    else
      let paln ← regNat s .paln
      if paln = 0 then raise .unsupportedFormat
      else
        let xmem ← forLoop (palmapPixel s.pmem s.pal paln) (w * h) 0 s.xmem
        .ok (complete { s with xmem := xmem }))

end Sys2Proof.Machine
end

