-- ==== Sys2Proof/Machine/Dispatch.lean ====
section
/-! DEFINITION. exec: one arm per constructor of Instr, each one direct call of its meaning. -/

namespace Sys2Proof.Machine

def exec (i : Instr) (s : State) : Host.Outcome State Fault Refusal :=
  match i with
  | .nop => Sys2Proof.Machine.execNop s
  | .clr => Sys2Proof.Machine.execClr s
  | .newbm depth => Sys2Proof.Machine.execNewbm depth s
  | .getpx => Sys2Proof.Machine.execGetpx s
  | .setpx => Sys2Proof.Machine.execSetpx s
  | .des depth => Sys2Proof.Machine.execDes depth s
  | .ser depth => Sys2Proof.Machine.execSer depth s
  | .conv depth => Sys2Proof.Machine.execConv depth s
  | .decbmp depth => Sys2Proof.Machine.execDecbmp depth s
  | .decpng depth => Sys2Proof.Machine.execDecpng depth s
  | .decico depth => Sys2Proof.Machine.execDecico depth s
  | .inflate => Sys2Proof.Machine.execInflate s
  | .unfilt => Sys2Proof.Machine.execUnfilt s
  | .palmap => Sys2Proof.Machine.execPalmap s
  | .pngChunkIHDR => Sys2Proof.Machine.execPngChunkIHDR s
  | .pngChunkIDAT => Sys2Proof.Machine.execPngChunkIDAT s
  | .pngChunkIEND => Sys2Proof.Machine.execPngChunkIEND s
  | .pngFilterNone => Sys2Proof.Machine.execPngFilterNone s
  | .pngFilterSub => Sys2Proof.Machine.execPngFilterSub s
  | .pngFilterUp => Sys2Proof.Machine.execPngFilterUp s
  | .pngFilterAverage => Sys2Proof.Machine.execPngFilterAverage s
  | .pngFilterPaeth => Sys2Proof.Machine.execPngFilterPaeth s
  | .deflateStored bfinal => Sys2Proof.Machine.execDeflateStored bfinal s
  | .deflateFixed bfinal => Sys2Proof.Machine.execDeflateFixed bfinal s
  | .deflateDynamic bfinal => Sys2Proof.Machine.execDeflateDynamic bfinal s
  | .bmpHeaderCore => Sys2Proof.Machine.execBmpHeaderCore s
  | .bmpHeader40 => Sys2Proof.Machine.execBmpHeader40 s
  | .bmpHeader52 => Sys2Proof.Machine.execBmpHeader52 s
  | .bmpHeader56 => Sys2Proof.Machine.execBmpHeader56 s
  | .bmpHeader108 => Sys2Proof.Machine.execBmpHeader108 s
  | .bmpHeader124 => Sys2Proof.Machine.execBmpHeader124 s
  | .bmpBits1 => Sys2Proof.Machine.execBmpBits1 s
  | .bmpBits4 => Sys2Proof.Machine.execBmpBits4 s
  | .bmpBits8 => Sys2Proof.Machine.execBmpBits8 s
  | .bmpBits16 => Sys2Proof.Machine.execBmpBits16 s
  | .bmpBits24 => Sys2Proof.Machine.execBmpBits24 s
  | .bmpBits32 => Sys2Proof.Machine.execBmpBits32 s
  | .icoPayloadPng => Sys2Proof.Machine.execIcoPayloadPng s
  | .icoPayloadBmp head => Sys2Proof.Machine.execIcoPayloadBmp head s

end Sys2Proof.Machine
end

