-- ==== Sys2Proof/Machine/Bus.lean ====
section
/-! DEFINITION. The host interface: the address map, host reads and writes, command issue, reset (20_memory R63 to R67, R75;
60_exceptions R326, R327; 70_reset R360, R361, R365). -/

namespace Sys2Proof.Machine

/-! ## Address map (20_memory R75) -/

/-- The registers in the order of their offsets 0x00, 0x04, … (10_state R37). -/
def regNames : List RegName :=
  [.cmd, .status, .errcode, .ctrl, .ilen, .ipos, .arg0, .arg1, .arg2, .res0, .res1, .bmW, .bmH, .bmD, .paln, .zlen,
   .pngW, .pngH, .pngBd, .pngCt, .pngBpp, .pngRowb,
   .bmpHsize, .bmpW, .bmpH, .bmpBits, .bmpComp, .bmpOff, .bmpStride,
   .icoCount, .icoEW, .icoEH, .icoECc, .icoEPlanes, .icoEBits, .icoESize, .icoEOff, .icoSel]

/-- The byte offset of a register (10_state R37). -/
def regOffset (r : RegName) : Nat := 4 * regNames.idxOf r

/-- What an address names: a register, a reserved register offset, or a location of a memory. -/
inductive Target
  | reg (r : RegName)
  | reserved
  | cell (space : Space) (index : Nat)
  deriving DecidableEq, Repr

/-- Bytes of an access. -/
def widthBytes : Width → Nat
  | .byte => 1
  | .half => 2
  | .word => 4

/-- The base of a memory's window (20_memory R75). -/
def spaceBase : Space → Nat
  | .pal => 0x400
  | .imem => 0x01000000
  | .zmem => 0x02000000
  | .pmem => 0x03000000
  | .xmem => 0x04000000

/-- Locations of a memory (00_scope R5; PAL has 256). -/
def spaceSize (cap : Capacities) : Space → Nat
  | .pal => 256
  | .imem => cap.imemBytes
  | .zmem => cap.zmemBytes
  | .pmem => cap.pmemPixels
  | .xmem => cap.pmemPixels

/-- Bytes of one location: a Color word in PMEM and PAL, a byte elsewhere. -/
def spaceUnit : Space → Nat
  | .pal => 4
  | .pmem => 4
  | _ => 1

/-- Is the access of `n` bytes at `a` inside the window of the memory? -/
def inSpace (cap : Capacities) (sp : Space) (n a : Nat) : Bool :=
  decide (spaceBase sp ≤ a) && decide (a + n ≤ spaceBase sp + spaceUnit sp * spaceSize cap sp)

/-- The target of a naturally aligned access; `none` is a bus error (20_memory R65): misaligned, a 1- or 2-byte access to a register,
PMEM or PAL, or an unmapped address. -/
def resolve (cap : Capacities) (w : Width) (a : Nat) : Option Target :=
  let n := widthBytes w
  if a % n ≠ 0 then none
  else if a < 0x100 then
    if w = .word then
      match regNames[a / 4]? with
      | some r => some (.reg r)
      | none => some .reserved
    else none
  else
    match [Space.pal, .imem, .zmem, .pmem, .xmem].find? (fun sp => inSpace cap sp n a) with
    | some sp =>
      if spaceUnit sp = 4 ∧ w ≠ .word then none
      else some (.cell sp ((a - spaceBase sp) / spaceUnit sp))
    | none => none

/-! ## Command issue (30_encoding R90, R91, R96; 60_exceptions R326, R327) -/

/-- A word written to CMD: ignored while BUSY; in ERR only CLR is accepted; else it is decoded and run, and an illegal word raises
UnsupportedFormat and changes nothing else. -/
def issue (w : Word) (s : State) : Host.Outcome State Fault Refusal :=
  match s.st with
  | .busy => .next s
  | .err =>
    match decodeCommand w with
    | .ok .clr => exec .clr s
    | _ => .next s
  | .idle | .done =>
    match decodeCommand w with
    | .ok i => exec i s
    | .error _ => .next (takeError .nothing .unsupportedFormat s)

/-! ## Host writes -/

/-- `MemWrite(S, a, n, v)`, little-endian (00_scope R7). -/
def writeLE (m : Mem 8) : Nat → Nat → Nat → Mem 8
  | 0, _, _ => m
  | n + 1, a, v => writeLE (memWrite m a (BitVec.ofNat 8 v)) n (a + 1) (v / 256)

/-- A host write of a memory location (20_memory R63). -/
def writeSpace (s : State) (sp : Space) (n i : Nat) (v : Word) : State :=
  match sp with
  | .imem => { s with imem := writeLE s.imem n i v.toNat }
  | .zmem => { s with zmem := writeLE s.zmem n i v.toNat }
  | .xmem => { s with xmem := writeLE s.xmem n i v.toNat }
  | .pmem => { s with pmem := memWrite s.pmem i v }
  | .pal => { s with pal := memWrite s.pal i v }

/-- A host write (20_memory R63, R65, R67). While BUSY a CMD write is ignored (60_exceptions R326), any other write is refused
(70_reset R365). -/
def hostWrite (w : Width) (addr value : Word) (s : State) : Host.Outcome State Fault Refusal :=
  match resolve s.cap w addr.toNat with
  | none => .refused .busError
  | some (.reg .cmd) => issue value s
  | some t =>
    if s.st = .busy then .refused .accessWhileBusy
    else
      match t with
      | .reg r => .next (writeReg s r value)
      | .reserved => .next s
      | .cell sp i => .next (writeSpace s sp (widthBytes w) i value)

/-! ## Host reads -/

/-- The number of pixels of the Bitmap, unless a failed decode left it unspecified. -/
def bitmapSize (s : State) : Option Nat :=
  match s.bmW, s.bmH with
  | .val w, .val h => some (w.toNat * h.toNat)
  | _, _ => none

/-- How many locations of a memory are part of the data (93 U10). -/
def dataSize (s : State) : Space → Option Nat
  | .imem => none
  | .zmem => match s.zlen with
    | .val n => some n.toNat
    | .unspecified => none
  | .pmem => bitmapSize s
  | .pal => match s.paln with
    | .val n => some n.toNat
    | .unspecified => none
  | .xmem => bitmapSize s

/-- Is the location not part of the data (93 U10)? -/
def beyondData (s : State) (sp : Space) (i : Nat) : Bool :=
  match dataSize s sp with
  | some n => decide (n ≤ i)
  | none => false

/-- One location as a host read returns it: one that holds no value is a fault (20_memory R69), one that is not part of the data is any
value (93 U10; log 6); `k` tells the free values of one access apart. -/
def hostCell {n : Nat} (s : State) (sp : Space) (m : Mem n) (k i : Nat) : Except Stop (BitVec n) := do
  let v ← readCell sp m i
  .ok (if beyondData s sp i then (Config.freeWord (4 * s.fresh + k)).setWidth n else v)

/-- `MemRead(S, a, n)` as the host sees it. -/
def hostBytes (s : State) (sp : Space) (m : Mem 8) : Nat → Nat → Nat → Except Stop Nat
  | 0, _, _ => .ok 0
  | n + 1, k, i => do
    let b ← hostCell s sp m k i
    let rest ← hostBytes s sp m n (k + 1) (i + 1)
    .ok (b.toNat + 256 * rest)

/-- The data of a host read of a memory (20_memory R63). -/
def readSpace (s : State) (sp : Space) (n i : Nat) : Except Stop Word :=
  match sp with
  | .imem => do
    let v ← hostBytes s sp s.imem n 0 i
    .ok (BitVec.ofNat 32 v)
  | .zmem => do
    let v ← hostBytes s sp s.zmem n 0 i
    .ok (BitVec.ofNat 32 v)
  | .xmem => do
    let v ← hostBytes s sp s.xmem n 0 i
    .ok (BitVec.ofNat 32 v)
  | .pmem => hostCell s sp s.pmem 0 i
  | .pal => hostCell s sp s.pal 0 i

/-- The data of a read reach the host; nothing else changes (20_memory R67). -/
def deliver (s : State) (v : Except Stop Word) : Host.Outcome State Fault Refusal :=
  match v with
  | .ok w => .next { s with rdata := some w, fresh := s.fresh + 1 }
  | .error (.faulted f) => .fault f
  | .error (.raised _) => .refused .busError

/-- A host read (20_memory R63, R65, R67). While BUSY only STATUS may be read (70_reset R365). -/
def hostRead (w : Width) (addr : Word) (s : State) : Host.Outcome State Fault Refusal :=
  match resolve s.cap w addr.toNat with
  | none => .refused .busError
  | some (.reg .status) => deliver s (regValue .status (readReg s .status))
  | some t =>
    if s.st = .busy then .refused .accessWhileBusy
    else
      match t with
      | .reg r => deliver s (regValue r (readReg s r))
      | .reserved => deliver s (.ok 0#32)
      | .cell sp i => deliver s (readSpace s sp (widthBytes w) i)

/-! ## Reset (70_reset R360, R361) -/

/-- `rst`: every register at its reset value, no memory location holding a value, a command in flight abandoned. The parameters of the
chip and the model's own fields stay (log 16). -/
def resetBlock (s : State) : State :=
  { State.resetWith s.cap with script := s.script, rdata := s.rdata, fresh := s.fresh }

/-- One action of the host or of the reset pin. DESIGN CHOICE (unsafe, log 27): 70_reset R360 does not say what a host access does while `rst` is
held asserted; here `rst` is asserted and released within its one action, so that no access meets it. -/
def hostStep (op : HostOp) (s : State) : Host.Outcome State Fault Refusal :=
  match op with
  | .write w a v => hostWrite w a v s
  | .read w a => hostRead w a s
  | .rst => .next (resetBlock s)

end Sys2Proof.Machine
end

