-- ==== Sys2Proof/Machine/Placement.lean ====
section
/-! DEFINITION. Placing one instruction where the next step fetches it (log 2, log 23): a command word as the host's next CMD write,
a stream opcode in the input stream of a command in flight that reads it next. -/

namespace Sys2Proof.Machine

/-- The `n` bytes of a number, little-endian. -/
def leBytes : Nat → Nat → List Byte
  | 0, _ => []
  | n + 1, v => BitVec.ofNat 8 v :: leBytes n (v / 256)

/-- The `n` bytes of a number, big-endian. -/
def beBytes (n v : Nat) : List Byte := (leBytes n v).reverse

/-- Zero bytes. -/
def zeroBytes (n : Nat) : List Byte := List.replicate n 0#8

/-- The engine in the given phase, with `bytes` at `a` of IMEM and ILEN behind the last of them; no host action pending. -/
def placeInput (s : State) (a : Nat) (bytes : List Byte) (e : Engine) : State :=
  { s with
    st := .busy, errcode := none
    imem := memWriteRun s.imem a bytes, ilen := BitVec.ofNat 32 (a + bytes.length)
    engine := e, script := [] }

/-- The host's next action writes `w` to CMD; a state that would not accept it (BUSY, ERR) is taken to IDLE. -/
def placeCommand (s : State) (w : Nat) : State :=
  let t : State :=
    match s.st with
    | .idle | .done => s
    | .busy | .err => { s with st := .idle, errcode := none, engine := .idle }
  { t with script := .write .word 0#32 (BitVec.ofNat 32 w) :: t.script }

/-- A chunk of type `w` with an empty payload at address 8; IDAT and IEND come after an IHDR. -/
def placeChunk (s : State) (w : Nat) : State :=
  let seen : Option Ihdr := if w = 0x49484452 then none else some ⟨1, 1, 8, 0⟩
  placeInput s 8 (zeroBytes 4 ++ (beBytes 4 w ++ zeroBytes 4)) (.chunks ⟨false, 32#8, 20, 8, seen, []⟩)

/-- A scanline of one data byte 0 with filter byte `w`, the only one of an UNFILT. -/
def placeFilter (s : State) (w : Nat) : State :=
  { s with
    st := .busy, errcode := none
    zmem := memWriteRun s.zmem 0 [BitVec.ofNat 8 w, 0#8], zlen := regOf 2
    engine := .rows ⟨1, 1, 1, 0, none⟩, script := [] }

/-- A block header in the low bits of the byte at address 0, zeros after it, read by an INFLATE. -/
def placeBlock (s : State) (w : Nat) : State :=
  placeInput s 0 (BitVec.ofNat 8 w :: zeroBytes 7) (.blocks ⟨.imem 8, 0, [], none⟩)

/-- A BMP info header at address 14 whose size field is `w`, all its other bytes 0. -/
def placeHeader (s : State) (w : Nat) : State :=
  placeInput s 14 (leBytes 4 w ++ zeroBytes 120) (.header ⟨false, 32#8, 14, 138, 138⟩)

/-- The bitCount field of a 40-byte header of a 1×1 BMP, zeros after it; a color table, where there is one, has one entry. -/
def placeBitCount (s : State) (w : Nat) : State :=
  placeInput s 28 (leBytes 2 w ++ zeroBytes 32) (.pixels ⟨⟨false, 32#8, 14, 62, 58⟩, 40, false, 1, 1, 1⟩)

/-- The first eight bytes of the payload of an ICO, at address 22. -/
def placePayload (s : State) (w : Nat) : State :=
  placeInput s 22 (beBytes 8 w) (.payload ⟨32#8, 22, 30⟩)

/-- Place a word of the given format. -/
def placeWord (s : State) (f : Format) (w : Nat) : State :=
  match f with
  | .command => placeCommand s w
  | .chunkType => placeChunk s w
  | .filterByte => placeFilter s w
  | .blockHeader => placeBlock s w
  | .headerSize => placeHeader s w
  | .bitCount => placeBitCount s w
  | .payloadHead => placePayload s w

/-- Place a table word: in the format the decoder reads it in; a word that is no instruction is written to CMD. -/
def placeTableWord (s : State) (nbits w : Nat) : State :=
  match decodeTableWord nbits w with
  | some i => placeWord s i.format w
  | none => placeCommand s w

end Sys2Proof.Machine
end

