-- ==== Sys2Proof/Machine/Step.lean ====
section
/-! DEFINITION. One step of the machine: the host's next action (a command runs to its end within it), or, where a command is in
flight and the host does nothing, the engine's next stream opcode, or nothing. -/

namespace Sys2Proof.Machine

/-- One step (10_state R20: one step per host access, a command within the step of its CMD write). With no action pending a block that
is not BUSY stays as it is (60_exceptions R340); one that is BUSY takes one stream step (log 3). -/
def step (s : State) : Host.Outcome State Fault Refusal :=
  match s.script with
  | op :: rest => hostStep op { s with script := rest }
  | [] => if s.st = .busy then engineStep s else .next s

/-- `s` with the instruction of a table word placed where the next step fetches it (log 2, 10, 23). -/
def State.withFetchWord (s : State) (nbits w : Nat) : State := placeTableWord s nbits w

end Sys2Proof.Machine
end

