-- ==== Sys2Proof/Safety.lean ====
section
/-! DEFINITION. What holds of every state a run shows, in the terms the statements use: the invariants that each step keeps. -/

namespace Sys2Proof.Machine

/-! ## Memories -/

/-- Every memory is in its canonical form: indices strictly rising. -/
def State.memoriesCanonical (s : State) : Prop :=
  memWf s.imem ∧ memWf s.zmem ∧ memWf s.pmem ∧ memWf s.pal ∧ memWf s.xmem

/-- Every listed location is one that the instance has (20_memory R60, R75). -/
def State.memoriesWithin (s : State) : Prop :=
  memWithin s.imem s.cap.imemBytes ∧ memWithin s.zmem s.cap.zmemBytes ∧ memWithin s.pmem s.cap.pmemPixels ∧
  memWithin s.pal 256 ∧ memWithin s.xmem s.cap.pmemPixels

/-! ## Status -/

/-- ERRCODE is 0 exactly when ST is not ERR (10_state R28, 60_exceptions R321), and the engine holds hidden state exactly while
ST = BUSY (10_state R40). -/
def State.statusConsistent (s : State) : Prop :=
  (s.st = .err ↔ s.errcode ≠ none) ∧ (s.st = .busy ↔ s.engine ≠ .idle)

/-! ## Registers -/

/-- A register that holds a value holds at most `most`. -/
def Reg.atMost (r : Reg) (most : Nat) : Prop :=
  match r with
  | .val w => w.toNat ≤ most
  | .unspecified => True

/-- A BM_D value: the number of a PixelFormat, or 0 as after reset (10_state R23, 30_encoding R94). -/
def Reg.isDepth (r : Reg) : Prop :=
  match r with
  | .val w => w = 0#32 ∨ w = 1#32 ∨ w = 8#32 ∨ w = 16#32 ∨ w = 24#32 ∨ w = 32#32
  | .unspecified => True

/-- Every register whose legal values 10_state R37 lists keeps to them (R23, R25, R31, R32, R33, R36). -/
def State.registersInRange (s : State) : Prop :=
  s.ilen.toNat ≤ s.cap.imemBytes ∧ s.ipos.atMost s.cap.imemBytes ∧ s.bmW.atMost s.cap.pmemPixels ∧ s.bmH.atMost s.cap.pmemPixels ∧
  s.bmD.isDepth ∧ s.paln.atMost 256 ∧ s.zlen.atMost s.cap.zmemBytes ∧ s.ico.sel.atMost 1

/-- Where the Bitmap has a size, it fits PMEM and every pixel of it has been written (10_state R23, 20_memory R69). -/
def State.bitmapSound (s : State) : Prop :=
  match bitmapSize s with
  | some n => n ≤ s.cap.pmemPixels ∧ ∀ k < n, memRead s.pmem k ≠ none
  | none => True

/-! ## What a command in flight carries -/

/-- The image of an accepted IHDR is not empty and fits PMEM (44_png R254). -/
def Ihdr.fits (cap : Capacities) (h : Ihdr) : Prop := 1 ≤ h.w ∧ 1 ≤ h.h ∧ h.w * h.h ≤ cap.pmemPixels

/-- What a PNG decode carries to its end fits, its DEPTH operand was checked (30_encoding R94) and its cursor is in IMEM (10_state R25). -/
def PngImage.sound (cap : Capacities) (p : PngImage) : Prop :=
  p.hdr.fits cap ∧ legalDepth p.depth = true ∧ p.pos ≤ cap.imemBytes

/-- What a command in flight carries: a checked DEPTH operand, a window inside IMEM (10_state R25), an image that fits, output that fits
ZMEM (43_inflate R225). -/
def Engine.sound (cap : Capacities) : Engine → Prop
  | .idle => True
  | .payload c => legalDepth c.depth = true ∧ c.lim ≤ cap.imemBytes
  | .header c => legalDepth c.depth = true ∧ c.lim ≤ cap.imemBytes
  | .pixels c => legalDepth c.ctx.depth = true ∧ c.ctx.lim ≤ cap.imemBytes
  | .chunks c => legalDepth c.depth = true ∧ c.lim ≤ cap.imemBytes ∧ ∀ h, c.hdr = some h → h.fits cap
  | .blocks c => c.rout.length ≤ cap.zmemBytes ∧ (c.png = none → srcLen c.src ≤ cap.imemBytes) ∧ ∀ p, c.png = some p → p.sound cap
  | .rows c => ∀ p, c.png = some p → p.sound cap

/-- Registers in range, a sound Bitmap, memories within their capacities, and, while a command runs, what it carries. -/
def State.bounded (s : State) : Prop :=
  s.registersInRange ∧ s.bitmapSound ∧ s.memoriesWithin ∧ s.engine.sound s.cap

/-- All of it. -/
def State.safe (s : State) : Prop := s.memoriesCanonical ∧ s.statusConsistent ∧ s.bounded

end Sys2Proof.Machine
end

