-- ==== Sys2Proof/Safety/Vocabulary.lean ====
section
/-! DEFINITION. The words of the statements: what stands in the input, which bits a compressed stream holds, what a scanline or a pixel
row encodes. Nothing here is used by the machine. -/

namespace Sys2Proof.Machine

/-! ## What stands in a memory -/

/-- The bytes `l` stand at `a`, `a + 1`, … -/
def holdsAt (m : Mem 8) (a : Nat) (l : List Byte) : Prop := ∀ k < l.length, memRead m (a + k) = l[k]?

/-- Two memories read alike outside the locations `a .. a + n - 1`. -/
def sameOutside {n : Nat} (m m' : Mem n) (a len : Nat) : Prop := ∀ k, (k < a ∨ a + len ≤ k) → memRead m' k = memRead m k

/-- The byte a location holds; of use only where it is known to hold one. -/
def byteAt (m : Mem 8) (a : Nat) : Byte := (memRead m a).getD 0#8

/-- `U16LE`, `U32LE`, `U32BE` as bytes (00_scope R7). -/
def le16 (v : Nat) : List Byte := leBytes 2 v
def le32 (v : Nat) : List Byte := leBytes 4 v
def be32 (v : Nat) : List Byte := beBytes 4 v

/-! ## The host's view (10_state R37, 20_memory R75) -/

/-- The register map of 10_state R37: the register, its offset, what a host read of it returns (codes of R27, R28 and
60_exceptions R322). -/
def hostRegisters (s : State) : List (RegName × Nat × Reg) :=
  [(.cmd, 0x00, .val 0#32),
   (.status, 0x04, .val (match s.st with
     | .idle => 0#32
     | .busy => 1#32
     | .done => 2#32
     | .err => 3#32)),
   (.errcode, 0x08, .val (match s.errcode with
     | none => 0#32
     | some .invalidSignature => 1#32
     | some .unsupportedFormat => 2#32
     | some .truncatedData => 3#32
     | some .outOfBounds => 4#32
     | some .corruptData => 5#32)),
   (.ctrl, 0x0C, .val (if s.ie then 1#32 else 0#32)), (.ilen, 0x10, .val s.ilen), (.ipos, 0x14, s.ipos),
   (.arg0, 0x18, .val s.arg0), (.arg1, 0x1C, .val s.arg1), (.arg2, 0x20, .val s.arg2),
   (.res0, 0x24, .val s.res0), (.res1, 0x28, .val s.res1),
   (.bmW, 0x2C, s.bmW), (.bmH, 0x30, s.bmH), (.bmD, 0x34, s.bmD), (.paln, 0x38, s.paln), (.zlen, 0x3C, s.zlen),
   (.pngW, 0x40, s.png.w), (.pngH, 0x44, s.png.h), (.pngBd, 0x48, s.png.bd), (.pngCt, 0x4C, s.png.ct),
   (.pngBpp, 0x50, s.png.bpp), (.pngRowb, 0x54, s.png.rowb),
   (.bmpHsize, 0x58, s.bmp.hsize), (.bmpW, 0x5C, s.bmp.w), (.bmpH, 0x60, s.bmp.h), (.bmpBits, 0x64, s.bmp.bits),
   (.bmpComp, 0x68, s.bmp.comp), (.bmpOff, 0x6C, s.bmp.off), (.bmpStride, 0x70, s.bmp.stride),
   (.icoCount, 0x74, s.ico.count), (.icoEW, 0x78, s.ico.eW), (.icoEH, 0x7C, s.ico.eH), (.icoECc, 0x80, s.ico.eCc),
   (.icoEPlanes, 0x84, s.ico.ePlanes), (.icoEBits, 0x88, s.ico.eBits), (.icoESize, 0x8C, s.ico.eSize),
   (.icoEOff, 0x90, s.ico.eOff), (.icoSel, 0x94, s.ico.sel)]

/-- The memories whose unit is the byte: the address of the first location, the contents, the number of locations. -/
def byteMemories (s : State) : List (Space × Nat × Mem 8 × Nat) :=
  [(.imem, 0x01000000, s.imem, s.cap.imemBytes), (.zmem, 0x02000000, s.zmem, s.cap.zmemBytes),
   (.xmem, 0x04000000, s.xmem, s.cap.pmemPixels)]

/-- The memories whose unit is the Color word. -/
def colorMemories (s : State) : List (Space × Nat × Mem 32 × Nat) :=
  [(.pal, 0x400, s.pal, 256), (.pmem, 0x03000000, s.pmem, s.cap.pmemPixels)]

/-- The state with other contents in one of the byte memories. -/
def State.withBytes (s : State) (sp : Space) (m : Mem 8) : State :=
  match sp with
  | .imem => { s with imem := m }
  | .zmem => { s with zmem := m }
  | .xmem => { s with xmem := m }
  | .pmem => s
  | .pal => s

/-- The state with other contents in one of the Color memories. -/
def State.withColors (s : State) (sp : Space) (m : Mem 32) : State :=
  match sp with
  | .pmem => { s with pmem := m }
  | .pal => { s with pal := m }
  | .imem => s
  | .zmem => s
  | .xmem => s

/-- Location `k` is part of the data, so that a host read of it returns no `any value` (93 U10). -/
def inData (s : State) (sp : Space) (k : Nat) : Prop :=
  match sp with
  | .imem => True
  | .zmem => ∃ n, s.zlen = .val n ∧ k < n.toNat
  | .pal => ∃ n, s.paln = .val n ∧ k < n.toNat
  | .pmem => ∃ w h, s.bmW = .val w ∧ s.bmH = .val h ∧ k < w.toNat * h.toNat
  | .xmem => ∃ w h, s.bmW = .val w ∧ s.bmH = .val h ∧ k < w.toNat * h.toNat

/-! ## The compressed stream -/

/-- `S[i]` (43_inflate R227), `none` where it is past the end of `S` or holds no value. -/
def sourceByte (imem : Mem 8) (src : Source) (i : Nat) : Option Byte :=
  match src with
  | .imem n => if i < n then memRead imem i else none
  | .bytes l => l[i]?

/-- The bytes `l` stand in `S` from `i` on. -/
def sourceHolds (imem : Mem 8) (src : Source) (i : Nat) (l : List Byte) : Prop :=
  ∀ k < l.length, sourceByte imem src (i + k) = l[k]?

/-- Bit `i` of `S`, least significant bit of each byte first (43_inflate R212). -/
def sourceBit (imem : Mem 8) (src : Source) (i : Nat) : Option Nat :=
  (sourceByte imem src (i / 8)).map (fun b => (b.getLsbD (i % 8)).toNat)

/-- The bits `l` stand in `S` from bit position `bp` on. -/
def sourceBits (imem : Mem 8) (src : Source) (bp : Nat) (l : List Nat) : Prop :=
  ∀ k < l.length, sourceBit imem src (bp + k) = l[k]?

/-- An `n`-bit field, least significant bit first: every field but a Huffman code (43_inflate R212). -/
def bitsLsb : Nat → Nat → List Nat
  | 0, _ => []
  | n + 1, v => v % 2 :: bitsLsb n (v / 2)

/-- An `n`-bit field, most significant bit first: a Huffman code (43_inflate R219). -/
def bitsMsb : Nat → Nat → List Nat
  | 0, _ => []
  | n + 1, v => v / 2 ^ n % 2 :: bitsMsb n v

/-- Has the symbol a code, that is a length of 1 to 15 (43_inflate R219)? -/
def hasCode (lens : List Nat) (sym : Nat) : Bool := decide (1 ≤ lens.getD sym 0) && decide (lens.getD sym 0 ≤ 15)

/-- The code value of a symbol: the first value of its length, plus the symbols of that length before it (43_inflate R219). -/
def codeValue (lens : List Nat) (sym : Nat) : Nat :=
  firstCode lens (lens.getD sym 0) + (lens.take sym).count (lens.getD sym 0)

/-- The code of a symbol, as it stands in the stream. -/
def codeBits (lens : List Nat) (sym : Nat) : List Nat := bitsMsb (lens.getD sym 0) (codeValue lens sym)

/-- What a compressed block is made of, the end-of-block symbol apart: a literal byte, or a copy given by its length symbol
`257 + l`, its distance symbol and their extra bits (43_inflate R221 to R224). -/
inductive Token
  | literal (b : Byte)
  | copy (l lx d dx : Nat)
  deriving DecidableEq, Repr

/-- LBASE + extra and DBASE + extra (43_inflate R222, R223). -/
def copyLength (l lx : Nat) : Nat := (lengthTable.getD l (0, 0)).1 + lx
def copyDistance (d dx : Nat) : Nat := (distanceTable.getD d (0, 0)).1 + dx

/-- The token can be written with the codes of the lengths `lit`, `dist`. -/
def Token.legal (lit dist : List Nat) : Token → Bool
  | .literal b => hasCode lit b.toNat
  | .copy l lx d dx =>
    decide (l < 29) && hasCode lit (257 + l) && decide (lx < 2 ^ (lengthTable.getD l (0, 0)).2) &&
    decide (d < 30) && hasCode dist d && decide (dx < 2 ^ (distanceTable.getD d (0, 0)).2)

/-- The bits of a token. -/
def Token.bits (lit dist : List Nat) : Token → List Nat
  | .literal b => codeBits lit b.toNat
  | .copy l lx d dx =>
    codeBits lit (257 + l) ++ (bitsLsb (lengthTable.getD l (0, 0)).2 lx ++
      (codeBits dist d ++ bitsLsb (distanceTable.getD d (0, 0)).2 dx))

/-- `len` bytes more, each the byte `d` before the end (43_inflate R224). -/
def copyOut (d : Nat) : Nat → List Byte → List Byte
  | 0, out => out
  | n + 1, out => copyOut d n (out ++ [out.getD (out.length - d) 0#8])

/-- The output after a token, oldest byte first; `none` where a distance reaches before the first byte of output. -/
def Token.emit (out : List Byte) : Token → Option (List Byte)
  | .literal b => some (out ++ [b])
  | .copy l lx d dx => if copyDistance d dx ≤ out.length then some (copyOut (copyDistance d dx) (copyLength l lx) out) else none

/-- The output after a sequence of tokens. -/
def emitAll : List Token → List Byte → Option (List Byte)
  | [], out => some out
  | t :: ts, out =>
    match t.emit out with
    | some out' => emitAll ts out'
    | none => none

/-- The bits of a compressed block's data: its tokens, and symbol 256 (43_inflate R221). -/
def blockBits (lit dist : List Nat) (ts : List Token) : List Nat :=
  ts.flatMap (fun t => t.bits lit dist) ++ codeBits lit 256

/-- An entry of a dynamic block's length sequence (43_inflate R218): a length, three to six copies of the last one, three to ten zeros,
eleven to 138 zeros; `x` is the value of the extra bits. -/
inductive LenItem
  | len (l : Nat)
  | repeatLast (x : Nat)
  | zerosShort (x : Nat)
  | zerosLong (x : Nat)
  deriving DecidableEq, Repr

/-- The entry can be written with the code-length code of the lengths `cl`. -/
def LenItem.legal (cl : List Nat) : LenItem → Bool
  | .len l => decide (l ≤ 15) && hasCode cl l
  | .repeatLast x => hasCode cl 16 && decide (x < 4)
  | .zerosShort x => hasCode cl 17 && decide (x < 8)
  | .zerosLong x => hasCode cl 18 && decide (x < 128)

/-- The bits of an entry. -/
def LenItem.bits (cl : List Nat) : LenItem → List Nat
  | .len l => codeBits cl l
  | .repeatLast x => codeBits cl 16 ++ bitsLsb 2 x
  | .zerosShort x => codeBits cl 17 ++ bitsLsb 3 x
  | .zerosLong x => codeBits cl 18 ++ bitsLsb 7 x

/-- The lengths after an entry; `none` where there is no last length to repeat. -/
def LenItem.expand (ls : List Nat) : LenItem → Option (List Nat)
  | .len l => some (ls ++ [l])
  | .repeatLast x =>
    match ls.getLast? with
    | some l => some (ls ++ List.replicate (3 + x) l)
    | none => none
  | .zerosShort x => some (ls ++ List.replicate (3 + x) 0)
  | .zerosLong x => some (ls ++ List.replicate (11 + x) 0)

/-- The lengths a sequence of entries stands for. -/
def expandAll : List LenItem → List Nat → Option (List Nat)
  | [], ls => some ls
  | i :: is, ls =>
    match i.expand ls with
    | some ls' => expandAll is ls'
    | none => none

/-- The header of a dynamic block (43_inflate R216 to R218): HLIT, HDIST, HCLEN, the code-length code, the entries. -/
structure DynHeader where
  hlit : Nat
  hdist : Nat
  hclen : Nat
  cl : List Nat
  items : List LenItem
  lens : List Nat
  deriving DecidableEq, Repr

/-- The literal/length code's lengths and the distance code's. -/
def DynHeader.lit (h : DynHeader) : List Nat := h.lens.take h.hlit
def DynHeader.dist (h : DynHeader) : List Nat := h.lens.drop h.hlit

/-- The header meets 43_inflate R216 to R218 and its three codes R220. -/
def DynHeader.legal (h : DynHeader) : Prop :=
  257 ≤ h.hlit ∧ h.hlit ≤ 286 ∧ 1 ≤ h.hdist ∧ h.hdist ≤ 30 ∧ 4 ≤ h.hclen ∧ h.hclen ≤ 19 ∧
  h.cl.length = 19 ∧ (∀ l ∈ h.cl, l ≤ 7) ∧ (∀ sym ∈ codeOrder.drop h.hclen, h.cl.getD sym 0 = 0) ∧
  (∀ i ∈ h.items, i.legal h.cl = true) ∧ expandAll h.items [] = some h.lens ∧ h.lens.length = h.hlit + h.hdist ∧
  h.lens.getD 256 0 ≠ 0 ∧
  validateCode h.cl .codes = .ok () ∧ validateCode h.lit .lens = .ok () ∧ validateCode h.dist .dists = .ok ()

/-- The bits of the header. -/
def DynHeader.bits (h : DynHeader) : List Nat :=
  bitsLsb 5 (h.hlit - 257) ++ (bitsLsb 5 (h.hdist - 1) ++ (bitsLsb 4 (h.hclen - 4) ++
    ((codeOrder.take h.hclen).flatMap (fun sym => bitsLsb 3 (h.cl.getD sym 0)) ++
      h.items.flatMap (fun i => i.bits h.cl))))

/-! ## What a block leaves -/

/-- Where the last block of a PNG decode ends, the image needs at least one scanline and the output holds all of them (44_png R257). -/
def blockEnds (c : BlockCtx) (bfinal : Bool) (out : List Byte) : Prop :=
  bfinal = true → ∀ p, c.png = some p → 1 ≤ p.hdr.h ∧ p.hdr.h * (rowBytes p.hdr + 1) ≤ out.length

/-- The state after a block that ended at bit position `bp` with output `out` (oldest byte first): the next block is next, or, after the
last block, the output is in ZMEM and INFLATE is complete (43_inflate R210, R227) or the first scanline is next (44_png R251, R257). -/
def afterBlock (s : State) (c : BlockCtx) (bfinal : Bool) (bp : Nat) (out : List Byte) : State :=
  if bfinal then
    let t : State := { s with zmem := memWriteRun s.zmem 0 out, zlen := .val (BitVec.ofNat 32 out.length) }
    match c.png with
    | none => { t with ipos := .val (BitVec.ofNat 32 ((bp + 7) / 8)), st := .done, engine := .idle }
    | some p => { t with st := .busy, engine := .rows ⟨rowBytes p.hdr, p.hdr.h, bytesPerPixel p.hdr, 0, some p⟩ }
  else { s with engine := .blocks ⟨c.src, bp, out.reverse, c.png⟩ }

/-! ## Scanlines (44_png R262 to R267) -/

/-- The address of byte `i` of scanline `r` in ZMEM. -/
def scanAddr (rowbytes r i : Nat) : Nat := r * (rowbytes + 1) + 1 + i

/-- The predictor a filter byte names. -/
def predictorOf (ft : Nat) (a b c : Byte) : Byte :=
  if ft = 0 then 0#8
  else if ft = 1 then a
  else if ft = 2 then b
  else if ft = 3 then BitVec.ofNat 8 ((a.toNat + b.toNat) / 2)
  else paeth a b c

/-- Byte `i` of scanline `r` is reconstructed in `m` from the filtered byte in `before`: left and above-left are 0 in the first
`bpp` columns, above and above-left in the first row. -/
def reconstructedAt (before m : Mem 8) (rowbytes bpp r i ft : Nat) : Prop :=
  memRead m (scanAddr rowbytes r i) = some (byteAt before (scanAddr rowbytes r i) + predictorOf ft
    (if bpp ≤ i then byteAt m (scanAddr rowbytes r (i - bpp)) else 0#8)
    (if 1 ≤ r then byteAt m (scanAddr rowbytes (r - 1) i) else 0#8)
    (if 1 ≤ r ∧ bpp ≤ i then byteAt m (scanAddr rowbytes (r - 1) (i - bpp)) else 0#8))

/-! ## Pixel rows of a BMP (42_bmp R188, R189) -/

/-- The Color of pixel `x` of a 16-, 24- or 32-bit row at `rb`. -/
def storedColor (m : Mem 8) (bits rb x : Nat) : Option Word :=
  if bits = 16 then
    match memRead m (rb + 2 * x), memRead m (rb + 2 * x + 1) with
    | some lo, some hi => some (packColor (unpack16 (lo.toNat + 256 * hi.toNat)))
    | _, _ => none
  else if bits = 24 then
    match memRead m (rb + 3 * x), memRead m (rb + 3 * x + 1), memRead m (rb + 3 * x + 2) with
    | some b, some g, some r => some (packColor ⟨r, g, b, 255#8⟩)
    | _, _, _ => none
  else
    match memRead m (rb + 4 * x), memRead m (rb + 4 * x + 1), memRead m (rb + 4 * x + 2), memRead m (rb + 4 * x + 3) with
    | some b, some g, some r, some a => some (packColor ⟨r, g, b, a⟩)
    | _, _, _, _ => none

/-- The index of pixel `x` of a 1-, 4- or 8-bit row at `rb`: the leftmost pixel of a byte in its high bits (20_memory R62). -/
def storedIndex (m : Mem 8) (bits rb x : Nat) : Option Nat :=
  (memRead m (rb + x * bits / 8)).map (fun b => b.toNat / 2 ^ (8 - bits - x * bits % 8) % 2 ^ bits)

/-- Entry `i` of a color table of `es`-byte entries at `pos` (42_bmp R185). -/
def storedEntry (m : Mem 8) (pos es i : Nat) : Option Word :=
  match memRead m (pos + es * i), memRead m (pos + es * i + 1), memRead m (pos + es * i + 2) with
  | some b, some g, some r => some (packColor ⟨r, g, b, 255#8⟩)
  | _, _, _ => none

/-- The AND mask bit of pixel `x` of the mask row at `rb` (46_ico R308). -/
def storedMask (m : Mem 8) (rb x : Nat) : Option Bool := (memRead m (rb + x / 8)).map (fun b => b.getLsbD (7 - x % 8))

/-- The Color with its alpha forced by the mask bit: 0 where it is 1, 255 where it is 0 (46_ico R308). -/
def masked (c : Word) (bit : Bool) : Word := packColor { unpackColor c with a := if bit then 0#8 else 255#8 }

/-- The state after the pixels of a BMP: the Bitmap and the header registers written, the cursor after the last byte consumed
(42_bmp R194, 46_ico R309). -/
def afterPixels (s : State) (c : BmpHeader) (bits w h pos : Nat) (pal pmem : Mem 32) (paln : Reg) : State :=
  { s with
    pmem := pmem, pal := pal, paln := paln
    bmW := .val (BitVec.ofNat 32 w), bmH := .val (BitVec.ofNat 32 h), bmD := .val (c.ctx.depth.setWidth 32)
    bmp := ⟨.val (BitVec.ofNat 32 c.hs), .val (BitVec.ofInt 32 c.w), .val (BitVec.ofInt 32 c.h), .val (BitVec.ofNat 32 bits),
      .val 0#32, .val (BitVec.ofNat 32 c.ctx.off), .val (BitVec.ofNat 32 (bmpStride bits w))⟩
    ipos := .val (BitVec.ofNat 32 pos), st := .done, engine := .idle }

/-- The pixel at column `x`, stored row `r` of the image `m` is what `color r x` says, and outside the image nothing changed. -/
def imageIs (before m : Mem 32) (w h : Nat) (topdown : Bool) (color : Nat → Nat → Option Word) : Prop :=
  (∀ r < h, ∀ x < w, memRead m (imageRow topdown h r * w + x) = color r x) ∧ sameOutside before m 0 (w * h)

/-! ## Whole files -/

/-- A PNG chunk: length, type, payload, CRC (30_encoding R101). -/
def pngChunk (type : Nat) (payload crc : List Byte) : List Byte := be32 payload.length ++ (be32 type ++ (payload ++ crc))

/-- The 13 bytes of IHDR (30_encoding R103), interlace 0. -/
def ihdrBytes (w h : Nat) (bd ct cm fm : Byte) : List Byte := be32 w ++ (be32 h ++ [bd, ct, cm, fm, 0#8])

/-- A zlib stream of one stored block (43_inflate R211, R214, R226). -/
def storedStream (data adler : List Byte) : List Byte :=
  [0x78#8, 0x01#8, 0x01#8] ++ (le16 data.length ++ (le16 (0xFFFF - data.length) ++ (data ++ adler)))

/-- Scanlines of `rowbytes` bytes each, every one with filter byte 0 (44_png R260). -/
def unfilteredRows (rowbytes : Nat) : Nat → List Byte → List Byte
  | 0, _ => []
  | h + 1, pixels => (0#8 :: pixels.take rowbytes) ++ unfilteredRows rowbytes h (pixels.drop rowbytes)

/-- A PNG file of 8-bit RGBA pixels, 4 bytes each in `pixels`, in one stored block of one IDAT; the three CRCs and the Adler-32 are
any four bytes. -/
def pngFile (w h : Nat) (pixels crc1 crc2 crc3 adler : List Byte) : List Byte :=
  pngSignature ++ (pngChunk 0x49484452 (ihdrBytes w h 8#8 6#8 0#8 0#8) crc1 ++
    (pngChunk 0x49444154 (storedStream (unfilteredRows (4 * w) h pixels) adler) crc2 ++ pngChunk 0x49454E44 [] crc3))

/-- The RGBA Color of pixel `i`. -/
def rgbaAt (pixels : List Byte) (i : Nat) : Word :=
  packColor ⟨pixels.getD (4 * i) 0#8, pixels.getD (4 * i + 1) 0#8, pixels.getD (4 * i + 2) 0#8, pixels.getD (4 * i + 3) 0#8⟩

/-- The first 20 bytes of a 40-byte BMP info header (30_encoding R113), compression 0, with the given doubled or plain height. -/
def infoHeader (w h : Int) (planes bits imageSize ppmX ppmY clrUsed clrImportant : Nat) : List Byte :=
  le32 40 ++ (le32 (BitVec.ofInt 32 w).toNat ++ (le32 (BitVec.ofInt 32 h).toNat ++ (le16 planes ++ (le16 bits ++ (le32 0 ++
    (le32 imageSize ++ (le32 ppmX ++ (le32 ppmY ++ (le32 clrUsed ++ le32 clrImportant)))))))))

/-- The file header of a BMP (30_encoding R110) whose pixel data begin at `off`. -/
def fileHeader (size reserved off : Nat) : List Byte := [0x42#8, 0x4D#8] ++ (le32 size ++ (le32 reserved ++ le32 off))

/-- An ICO directory of one entry (30_encoding R120, R121) whose payload of `size` bytes is at 22. -/
def icoDirectory (eW eH eCc eRes : Byte) (planes bits size : Nat) : List Byte :=
  le16 0 ++ (le16 1 ++ (le16 1 ++ ([eW, eH, eCc, eRes] ++ (le16 planes ++ (le16 bits ++ (le32 size ++ le32 22))))))

/-- The state after the PNG of `pngFile` in the window `[base, …)`: the Bitmap, ZMEM, the PNG registers and the cursor written
(44_png R251 to R258). -/
def afterPng (s : State) (d : BitVec 8) (base w h : Nat) (pmem : Mem 32) (zmem : Mem 8) : State :=
  { s with
    pmem := pmem, zmem := zmem, zlen := .val (BitVec.ofNat 32 (h * (4 * w + 1)))
    bmW := .val (BitVec.ofNat 32 w), bmH := .val (BitVec.ofNat 32 h), bmD := .val (d.setWidth 32)
    png := ⟨.val (BitVec.ofNat 32 w), .val (BitVec.ofNat 32 h), .val 8#32, .val 6#32, .val 4#32, .val (BitVec.ofNat 32 (4 * w))⟩
    ipos := .val (BitVec.ofNat 32 (base + 68 + h * (4 * w + 1))), st := .done, engine := .idle }

/-! ## Where the engine reads its next word -/

/-- The word `w` of format `f` stands where the engine reads its next stream opcode (30_encoding R102, R105, R111, R115, R122;
43_inflate R213); a chunk is there with its payload and its CRC. -/
def streamWordAt (s : State) (f : Format) (w : Nat) : Prop :=
  match s.engine, f with
  | .payload c, .payloadHead => holdsAt s.imem c.off (beBytes 8 w)
  | .header c, .headerSize => c.h0 + 4 ≤ c.lim ∧ holdsAt s.imem c.h0 (le32 w)
  | .pixels c, .bitCount => holdsAt s.imem (bitCountAddr c) (le16 w)
  | .chunks c, .chunkType =>
    ∃ len < 2 ^ 32, c.pos + 12 + len ≤ c.lim ∧ holdsAt s.imem c.pos (be32 len ++ be32 w)
  | .blocks c, .blockHeader => sourceBits s.imem c.src c.bp (bitsLsb 3 w)
  | .rows c, .filterByte => memRead s.zmem (c.row * (c.rowbytes + 1)) = some (BitVec.ofNat 8 w)
  | _, _ => False

/-! ## Colors and samples -/

/-- The squared Euclidean RGB distance, differences signed (45_palmap R291, R293). -/
def squaredDistance (p q : Color) : Int :=
  ((p.r.toNat : Int) - q.r.toNat) ^ 2 + ((p.g.toNat : Int) - q.g.toNat) ^ 2 + ((p.b.toNat : Int) - q.b.toNat) ^ 2

/-- Index `k` is what `map_index` owes to the Color `c` over the palette entries `0 .. n - 1` (45_palmap R294 a, b). -/
def mapsTo (pal : Mem 32) (n : Nat) (c : Word) (k : Nat) : Prop :=
  k < n ∧
  ((∃ j < n, memRead pal j = some c) → memRead pal k = some c ∧ ∀ j < k, memRead pal j ≠ some c) ∧
  ((∀ j < n, memRead pal j ≠ some c) → ∀ e, memRead pal k = some e → ∀ j < n, ∀ e', memRead pal j = some e' →
    squaredDistance (unpackColor e) (unpackColor c) ≤ squaredDistance (unpackColor e') (unpackColor c) ∧
    (j < k → squaredDistance (unpackColor e) (unpackColor c) < squaredDistance (unpackColor e') (unpackColor c)))

/-- `sample(y, i)` scaled to 8 bits, from the bytes of ZMEM (44_png R270). -/
def sampleByte (zmem : Mem 8) (h : Ihdr) (y i : Nat) : Byte :=
  let rb := y * (rowBytes h + 1) + 1
  if h.bd = 8 then byteAt zmem (rb + i)
  else if h.bd = 16 then byteAt zmem (rb + 2 * i)
  else BitVec.ofNat 8
    ((byteAt zmem (rb + i * h.bd / 8)).toNat / 2 ^ (8 - h.bd - i * h.bd % 8) % 2 ^ h.bd * 255 / (2 ^ h.bd - 1))

/-- `color(y, x)` (44_png R271). -/
def pngColor (zmem : Mem 8) (h : Ihdr) (y x : Nat) : Color :=
  if h.ct = 0 then
    ⟨sampleByte zmem h y x, sampleByte zmem h y x, sampleByte zmem h y x, 255#8⟩
  else if h.ct = 2 then
    ⟨sampleByte zmem h y (3 * x), sampleByte zmem h y (3 * x + 1), sampleByte zmem h y (3 * x + 2), 255#8⟩
  else if h.ct = 4 then
    ⟨sampleByte zmem h y (2 * x), sampleByte zmem h y (2 * x), sampleByte zmem h y (2 * x), sampleByte zmem h y (2 * x + 1)⟩
  else
    ⟨sampleByte zmem h y (4 * x), sampleByte zmem h y (4 * x + 1), sampleByte zmem h y (4 * x + 2), sampleByte zmem h y (4 * x + 3)⟩

/-- The (colorType, bitDepth) pairs of 30_encoding R104. -/
def pngFormats : List (Nat × Nat) :=
  [(0, 1), (0, 2), (0, 4), (0, 8), (0, 16), (2, 8), (2, 16), (4, 8), (4, 16), (6, 8), (6, 16)]

/-! ## Command words -/

/-- A command word is illegal (30_encoding R96): a reserved bit is set, the opcode is none of the fourteen, a DEPTH stands where the command takes
none, or a DEPTH that is no PixelFormat where it takes one. -/
def illegalWord (w : Word) : Prop :=
  w.extractLsb' 16 16 ≠ 0#16 ∨
  w.extractLsb' 0 8 ∉ [0x00#8, 0x01#8, 0x02#8, 0x03#8, 0x04#8, 0x10#8, 0x11#8, 0x12#8, 0x20#8, 0x21#8, 0x22#8, 0x30#8, 0x31#8, 0x40#8] ∨
  (w.extractLsb' 0 8 ∈ [0x00#8, 0x01#8, 0x03#8, 0x04#8, 0x30#8, 0x31#8, 0x40#8] ∧ w.extractLsb' 8 8 ≠ 0#8) ∨
  (w.extractLsb' 0 8 ∈ [0x02#8, 0x10#8, 0x11#8, 0x12#8, 0x20#8, 0x21#8, 0x22#8] ∧
    w.extractLsb' 8 8 ∉ [1#8, 8#8, 16#8, 24#8, 32#8])

/-! ## Commands as a whole -/

/-- The row of the table of 60_exceptions R325 of an instruction: what it leaves unspecified when it fails. -/
def failureScope : Instr → Scope
  | .decbmp d => if legalDepth d then .decbmp else .nothing
  | .decpng d => if legalDepth d then .decpng else .nothing
  | .decico d => if legalDepth d then .decico else .nothing
  | .inflate => .inflate
  | .unfilt => .unfilt
  | _ => .nothing

/-- An outcome whose next state has another IMEM. -/
def withImem (m : Mem 8) : Host.Outcome State Fault Refusal → Host.Outcome State Fault Refusal
  | .next t => .next { t with imem := m }
  | .fault f => .fault f
  | .refused r => .refused r

/-- Which commands write what when they end in DONE or fail (20_memory R60, 30_encoding R93, 60_exceptions R325). -/
def writesRes0 : Instr → Bool
  | .getpx => true
  | .des _ => true
  | .ser _ => true
  | _ => false

def writesRes1 : Instr → Bool
  | .des _ => true
  | .ser _ => true
  | _ => false

def writesPixels : Instr → Bool
  | .newbm _ => true
  | .setpx => true
  | .conv _ => true
  | .decbmp _ => true
  | .decpng _ => true
  | .decico _ => true
  | _ => false

/-- BM_W and BM_H. -/
def writesSize : Instr → Bool
  | .newbm _ => true
  | .decbmp _ => true
  | .decpng _ => true
  | .decico _ => true
  | _ => false

/-- BM_D. -/
def writesDepth : Instr → Bool
  | .newbm _ => true
  | .conv _ => true
  | .decbmp _ => true
  | .decpng _ => true
  | .decico _ => true
  | _ => false

def writesZmem : Instr → Bool
  | .decpng _ => true
  | .decico _ => true
  | .inflate => true
  | .unfilt => true
  | _ => false

def writesPalette : Instr → Bool
  | .decbmp _ => true
  | .decico _ => true
  | _ => false

def writesPng : Instr → Bool
  | .decpng _ => true
  | .decico _ => true
  | _ => false

def writesCursor : Instr → Bool
  | .decbmp _ => true
  | .decpng _ => true
  | .decico _ => true
  | .inflate => true
  | _ => false

def writesDirectory : Instr → Bool
  | .decico _ => true
  | _ => false

end Sys2Proof.Machine
end

