-- ==== Sys2Proof/Certificates/Slice0/Obligations.lean ====
section
/-! DEFINITION. The statements, each a Prop with the rule of spec/ it formalises. -/

open Sys2Proof Sys2Proof.Machine

/-! ## Encoding -/

/-- Decoding the encoding of a well-formed instruction gives the instruction back, in every format and for every operand
(30_encoding R92, R102, R105, R111, R115, R122; 43_inflate R213). -/
def Obligations.DecodeInvertsEncode : Prop :=
  ∀ i : Instr, i.wellFormed = true → decode i.format (encode i) = .ok i

/-- A word of a format's width that decodes is the encoding of what it decodes to: every word has at most one meaning, and no bit of it
is dropped. -/
def Obligations.EncodeInvertsDecode : Prop :=
  ∀ (f : Format) (w : Nat) (i : Instr), w < 2 ^ f.width → decode f w = .ok i → i.format = f ∧ encode i = w

/-- A few words of the tables, one of each format, decode to their instructions (30_encoding R92, R97, R102, R105, R111, R115, R100, R122;
43_inflate R213). -/
def Obligations.TableWordsDecode : Prop :=
  decode .command 0x00002021 = .ok (.decpng 32#8) ∧ decode .command 0x00000812 = .ok (.conv 8#8) ∧
  decode .command 0x00000003 = .ok .getpx ∧ decode .chunkType 0x49444154 = .ok .pngChunkIDAT ∧
  decode .filterByte 4 = .ok .pngFilterPaeth ∧ decode .blockHeader 5 = .ok (.deflateDynamic true) ∧
  decode .headerSize 108 = .ok .bmpHeader108 ∧ decode .bitCount 24 = .ok .bmpBits24 ∧
  decode .payloadHead 0x89504E470D0A1A0A = .ok .icoPayloadPng

/-! ## A step runs the decoded instruction -/

/-- A word written to CMD in IDLE or DONE runs the command it decodes to: the step is exec of it, with the host's action consumed
(10_state R30, 30_encoding R90, R91). -/
def Obligations.StepRunsCommand : Prop :=
  ∀ (s : State) (rest : List HostOp) (w : Word) (i : Instr),
    s.script = .write .word 0#32 w :: rest → s.st = .idle ∨ s.st = .done → decode .command w.toNat = .ok i →
    step s = exec i { s with script := rest }

/-- A stream opcode where a command in flight reads it runs: with no host action pending the step is exec of it (30_encoding R102, R105, R111,
R115, R122; 43_inflate R213; the stream steps of a BUSY state are the model's, log 3). -/
def Obligations.StepRunsStreamOpcode : Prop :=
  ∀ (s : State) (f : Format) (w : Nat) (i : Instr),
    s.script = [] → s.st = .busy → w < 2 ^ f.width → streamWordAt s f w → decode f w = .ok i → step s = exec i s

/-- A value in the stream that is no opcode ends the command with the error 30_encoding R126 names for it; an unlisted chunk type is
skipped once IHDR has been seen, and is InvalidSignature before (44_png R253).
One stream opcode as one step is the model's (log 3). -/
def Obligations.IllegalStreamWordRaises : Prop :=
  ∀ (s : State) (f : Format) (w : Nat) (e : DecodeError),
    s.script = [] → s.st = .busy → w < 2 ^ f.width → streamWordAt s f w → decode f w = .error e →
    (f = .headerSize ∨ f = .bitCount → step s = .next (takeError (engineScope s.engine) .unsupportedFormat s)) ∧
    (f = .filterByte ∨ f = .blockHeader → step s = .next (takeError (engineScope s.engine) .corruptData s)) ∧
    (f = .chunkType → ∀ c len, s.engine = .chunks c → len < 2 ^ 32 → c.pos + 12 + len ≤ c.lim →
      holdsAt s.imem c.pos (be32 len ++ be32 w) →
      step s = if c.hdr.isSome then .next { s with engine := .chunks { c with pos := c.pos + 12 + len } }
        else .next (takeError (engineScope s.engine) .invalidSignature s))

/-! ## Invariants that every step keeps -/

/-- Every step keeps the five memories in their canonical form. -/
def Obligations.StepKeepsMemoriesCanonical : Prop :=
  ∀ s t : State, s.memoriesCanonical → step s = .next t → t.memoriesCanonical

/-- Every step keeps `ST = ERR ⇔ ERRCODE ≠ 0` (10_state R28), and that the engine holds hidden state exactly while BUSY (R40). -/
def Obligations.StepKeepsStatusConsistent : Prop :=
  ∀ s t : State, s.statusConsistent → step s = .next t → t.statusConsistent

/-- Every step keeps the registers within the legal values of 10_state R37, IPOS among them (R25), the Bitmap within PMEM with every pixel
written (R23, 20_memory R69), the memories within their capacities and what a command in flight carries sound; and it changes no
capacity (10_state R41). -/
def Obligations.StepKeepsBounded : Prop :=
  ∀ s t : State, s.bounded → step s = .next t → t.bounded ∧ t.cap = s.cap

/-- The state after reset of every instance is safe. -/
def Obligations.ResetIsSafe : Prop :=
  ∀ c : Capacities, (State.resetWith c).safe

/-- After reset every register reads 0, ST is IDLE, the interrupt line is low, no memory location holds a value and no command is in flight;
with no host action pending nothing happens (70_reset R360). -/
def Obligations.ResetState : Prop :=
  (∀ (c : Capacities) (r : RegName), readReg (State.resetWith c) r = .val 0#32) ∧
  (∀ (c : Capacities) (a : Nat), (State.resetWith c).st = .idle ∧ (State.resetWith c).errcode = none ∧
    irq (State.resetWith c) = false ∧ (State.resetWith c).engine = .idle ∧ memRead (State.resetWith c).imem a = none ∧
    memRead (State.resetWith c).zmem a = none ∧ memRead (State.resetWith c).pmem a = none ∧
    memRead (State.resetWith c).pal a = none ∧ memRead (State.resetWith c).xmem a = none) ∧
  (∀ c : Capacities, step (State.resetWith c) = .next (State.resetWith c))

/-- The `rst` input takes every state, BUSY or in ERR or not, to the reset state of its instance (70_reset R361). That the script, the last read
data and the count of free values stay, and that the pin is released before the next host action, is the model's (log 16, 27). -/
def Obligations.ResetPinWorksInEveryState : Prop :=
  ∀ (s : State) (rest : List HostOp), s.script = .rst :: rest →
    step s = .next { State.resetWith s.cap with script := rest, rdata := s.rdata, fresh := s.fresh }

/-! ## Commands as a whole -/

/-- Every command terminates, in DONE or in ERR (CLR in IDLE), unless the model faults: the engine never stays BUSY and never meets a word
it has no meaning for (70_reset R368).
The faults are the model's (log 4, 5). -/
def Obligations.CommandsTerminate : Prop :=
  ∀ (i : Instr) (s : State), i.format = .command →
    (∃ t, exec i s = .next t ∧ (t.st = .done ∨ t.st = .err ∨ (i = .clr ∧ t.st = .idle))) ∨ (∃ f, exec i s = .fault f)

/-- A command that ends in ERR has done what the table of 60_exceptions R325 allows it and nothing else: its state is that before it, with the
error taken and the locations of its row left without a value. -/
def Obligations.FailedCommandClobbersItsRow : Prop :=
  ∀ (i : Instr) (s t : State), i.format = .command → exec i s = .next t → t.st = .err →
    ∃ e, t = takeError (failureScope i) e s

/-- Taking an error: ERRCODE and ST are written, and each row of the table of 60_exceptions R325 loses exactly the locations it lists
(R324, R325). -/
def Obligations.ErrorEntryLeavesItsRow : Prop :=
  ∀ (e : ErrorKind) (s : State),
    takeError .nothing e s = { s with errcode := some e, st := .err, engine := .idle } ∧
    takeError .decbmp e s = { s with
      errcode := some e, st := .err, engine := .idle
      bmW := .unspecified, bmH := .unspecified, bmD := .unspecified, pmem := []
      pal := [], paln := .unspecified
      bmp := ⟨.unspecified, .unspecified, .unspecified, .unspecified, .unspecified, .unspecified, .unspecified⟩
      ipos := .unspecified } ∧
    takeError .decpng e s = { s with
      errcode := some e, st := .err, engine := .idle
      bmW := .unspecified, bmH := .unspecified, bmD := .unspecified, pmem := []
      zmem := [], zlen := .unspecified
      png := ⟨.unspecified, .unspecified, .unspecified, .unspecified, .unspecified, .unspecified⟩
      ipos := .unspecified } ∧
    takeError .decico e s = { s with
      errcode := some e, st := .err, engine := .idle
      bmW := .unspecified, bmH := .unspecified, bmD := .unspecified, pmem := []
      pal := [], paln := .unspecified
      bmp := ⟨.unspecified, .unspecified, .unspecified, .unspecified, .unspecified, .unspecified, .unspecified⟩
      zmem := [], zlen := .unspecified
      png := ⟨.unspecified, .unspecified, .unspecified, .unspecified, .unspecified, .unspecified⟩
      ico := ⟨.unspecified, .unspecified, .unspecified, .unspecified, .unspecified, .unspecified, .unspecified, .unspecified,
        .unspecified⟩
      ipos := .unspecified } ∧
    takeError .inflate e s = { s with
      errcode := some e, st := .err, engine := .idle, zmem := [], zlen := .unspecified, ipos := .unspecified } ∧
    takeError .unfilt e s = { s with errcode := some e, st := .err, engine := .idle, zmem := [] }

/-- No instruction, command or stream opcode, writes IMEM, ILEN, ARG0 to ARG2 or CTRL (20_memory R73, 10_state R22, R29, R31, R38), nor the model's
own fields. -/
def Obligations.InputIsNeverWritten : Prop :=
  ∀ (i : Instr) (s t : State), exec i s = .next t →
    t.imem = s.imem ∧ t.ilen = s.ilen ∧ t.arg0 = s.arg0 ∧ t.arg1 = s.arg1 ∧ t.arg2 = s.arg2 ∧ t.ie = s.ie ∧ t.cap = s.cap ∧
    t.script = s.script ∧ t.rdata = s.rdata ∧ t.fresh = s.fresh

/-- A command writes nothing but what its row of 30_encoding R93 names, or, where it ends in ERR, its row of 60_exceptions R325: every other
register and every other memory is as before. A DECICO that ends in DONE leaves the state of the path it did not take (10_state R34, R35),
and pixels that are not indexed leave PAL and PALN (42_bmp R185). -/
def Obligations.CommandFrame : Prop :=
  ∀ (i : Instr) (s t : State), i.format = .command → exec i s = .next t →
    (writesRes0 i = false → t.res0 = s.res0) ∧ (writesRes1 i = false → t.res1 = s.res1) ∧
    (writesPixels i = false → t.pmem = s.pmem) ∧ (writesSize i = false → t.bmW = s.bmW ∧ t.bmH = s.bmH) ∧
    (writesDepth i = false → t.bmD = s.bmD) ∧
    (writesZmem i = false → t.zmem = s.zmem) ∧ (writesZmem i = false ∨ i = .unfilt → t.zlen = s.zlen) ∧
    (writesPalette i = false → t.pal = s.pal ∧ t.paln = s.paln ∧ t.bmp = s.bmp) ∧
    (writesPng i = false → t.png = s.png) ∧ (writesDirectory i = false → t.ico = s.ico) ∧
    (writesCursor i = false → t.ipos = s.ipos) ∧ (i ≠ .palmap → t.xmem = s.xmem) ∧
    (t.st = .done → t.errcode = s.errcode) ∧
    (t.st = .done → t.bmp.bits = .val 16#32 ∨ t.bmp.bits = .val 24#32 ∨ t.bmp.bits = .val 32#32 → t.pal = s.pal ∧ t.paln = s.paln) ∧
    (∀ d, i = .decico d → t.st = .done →
      (t.ico.sel = .val 1#32 ∧ t.pal = s.pal ∧ t.paln = s.paln ∧ t.bmp = s.bmp) ∨
      (t.ico.sel = .val 0#32 ∧ t.zmem = s.zmem ∧ t.zlen = s.zlen ∧ t.png = s.png)) ∧
    (t.st = .err → failureScope i = .nothing → t = { s with errcode := t.errcode, st := .err, engine := .idle })

/-- Bytes of IMEM at and beyond ILEN are never read: a command does the same, faults included, whatever stands there (20_memory R68). -/
def Obligations.InputWindowIsIlen : Prop :=
  ∀ (i : Instr) (s : State) (m : Mem 8), i.format = .command → (∀ a < s.ilen.toNat, memRead m a = memRead s.imem a) →
    exec i { s with imem := m } = withImem m (exec i s)

/-! ## The host interface -/

/-- An illegal command word raises UnsupportedFormat and changes no other state (30_encoding R96); and so does, as an instruction, a command with a
DEPTH that is no PixelFormat (R94). -/
def Obligations.IllegalCommandRaises : Prop :=
  (∀ (s : State) (rest : List HostOp) (w : Word),
    s.script = .write .word 0#32 w :: rest → s.st = .idle ∨ s.st = .done → illegalWord w →
    step s = .next { s with script := rest, errcode := some .unsupportedFormat, st := .err, engine := .idle }) ∧
  (∀ (d : BitVec 8) (i : Instr) (s : State), legalDepth d = false →
    i ∈ [Instr.newbm d, .des d, .ser d, .conv d, .decbmp d, .decpng d, .decico d] →
    exec i s = .next { s with errcode := some .unsupportedFormat, st := .err, engine := .idle })

/-- In ERR the word of CLR returns to IDLE and every other word written to CMD, legal or not, changes nothing but the host's pending
actions (60_exceptions R327, R328). -/
def Obligations.ErrAcceptsOnlyClr : Prop :=
  ∀ (s : State) (rest : List HostOp) (w : Word), s.script = .write .word 0#32 w :: rest → s.st = .err →
    step s = if w = 1#32 then .next { s with script := rest, errcode := none, st := .idle } else .next { s with script := rest }

/-- While BUSY a CMD write changes nothing (60_exceptions R326), a STATUS read returns BUSY, and every other host access is refused
(70_reset R365).
A state with ST BUSY is the model's refinement (log 3), the refusals are its own (log 13, 14). -/
def Obligations.BusyHostAccess : Prop :=
  ∀ (s : State) (rest : List HostOp) (width : Width) (a v : Word), s.st = .busy →
    (s.script = .write .word 0#32 v :: rest → step s = .next { s with script := rest }) ∧
    (s.script = .read .word 4#32 :: rest → step s = .next { s with script := rest, rdata := some 1#32, fresh := s.fresh + 1 }) ∧
    (s.script = .write width a v :: rest → ¬(width = .word ∧ a = 0#32) →
      step s = .refused .accessWhileBusy ∨ step s = .refused .busError) ∧
    (s.script = .read width a :: rest → ¬(width = .word ∧ a = 4#32) →
      step s = .refused .accessWhileBusy ∨ step s = .refused .busError)

/-- A host access that is misaligned, of one or two bytes to a register, PAL or PMEM, or to an address outside every window is a bus error,
which the model refuses (20_memory R65, R75). -/
def Obligations.BusErrorsRefused : Prop :=
  ∀ (s : State) (rest : List HostOp) (width : Width) (a v : Word), s.cap.legal = true →
    (s.script = .write width a v :: rest ∨ s.script = .read width a :: rest) →
    (a.toNat % widthBytes width ≠ 0 ∨
      (width ≠ .word ∧ (a.toNat < 0x100 ∨ (0x400 ≤ a.toNat ∧ a.toNat < 0x800) ∨
        (0x03000000 ≤ a.toNat ∧ a.toNat < 0x03000000 + 4 * s.cap.pmemPixels))) ∨
      ((0x100 ≤ a.toNat ∧ a.toNat < 0x400) ∨ (0x800 ≤ a.toNat ∧ a.toNat < 0x01000000) ∨
        (0x01000000 + s.cap.imemBytes ≤ a.toNat ∧ a.toNat < 0x02000000) ∨
        (0x02000000 + s.cap.zmemBytes ≤ a.toNat ∧ a.toNat < 0x03000000) ∨
        (0x03000000 + 4 * s.cap.pmemPixels ≤ a.toNat ∧ a.toNat < 0x04000000) ∨
        0x04000000 + s.cap.pmemPixels ≤ a.toNat)) →
    step s = .refused .busError

/-- A host read has no side effect at any address: the state differs at most in the data the host got, and in the model's count of free values
(20_memory R67; log 6, 7). A word read at a register's offset delivers what the register holds, CMD reads 0, and the reserved offsets
read 0 and ignore writes (10_state R37). -/
def Obligations.HostReadsChangeNothing : Prop :=
  (∀ (s t : State) (rest : List HostOp) (width : Width) (a : Word), s.script = .read width a :: rest → step s = .next t →
    ∃ v, t = { s with script := rest, rdata := some v, fresh := s.fresh + 1 }) ∧
  (∀ (s : State) (rest : List HostOp) (r : RegName) (a : Nat) (v : Word), (r, a, Reg.val v) ∈ hostRegisters s →
    s.st ≠ .busy ∨ r = .status → s.script = .read .word (BitVec.ofNat 32 a) :: rest →
    step s = .next { s with script := rest, rdata := some v, fresh := s.fresh + 1 }) ∧
  (∀ (s : State) (rest : List HostOp) (a : Nat) (v : Word), 0x98 ≤ a → a ≤ 0xFC → a % 4 = 0 → s.st ≠ .busy →
    (s.script = .read .word (BitVec.ofNat 32 a) :: rest →
      step s = .next { s with script := rest, rdata := some 0#32, fresh := s.fresh + 1 }) ∧
    (s.script = .write .word (BitVec.ofNat 32 a) v :: rest → step s = .next { s with script := rest }))

/-- A host write of one, two or four bytes to IMEM, ZMEM or XMEM stores its low bytes at rising addresses and nothing else, a read of bytes that are
part of the data delivers them so, and a word written to IMEM and then read byte by byte yields bits 7:0, 15:8, 23:16, 31:24
(20_memory R63, R75; the addresses are offsets from IMGDEC_BASE, log 15). -/
def Obligations.WordThenBytes : Prop :=
  (∀ (s : State) (rest : List HostOp) (sp : Space) (base size i : Nat) (m : Mem 8) (width : Width) (v : Word), s.cap.legal = true →
    s.st ≠ .busy → (sp, base, m, size) ∈ byteMemories s → i % widthBytes width = 0 → i + widthBytes width ≤ size →
    s.script = .write width (BitVec.ofNat 32 (base + i)) v :: rest →
    ∃ m', step s = .next (({ s with script := rest } : State).withBytes sp m') ∧
      (∀ k < widthBytes width, memRead m' (i + k) = some (v.extractLsb' (8 * k) 8)) ∧ sameOutside m m' i (widthBytes width)) ∧
  (∀ (s : State) (rest : List HostOp) (sp : Space) (base size i : Nat) (m : Mem 8) (width : Width) (bytes : List Byte),
    s.cap.legal = true → s.st ≠ .busy → (sp, base, m, size) ∈ byteMemories s → i % widthBytes width = 0 →
    i + widthBytes width ≤ size → bytes.length = widthBytes width → holdsAt m i bytes →
    (∀ k < widthBytes width, inData s sp (i + k)) → s.script = .read width (BitVec.ofNat 32 (base + i)) :: rest →
    ∃ v, step s = .next { s with script := rest, rdata := some v, fresh := s.fresh + 1 } ∧
      (∀ k < widthBytes width, some (v.extractLsb' (8 * k) 8) = bytes[k]?) ∧ v.toNat < 256 ^ widthBytes width) ∧
  (∀ (s : State) (rest : List HostOp) (k j : Nat) (v : Word), s.st ≠ .busy → j < 4 → 4 * k + 4 ≤ s.cap.imemBytes →
      s.cap.imemBytes ≤ 2 ^ 24 →
      s.script = .write .word (BitVec.ofNat 32 (0x01000000 + 4 * k)) v ::
        .read .byte (BitVec.ofNat 32 (0x01000000 + 4 * k + j)) :: rest →
      ∃ m, step s = .next { s with imem := m, script := .read .byte (BitVec.ofNat 32 (0x01000000 + 4 * k + j)) :: rest } ∧
        sameOutside s.imem m (4 * k) 4 ∧
        step { s with imem := m, script := .read .byte (BitVec.ofNat 32 (0x01000000 + 4 * k + j)) :: rest } =
          .next { s with imem := m, script := rest, rdata := some ((v.extractLsb' (8 * j) 8).setWidth 32), fresh := s.fresh + 1 })

/-- A host write of a register other than CMD: CTRL stores bit 0, the length registers a clamped value, the operand registers the word, a
read-only register nothing; every other register and all else is as before (10_state R22, R29, R31, R32, R33, R37). -/
def Obligations.RegisterWrites : Prop :=
  ∀ (s : State) (rest : List HostOp) (r : RegName) (v : Word), s.st ≠ .busy → r ≠ .cmd →
    s.script = .write .word (BitVec.ofNat 32 (regOffset r)) v :: rest →
    ∃ t, step s = .next t ∧
      readReg t r = (match r with
        | .ctrl => .val (v &&& 1#32)
        | .ilen => .val (BitVec.ofNat 32 (min v.toNat s.cap.imemBytes))
        | .arg0 => .val v
        | .arg1 => .val v
        | .arg2 => .val v
        | .paln => .val (BitVec.ofNat 32 (min v.toNat 256))
        | .zlen => .val (BitVec.ofNat 32 (min v.toNat s.cap.zmemBytes))
        | _ => readReg s r) ∧
      (∀ r', r' ≠ r → readReg t r' = readReg s r') ∧
      t.imem = s.imem ∧ t.zmem = s.zmem ∧ t.pmem = s.pmem ∧ t.pal = s.pal ∧ t.xmem = s.xmem ∧ t.engine = s.engine ∧
      t.cap = s.cap ∧ t.script = rest ∧ t.rdata = s.rdata ∧ t.fresh = s.fresh

/-- A Color the host writes to an entry of PAL or PMEM, part of the data or not, is in that entry alone; a read of an entry that is part of the data
delivers its Color; so a Color written to a valid palette entry reads back (10_state R24, R32; 20_memory R63, R75). -/
def Obligations.PaletteHoldsHostColors : Prop :=
  (∀ (s : State) (rest : List HostOp) (sp : Space) (base size i : Nat) (m : Mem 32) (v : Word), s.cap.legal = true → s.st ≠ .busy →
    (sp, base, m, size) ∈ colorMemories s → i < size → s.script = .write .word (BitVec.ofNat 32 (base + 4 * i)) v :: rest →
    ∃ m', step s = .next (({ s with script := rest } : State).withColors sp m') ∧ memRead m' i = some v ∧ sameOutside m m' i 1) ∧
  (∀ (s : State) (rest : List HostOp) (sp : Space) (base size i : Nat) (m : Mem 32) (v : Word), s.cap.legal = true → s.st ≠ .busy →
    (sp, base, m, size) ∈ colorMemories s → i < size → memRead m i = some v → inData s sp i →
    s.script = .read .word (BitVec.ofNat 32 (base + 4 * i)) :: rest →
    step s = .next { s with script := rest, rdata := some v, fresh := s.fresh + 1 }) ∧
  (∀ (s : State) (rest : List HostOp) (i : Nat) (n v : Word), s.st ≠ .busy → s.paln = .val n → i < n.toNat → i < 256 →
      s.script = .write .word (BitVec.ofNat 32 (0x400 + 4 * i)) v :: .read .word (BitVec.ofNat 32 (0x400 + 4 * i)) :: rest →
      ∃ m, step s = .next { s with pal := m, script := .read .word (BitVec.ofNat 32 (0x400 + 4 * i)) :: rest } ∧
        memRead m i = some v ∧ sameOutside s.pal m i 1 ∧
        step { s with pal := m, script := .read .word (BitVec.ofNat 32 (0x400 + 4 * i)) :: rest } =
          .next { s with pal := m, script := rest, rdata := some v, fresh := s.fresh + 1 })

/-- The model gives no value where the spec forbids it one. A host read of a memory faults at its first location that holds no value, and a host read
of a register that a failed command left unspecified faults. A command faults at the first it needs of them: BM_W, BM_H, PALN, ZLEN,
a pixel of GETPX, a byte of DES (20_memory R69, 60_exceptions R325).
The faults are the model's, as the spec asks of one (log 4, 5). -/
def Obligations.UnspecifiedReadsFault : Prop :=
  (∀ (s : State) (rest : List HostOp) (sp : Space) (base size i k : Nat) (m : Mem 8) (width : Width), s.cap.legal = true →
    s.st ≠ .busy → (sp, base, m, size) ∈ byteMemories s → i % widthBytes width = 0 → i + widthBytes width ≤ size →
    k < widthBytes width → (∀ j < k, memRead m (i + j) ≠ none) → memRead m (i + k) = none →
    s.script = .read width (BitVec.ofNat 32 (base + i)) :: rest → step s = .fault (.unwrittenRead sp (i + k))) ∧
  (∀ (s : State) (rest : List HostOp) (sp : Space) (base size i : Nat) (m : Mem 32), s.cap.legal = true → s.st ≠ .busy →
    (sp, base, m, size) ∈ colorMemories s → i < size → memRead m i = none →
    s.script = .read .word (BitVec.ofNat 32 (base + 4 * i)) :: rest → step s = .fault (.unwrittenRead sp i)) ∧
  (∀ (s : State) (rest : List HostOp) (r : RegName) (a : Nat), s.st ≠ .busy → (r, a, Reg.unspecified) ∈ hostRegisters s →
    s.script = .read .word (BitVec.ofNat 32 a) :: rest → step s = .fault (.unspecifiedRead r)) ∧
  (∀ (s : State) (w h : Word), s.bmW = .val w → s.bmH = .val h → s.arg0.toNat < w.toNat → s.arg1.toNat < h.toNat →
    memRead s.pmem (s.arg1.toNat * w.toNat + s.arg0.toNat) = none →
    exec .getpx s = .fault (.unwrittenRead .pmem (s.arg1.toNat * w.toNat + s.arg0.toNat))) ∧
  (∀ (s : State) (f : BitVec 8) (d : Depth) (k : Nat), depthOfField f = some d → s.arg0.toNat + nbytes d ≤ s.ilen.toNat →
    k < nbytes d → (∀ j < k, memRead s.imem (s.arg0.toNat + j) ≠ none) → memRead s.imem (s.arg0.toNat + k) = none →
    exec (.des f) s = .fault (.unwrittenRead .imem (s.arg0.toNat + k))) ∧
  (∀ (s : State) (i : Instr), i ∈ [Instr.getpx, .setpx, .palmap, .conv 1#8, .conv 8#8, .conv 16#8, .conv 24#8, .conv 32#8] →
    (s.bmW = .unspecified → exec i s = .fault (.unspecifiedRead .bmW)) ∧
    (∀ w, s.bmW = .val w → s.bmH = .unspecified → exec i s = .fault (.unspecifiedRead .bmH))) ∧
  (∀ (s : State) (w h : Word), s.bmW = .val w → s.bmH = .val h → 0 < w.toNat * h.toNat → s.paln = .unspecified →
    exec .palmap s = .fault (.unspecifiedRead .paln)) ∧
  (∀ s : State, 1 ≤ s.arg2.toNat → s.arg2.toNat ≤ 8 → s.zlen = .unspecified → exec .unfilt s = .fault (.unspecifiedRead .zlen))

/-- The interrupt line is a level: `irq = CTRL.IE and (ST = DONE or ST = ERR)`; reset, CLR and a write of IE = 0 leave it low, and it is low
while BUSY (60_exceptions R330). -/
def Obligations.InterruptLine : Prop :=
  ∀ s : State, (irq s = true ↔ s.ie = true ∧ (s.st = .done ∨ s.st = .err)) ∧
    (∀ c : Capacities, irq (State.resetWith c) = false) ∧ (∀ t, exec .clr s = .next t → irq t = false) ∧
    (∀ (rest : List HostOp) (v : Word) (t : State), s.script = .write .word 0x0C#32 v :: rest → v.getLsbD 0 = false →
      step s = .next t → irq t = false) ∧
    (s.st = .busy → irq s = false)

/-! ## Control and Bitmap commands -/

/-- NOP (0x00000000) moves ST to DONE, from IDLE or DONE; CLR (0x00000001) clears ERRCODE and moves ST to IDLE, from IDLE, DONE or ERR; neither
changes anything else. The word 0x00000100 is no NOP and raises UnsupportedFormat, and in ERR no word but CLR is accepted
(40_bitmap_ctrl R140, R141). -/
def Obligations.NopAndClr : Prop :=
  encode .nop = 0x00000000 ∧ encode .clr = 0x00000001 ∧
  ∀ s : State, exec .nop s = .next { s with st := .done, engine := .idle } ∧
    exec .clr s = .next { s with errcode := none, st := .idle } ∧
    (∀ rest, s.script = .write .word 0#32 0x00000000#32 :: rest → s.st = .idle ∨ s.st = .done →
      step s = .next { s with script := rest, st := .done, engine := .idle }) ∧
    (∀ rest, s.script = .write .word 0#32 0x00000001#32 :: rest → s.st ≠ .busy →
      step s = .next { s with script := rest, errcode := none, st := .idle }) ∧
    (∀ rest, s.script = .write .word 0#32 0x00000100#32 :: rest → s.st = .idle ∨ s.st = .done →
      step s = .next { s with script := rest, errcode := some .unsupportedFormat, st := .err, engine := .idle }) ∧
    (∀ rest w, s.script = .write .word 0#32 w :: rest → s.st = .err → w ≠ 0x00000001#32 → step s = .next { s with script := rest })

/-- NEWBM.d makes a Bitmap of ARG0 by ARG1 black-transparent pixels, or raises UnsupportedFormat for a zero or over-capacity size, the product
taken as a mathematical integer, and then changes nothing else (40_bitmap_ctrl R142). That PMEM beyond the new Bitmap keeps what it held is the
model's (a host read there returns any value, log 6). -/
def Obligations.NewbmMakesBitmap : Prop :=
  ∀ (d : BitVec 8) (s : State), legalDepth d = true →
    (1 ≤ s.arg0.toNat → 1 ≤ s.arg1.toNat → s.arg0.toNat * s.arg1.toNat ≤ s.cap.pmemPixels →
      ∃ m, exec (.newbm d) s = .next { s with
          pmem := m, bmW := .val s.arg0, bmH := .val s.arg1, bmD := .val (d.setWidth 32), st := .done, engine := .idle } ∧
        (∀ k < s.arg0.toNat * s.arg1.toNat, memRead m k = some 0#32) ∧
        sameOutside s.pmem m 0 (s.arg0.toNat * s.arg1.toNat)) ∧
    (s.arg0.toNat = 0 ∨ s.arg1.toNat = 0 ∨ s.cap.pmemPixels < s.arg0.toNat * s.arg1.toNat →
      exec (.newbm d) s = .next { s with errcode := some .unsupportedFormat, st := .err, engine := .idle })

/-- GETPX of a pixel of the Bitmap puts its Color in RES0, and outside the Bitmap raises OutOfBounds; either way it changes nothing else
(40_bitmap_ctrl R143). -/
def Obligations.GetpxReadsPixel : Prop :=
  ∀ (s : State) (w h : Word), s.bmW = .val w → s.bmH = .val h →
    (∀ c, s.arg0.toNat < w.toNat → s.arg1.toNat < h.toNat → memRead s.pmem (s.arg1.toNat * w.toNat + s.arg0.toNat) = some c →
      exec .getpx s = .next { s with res0 := c, st := .done, engine := .idle }) ∧
    (w.toNat ≤ s.arg0.toNat ∨ h.toNat ≤ s.arg1.toNat →
      exec .getpx s = .next { s with errcode := some .outOfBounds, st := .err, engine := .idle })

/-- SETPX of a pixel of the Bitmap stores the Color of ARG2 with all four channels, whatever BM_D is, in that one PMEM entry; outside the Bitmap it
raises OutOfBounds and changes nothing else (40_bitmap_ctrl R144). -/
def Obligations.SetpxWritesPixel : Prop :=
  ∀ (s : State) (w h : Word), s.bmW = .val w → s.bmH = .val h →
    (s.arg0.toNat < w.toNat → s.arg1.toNat < h.toNat →
      ∃ m, exec .setpx s = .next { s with pmem := m, st := .done, engine := .idle } ∧
        memRead m (s.arg1.toNat * w.toNat + s.arg0.toNat) = some s.arg2 ∧
        sameOutside s.pmem m (s.arg1.toNat * w.toNat + s.arg0.toNat) 1) ∧
    (w.toNat ≤ s.arg0.toNat ∨ h.toNat ≤ s.arg1.toNat →
      exec .setpx s = .next { s with errcode := some .outOfBounds, st := .err, engine := .idle })

/-! ## The depth converter -/

/-- DES.d reads `nbytes(d)` bytes at ARG0, at any alignment, and puts the Color they encode in RES0 and their number in RES1; where fewer lie
below ILEN, computed without wrap-around, it raises TruncatedData, for an illegal d UnsupportedFormat, and then changes nothing else
(41_depth_converter R167). -/
def Obligations.DesReadsColor : Prop :=
  (∀ (f : BitVec 8) (d : Depth) (s : State), depthOfField f = some d →
    (∀ bytes : List Byte, bytes.length = nbytes d → s.arg0.toNat + nbytes d ≤ s.ilen.toNat → holdsAt s.imem s.arg0.toNat bytes →
      exec (.des f) s = .next { s with
        res0 := packColor (des d bytes), res1 := BitVec.ofNat 32 (nbytes d), st := .done, engine := .idle }) ∧
    (s.ilen.toNat < s.arg0.toNat + nbytes d →
      exec (.des f) s = .next { s with errcode := some .truncatedData, st := .err, engine := .idle })) ∧
  (∀ (f : BitVec 8) (s : State), f ∉ [1#8, 8#8, 16#8, 24#8, 32#8] →
    exec (.des f) s = .next { s with errcode := some .unsupportedFormat, st := .err, engine := .idle })

/-- SER.d puts the bytes of the Color in ARG2, little-endian with unused high bytes 0, in RES0 and their number in RES1; for an illegal d it raises
UnsupportedFormat and changes nothing else (41_depth_converter R168). -/
def Obligations.SerPacksColor : Prop :=
  (∀ (f : BitVec 8) (d : Depth) (s : State), depthOfField f = some d →
    ∃ v, exec (.ser f) s = .next { s with res0 := v, res1 := BitVec.ofNat 32 (nbytes d), st := .done, engine := .idle } ∧
      (∀ k < nbytes d, some (v.extractLsb' (8 * k) 8) = (ser d (unpackColor s.arg2))[k]?) ∧ v.toNat < 256 ^ nbytes d) ∧
  (∀ (f : BitVec 8) (s : State), f ∉ [1#8, 8#8, 16#8, 24#8, 32#8] →
    exec (.ser f) s = .next { s with errcode := some .unsupportedFormat, st := .err, engine := .idle })

/-- The forms of a Color: its bytes at the five depths, both ways, and its word, R lowest (41_depth_converter R160 to R164, R166; 30_encoding R95;
10_state R24); the Color of a 16-bit BMP pixel, with the table of its scaling, and the stride of a BMP row, with the
examples of its rule (42_bmp R189, R187). -/
def Obligations.DepthForms : Prop :=
  (∀ (b0 b1 b2 b3 : Byte) (c : Color),
    des .d1 [b0] = ⟨if b0 = 0#8 then 0#8 else 255#8, 0#8, 0#8, 0#8⟩ ∧ des .d8 [b0] = ⟨b0, b0, b0, 255#8⟩ ∧
    des .d16 [b0, b1] = ⟨b0, b1, 0#8, 255#8⟩ ∧ des .d24 [b0, b1, b2] = ⟨b0, b1, b2, 255#8⟩ ∧
    des .d32 [b0, b1, b2, b3] = ⟨b0, b1, b2, b3⟩ ∧
    ser .d1 c = [if 127 < c.r.toNat then 1#8 else 0#8] ∧ ser .d8 c = [c.r] ∧ ser .d16 c = [c.r, c.g] ∧
    ser .d24 c = [c.r, c.g, c.b] ∧ ser .d32 c = [c.r, c.g, c.b, c.a]) ∧
  (∀ c : Color, (packColor c).toNat = c.r.toNat + 2 ^ 8 * c.g.toNat + 2 ^ 16 * c.b.toNat + 2 ^ 24 * c.a.toNat ∧
    unpackColor (packColor c) = c) ∧
  (∀ w : Word, packColor (unpackColor w) = w ∧
    ser .d32 (unpackColor w) = [w.extractLsb' 0 8, w.extractLsb' 8 8, w.extractLsb' 16 8, w.extractLsb' 24 8]) ∧
  (∀ r5 < 32, ∀ g5 < 32, ∀ skipped < 2, ∀ b5 < 32, unpack16 (r5 * 2 ^ 11 + g5 * 2 ^ 6 + skipped * 2 ^ 5 + b5) =
    ⟨BitVec.ofNat 8 (r5 * 255 / 31), BitVec.ofNat 8 (g5 * 255 / 31), BitVec.ofNat 8 (b5 * 255 / 31), 255#8⟩) ∧
  ((List.range 32).map (fun k => (unpack16 k).b.toNat) =
    [0, 8, 16, 24, 32, 41, 49, 57, 65, 74, 82, 90, 98, 106, 115, 123, 131, 139, 148, 156, 164, 172, 180, 189, 197, 205, 213, 222, 230,
      238, 246, 255]) ∧
  (∀ bits w : Nat, bmpStride bits w = (bits * w + 31) / 32 * 4 ∧ bmpStride bits w = 4 * (((bits * w + 7) / 8 + 3) / 4)) ∧
  ([(24, 2), (1, 1), (1, 33), (4, 9), (16, 3), (32, 5), (8, 4)].map (fun p => bmpStride p.1 p.2) = [8, 4, 8, 8, 8, 20, 4])

/-- CONV.d replaces every pixel of the Bitmap by `des(ser(pixel, d), 0, d)`, records d in BM_D and changes nothing else; with the empty Bitmap only
BM_D changes; for an illegal d it raises UnsupportedFormat and changes nothing else (41_depth_converter R169). -/
def Obligations.ConvConvertsBitmap : Prop :=
  (∀ (f : BitVec 8) (d : Depth) (s : State) (w h : Word), depthOfField f = some d → s.bmW = .val w → s.bmH = .val h →
    (∀ k < w.toNat * h.toNat, memRead s.pmem k ≠ none) →
    ∃ m, exec (.conv f) s = .next { s with pmem := m, bmD := .val (f.setWidth 32), st := .done, engine := .idle } ∧
      (∀ k < w.toNat * h.toNat, memRead m k =
        (memRead s.pmem k).map (fun c => packColor (des d (ser d (unpackColor c))))) ∧
      sameOutside s.pmem m 0 (w.toNat * h.toNat)) ∧
  (∀ (f : BitVec 8) (s : State), f ∉ [1#8, 8#8, 16#8, 24#8, 32#8] →
    exec (.conv f) s = .next { s with errcode := some .unsupportedFormat, st := .err, engine := .idle })

/-- The laws of the depth converter: which bytes and which Colors survive the round trip, and that conversion is idempotent
(41_depth_converter R170 a, b, c). -/
def Obligations.DepthLaws : Prop :=
  (∀ (d : Depth) (bytes : List Byte), bytes.length = nbytes d →
    (ser d (des d bytes) = bytes ↔ d ≠ .d1 ∨ bytes = [0#8] ∨ bytes = [1#8])) ∧
  (∀ c : Color,
    des .d32 (ser .d32 c) = c ∧ (des .d24 (ser .d24 c) = c ↔ c.a = 255#8) ∧
    (des .d16 (ser .d16 c) = c ↔ c.b = 0#8 ∧ c.a = 255#8) ∧
    (des .d8 (ser .d8 c) = c ↔ c.r = c.g ∧ c.g = c.b ∧ c.a = 255#8) ∧
    (des .d1 (ser .d1 c) = c ↔ c = ⟨0#8, 0#8, 0#8, 0#8⟩ ∨ c = ⟨255#8, 0#8, 0#8, 0#8⟩)) ∧
  (∀ (d : Depth) (c : Color), des d (ser d (des d (ser d c))) = des d (ser d c))

/-! ## The color mapper -/

/-- PALMAP writes for every pixel the lowest index of its exact Color, alpha included, or where the palette lacks it the lowest index at the least
squared RGB distance, and changes nothing else; with pixels and no palette it raises UnsupportedFormat and changes nothing else; with the empty
Bitmap it does nothing, palette or not (45_palmap R290, R291, R292). -/
def Obligations.PalmapMapsPixels : Prop :=
  ∀ (s : State) (w h : Word), s.bmW = .val w → s.bmH = .val h →
    (∀ n : Word, s.paln = .val n → 1 ≤ n.toNat → n.toNat ≤ 256 →
      (∀ k < n.toNat, memRead s.pal k ≠ none) → (∀ i < w.toNat * h.toNat, memRead s.pmem i ≠ none) →
      ∃ m, exec .palmap s = .next { s with xmem := m, st := .done, engine := .idle } ∧
        (∀ i < w.toNat * h.toNat, ∀ c, memRead s.pmem i = some c →
          ∃ k, memRead m i = some (BitVec.ofNat 8 k) ∧ mapsTo s.pal n.toNat c k) ∧
        sameOutside s.xmem m 0 (w.toNat * h.toNat)) ∧
    (0 < w.toNat * h.toNat → s.paln = .val 0#32 →
      exec .palmap s = .next { s with errcode := some .unsupportedFormat, st := .err, engine := .idle }) ∧
    (w.toNat * h.toNat = 0 → exec .palmap s = .next { s with st := .done, engine := .idle })

/-! ## Scanline filters -/

/-- Each filter byte reconstructs its scanline in place, byte after byte, from the bytes to the left, above and above-left as already
reconstructed; the other rows, the filter bytes and all else stay; then the next scanline is next, or the command is complete, or the
samples of a PNG are unpacked (44_png R260 to R267, R251).
One scanline as one step is the model's (log 3). -/
def Obligations.FilterReconstructsRow : Prop :=
  ∀ (ft : Nat) (i : Instr) (s : State) (c : RowCtx),
    (ft, i) ∈ [(0, Instr.pngFilterNone), (1, .pngFilterSub), (2, .pngFilterUp), (3, .pngFilterAverage), (4, .pngFilterPaeth)] →
    s.engine = .rows c → 1 ≤ c.bpp →
    (∀ k < c.rowbytes, memRead s.zmem (scanAddr c.rowbytes c.row k) ≠ none) →
    (1 ≤ c.row → ∀ k < c.rowbytes, memRead s.zmem (scanAddr c.rowbytes (c.row - 1) k) ≠ none) →
    ∃ m, (∀ k < c.rowbytes, reconstructedAt s.zmem m c.rowbytes c.bpp c.row k ft) ∧
      sameOutside s.zmem m (scanAddr c.rowbytes c.row 0) c.rowbytes ∧
      (c.row + 1 < c.rows →
        exec i s = .next { s with zmem := m, st := .busy, engine := .rows { c with row := c.row + 1 } }) ∧
      (c.rows ≤ c.row + 1 → c.png = none → exec i s = .next { s with zmem := m, st := .done, engine := .idle }) ∧
      (c.rows ≤ c.row + 1 → ∀ p, c.png = some p → exec i s = settle (engineScope s.engine) s (pngFinish { s with zmem := m } p))

/-- UNFILT reconstructs all its scanlines, top row first, each by its filter byte; filter bytes, ZLEN and everything outside the rows stay. A bpp
outside 1 to 8 is UnsupportedFormat, rows that reach beyond ZLEN, the product a mathematical integer, TruncatedData, and a filter byte
above 4 CorruptData (44_png R260, R261, R262). -/
def Obligations.UnfiltReconstructs : Prop :=
  (∀ (s : State) (z : Word), 1 ≤ s.arg2.toNat → s.arg2.toNat ≤ 8 → s.zlen = .val z →
      s.arg1.toNat * (s.arg0.toNat + 1) ≤ z.toNat →
      (∀ k < s.arg1.toNat * (s.arg0.toNat + 1), memRead s.zmem k ≠ none) →
      (∀ r < s.arg1.toNat, (byteAt s.zmem (r * (s.arg0.toNat + 1))).toNat ≤ 4) →
      ∃ m, exec .unfilt s = .next { s with zmem := m, st := .done, engine := .idle } ∧
        (∀ r < s.arg1.toNat, ∀ i < s.arg0.toNat, reconstructedAt s.zmem m s.arg0.toNat s.arg2.toNat r i
          (byteAt s.zmem (r * (s.arg0.toNat + 1))).toNat) ∧
        (∀ r < s.arg1.toNat, memRead m (r * (s.arg0.toNat + 1)) = memRead s.zmem (r * (s.arg0.toNat + 1))) ∧
        sameOutside s.zmem m 0 (s.arg1.toNat * (s.arg0.toNat + 1))) ∧
  (∀ s : State, s.arg2.toNat < 1 ∨ 8 < s.arg2.toNat → exec .unfilt s = .next (takeError .unfilt .unsupportedFormat s)) ∧
  (∀ (s : State) (z : Word), 1 ≤ s.arg2.toNat → s.arg2.toNat ≤ 8 → s.zlen = .val z →
    (z.toNat < s.arg1.toNat * (s.arg0.toNat + 1) → exec .unfilt s = .next (takeError .unfilt .truncatedData s)) ∧
    (s.arg1.toNat * (s.arg0.toNat + 1) ≤ z.toNat → (∀ k < s.arg1.toNat * (s.arg0.toNat + 1), memRead s.zmem k ≠ none) →
      (∃ r < s.arg1.toNat, 4 < (byteAt s.zmem (r * (s.arg0.toNat + 1))).toNat) →
      exec .unfilt s = .next (takeError .unfilt .corruptData s)))

/-- The Paeth predictor is the neighbour nearest to `a + b - c`, ties to `a`, then to `b` (44_png R267). -/
def Obligations.PaethPicksNearest : Prop :=
  ∀ a b c : Byte,
    let p : Int := (a.toNat : Int) + b.toNat - c.toNat
    (paeth a b c = a ∨ paeth a b c = b ∨ paeth a b c = c) ∧
    (∀ x, x = a ∨ x = b ∨ x = c → (p - (paeth a b c).toNat).natAbs ≤ (p - x.toNat).natAbs) ∧
    ((p - a.toNat).natAbs ≤ (p - b.toNat).natAbs → (p - a.toNat).natAbs ≤ (p - c.toNat).natAbs → paeth a b c = a) ∧
    ((p - b.toNat).natAbs < (p - a.toNat).natAbs → (p - b.toNat).natAbs ≤ (p - c.toNat).natAbs → paeth a b c = b)

/-- After the scanlines of a PNG: every pixel is unpacked from the reconstructed rows, for every accepted color type and bit depth, the Bitmap
registers and the cursor are written and the command is complete (44_png R258, R270, R271). -/
def Obligations.PngUnpacksSamples : Prop :=
  ∀ (s : State) (p : PngImage), (p.hdr.ct, p.hdr.bd) ∈ pngFormats →
    (∀ y < p.hdr.h, ∀ k < rowBytes p.hdr, memRead s.zmem (y * (rowBytes p.hdr + 1) + 1 + k) ≠ none) →
    ∃ m, pngFinish s p = .ok { s with
        pmem := m, bmW := .val (BitVec.ofNat 32 p.hdr.w), bmH := .val (BitVec.ofNat 32 p.hdr.h), bmD := .val (p.depth.setWidth 32)
        ipos := .val (BitVec.ofNat 32 p.pos), st := .done, engine := .idle } ∧
      (∀ y < p.hdr.h, ∀ x < p.hdr.w, memRead m (y * p.hdr.w + x) = some (packColor (pngColor s.zmem p.hdr y x))) ∧
      sameOutside s.pmem m 0 (p.hdr.w * p.hdr.h)

/-! ## The decompressor -/

/-- INFLATE of a stream whose only block is stored puts its data in ZMEM, their number in ZLEN and the address after the block in IPOS, whatever
follows (43_inflate R210, R214, R226, R227). -/
def Obligations.InflateStoredStream : Prop :=
  ∀ (s : State) (cmf flg : Byte) (pad : Byte) (data : List Byte),
    cmf.toNat % 16 = 8 → cmf.toNat / 16 ≤ 7 → (cmf.toNat * 256 + flg.toNat) % 31 = 0 → flg.getLsbD 5 = false → pad.toNat % 8 = 1 →
    data.length ≤ 65535 → data.length ≤ s.cap.zmemBytes → s.arg0.toNat + 7 + data.length ≤ s.ilen.toNat →
    holdsAt s.imem s.arg0.toNat ([cmf, flg, pad] ++ (le16 data.length ++ (le16 (65535 - data.length) ++ data))) →
    ∃ m, exec .inflate s = .next { s with
        zmem := m, zlen := .val (BitVec.ofNat 32 data.length)
        ipos := .val (BitVec.ofNat 32 (s.arg0.toNat + 7 + data.length)), st := .done, engine := .idle } ∧
      holdsAt m 0 data ∧ sameOutside s.zmem m 0 data.length

/-- The zlib header is judged before anything is decompressed: missing bytes are TruncatedData, a wrong method, window, check or a preset
dictionary CorruptData (43_inflate R211, 60_exceptions R325). -/
def Obligations.ZlibHeaderIsChecked : Prop :=
  ∀ (s : State),
    (s.ilen.toNat < s.arg0.toNat + 2 → exec .inflate s = .next (takeError .inflate .truncatedData s)) ∧
    (∀ cmf flg : Byte, s.arg0.toNat + 2 ≤ s.ilen.toNat → holdsAt s.imem s.arg0.toNat [cmf, flg] →
      (cmf.toNat % 16 ≠ 8 ∨ 7 < cmf.toNat / 16 ∨ (cmf.toNat * 256 + flg.toNat) % 31 ≠ 0 ∨ flg.getLsbD 5 = true) →
      exec .inflate s = .next (takeError .inflate .corruptData s))

/-- A stored block: from the next byte boundary LEN, its complement, and LEN bytes that join the output (43_inflate R214).
One block as one step is the model's (log 3). -/
def Obligations.StoredBlockCopies : Prop :=
  ∀ (s : State) (c : BlockCtx) (b : Bool) (data : List Byte), s.engine = .blocks c → data.length ≤ 65535 →
    c.rout.length + data.length ≤ s.cap.zmemBytes → blockEnds c b (c.rout.reverse ++ data) →
    sourceHolds s.imem c.src ((c.bp + 3 + 7) / 8) (le16 data.length ++ (le16 (65535 - data.length) ++ data)) →
    exec (.deflateStored b) s =
      .next (afterBlock s c b (8 * ((c.bp + 3 + 7) / 8 + 4 + data.length)) (c.rout.reverse ++ data))

/-- Reading a symbol's code, most significant bit first, gives the symbol, for every accepted set of code lengths: the canonical code is
prefix-free and no code is lost (43_inflate R219, R220). -/
def Obligations.HuffmanDecodesItsCodes : Prop :=
  ∀ (lens : List Nat) (kind : TableKind) (t : Code) (imem : Mem 8) (src : Source) (bp sym : Nat),
    buildCode lens kind = .ok t → hasCode lens sym = true → sourceBits imem src bp (codeBits lens sym) →
    decodeSym imem src t bp = .ok (sym, bp + lens.getD sym 0)

/-- A fixed block: its literals and copies, in the fixed code, extend the output as 43_inflate R221 to R224 say, for every sequence of them
(43_inflate R215, R221 to R225).
One block as one step is the model's (log 3). -/
def Obligations.FixedBlockExpands : Prop :=
  ∀ (s : State) (c : BlockCtx) (b : Bool) (ts : List Token) (out : List Byte), s.engine = .blocks c →
    (∀ t ∈ ts, t.legal fixedLitLens fixedDistLens = true) → emitAll ts c.rout.reverse = some out →
    out.length ≤ s.cap.zmemBytes → blockEnds c b out →
    sourceBits s.imem c.src (c.bp + 3) (blockBits fixedLitLens fixedDistLens ts) →
    exec (.deflateFixed b) s =
      .next (afterBlock s c b (c.bp + 3 + (blockBits fixedLitLens fixedDistLens ts).length) out)

/-- A dynamic block: the codes its header describes, with every form of repeat, and then its literals and copies in those codes
(43_inflate R216 to R225).
One block as one step is the model's (log 3). -/
def Obligations.DynamicBlockExpands : Prop :=
  ∀ (s : State) (c : BlockCtx) (b : Bool) (h : DynHeader) (ts : List Token) (out : List Byte), s.engine = .blocks c → h.legal →
    (∀ t ∈ ts, t.legal h.lit h.dist = true) → emitAll ts c.rout.reverse = some out →
    out.length ≤ s.cap.zmemBytes → blockEnds c b out →
    sourceBits s.imem c.src (c.bp + 3) (h.bits ++ blockBits h.lit h.dist ts) →
    exec (.deflateDynamic b) s =
      .next (afterBlock s c b (c.bp + 3 + (h.bits ++ blockBits h.lit h.dist ts).length) out)

/-! ## The PNG chunk walk -/

/-- IHDR, first in the walk, of 13 bytes or more: an accepted image is recorded in the PNG registers and in the walk, and the cursor moves past
the chunk. One of less than 13 bytes is TruncatedData; an interlaced image, a format that is not accepted, an empty image and one that
PMEM cannot hold are UnsupportedFormat (44_png R253, R254; 30_encoding R103, R104).
One chunk as one step is the model's (log 3). -/
def Obligations.IhdrIsParsed : Prop :=
  (∀ (s : State) (c : ChunkCtx) (len w h : Nat) (bd ct cm fm : Byte), s.engine = .chunks c → c.hdr = none →
      13 ≤ len → len < 2 ^ 32 → c.pos + 12 + len ≤ c.lim → 1 ≤ w → w < 2 ^ 32 → 1 ≤ h → h < 2 ^ 32 → w * h ≤ s.cap.pmemPixels →
      (ct.toNat, bd.toNat) ∈ pngFormats →
      holdsAt s.imem c.pos (be32 len ++ (be32 0x49484452 ++ ihdrBytes w h bd ct cm fm)) →
      exec .pngChunkIHDR s = .next { s with
        png := { s.png with
          w := .val (BitVec.ofNat 32 w), h := .val (BitVec.ofNat 32 h), bd := .val (bd.setWidth 32), ct := .val (ct.setWidth 32) }
        engine := .chunks { c with pos := c.pos + 12 + len, hdr := some ⟨w, h, bd.toNat, ct.toNat⟩ } }) ∧
  (∀ (s : State) (c : ChunkCtx) (len : Nat), s.engine = .chunks c → c.hdr = none → len < 13 → c.pos + 12 + len ≤ c.lim →
    holdsAt s.imem c.pos (be32 len ++ be32 0x49484452) →
    exec .pngChunkIHDR s = .next (takeError (pngScope c.ico) .truncatedData s)) ∧
  (∀ (s : State) (c : ChunkCtx) (len w h : Nat) (bd ct cm fm il : Byte), s.engine = .chunks c → c.hdr = none →
    13 ≤ len → len < 2 ^ 32 → c.pos + 12 + len ≤ c.lim → w < 2 ^ 32 → h < 2 ^ 32 →
    (il ≠ 0#8 ∨ (ct.toNat, bd.toNat) ∉ pngFormats ∨ w = 0 ∨ h = 0 ∨ s.cap.pmemPixels < w * h) →
    holdsAt s.imem c.pos (be32 len ++ (be32 0x49484452 ++ (be32 w ++ (be32 h ++ [bd, ct, cm, fm, il])))) →
    exec .pngChunkIHDR s = .next (takeError (pngScope c.ico) .unsupportedFormat s))

/-- IDAT after IHDR: its payload joins the accumulator and the cursor moves past the chunk (44_png R253, R255).
One chunk as one step is the model's (log 3). -/
def Obligations.IdatIsAccumulated : Prop :=
  ∀ (s : State) (c : ChunkCtx) (hdr : Ihdr) (payload : List Byte), s.engine = .chunks c → c.hdr = some hdr →
    payload.length < 2 ^ 32 → c.pos + 12 + payload.length ≤ c.lim →
    holdsAt s.imem c.pos (be32 payload.length ++ (be32 0x49444154 ++ payload)) →
    exec .pngChunkIDAT s = .next { s with
      engine := .chunks { c with pos := c.pos + 12 + payload.length, idat := c.idat ++ payload } }

/-- IEND after IHDR: the geometry is recorded, and the decompression of what IDAT gave begins after its zlib header (44_png R253, R256, R257;
43_inflate R211).
One chunk as one step is the model's (log 3). -/
def Obligations.IendStartsInflate : Prop :=
  ∀ (s : State) (c : ChunkCtx) (hdr : Ihdr) (len : Nat) (cmf flg : Byte) (stream : List Byte), s.engine = .chunks c →
    c.hdr = some hdr → len < 2 ^ 32 → c.pos + 12 + len ≤ c.lim →
    holdsAt s.imem c.pos (be32 len ++ be32 0x49454E44) → (hdr.ct, hdr.bd) ∈ pngFormats →
    hdr.h * (rowBytes hdr + 1) ≤ s.cap.zmemBytes → c.idat = cmf :: flg :: stream →
    cmf.toNat % 16 = 8 → cmf.toNat / 16 ≤ 7 → (cmf.toNat * 256 + flg.toNat) % 31 = 0 → flg.getLsbD 5 = false →
    exec .pngChunkIEND s = .next { s with
      png := { s.png with
        bpp := .val (BitVec.ofNat 32 (((if hdr.ct = 0 then 1 else if hdr.ct = 2 then 3 else if hdr.ct = 4 then 2 else 4) *
          ((hdr.bd + 7) / 8))))
        rowb := .val (BitVec.ofNat 32 ((hdr.w *
          (if hdr.ct = 0 then 1 else if hdr.ct = 2 then 3 else if hdr.ct = 4 then 2 else 4) * hdr.bd + 7) / 8)) }
      engine := .blocks ⟨.bytes c.idat, 16, [], some ⟨c.ico, c.depth, hdr, c.pos + 12 + len⟩⟩ }

/-- IHDR must be the first chunk and the only one: IDAT or IEND before it, and a second one, are InvalidSignature (44_png R253).
One chunk as one step is the model's (log 3). -/
def Obligations.IhdrIsFirstAndOnly : Prop :=
  ∀ (s : State) (c : ChunkCtx) (i : Instr) (len : Nat), s.engine = .chunks c → len < 2 ^ 32 → c.pos + 12 + len ≤ c.lim →
    ((i = .pngChunkIHDR ∧ c.hdr ≠ none) ∨ ((i = .pngChunkIDAT ∨ i = .pngChunkIEND) ∧ c.hdr = none)) →
    holdsAt s.imem c.pos (be32 len ++ be32 (encode i)) →
    exec i s = .next (takeError (engineScope s.engine) .invalidSignature s)

/-! ## BMP headers and pixels -/

/-- The core header gives an unsigned 16-bit size and no palette size; the modern ones a signed size and colorsUsed, when their compression is 0.
An ICO payload may not have a core header (30_encoding R112, R113; 42_bmp R182; 46_ico R306).
One header as one step is the model's (log 3). -/
def Obligations.BmpHeadersAreParsed : Prop :=
  (∀ (s : State) (c : BmpCtx) (w h planes bits : Nat), s.engine = .header c → c.ico = false → c.h0 + 12 ≤ c.lim →
    w < 2 ^ 16 → h < 2 ^ 16 → holdsAt s.imem c.h0 (le32 12 ++ (le16 w ++ (le16 h ++ (le16 planes ++ le16 bits)))) →
    exec .bmpHeaderCore s = .next { s with engine := .pixels ⟨c, 12, true, w, h, 0⟩ }) ∧
  (∀ (s : State) (c : BmpCtx), s.engine = .header c → c.ico = true →
    exec .bmpHeaderCore s = .next (takeError .decico .unsupportedFormat s)) ∧
  (∀ (hs : Nat) (i : Instr) (s : State) (c : BmpCtx) (w h : Int) (planes bits comp size x y clrUsed : Nat),
    (hs, i) ∈ [(40, Instr.bmpHeader40), (52, .bmpHeader52), (56, .bmpHeader56), (108, .bmpHeader108), (124, .bmpHeader124)] →
    s.engine = .header c → c.h0 + hs ≤ c.lim → -2 ^ 31 ≤ w → w < 2 ^ 31 → -2 ^ 31 ≤ h → h < 2 ^ 31 →
    comp < 2 ^ 32 → clrUsed < 2 ^ 32 →
    holdsAt s.imem c.h0 (le32 hs ++ (le32 (BitVec.ofInt 32 w).toNat ++ (le32 (BitVec.ofInt 32 h).toNat ++ (le16 planes ++
      (le16 bits ++ (le32 comp ++ (le32 size ++ (le32 x ++ (le32 y ++ le32 clrUsed))))))))) →
    exec i s = if comp = 0 then .next { s with engine := .pixels ⟨c, hs, false, w, h, clrUsed⟩ }
      else .next (takeError (bmpScope c.ico) .unsupportedFormat s))

/-- 16-, 24- and 32-bit pixels of a BMP file are unpacked to the Bitmap, row order by the sign of the height, from the pixel-data offset on; the
Bitmap and BMP registers and the cursor are written and the command is complete. A width that is not positive, a height of 0 and an
image that PMEM cannot hold are UnsupportedFormat, then an offset into the headers is CorruptData, then missing rows are
TruncatedData (42_bmp R183, R184, R186 to R189, R194).
The pixels as one step is the model's (log 3). -/
def Obligations.BmpDirectPixels : Prop :=
  (∀ (bits : Nat) (i : Instr) (s : State) (c : BmpHeader),
      (bits, i) ∈ [(16, Instr.bmpBits16), (24, .bmpBits24), (32, .bmpBits32)] → s.engine = .pixels c → c.ctx.ico = false →
      0 < c.w → c.h ≠ 0 → c.w.toNat * c.h.natAbs ≤ s.cap.pmemPixels → c.ctx.h0 + c.hs ≤ c.ctx.off →
      c.ctx.off + bmpStride bits c.w.toNat * c.h.natAbs ≤ c.ctx.lim →
      (∀ r < c.h.natAbs, ∀ x < c.w.toNat, storedColor s.imem bits (c.ctx.off + r * bmpStride bits c.w.toNat) x ≠ none) →
      ∃ m, exec i s = .next (afterPixels s c bits c.w.toNat c.h.natAbs
          (c.ctx.off + bmpStride bits c.w.toNat * c.h.natAbs) s.pal m s.paln) ∧
        imageIs s.pmem m c.w.toNat c.h.natAbs (decide (c.h < 0))
          (fun r x => storedColor s.imem bits (c.ctx.off + r * bmpStride bits c.w.toNat) x)) ∧
  (∀ (bits : Nat) (i : Instr) (s : State) (c : BmpHeader),
    (bits, i) ∈ [(16, Instr.bmpBits16), (24, .bmpBits24), (32, .bmpBits32)] → s.engine = .pixels c → c.ctx.ico = false →
    (c.w ≤ 0 ∨ c.h = 0 ∨ s.cap.pmemPixels < c.w.toNat * c.h.natAbs →
      exec i s = .next (takeError .decbmp .unsupportedFormat s)) ∧
    (0 < c.w → c.h ≠ 0 → c.w.toNat * c.h.natAbs ≤ s.cap.pmemPixels →
      (c.ctx.off < c.ctx.h0 + c.hs → exec i s = .next (takeError .decbmp .corruptData s)) ∧
      (c.ctx.h0 + c.hs ≤ c.ctx.off → c.ctx.lim < c.ctx.off + bmpStride bits c.w.toNat * c.h.natAbs →
        exec i s = .next (takeError .decbmp .truncatedData s))))

/-- 1-, 4- and 8-bit pixels of a BMP file are indices into the color table after the header, which is loaded into PAL and PALN. The size is judged as
for direct pixels; then a table of more than 256 entries is UnsupportedFormat and one that is not all there TruncatedData, then an offset
into the headers or the table is CorruptData, then missing rows are TruncatedData, and an index that is not below PALN is CorruptData
(42_bmp R183 to R188, R194).
The pixels as one step is the model's (log 3). -/
def Obligations.BmpIndexedPixels : Prop :=
  (∀ (bits : Nat) (i : Instr) (s : State) (c : BmpHeader) (n es : Nat),
      (bits, i) ∈ [(1, Instr.bmpBits1), (4, .bmpBits4), (8, .bmpBits8)] → s.engine = .pixels c → c.ctx.ico = false →
      n = (if c.clrUsed ≠ 0 then c.clrUsed else 2 ^ bits) → n ≤ 256 → es = (if c.core then 3 else 4) →
      0 < c.w → c.h ≠ 0 → c.w.toNat * c.h.natAbs ≤ s.cap.pmemPixels → c.ctx.h0 + c.hs + n * es ≤ c.ctx.lim →
      c.ctx.h0 + c.hs + n * es ≤ c.ctx.off → c.ctx.off + bmpStride bits c.w.toNat * c.h.natAbs ≤ c.ctx.lim →
      (∀ k < n, storedEntry s.imem (c.ctx.h0 + c.hs) es k ≠ none) →
      (∀ r < c.h.natAbs, ∀ x < c.w.toNat,
        ∃ k < n, storedIndex s.imem bits (c.ctx.off + r * bmpStride bits c.w.toNat) x = some k) →
      ∃ pal m, exec i s = .next (afterPixels s c bits c.w.toNat c.h.natAbs
          (c.ctx.off + bmpStride bits c.w.toNat * c.h.natAbs) pal m (.val (BitVec.ofNat 32 n))) ∧
        (∀ k < n, memRead pal k = storedEntry s.imem (c.ctx.h0 + c.hs) es k) ∧ sameOutside s.pal pal 0 n ∧
        imageIs s.pmem m c.w.toNat c.h.natAbs (decide (c.h < 0))
          (fun r x => (storedIndex s.imem bits (c.ctx.off + r * bmpStride bits c.w.toNat) x).bind
            (storedEntry s.imem (c.ctx.h0 + c.hs) es))) ∧
  (∀ (bits : Nat) (i : Instr) (s : State) (c : BmpHeader) (n es : Nat),
    (bits, i) ∈ [(1, Instr.bmpBits1), (4, .bmpBits4), (8, .bmpBits8)] → s.engine = .pixels c → c.ctx.ico = false →
    n = (if c.clrUsed ≠ 0 then c.clrUsed else 2 ^ bits) → es = (if c.core then 3 else 4) →
    (c.w ≤ 0 ∨ c.h = 0 ∨ s.cap.pmemPixels < c.w.toNat * c.h.natAbs →
      exec i s = .next (takeError .decbmp .unsupportedFormat s)) ∧
    (0 < c.w → c.h ≠ 0 → c.w.toNat * c.h.natAbs ≤ s.cap.pmemPixels →
      (256 < n → exec i s = .next (takeError .decbmp .unsupportedFormat s)) ∧
      (n ≤ 256 → c.ctx.lim < c.ctx.h0 + c.hs + n * es → exec i s = .next (takeError .decbmp .truncatedData s)) ∧
      (n ≤ 256 → c.ctx.h0 + c.hs + n * es ≤ c.ctx.lim → (∀ k < n, storedEntry s.imem (c.ctx.h0 + c.hs) es k ≠ none) →
        (c.ctx.off < c.ctx.h0 + c.hs + n * es → exec i s = .next (takeError .decbmp .corruptData s)) ∧
        (c.ctx.h0 + c.hs + n * es ≤ c.ctx.off →
          (c.ctx.lim < c.ctx.off + bmpStride bits c.w.toNat * c.h.natAbs →
            exec i s = .next (takeError .decbmp .truncatedData s)) ∧
          (c.ctx.off + bmpStride bits c.w.toNat * c.h.natAbs ≤ c.ctx.lim →
            (∀ r < c.h.natAbs, ∀ x < c.w.toNat,
              storedIndex s.imem bits (c.ctx.off + r * bmpStride bits c.w.toNat) x ≠ none) →
            (∃ r < c.h.natAbs, ∃ x < c.w.toNat, ∃ k ≥ n,
              storedIndex s.imem bits (c.ctx.off + r * bmpStride bits c.w.toNat) x = some k) →
            exec i s = .next (takeError .decbmp .corruptData s))))))

/-- The pixels of an ICO's BMP: the height field is halved, the rows follow the header, and the color table where there is one, and are bottom-up,
and the AND mask after them decides every alpha; 16-bit pixels are rejected (46_ico R306 to R309).
The pixels as one step is the model's (log 3). -/
def Obligations.IcoPixelsAreMasked : Prop :=
  (∀ (bits : Nat) (i : Instr) (s : State) (c : BmpHeader) (w h pos mask : Nat),
    (bits, i) ∈ [(24, Instr.bmpBits24), (32, .bmpBits32)] → s.engine = .pixels c → c.ctx.ico = true →
    0 < c.w → 1 < c.h → w = c.w.toNat → h = c.h.toNat / 2 → w * h ≤ s.cap.pmemPixels → pos = c.ctx.h0 + c.hs →
    mask = pos + bmpStride bits w * h → mask + bmpStride 1 w * h ≤ c.ctx.lim →
    (∀ r < h, ∀ x < w, storedColor s.imem bits (pos + r * bmpStride bits w) x ≠ none) →
    (∀ r < h, ∀ x < w, storedMask s.imem (mask + r * bmpStride 1 w) x ≠ none) →
    ∃ m, exec i s = .next (afterPixels s c bits w h (mask + bmpStride 1 w * h) s.pal m s.paln) ∧
      imageIs s.pmem m w h false (fun r x =>
        (storedColor s.imem bits (pos + r * bmpStride bits w) x).bind (fun col =>
          (storedMask s.imem (mask + r * bmpStride 1 w) x).map (masked col)))) ∧
  (∀ (bits : Nat) (i : Instr) (s : State) (c : BmpHeader) (w h n table pos mask : Nat),
    (bits, i) ∈ [(1, Instr.bmpBits1), (4, .bmpBits4), (8, .bmpBits8)] → s.engine = .pixels c → c.ctx.ico = true →
    c.core = false → n = (if c.clrUsed ≠ 0 then c.clrUsed else 2 ^ bits) → n ≤ 256 →
    0 < c.w → 1 < c.h → w = c.w.toNat → h = c.h.toNat / 2 → w * h ≤ s.cap.pmemPixels → table = c.ctx.h0 + c.hs →
    pos = table + n * 4 → mask = pos + bmpStride bits w * h → mask + bmpStride 1 w * h ≤ c.ctx.lim →
    (∀ k < n, storedEntry s.imem table 4 k ≠ none) →
    (∀ r < h, ∀ x < w, ∃ k < n, storedIndex s.imem bits (pos + r * bmpStride bits w) x = some k) →
    (∀ r < h, ∀ x < w, storedMask s.imem (mask + r * bmpStride 1 w) x ≠ none) →
    ∃ pal m, exec i s = .next (afterPixels s c bits w h (mask + bmpStride 1 w * h) pal m (.val (BitVec.ofNat 32 n))) ∧
      (∀ k < n, memRead pal k = storedEntry s.imem table 4 k) ∧ sameOutside s.pal pal 0 n ∧
      imageIs s.pmem m w h false (fun r x =>
        ((storedIndex s.imem bits (pos + r * bmpStride bits w) x).bind (storedEntry s.imem table 4)).bind (fun col =>
          (storedMask s.imem (mask + r * bmpStride 1 w) x).map (masked col)))) ∧
  (∀ (s : State) (c : BmpHeader), s.engine = .pixels c → c.ctx.ico = true →
    exec .bmpBits16 s = .next (takeError .decico .unsupportedFormat s))

/-! ## The ICO payload select, and whole files -/

/-- The first eight payload bytes choose the path: the PNG signature sets ICO_SEL and the chunk walk begins after it, anything else clears ICO_SEL
and the info header of the embedded BMP is next (46_ico R304 to R306).
The select as one step is the model's (log 3). -/
def Obligations.PayloadSelect : Prop :=
  (∀ (s : State) (c : PayloadCtx), s.engine = .payload c → c.off + 8 ≤ c.lim →
    holdsAt s.imem c.off [0x89#8, 0x50#8, 0x4E#8, 0x47#8, 0x0D#8, 0x0A#8, 0x1A#8, 0x0A#8] →
    exec .icoPayloadPng s = .next { s with
      ico := { s.ico with sel := .val 1#32 }, st := .busy, engine := .chunks ⟨true, c.depth, c.lim, c.off + 8, none, []⟩ }) ∧
  (∀ (s : State) (c : PayloadCtx) (head : BitVec 64), s.engine = .payload c →
    exec (.icoPayloadBmp head) s = .next { s with
      ico := { s.ico with sel := .val 0#32 }, engine := .header ⟨true, c.depth, c.off, c.lim, 0⟩ })

/-- DECBMP.d of a file with a 40-byte header and 16-, 24- or 32-bit pixels, of any size, row order and pixel-data offset, decodes it whole
(42_bmp R180 to R184, R186 to R189, R194). -/
def Obligations.DecbmpDecodesFile : Prop :=
  ∀ (s : State) (d : BitVec 8) (size reserved off planes bits imageSize ppmX ppmY clrUsed clrImportant : Nat) (w h : Int),
    legalDepth d = true → bits = 16 ∨ bits = 24 ∨ bits = 32 → 0 < w → w < 2 ^ 31 → h ≠ 0 → -2 ^ 31 ≤ h → h < 2 ^ 31 →
    w.toNat * h.natAbs ≤ s.cap.pmemPixels → off < 2 ^ 32 → 54 ≤ off → clrUsed < 2 ^ 32 →
    off + bmpStride bits w.toNat * h.natAbs ≤ s.ilen.toNat →
    holdsAt s.imem 0 (fileHeader size reserved off ++ infoHeader w h planes bits imageSize ppmX ppmY clrUsed clrImportant) →
    (∀ r < h.natAbs, ∀ x < w.toNat, storedColor s.imem bits (off + r * bmpStride bits w.toNat) x ≠ none) →
    ∃ m, exec (.decbmp d) s = .next (afterPixels s ⟨⟨false, d, 14, s.ilen.toNat, off⟩, 40, false, w, h, clrUsed⟩ bits w.toNat h.natAbs
        (off + bmpStride bits w.toNat * h.natAbs) s.pal m s.paln) ∧
      imageIs s.pmem m w.toNat h.natAbs (decide (h < 0))
        (fun r x => storedColor s.imem bits (off + r * bmpStride bits w.toNat) x)

/-- DECPNG.d of an 8-bit RGBA PNG of any size in one stored block decodes to its pixels, whatever its CRCs and its Adler-32; ZMEM keeps the scanlines
(44_png R250 to R258, R271, R272 b; 43_inflate R226). -/
def Obligations.DecpngDecodesFile : Prop :=
  ∀ (s : State) (d : BitVec 8) (w h : Nat) (pixels crc1 crc2 crc3 adler : List Byte), legalDepth d = true → 1 ≤ w → 1 ≤ h →
    w * h ≤ s.cap.pmemPixels → h * (4 * w + 1) ≤ 65535 → h * (4 * w + 1) ≤ s.cap.zmemBytes → pixels.length = 4 * w * h →
    crc1.length = 4 → crc2.length = 4 → crc3.length = 4 → adler.length = 4 →
    (pngFile w h pixels crc1 crc2 crc3 adler).length ≤ s.ilen.toNat → holdsAt s.imem 0 (pngFile w h pixels crc1 crc2 crc3 adler) →
    ∃ m z, exec (.decpng d) s = .next (afterPng s d 0 w h m z) ∧
      (∀ k < w * h, memRead m k = some (rgbaAt pixels k)) ∧ sameOutside s.pmem m 0 (w * h) ∧
      holdsAt z 0 (unfilteredRows (4 * w) h pixels) ∧ sameOutside s.zmem z 0 (h * (4 * w + 1))

/-- DECICO.d of a directory of one entry decodes its payload whichever it is: the PNG of the statement before, and then ICO_SEL is 1, or a BMP with
24- or 32-bit pixels and a mask, and then it is 0; the entry's other fields are recorded and steer nothing (46_ico R300 to R309). -/
def Obligations.DecicoDecodesFile : Prop :=
  ∀ (s : State) (d eW eH eCc eRes : BitVec 8) (planes ebits size : Nat), legalDepth d = true → planes < 2 ^ 16 → ebits < 2 ^ 16 →
    size < 2 ^ 32 → 22 + size ≤ s.ilen.toNat → holdsAt s.imem 0 (icoDirectory eW eH eCc eRes planes ebits size) →
    (∀ (w h : Nat) (pixels crc1 crc2 crc3 adler : List Byte), 1 ≤ w → 1 ≤ h → w * h ≤ s.cap.pmemPixels →
      h * (4 * w + 1) ≤ 65535 → h * (4 * w + 1) ≤ s.cap.zmemBytes → pixels.length = 4 * w * h →
      crc1.length = 4 → crc2.length = 4 → crc3.length = 4 → adler.length = 4 →
      (pngFile w h pixels crc1 crc2 crc3 adler).length ≤ size → holdsAt s.imem 22 (pngFile w h pixels crc1 crc2 crc3 adler) →
      ∃ m z, exec (.decico d) s = .next { afterPng s d 22 w h m z with
          ico := ⟨.val 1#32, .val (eW.setWidth 32), .val (eH.setWidth 32), .val (eCc.setWidth 32), .val (BitVec.ofNat 32 planes),
            .val (BitVec.ofNat 32 ebits), .val (BitVec.ofNat 32 size), .val 22#32, .val 1#32⟩ } ∧
        (∀ k < w * h, memRead m k = some (rgbaAt pixels k)) ∧ sameOutside s.pmem m 0 (w * h) ∧
        holdsAt z 0 (unfilteredRows (4 * w) h pixels) ∧ sameOutside s.zmem z 0 (h * (4 * w + 1))) ∧
    (∀ (bplanes bits imageSize ppmX ppmY clrUsed clrImportant w h : Nat) (h2 : Int), bits = 24 ∨ bits = 32 → 1 ≤ w → w < 2 ^ 31 →
      1 < h2 → h2 < 2 ^ 31 → h = h2.toNat / 2 → w * h ≤ s.cap.pmemPixels → clrUsed < 2 ^ 32 →
      40 + bmpStride bits w * h + bmpStride 1 w * h ≤ size →
      holdsAt s.imem 22 (infoHeader w h2 bplanes bits imageSize ppmX ppmY clrUsed clrImportant) →
      (∀ r < h, ∀ x < w, storedColor s.imem bits (62 + r * bmpStride bits w) x ≠ none) →
      (∀ r < h, ∀ x < w, storedMask s.imem (62 + bmpStride bits w * h + r * bmpStride 1 w) x ≠ none) →
      ∃ m, exec (.decico d) s = .next { afterPixels s ⟨⟨true, d, 22, 22 + size, 0⟩, 40, false, w, h2, clrUsed⟩ bits w h
          (62 + bmpStride bits w * h + bmpStride 1 w * h) s.pal m s.paln with
          ico := ⟨.val 1#32, .val (eW.setWidth 32), .val (eH.setWidth 32), .val (eCc.setWidth 32), .val (BitVec.ofNat 32 planes),
            .val (BitVec.ofNat 32 ebits), .val (BitVec.ofNat 32 size), .val 22#32, .val 0#32⟩ } ∧
        imageIs s.pmem m w h false (fun r x =>
          (storedColor s.imem bits (62 + r * bmpStride bits w) x).bind (fun col =>
            (storedMask s.imem (62 + bmpStride bits w * h + r * bmpStride 1 w) x).map (masked col))))
end

