-- ==== Sys2Proof/Laws/Memory.lean ====
section
/-! SUPPORT. The laws of the memories: a read after a write, the frame of a write, and that every memory operation keeps the canonical form. -/

namespace Sys2Proof.Machine

variable {n : Nat}

/-! ## Reads -/

@[simp] theorem memRead_nil (a : Nat) : memRead ([] : Mem n) a = none := rfl

/-- A listed location is read from the list. -/
theorem memRead_mem {m : Mem n} {a : Nat} {v : BitVec n} (h : memRead m a = some v) : (a, v) ∈ m := by
  induction m with
  | nil => cases h
  | cons e m ih =>
    obtain ⟨k, w⟩ := e
    simp only [memRead] at h
    split at h
    · next hk => cases h; simp [hk]
    · exact List.mem_cons_of_mem _ (ih h)

/-- In canonical form the list says what is read. -/
theorem memRead_of_mem {m : Mem n} (hm : memWf m) {a : Nat} {v : BitVec n} (h : (a, v) ∈ m) : memRead m a = some v := by
  induction m with
  | nil => cases h
  | cons e m ih =>
    obtain ⟨k, w⟩ := e
    simp only [memRead]
    rcases List.mem_cons.1 h with h | h
    · cases h; simp
    · have := List.rel_of_pairwise_cons hm h
      rw [if_neg (by simp at this; omega)]
      exact ih (List.Pairwise.of_cons hm) h

/-- Reading at or past a bound on the listed indices gives nothing. -/
theorem memRead_within {m : Mem n} {size a : Nat} (hm : memWithin m size) (ha : size ≤ a) : memRead m a = none := by
  cases h : memRead m a with
  | none => rfl
  | some v => have := hm _ (memRead_mem h); simp at this; omega

/-- A location that holds a value lies within the bound. -/
theorem memRead_some_lt {m : Mem n} {size a : Nat} (hm : memWithin m size) (h : memRead m a ≠ none) : a < size := by
  by_contra hc
  exact h (memRead_within hm (Nat.le_of_not_lt hc))

/-! ## One location -/

@[simp] theorem memRead_memWrite_same (m : Mem n) (a : Nat) (v : BitVec n) : memRead (memWrite m a v) a = some v := by
  induction m with
  | nil => simp [memWrite, memRead]
  | cons e m ih =>
    obtain ⟨k, w⟩ := e
    simp only [memWrite]
    split
    · simp [memRead]
    · split
      · simp [memRead]
      · next h => simp [memRead, Ne.symm h, ih]

theorem memRead_memWrite_ne (m : Mem n) {a b : Nat} (v : BitVec n) (h : b ≠ a) : memRead (memWrite m a v) b = memRead m b := by
  induction m with
  | nil => simp [memWrite, memRead, Ne.symm h]
  | cons e m ih =>
    obtain ⟨k, w⟩ := e
    simp only [memWrite]
    split
    · simp [memRead, Ne.symm h]
    · split
      · next hk => subst hk; simp [memRead, Ne.symm h]
      · simp [memRead, ih]

theorem memRead_memWrite (m : Mem n) (a b : Nat) (v : BitVec n) :
    memRead (memWrite m a v) b = if b = a then some v else memRead m b := by
  split
  · next h => subst h; simp
  · next h => exact memRead_memWrite_ne m v h

/-- What a write lists: what was listed, and the location written. -/
theorem mem_memWrite {m : Mem n} {a : Nat} {v : BitVec n} {e : Nat × BitVec n} (h : e ∈ memWrite m a v) : e ∈ m ∨ e = (a, v) := by
  induction m with
  | nil => simpa [memWrite] using h
  | cons x m ih =>
    obtain ⟨k, w⟩ := x
    simp only [memWrite] at h
    split at h
    · simp only [List.mem_cons] at h ⊢; tauto
    · split at h
      · simp only [List.mem_cons] at h ⊢; tauto
      · rcases List.mem_cons.1 h with h | h
        · exact .inl (h ▸ List.mem_cons_self)
        · exact (ih h).imp_left (List.mem_cons_of_mem _)

/-- A write keeps the canonical form. -/
theorem memWf_memWrite {m : Mem n} (h : memWf m) (a : Nat) (v : BitVec n) : memWf (memWrite m a v) := by
  induction m with
  | nil => simp [memWrite]
  | cons e m ih =>
    obtain ⟨k, w⟩ := e
    have hc := h
    rw [memWf, List.pairwise_cons] at h
    simp only [memWrite]
    split
    · next hlt =>
      refine List.pairwise_cons.2 ⟨fun x hx => ?_, hc⟩
      rcases List.mem_cons.1 hx with rfl | hx
      · exact hlt
      · exact Nat.lt_trans hlt (h.1 x hx)
    · split
      · next heq => subst heq; exact List.pairwise_cons.2 h
      · next h1 h2 =>
        refine List.pairwise_cons.2 ⟨fun x hx => ?_, ih h.2⟩
        rcases mem_memWrite hx with hx | rfl
        · exact h.1 x hx
        · show k < a; omega

theorem memWithin_memWrite {m : Mem n} {size a : Nat} {v : BitVec n} (h : memWithin m size) (ha : a < size) :
    memWithin (memWrite m a v) size := by
  intro e he
  rcases mem_memWrite he with he | rfl
  · exact h e he
  · exact ha

/-! ## Consecutive locations -/

/-- The list that `memWriteRun` puts in. -/
theorem run_zipIdx (vs : List (BitVec n)) (a : Nat) :
    ((vs.zipIdx a).map (fun p => (p.2, p.1))) = vs.mapIdx (fun i v => (a + i, v)) := by
  induction vs generalizing a with
  | nil => rfl
  | cons v vs ih =>
    simp only [List.zipIdx_cons, List.map_cons, List.mapIdx_cons, ih, Nat.add_zero]
    congr 2
    funext i v'
    rw [Nat.add_assoc, Nat.add_comm 1]

theorem memRead_append (m m' : Mem n) (a : Nat) :
    memRead (m ++ m') a = (memRead m a).or (memRead m' a) := by
  induction m with
  | nil => simp
  | cons e m ih =>
    obtain ⟨k, w⟩ := e
    simp only [List.cons_append, memRead]
    split <;> simp [ih]

theorem memRead_filter (m : Mem n) (p : Nat → Bool) (a : Nat) :
    memRead (m.filter (fun e => p e.1)) a = if p a then memRead m a else none := by
  induction m with
  | nil => simp
  | cons e m ih =>
    obtain ⟨k, w⟩ := e
    by_cases hk : p k = true
    · rw [List.filter_cons_of_pos (by simpa using hk)]
      by_cases hka : k = a
      · subst hka; simp [memRead, hk]
      · simp [memRead, hka, ih]
    · rw [List.filter_cons_of_neg (by simpa using hk), ih]
      by_cases hka : k = a
      · subst hka; simp [hk]
      · simp [memRead, hka]

theorem memRead_run (vs : List (BitVec n)) (a b : Nat) :
    memRead ((vs.zipIdx a).map (fun p => (p.2, p.1))) b = if a ≤ b then vs[b - a]? else none := by
  induction vs generalizing a with
  | nil => simp
  | cons v vs ih =>
    simp only [List.zipIdx_cons, List.map_cons, memRead, ih]
    by_cases h : a = b
    · subst h; simp
    · by_cases h2 : a ≤ b
      · have : b - a = (b - (a + 1)) + 1 := by omega
        rw [if_neg h, if_pos (by omega), if_pos h2, this, List.getElem?_cons_succ]
      · rw [if_neg h, if_neg (by omega), if_neg h2]

/-- Reading after a run is written: the run where it was written, the rest as before. -/
theorem memRead_memWriteRun (m : Mem n) (a b : Nat) (vs : List (BitVec n)) :
    memRead (memWriteRun m a vs) b = if a ≤ b ∧ b < a + vs.length then vs[b - a]? else memRead m b := by
  unfold memWriteRun
  rw [memRead_append, memRead_append, memRead_filter m (fun k => decide (k < a)),
    memRead_filter m (fun k => decide (a + vs.length ≤ k)), memRead_run]
  by_cases h1 : b < a
  · have h2 : ¬ a ≤ b := by omega
    simp [h1, h2, show ¬ (a + vs.length ≤ b) by omega]
  · by_cases h2 : b < a + vs.length
    · simp [h1, show a ≤ b by omega, h2, show ¬ (a + vs.length ≤ b) by omega]
    · have : vs[b - a]? = none := by rw [List.getElem?_eq_none_iff]; omega
      simp [h1, show a ≤ b by omega, h2, show a + vs.length ≤ b by omega, this]

/-- What a run lists: what was listed, and locations of the run. -/
theorem mem_memWriteRun {m : Mem n} {a : Nat} {vs : List (BitVec n)} {e : Nat × BitVec n} (h : e ∈ memWriteRun m a vs) :
    e ∈ m ∨ (a ≤ e.1 ∧ e.1 < a + vs.length) := by
  unfold memWriteRun at h
  simp only [List.mem_append, List.mem_filter, List.mem_map] at h
  rcases h with h | ⟨p, hp, rfl⟩ | h
  · exact .inl h.1
  · have := List.mem_zipIdx hp
    exact .inr ⟨this.1, by simp; omega⟩
  · exact .inl h.1

/-- Writing a run keeps the canonical form. -/
theorem memWf_memWriteRun {m : Mem n} (h : memWf m) (a : Nat) (vs : List (BitVec n)) : memWf (memWriteRun m a vs) := by
  unfold memWriteRun memWf
  rw [List.pairwise_append, List.pairwise_append]
  refine ⟨h.filter _, ⟨?_, h.filter _, ?_⟩, ?_⟩
  · clear h m
    induction vs generalizing a with
    | nil => simp
    | cons v vs ih =>
      simp only [List.zipIdx_cons, List.map_cons, List.pairwise_cons]
      refine ⟨fun x hx => ?_, ih (a + 1)⟩
      obtain ⟨p, hp, rfl⟩ := List.mem_map.1 hx
      have := (List.mem_zipIdx hp).1
      simp only; omega
  · intro x hx y hy
    obtain ⟨p, hp, rfl⟩ := List.mem_map.1 hx
    have h1 := List.mem_zipIdx hp
    have h2 := (List.mem_filter.1 hy).2
    simp only [decide_eq_true_eq] at h2
    simp only; omega
  · intro x hx y hy
    have h1 := (List.mem_filter.1 hx).2
    simp only [decide_eq_true_eq] at h1
    rcases List.mem_append.1 hy with hy | hy
    · obtain ⟨p, hp, rfl⟩ := List.mem_map.1 hy
      have := (List.mem_zipIdx hp).1
      simp only; omega
    · have h2 := (List.mem_filter.1 hy).2
      simp only [decide_eq_true_eq] at h2
      omega

theorem memWithin_memWriteRun {m : Mem n} {size a : Nat} {vs : List (BitVec n)} (h : memWithin m size)
    (ha : a + vs.length ≤ size) : memWithin (memWriteRun m a vs) size := by
  intro e he
  rcases mem_memWriteRun he with he | he
  · exact h e he
  · omega

/-! ## Little-endian writes -/

/-- `MemWrite` keeps the canonical form. -/
theorem memWf_writeLE {m : Mem 8} (h : memWf m) (k a v : Nat) : memWf (writeLE m k a v) := by
  induction k generalizing m a v with
  | zero => exact h
  | succ k ih => exact ih (memWf_memWrite h _ _) _ _

theorem memWithin_writeLE {m : Mem 8} {size : Nat} (h : memWithin m size) (k a v : Nat) (ha : a + k ≤ size) :
    memWithin (writeLE m k a v) size := by
  induction k generalizing m a v with
  | zero => exact h
  | succ k ih => exact ih (memWithin_memWrite h (by omega)) _ _ (by omega)

/-- `MemWrite` then a read: byte `b - a` of the value where it was written, the rest as before. -/
theorem memRead_writeLE (m : Mem 8) (k a v b : Nat) :
    memRead (writeLE m k a v) b =
      if a ≤ b ∧ b < a + k then some (BitVec.ofNat 8 (v / 256 ^ (b - a))) else memRead m b := by
  induction k generalizing m a v with
  | zero => simp [writeLE, show ¬ (a ≤ b ∧ b < a) by omega]
  | succ k ih =>
    rw [writeLE, ih, memRead_memWrite]
    by_cases h : a + 1 ≤ b ∧ b < a + 1 + k
    · rw [if_pos h, if_pos (by omega)]
      have : b - a = (b - (a + 1)) + 1 := by omega
      rw [this, Nat.pow_succ, Nat.mul_comm, Nat.div_div_eq_div_mul]
    · rw [if_neg h]
      by_cases hb : b = a
      · subst hb; simp
      · rw [if_neg hb, if_neg (by omega)]

/-! ## Reset -/

/-- The memories after reset are in canonical form. -/
theorem memWf_nil : memWf ([] : Mem n) := List.Pairwise.nil

theorem memWithin_nil (size : Nat) : memWithin ([] : Mem n) size := by simp

/-- Every memory of the state after reset is in canonical form. -/
theorem resetWith_memWf (c : Capacities) :
    memWf (State.resetWith c).imem ∧ memWf (State.resetWith c).zmem ∧ memWf (State.resetWith c).pmem ∧
      memWf (State.resetWith c).pal ∧ memWf (State.resetWith c).xmem :=
  ⟨memWf_nil, memWf_nil, memWf_nil, memWf_nil, memWf_nil⟩

end Sys2Proof.Machine
end

