-- ==== Sys2Proof/Laws/State.lean ====
section
/-! SUPPORT. One lemma per field per named update of State: what the update puts there, or that it leaves it. -/

namespace Sys2Proof.Machine

/-! ## complete -/

@[simp] theorem complete_st (s : State) : (complete s).st = .done := rfl
@[simp] theorem complete_errcode (s : State) : (complete s).errcode = s.errcode := rfl
@[simp] theorem complete_ie (s : State) : (complete s).ie = s.ie := rfl
@[simp] theorem complete_ilen (s : State) : (complete s).ilen = s.ilen := rfl
@[simp] theorem complete_ipos (s : State) : (complete s).ipos = s.ipos := rfl
@[simp] theorem complete_arg0 (s : State) : (complete s).arg0 = s.arg0 := rfl
@[simp] theorem complete_arg1 (s : State) : (complete s).arg1 = s.arg1 := rfl
@[simp] theorem complete_arg2 (s : State) : (complete s).arg2 = s.arg2 := rfl
@[simp] theorem complete_res0 (s : State) : (complete s).res0 = s.res0 := rfl
@[simp] theorem complete_res1 (s : State) : (complete s).res1 = s.res1 := rfl
@[simp] theorem complete_bmW (s : State) : (complete s).bmW = s.bmW := rfl
@[simp] theorem complete_bmH (s : State) : (complete s).bmH = s.bmH := rfl
@[simp] theorem complete_bmD (s : State) : (complete s).bmD = s.bmD := rfl
@[simp] theorem complete_paln (s : State) : (complete s).paln = s.paln := rfl
@[simp] theorem complete_zlen (s : State) : (complete s).zlen = s.zlen := rfl
@[simp] theorem complete_png (s : State) : (complete s).png = s.png := rfl
@[simp] theorem complete_bmp (s : State) : (complete s).bmp = s.bmp := rfl
@[simp] theorem complete_ico (s : State) : (complete s).ico = s.ico := rfl
@[simp] theorem complete_imem (s : State) : (complete s).imem = s.imem := rfl
@[simp] theorem complete_zmem (s : State) : (complete s).zmem = s.zmem := rfl
@[simp] theorem complete_pmem (s : State) : (complete s).pmem = s.pmem := rfl
@[simp] theorem complete_pal (s : State) : (complete s).pal = s.pal := rfl
@[simp] theorem complete_xmem (s : State) : (complete s).xmem = s.xmem := rfl
@[simp] theorem complete_engine (s : State) : (complete s).engine = .idle := rfl
@[simp] theorem complete_cap (s : State) : (complete s).cap = s.cap := rfl
@[simp] theorem complete_script (s : State) : (complete s).script = s.script := rfl
@[simp] theorem complete_rdata (s : State) : (complete s).rdata = s.rdata := rfl
@[simp] theorem complete_fresh (s : State) : (complete s).fresh = s.fresh := rfl

/-! ## returnFromError -/

@[simp] theorem returnFromError_st (s : State) : (returnFromError s).st = .idle := rfl
@[simp] theorem returnFromError_errcode (s : State) : (returnFromError s).errcode = none := rfl
@[simp] theorem returnFromError_ie (s : State) : (returnFromError s).ie = s.ie := rfl
@[simp] theorem returnFromError_ilen (s : State) : (returnFromError s).ilen = s.ilen := rfl
@[simp] theorem returnFromError_ipos (s : State) : (returnFromError s).ipos = s.ipos := rfl
@[simp] theorem returnFromError_arg0 (s : State) : (returnFromError s).arg0 = s.arg0 := rfl
@[simp] theorem returnFromError_arg1 (s : State) : (returnFromError s).arg1 = s.arg1 := rfl
@[simp] theorem returnFromError_arg2 (s : State) : (returnFromError s).arg2 = s.arg2 := rfl
@[simp] theorem returnFromError_res0 (s : State) : (returnFromError s).res0 = s.res0 := rfl
@[simp] theorem returnFromError_res1 (s : State) : (returnFromError s).res1 = s.res1 := rfl
@[simp] theorem returnFromError_bmW (s : State) : (returnFromError s).bmW = s.bmW := rfl
@[simp] theorem returnFromError_bmH (s : State) : (returnFromError s).bmH = s.bmH := rfl
@[simp] theorem returnFromError_bmD (s : State) : (returnFromError s).bmD = s.bmD := rfl
@[simp] theorem returnFromError_paln (s : State) : (returnFromError s).paln = s.paln := rfl
@[simp] theorem returnFromError_zlen (s : State) : (returnFromError s).zlen = s.zlen := rfl
@[simp] theorem returnFromError_png (s : State) : (returnFromError s).png = s.png := rfl
@[simp] theorem returnFromError_bmp (s : State) : (returnFromError s).bmp = s.bmp := rfl
@[simp] theorem returnFromError_ico (s : State) : (returnFromError s).ico = s.ico := rfl
@[simp] theorem returnFromError_imem (s : State) : (returnFromError s).imem = s.imem := rfl
@[simp] theorem returnFromError_zmem (s : State) : (returnFromError s).zmem = s.zmem := rfl
@[simp] theorem returnFromError_pmem (s : State) : (returnFromError s).pmem = s.pmem := rfl
@[simp] theorem returnFromError_pal (s : State) : (returnFromError s).pal = s.pal := rfl
@[simp] theorem returnFromError_xmem (s : State) : (returnFromError s).xmem = s.xmem := rfl
@[simp] theorem returnFromError_engine (s : State) : (returnFromError s).engine = s.engine := rfl
@[simp] theorem returnFromError_cap (s : State) : (returnFromError s).cap = s.cap := rfl
@[simp] theorem returnFromError_script (s : State) : (returnFromError s).script = s.script := rfl
@[simp] theorem returnFromError_rdata (s : State) : (returnFromError s).rdata = s.rdata := rfl
@[simp] theorem returnFromError_fresh (s : State) : (returnFromError s).fresh = s.fresh := rfl

/-! ## loseBitmap -/

@[simp] theorem loseBitmap_st (s : State) : (loseBitmap s).st = s.st := rfl
@[simp] theorem loseBitmap_errcode (s : State) : (loseBitmap s).errcode = s.errcode := rfl
@[simp] theorem loseBitmap_ie (s : State) : (loseBitmap s).ie = s.ie := rfl
@[simp] theorem loseBitmap_ilen (s : State) : (loseBitmap s).ilen = s.ilen := rfl
@[simp] theorem loseBitmap_ipos (s : State) : (loseBitmap s).ipos = s.ipos := rfl
@[simp] theorem loseBitmap_arg0 (s : State) : (loseBitmap s).arg0 = s.arg0 := rfl
@[simp] theorem loseBitmap_arg1 (s : State) : (loseBitmap s).arg1 = s.arg1 := rfl
@[simp] theorem loseBitmap_arg2 (s : State) : (loseBitmap s).arg2 = s.arg2 := rfl
@[simp] theorem loseBitmap_res0 (s : State) : (loseBitmap s).res0 = s.res0 := rfl
@[simp] theorem loseBitmap_res1 (s : State) : (loseBitmap s).res1 = s.res1 := rfl
@[simp] theorem loseBitmap_bmW (s : State) : (loseBitmap s).bmW = .unspecified := rfl
@[simp] theorem loseBitmap_bmH (s : State) : (loseBitmap s).bmH = .unspecified := rfl
@[simp] theorem loseBitmap_bmD (s : State) : (loseBitmap s).bmD = .unspecified := rfl
@[simp] theorem loseBitmap_paln (s : State) : (loseBitmap s).paln = s.paln := rfl
@[simp] theorem loseBitmap_zlen (s : State) : (loseBitmap s).zlen = s.zlen := rfl
@[simp] theorem loseBitmap_png (s : State) : (loseBitmap s).png = s.png := rfl
@[simp] theorem loseBitmap_bmp (s : State) : (loseBitmap s).bmp = s.bmp := rfl
@[simp] theorem loseBitmap_ico (s : State) : (loseBitmap s).ico = s.ico := rfl
@[simp] theorem loseBitmap_imem (s : State) : (loseBitmap s).imem = s.imem := rfl
@[simp] theorem loseBitmap_zmem (s : State) : (loseBitmap s).zmem = s.zmem := rfl
@[simp] theorem loseBitmap_pmem (s : State) : (loseBitmap s).pmem = [] := rfl
@[simp] theorem loseBitmap_pal (s : State) : (loseBitmap s).pal = s.pal := rfl
@[simp] theorem loseBitmap_xmem (s : State) : (loseBitmap s).xmem = s.xmem := rfl
@[simp] theorem loseBitmap_engine (s : State) : (loseBitmap s).engine = s.engine := rfl
@[simp] theorem loseBitmap_cap (s : State) : (loseBitmap s).cap = s.cap := rfl
@[simp] theorem loseBitmap_script (s : State) : (loseBitmap s).script = s.script := rfl
@[simp] theorem loseBitmap_rdata (s : State) : (loseBitmap s).rdata = s.rdata := rfl
@[simp] theorem loseBitmap_fresh (s : State) : (loseBitmap s).fresh = s.fresh := rfl

/-! ## loseBmp -/

@[simp] theorem loseBmp_st (s : State) : (loseBmp s).st = s.st := rfl
@[simp] theorem loseBmp_errcode (s : State) : (loseBmp s).errcode = s.errcode := rfl
@[simp] theorem loseBmp_ie (s : State) : (loseBmp s).ie = s.ie := rfl
@[simp] theorem loseBmp_ilen (s : State) : (loseBmp s).ilen = s.ilen := rfl
@[simp] theorem loseBmp_ipos (s : State) : (loseBmp s).ipos = s.ipos := rfl
@[simp] theorem loseBmp_arg0 (s : State) : (loseBmp s).arg0 = s.arg0 := rfl
@[simp] theorem loseBmp_arg1 (s : State) : (loseBmp s).arg1 = s.arg1 := rfl
@[simp] theorem loseBmp_arg2 (s : State) : (loseBmp s).arg2 = s.arg2 := rfl
@[simp] theorem loseBmp_res0 (s : State) : (loseBmp s).res0 = s.res0 := rfl
@[simp] theorem loseBmp_res1 (s : State) : (loseBmp s).res1 = s.res1 := rfl
@[simp] theorem loseBmp_bmW (s : State) : (loseBmp s).bmW = s.bmW := rfl
@[simp] theorem loseBmp_bmH (s : State) : (loseBmp s).bmH = s.bmH := rfl
@[simp] theorem loseBmp_bmD (s : State) : (loseBmp s).bmD = s.bmD := rfl
@[simp] theorem loseBmp_paln (s : State) : (loseBmp s).paln = .unspecified := rfl
@[simp] theorem loseBmp_zlen (s : State) : (loseBmp s).zlen = s.zlen := rfl
@[simp] theorem loseBmp_png (s : State) : (loseBmp s).png = s.png := rfl
@[simp] theorem loseBmp_bmp (s : State) : (loseBmp s).bmp = ⟨.unspecified, .unspecified, .unspecified, .unspecified, .unspecified, .unspecified, .unspecified⟩ := rfl
@[simp] theorem loseBmp_ico (s : State) : (loseBmp s).ico = s.ico := rfl
@[simp] theorem loseBmp_imem (s : State) : (loseBmp s).imem = s.imem := rfl
@[simp] theorem loseBmp_zmem (s : State) : (loseBmp s).zmem = s.zmem := rfl
@[simp] theorem loseBmp_pmem (s : State) : (loseBmp s).pmem = s.pmem := rfl
@[simp] theorem loseBmp_pal (s : State) : (loseBmp s).pal = [] := rfl
@[simp] theorem loseBmp_xmem (s : State) : (loseBmp s).xmem = s.xmem := rfl
@[simp] theorem loseBmp_engine (s : State) : (loseBmp s).engine = s.engine := rfl
@[simp] theorem loseBmp_cap (s : State) : (loseBmp s).cap = s.cap := rfl
@[simp] theorem loseBmp_script (s : State) : (loseBmp s).script = s.script := rfl
@[simp] theorem loseBmp_rdata (s : State) : (loseBmp s).rdata = s.rdata := rfl
@[simp] theorem loseBmp_fresh (s : State) : (loseBmp s).fresh = s.fresh := rfl

/-! ## loseZmem -/

@[simp] theorem loseZmem_st (s : State) : (loseZmem s).st = s.st := rfl
@[simp] theorem loseZmem_errcode (s : State) : (loseZmem s).errcode = s.errcode := rfl
@[simp] theorem loseZmem_ie (s : State) : (loseZmem s).ie = s.ie := rfl
@[simp] theorem loseZmem_ilen (s : State) : (loseZmem s).ilen = s.ilen := rfl
@[simp] theorem loseZmem_ipos (s : State) : (loseZmem s).ipos = s.ipos := rfl
@[simp] theorem loseZmem_arg0 (s : State) : (loseZmem s).arg0 = s.arg0 := rfl
@[simp] theorem loseZmem_arg1 (s : State) : (loseZmem s).arg1 = s.arg1 := rfl
@[simp] theorem loseZmem_arg2 (s : State) : (loseZmem s).arg2 = s.arg2 := rfl
@[simp] theorem loseZmem_res0 (s : State) : (loseZmem s).res0 = s.res0 := rfl
@[simp] theorem loseZmem_res1 (s : State) : (loseZmem s).res1 = s.res1 := rfl
@[simp] theorem loseZmem_bmW (s : State) : (loseZmem s).bmW = s.bmW := rfl
@[simp] theorem loseZmem_bmH (s : State) : (loseZmem s).bmH = s.bmH := rfl
@[simp] theorem loseZmem_bmD (s : State) : (loseZmem s).bmD = s.bmD := rfl
@[simp] theorem loseZmem_paln (s : State) : (loseZmem s).paln = s.paln := rfl
@[simp] theorem loseZmem_zlen (s : State) : (loseZmem s).zlen = .unspecified := rfl
@[simp] theorem loseZmem_png (s : State) : (loseZmem s).png = s.png := rfl
@[simp] theorem loseZmem_bmp (s : State) : (loseZmem s).bmp = s.bmp := rfl
@[simp] theorem loseZmem_ico (s : State) : (loseZmem s).ico = s.ico := rfl
@[simp] theorem loseZmem_imem (s : State) : (loseZmem s).imem = s.imem := rfl
@[simp] theorem loseZmem_zmem (s : State) : (loseZmem s).zmem = [] := rfl
@[simp] theorem loseZmem_pmem (s : State) : (loseZmem s).pmem = s.pmem := rfl
@[simp] theorem loseZmem_pal (s : State) : (loseZmem s).pal = s.pal := rfl
@[simp] theorem loseZmem_xmem (s : State) : (loseZmem s).xmem = s.xmem := rfl
@[simp] theorem loseZmem_engine (s : State) : (loseZmem s).engine = s.engine := rfl
@[simp] theorem loseZmem_cap (s : State) : (loseZmem s).cap = s.cap := rfl
@[simp] theorem loseZmem_script (s : State) : (loseZmem s).script = s.script := rfl
@[simp] theorem loseZmem_rdata (s : State) : (loseZmem s).rdata = s.rdata := rfl
@[simp] theorem loseZmem_fresh (s : State) : (loseZmem s).fresh = s.fresh := rfl

/-! ## losePng -/

@[simp] theorem losePng_st (s : State) : (losePng s).st = s.st := rfl
@[simp] theorem losePng_errcode (s : State) : (losePng s).errcode = s.errcode := rfl
@[simp] theorem losePng_ie (s : State) : (losePng s).ie = s.ie := rfl
@[simp] theorem losePng_ilen (s : State) : (losePng s).ilen = s.ilen := rfl
@[simp] theorem losePng_ipos (s : State) : (losePng s).ipos = s.ipos := rfl
@[simp] theorem losePng_arg0 (s : State) : (losePng s).arg0 = s.arg0 := rfl
@[simp] theorem losePng_arg1 (s : State) : (losePng s).arg1 = s.arg1 := rfl
@[simp] theorem losePng_arg2 (s : State) : (losePng s).arg2 = s.arg2 := rfl
@[simp] theorem losePng_res0 (s : State) : (losePng s).res0 = s.res0 := rfl
@[simp] theorem losePng_res1 (s : State) : (losePng s).res1 = s.res1 := rfl
@[simp] theorem losePng_bmW (s : State) : (losePng s).bmW = s.bmW := rfl
@[simp] theorem losePng_bmH (s : State) : (losePng s).bmH = s.bmH := rfl
@[simp] theorem losePng_bmD (s : State) : (losePng s).bmD = s.bmD := rfl
@[simp] theorem losePng_paln (s : State) : (losePng s).paln = s.paln := rfl
@[simp] theorem losePng_zlen (s : State) : (losePng s).zlen = s.zlen := rfl
@[simp] theorem losePng_png (s : State) : (losePng s).png = ⟨.unspecified, .unspecified, .unspecified, .unspecified, .unspecified, .unspecified⟩ := rfl
@[simp] theorem losePng_bmp (s : State) : (losePng s).bmp = s.bmp := rfl
@[simp] theorem losePng_ico (s : State) : (losePng s).ico = s.ico := rfl
@[simp] theorem losePng_imem (s : State) : (losePng s).imem = s.imem := rfl
@[simp] theorem losePng_zmem (s : State) : (losePng s).zmem = s.zmem := rfl
@[simp] theorem losePng_pmem (s : State) : (losePng s).pmem = s.pmem := rfl
@[simp] theorem losePng_pal (s : State) : (losePng s).pal = s.pal := rfl
@[simp] theorem losePng_xmem (s : State) : (losePng s).xmem = s.xmem := rfl
@[simp] theorem losePng_engine (s : State) : (losePng s).engine = s.engine := rfl
@[simp] theorem losePng_cap (s : State) : (losePng s).cap = s.cap := rfl
@[simp] theorem losePng_script (s : State) : (losePng s).script = s.script := rfl
@[simp] theorem losePng_rdata (s : State) : (losePng s).rdata = s.rdata := rfl
@[simp] theorem losePng_fresh (s : State) : (losePng s).fresh = s.fresh := rfl

/-! ## loseIco -/

@[simp] theorem loseIco_st (s : State) : (loseIco s).st = s.st := rfl
@[simp] theorem loseIco_errcode (s : State) : (loseIco s).errcode = s.errcode := rfl
@[simp] theorem loseIco_ie (s : State) : (loseIco s).ie = s.ie := rfl
@[simp] theorem loseIco_ilen (s : State) : (loseIco s).ilen = s.ilen := rfl
@[simp] theorem loseIco_ipos (s : State) : (loseIco s).ipos = s.ipos := rfl
@[simp] theorem loseIco_arg0 (s : State) : (loseIco s).arg0 = s.arg0 := rfl
@[simp] theorem loseIco_arg1 (s : State) : (loseIco s).arg1 = s.arg1 := rfl
@[simp] theorem loseIco_arg2 (s : State) : (loseIco s).arg2 = s.arg2 := rfl
@[simp] theorem loseIco_res0 (s : State) : (loseIco s).res0 = s.res0 := rfl
@[simp] theorem loseIco_res1 (s : State) : (loseIco s).res1 = s.res1 := rfl
@[simp] theorem loseIco_bmW (s : State) : (loseIco s).bmW = s.bmW := rfl
@[simp] theorem loseIco_bmH (s : State) : (loseIco s).bmH = s.bmH := rfl
@[simp] theorem loseIco_bmD (s : State) : (loseIco s).bmD = s.bmD := rfl
@[simp] theorem loseIco_paln (s : State) : (loseIco s).paln = s.paln := rfl
@[simp] theorem loseIco_zlen (s : State) : (loseIco s).zlen = s.zlen := rfl
@[simp] theorem loseIco_png (s : State) : (loseIco s).png = s.png := rfl
@[simp] theorem loseIco_bmp (s : State) : (loseIco s).bmp = s.bmp := rfl
@[simp] theorem loseIco_ico (s : State) : (loseIco s).ico = ⟨.unspecified, .unspecified, .unspecified, .unspecified, .unspecified, .unspecified, .unspecified, .unspecified, .unspecified⟩ := rfl
@[simp] theorem loseIco_imem (s : State) : (loseIco s).imem = s.imem := rfl
@[simp] theorem loseIco_zmem (s : State) : (loseIco s).zmem = s.zmem := rfl
@[simp] theorem loseIco_pmem (s : State) : (loseIco s).pmem = s.pmem := rfl
@[simp] theorem loseIco_pal (s : State) : (loseIco s).pal = s.pal := rfl
@[simp] theorem loseIco_xmem (s : State) : (loseIco s).xmem = s.xmem := rfl
@[simp] theorem loseIco_engine (s : State) : (loseIco s).engine = s.engine := rfl
@[simp] theorem loseIco_cap (s : State) : (loseIco s).cap = s.cap := rfl
@[simp] theorem loseIco_script (s : State) : (loseIco s).script = s.script := rfl
@[simp] theorem loseIco_rdata (s : State) : (loseIco s).rdata = s.rdata := rfl
@[simp] theorem loseIco_fresh (s : State) : (loseIco s).fresh = s.fresh := rfl

/-! ## loseIpos -/

@[simp] theorem loseIpos_st (s : State) : (loseIpos s).st = s.st := rfl
@[simp] theorem loseIpos_errcode (s : State) : (loseIpos s).errcode = s.errcode := rfl
@[simp] theorem loseIpos_ie (s : State) : (loseIpos s).ie = s.ie := rfl
@[simp] theorem loseIpos_ilen (s : State) : (loseIpos s).ilen = s.ilen := rfl
@[simp] theorem loseIpos_ipos (s : State) : (loseIpos s).ipos = .unspecified := rfl
@[simp] theorem loseIpos_arg0 (s : State) : (loseIpos s).arg0 = s.arg0 := rfl
@[simp] theorem loseIpos_arg1 (s : State) : (loseIpos s).arg1 = s.arg1 := rfl
@[simp] theorem loseIpos_arg2 (s : State) : (loseIpos s).arg2 = s.arg2 := rfl
@[simp] theorem loseIpos_res0 (s : State) : (loseIpos s).res0 = s.res0 := rfl
@[simp] theorem loseIpos_res1 (s : State) : (loseIpos s).res1 = s.res1 := rfl
@[simp] theorem loseIpos_bmW (s : State) : (loseIpos s).bmW = s.bmW := rfl
@[simp] theorem loseIpos_bmH (s : State) : (loseIpos s).bmH = s.bmH := rfl
@[simp] theorem loseIpos_bmD (s : State) : (loseIpos s).bmD = s.bmD := rfl
@[simp] theorem loseIpos_paln (s : State) : (loseIpos s).paln = s.paln := rfl
@[simp] theorem loseIpos_zlen (s : State) : (loseIpos s).zlen = s.zlen := rfl
@[simp] theorem loseIpos_png (s : State) : (loseIpos s).png = s.png := rfl
@[simp] theorem loseIpos_bmp (s : State) : (loseIpos s).bmp = s.bmp := rfl
@[simp] theorem loseIpos_ico (s : State) : (loseIpos s).ico = s.ico := rfl
@[simp] theorem loseIpos_imem (s : State) : (loseIpos s).imem = s.imem := rfl
@[simp] theorem loseIpos_zmem (s : State) : (loseIpos s).zmem = s.zmem := rfl
@[simp] theorem loseIpos_pmem (s : State) : (loseIpos s).pmem = s.pmem := rfl
@[simp] theorem loseIpos_pal (s : State) : (loseIpos s).pal = s.pal := rfl
@[simp] theorem loseIpos_xmem (s : State) : (loseIpos s).xmem = s.xmem := rfl
@[simp] theorem loseIpos_engine (s : State) : (loseIpos s).engine = s.engine := rfl
@[simp] theorem loseIpos_cap (s : State) : (loseIpos s).cap = s.cap := rfl
@[simp] theorem loseIpos_script (s : State) : (loseIpos s).script = s.script := rfl
@[simp] theorem loseIpos_rdata (s : State) : (loseIpos s).rdata = s.rdata := rfl
@[simp] theorem loseIpos_fresh (s : State) : (loseIpos s).fresh = s.fresh := rfl

/-! ## clobber: what no row of the table of 60_exceptions R325 lists -/

@[simp] theorem clobber_st (k : Scope) (s : State) : (clobber k s).st = s.st := by cases k <;> rfl
@[simp] theorem clobber_errcode (k : Scope) (s : State) : (clobber k s).errcode = s.errcode := by cases k <;> rfl
@[simp] theorem clobber_ie (k : Scope) (s : State) : (clobber k s).ie = s.ie := by cases k <;> rfl
@[simp] theorem clobber_ilen (k : Scope) (s : State) : (clobber k s).ilen = s.ilen := by cases k <;> rfl
@[simp] theorem clobber_arg0 (k : Scope) (s : State) : (clobber k s).arg0 = s.arg0 := by cases k <;> rfl
@[simp] theorem clobber_arg1 (k : Scope) (s : State) : (clobber k s).arg1 = s.arg1 := by cases k <;> rfl
@[simp] theorem clobber_arg2 (k : Scope) (s : State) : (clobber k s).arg2 = s.arg2 := by cases k <;> rfl
@[simp] theorem clobber_res0 (k : Scope) (s : State) : (clobber k s).res0 = s.res0 := by cases k <;> rfl
@[simp] theorem clobber_res1 (k : Scope) (s : State) : (clobber k s).res1 = s.res1 := by cases k <;> rfl
@[simp] theorem clobber_imem (k : Scope) (s : State) : (clobber k s).imem = s.imem := by cases k <;> rfl
@[simp] theorem clobber_xmem (k : Scope) (s : State) : (clobber k s).xmem = s.xmem := by cases k <;> rfl
@[simp] theorem clobber_engine (k : Scope) (s : State) : (clobber k s).engine = s.engine := by cases k <;> rfl
@[simp] theorem clobber_cap (k : Scope) (s : State) : (clobber k s).cap = s.cap := by cases k <;> rfl
@[simp] theorem clobber_script (k : Scope) (s : State) : (clobber k s).script = s.script := by cases k <;> rfl
@[simp] theorem clobber_rdata (k : Scope) (s : State) : (clobber k s).rdata = s.rdata := by cases k <;> rfl
@[simp] theorem clobber_fresh (k : Scope) (s : State) : (clobber k s).fresh = s.fresh := by cases k <;> rfl

/-! ## takeError -/

@[simp] theorem takeError_st (k : Scope) (e : ErrorKind) (s : State) : (takeError k e s).st = .err := rfl
@[simp] theorem takeError_errcode (k : Scope) (e : ErrorKind) (s : State) : (takeError k e s).errcode = some e := rfl
@[simp] theorem takeError_ie (k : Scope) (e : ErrorKind) (s : State) : (takeError k e s).ie = s.ie := clobber_ie k s
@[simp] theorem takeError_ilen (k : Scope) (e : ErrorKind) (s : State) : (takeError k e s).ilen = s.ilen := clobber_ilen k s
@[simp] theorem takeError_ipos (k : Scope) (e : ErrorKind) (s : State) : (takeError k e s).ipos = (clobber k s).ipos := rfl
@[simp] theorem takeError_arg0 (k : Scope) (e : ErrorKind) (s : State) : (takeError k e s).arg0 = s.arg0 := clobber_arg0 k s
@[simp] theorem takeError_arg1 (k : Scope) (e : ErrorKind) (s : State) : (takeError k e s).arg1 = s.arg1 := clobber_arg1 k s
@[simp] theorem takeError_arg2 (k : Scope) (e : ErrorKind) (s : State) : (takeError k e s).arg2 = s.arg2 := clobber_arg2 k s
@[simp] theorem takeError_res0 (k : Scope) (e : ErrorKind) (s : State) : (takeError k e s).res0 = s.res0 := clobber_res0 k s
@[simp] theorem takeError_res1 (k : Scope) (e : ErrorKind) (s : State) : (takeError k e s).res1 = s.res1 := clobber_res1 k s
@[simp] theorem takeError_bmW (k : Scope) (e : ErrorKind) (s : State) : (takeError k e s).bmW = (clobber k s).bmW := rfl
@[simp] theorem takeError_bmH (k : Scope) (e : ErrorKind) (s : State) : (takeError k e s).bmH = (clobber k s).bmH := rfl
@[simp] theorem takeError_bmD (k : Scope) (e : ErrorKind) (s : State) : (takeError k e s).bmD = (clobber k s).bmD := rfl
@[simp] theorem takeError_paln (k : Scope) (e : ErrorKind) (s : State) : (takeError k e s).paln = (clobber k s).paln := rfl
@[simp] theorem takeError_zlen (k : Scope) (e : ErrorKind) (s : State) : (takeError k e s).zlen = (clobber k s).zlen := rfl
@[simp] theorem takeError_png (k : Scope) (e : ErrorKind) (s : State) : (takeError k e s).png = (clobber k s).png := rfl
@[simp] theorem takeError_bmp (k : Scope) (e : ErrorKind) (s : State) : (takeError k e s).bmp = (clobber k s).bmp := rfl
@[simp] theorem takeError_ico (k : Scope) (e : ErrorKind) (s : State) : (takeError k e s).ico = (clobber k s).ico := rfl
@[simp] theorem takeError_imem (k : Scope) (e : ErrorKind) (s : State) : (takeError k e s).imem = s.imem := clobber_imem k s
@[simp] theorem takeError_zmem (k : Scope) (e : ErrorKind) (s : State) : (takeError k e s).zmem = (clobber k s).zmem := rfl
@[simp] theorem takeError_pmem (k : Scope) (e : ErrorKind) (s : State) : (takeError k e s).pmem = (clobber k s).pmem := rfl
@[simp] theorem takeError_pal (k : Scope) (e : ErrorKind) (s : State) : (takeError k e s).pal = (clobber k s).pal := rfl
@[simp] theorem takeError_xmem (k : Scope) (e : ErrorKind) (s : State) : (takeError k e s).xmem = s.xmem := clobber_xmem k s
@[simp] theorem takeError_engine (k : Scope) (e : ErrorKind) (s : State) : (takeError k e s).engine = .idle := rfl
@[simp] theorem takeError_cap (k : Scope) (e : ErrorKind) (s : State) : (takeError k e s).cap = s.cap := clobber_cap k s
@[simp] theorem takeError_script (k : Scope) (e : ErrorKind) (s : State) : (takeError k e s).script = s.script := clobber_script k s
@[simp] theorem takeError_rdata (k : Scope) (e : ErrorKind) (s : State) : (takeError k e s).rdata = s.rdata := clobber_rdata k s
@[simp] theorem takeError_fresh (k : Scope) (e : ErrorKind) (s : State) : (takeError k e s).fresh = s.fresh := clobber_fresh k s

/-! ## writeReg: what no register write touches -/

@[simp] theorem writeReg_st (s : State) (r : RegName) (v : Word) : (writeReg s r v).st = s.st := by cases r <;> rfl
@[simp] theorem writeReg_errcode (s : State) (r : RegName) (v : Word) : (writeReg s r v).errcode = s.errcode := by cases r <;> rfl
@[simp] theorem writeReg_ipos (s : State) (r : RegName) (v : Word) : (writeReg s r v).ipos = s.ipos := by cases r <;> rfl
@[simp] theorem writeReg_res0 (s : State) (r : RegName) (v : Word) : (writeReg s r v).res0 = s.res0 := by cases r <;> rfl
@[simp] theorem writeReg_res1 (s : State) (r : RegName) (v : Word) : (writeReg s r v).res1 = s.res1 := by cases r <;> rfl
@[simp] theorem writeReg_bmW (s : State) (r : RegName) (v : Word) : (writeReg s r v).bmW = s.bmW := by cases r <;> rfl
@[simp] theorem writeReg_bmH (s : State) (r : RegName) (v : Word) : (writeReg s r v).bmH = s.bmH := by cases r <;> rfl
@[simp] theorem writeReg_bmD (s : State) (r : RegName) (v : Word) : (writeReg s r v).bmD = s.bmD := by cases r <;> rfl
@[simp] theorem writeReg_png (s : State) (r : RegName) (v : Word) : (writeReg s r v).png = s.png := by cases r <;> rfl
@[simp] theorem writeReg_bmp (s : State) (r : RegName) (v : Word) : (writeReg s r v).bmp = s.bmp := by cases r <;> rfl
@[simp] theorem writeReg_ico (s : State) (r : RegName) (v : Word) : (writeReg s r v).ico = s.ico := by cases r <;> rfl
@[simp] theorem writeReg_imem (s : State) (r : RegName) (v : Word) : (writeReg s r v).imem = s.imem := by cases r <;> rfl
@[simp] theorem writeReg_zmem (s : State) (r : RegName) (v : Word) : (writeReg s r v).zmem = s.zmem := by cases r <;> rfl
@[simp] theorem writeReg_pmem (s : State) (r : RegName) (v : Word) : (writeReg s r v).pmem = s.pmem := by cases r <;> rfl
@[simp] theorem writeReg_pal (s : State) (r : RegName) (v : Word) : (writeReg s r v).pal = s.pal := by cases r <;> rfl
@[simp] theorem writeReg_xmem (s : State) (r : RegName) (v : Word) : (writeReg s r v).xmem = s.xmem := by cases r <;> rfl
@[simp] theorem writeReg_engine (s : State) (r : RegName) (v : Word) : (writeReg s r v).engine = s.engine := by cases r <;> rfl
@[simp] theorem writeReg_cap (s : State) (r : RegName) (v : Word) : (writeReg s r v).cap = s.cap := by cases r <;> rfl
@[simp] theorem writeReg_script (s : State) (r : RegName) (v : Word) : (writeReg s r v).script = s.script := by cases r <;> rfl
@[simp] theorem writeReg_rdata (s : State) (r : RegName) (v : Word) : (writeReg s r v).rdata = s.rdata := by cases r <;> rfl
@[simp] theorem writeReg_fresh (s : State) (r : RegName) (v : Word) : (writeReg s r v).fresh = s.fresh := by cases r <;> rfl

/-! ## writeSpace: what no memory write touches -/

@[simp] theorem writeSpace_st (s : State) (sp : Space) (n i : Nat) (v : Word) : (writeSpace s sp n i v).st = s.st := by
  cases sp <;> rfl
@[simp] theorem writeSpace_errcode (s : State) (sp : Space) (n i : Nat) (v : Word) : (writeSpace s sp n i v).errcode = s.errcode := by
  cases sp <;> rfl
@[simp] theorem writeSpace_ie (s : State) (sp : Space) (n i : Nat) (v : Word) : (writeSpace s sp n i v).ie = s.ie := by
  cases sp <;> rfl
@[simp] theorem writeSpace_ilen (s : State) (sp : Space) (n i : Nat) (v : Word) : (writeSpace s sp n i v).ilen = s.ilen := by
  cases sp <;> rfl
@[simp] theorem writeSpace_ipos (s : State) (sp : Space) (n i : Nat) (v : Word) : (writeSpace s sp n i v).ipos = s.ipos := by
  cases sp <;> rfl
@[simp] theorem writeSpace_arg0 (s : State) (sp : Space) (n i : Nat) (v : Word) : (writeSpace s sp n i v).arg0 = s.arg0 := by
  cases sp <;> rfl
@[simp] theorem writeSpace_arg1 (s : State) (sp : Space) (n i : Nat) (v : Word) : (writeSpace s sp n i v).arg1 = s.arg1 := by
  cases sp <;> rfl
@[simp] theorem writeSpace_arg2 (s : State) (sp : Space) (n i : Nat) (v : Word) : (writeSpace s sp n i v).arg2 = s.arg2 := by
  cases sp <;> rfl
@[simp] theorem writeSpace_res0 (s : State) (sp : Space) (n i : Nat) (v : Word) : (writeSpace s sp n i v).res0 = s.res0 := by
  cases sp <;> rfl
@[simp] theorem writeSpace_res1 (s : State) (sp : Space) (n i : Nat) (v : Word) : (writeSpace s sp n i v).res1 = s.res1 := by
  cases sp <;> rfl
@[simp] theorem writeSpace_bmW (s : State) (sp : Space) (n i : Nat) (v : Word) : (writeSpace s sp n i v).bmW = s.bmW := by
  cases sp <;> rfl
@[simp] theorem writeSpace_bmH (s : State) (sp : Space) (n i : Nat) (v : Word) : (writeSpace s sp n i v).bmH = s.bmH := by
  cases sp <;> rfl
@[simp] theorem writeSpace_bmD (s : State) (sp : Space) (n i : Nat) (v : Word) : (writeSpace s sp n i v).bmD = s.bmD := by
  cases sp <;> rfl
@[simp] theorem writeSpace_paln (s : State) (sp : Space) (n i : Nat) (v : Word) : (writeSpace s sp n i v).paln = s.paln := by
  cases sp <;> rfl
@[simp] theorem writeSpace_zlen (s : State) (sp : Space) (n i : Nat) (v : Word) : (writeSpace s sp n i v).zlen = s.zlen := by
  cases sp <;> rfl
@[simp] theorem writeSpace_png (s : State) (sp : Space) (n i : Nat) (v : Word) : (writeSpace s sp n i v).png = s.png := by
  cases sp <;> rfl
@[simp] theorem writeSpace_bmp (s : State) (sp : Space) (n i : Nat) (v : Word) : (writeSpace s sp n i v).bmp = s.bmp := by
  cases sp <;> rfl
@[simp] theorem writeSpace_ico (s : State) (sp : Space) (n i : Nat) (v : Word) : (writeSpace s sp n i v).ico = s.ico := by
  cases sp <;> rfl
@[simp] theorem writeSpace_engine (s : State) (sp : Space) (n i : Nat) (v : Word) : (writeSpace s sp n i v).engine = s.engine := by
  cases sp <;> rfl
@[simp] theorem writeSpace_cap (s : State) (sp : Space) (n i : Nat) (v : Word) : (writeSpace s sp n i v).cap = s.cap := by
  cases sp <;> rfl
@[simp] theorem writeSpace_script (s : State) (sp : Space) (n i : Nat) (v : Word) : (writeSpace s sp n i v).script = s.script := by
  cases sp <;> rfl
@[simp] theorem writeSpace_rdata (s : State) (sp : Space) (n i : Nat) (v : Word) : (writeSpace s sp n i v).rdata = s.rdata := by
  cases sp <;> rfl
@[simp] theorem writeSpace_fresh (s : State) (sp : Space) (n i : Nat) (v : Word) : (writeSpace s sp n i v).fresh = s.fresh := by
  cases sp <;> rfl

/-! ## resetBlock -/

@[simp] theorem resetBlock_st (s : State) : (resetBlock s).st = .idle := rfl
@[simp] theorem resetBlock_errcode (s : State) : (resetBlock s).errcode = none := rfl
@[simp] theorem resetBlock_ie (s : State) : (resetBlock s).ie = false := rfl
@[simp] theorem resetBlock_ilen (s : State) : (resetBlock s).ilen = 0#32 := rfl
@[simp] theorem resetBlock_ipos (s : State) : (resetBlock s).ipos = Reg.zero := rfl
@[simp] theorem resetBlock_arg0 (s : State) : (resetBlock s).arg0 = 0#32 := rfl
@[simp] theorem resetBlock_arg1 (s : State) : (resetBlock s).arg1 = 0#32 := rfl
@[simp] theorem resetBlock_arg2 (s : State) : (resetBlock s).arg2 = 0#32 := rfl
@[simp] theorem resetBlock_res0 (s : State) : (resetBlock s).res0 = 0#32 := rfl
@[simp] theorem resetBlock_res1 (s : State) : (resetBlock s).res1 = 0#32 := rfl
@[simp] theorem resetBlock_bmW (s : State) : (resetBlock s).bmW = Reg.zero := rfl
@[simp] theorem resetBlock_bmH (s : State) : (resetBlock s).bmH = Reg.zero := rfl
@[simp] theorem resetBlock_bmD (s : State) : (resetBlock s).bmD = Reg.zero := rfl
@[simp] theorem resetBlock_paln (s : State) : (resetBlock s).paln = Reg.zero := rfl
@[simp] theorem resetBlock_zlen (s : State) : (resetBlock s).zlen = Reg.zero := rfl
@[simp] theorem resetBlock_png (s : State) : (resetBlock s).png = ⟨Reg.zero, Reg.zero, Reg.zero, Reg.zero, Reg.zero, Reg.zero⟩ := rfl
@[simp] theorem resetBlock_bmp (s : State) : (resetBlock s).bmp = ⟨Reg.zero, Reg.zero, Reg.zero, Reg.zero, Reg.zero, Reg.zero, Reg.zero⟩ := rfl
@[simp] theorem resetBlock_ico (s : State) : (resetBlock s).ico = ⟨Reg.zero, Reg.zero, Reg.zero, Reg.zero, Reg.zero, Reg.zero, Reg.zero, Reg.zero, Reg.zero⟩ := rfl
@[simp] theorem resetBlock_imem (s : State) : (resetBlock s).imem = [] := rfl
@[simp] theorem resetBlock_zmem (s : State) : (resetBlock s).zmem = [] := rfl
@[simp] theorem resetBlock_pmem (s : State) : (resetBlock s).pmem = [] := rfl
@[simp] theorem resetBlock_pal (s : State) : (resetBlock s).pal = [] := rfl
@[simp] theorem resetBlock_xmem (s : State) : (resetBlock s).xmem = [] := rfl
@[simp] theorem resetBlock_engine (s : State) : (resetBlock s).engine = .idle := rfl
@[simp] theorem resetBlock_cap (s : State) : (resetBlock s).cap = s.cap := rfl
@[simp] theorem resetBlock_script (s : State) : (resetBlock s).script = s.script := rfl
@[simp] theorem resetBlock_rdata (s : State) : (resetBlock s).rdata = s.rdata := rfl
@[simp] theorem resetBlock_fresh (s : State) : (resetBlock s).fresh = s.fresh := rfl

/-- Losing what a scope names twice is losing it once. -/
theorem clobber_takeError (k : Scope) (e e' : ErrorKind) (s : State) : takeError k e (takeError k e' s) = takeError k e s := by
  cases k <;> simp only [takeError, clobber, loseBitmap, loseBmp, loseZmem, losePng, loseIco, loseIpos]

end Sys2Proof.Machine
end

