-- ==== Sys2Proof/Laws/Ops.lean ====
section
/-! SUPPORT. What each shared operation can do, said once: the primitives of 00_scope R7, registers, operands, the error entry. -/

namespace Sys2Proof.Machine

/-! ## Sequencing -/

section Sequencing
variable {ε α β : Type}

@[simp] theorem bind_ok (a : α) (f : α → Except ε β) : (Except.ok a >>= f) = f a := rfl

@[simp] theorem bind_error (e : ε) (f : α → Except ε β) : (Except.error e >>= f) = .error e := rfl

/-- A sequence ends well where both parts do. -/
theorem bind_eq_ok {x : Except ε α} {f : α → Except ε β} {r : β} : (x >>= f) = .ok r ↔ ∃ a, x = .ok a ∧ f a = .ok r := by
  cases x with
  | error e => simp
  | ok a => simp

/-- A sequence stops where its first part stops, or where its second part stops after the first. -/
theorem bind_eq_error {x : Except ε α} {f : α → Except ε β} {e : ε} :
    (x >>= f) = .error e ↔ x = .error e ∨ ∃ a, x = .ok a ∧ f a = .error e := by
  cases x with
  | error e' => simp
  | ok a => simp

end Sequencing

@[simp] theorem raise_ne_ok {α : Type} (e : ErrorKind) (a : α) : (raise e : Except Stop α) ≠ .ok a := by simp [raise]

@[simp] theorem raise_eq_error {α : Type} (e : ErrorKind) (x : Stop) :
    (raise e : Except Stop α) = .error x ↔ x = .raised e := by simp [raise, eq_comm]

/-! ## need -/

@[simp] theorem need_eq_ok {p n lim : Nat} {u : Unit} : need p n lim = .ok u ↔ p + n ≤ lim := by
  unfold need
  split <;> simp <;> omega

theorem need_of_le {p n lim : Nat} (h : p + n ≤ lim) : need p n lim = .ok () := need_eq_ok.2 h

theorem need_of_lt {p n lim : Nat} (h : lim < p + n) : need p n lim = raise .truncatedData := if_pos h

/-! ## Reads -/

@[simp] theorem readCell_eq_ok {n : Nat} {sp : Space} {m : Mem n} {a : Nat} {v : BitVec n} :
    readCell sp m a = .ok v ↔ memRead m a = some v := by
  unfold readCell
  split <;> simp_all

theorem readCell_of_some {n : Nat} {sp : Space} {m : Mem n} {a : Nat} {v : BitVec n} (h : memRead m a = some v) :
    readCell sp m a = .ok v := readCell_eq_ok.2 h

theorem readCell_of_none {n : Nat} {sp : Space} {m : Mem n} {a : Nat} (h : memRead m a = none) :
    readCell sp m a = .error (.faulted (.unwrittenRead sp a)) := by simp [readCell, h]

/-- A read never raises an error of the hardware. -/
theorem readCell_ne_raised {n : Nat} {sp : Space} {m : Mem n} {a : Nat} {e : ErrorKind} :
    readCell sp m a ≠ .error (.raised e) := by
  unfold readCell
  split <;> simp

/-- A run of bytes reads as a list exactly where its bytes stand there. -/
theorem readRun_eq_ok {sp : Space} {m : Mem 8} {n a : Nat} {l : List Byte} :
    readRun sp m n a = .ok l ↔ l.length = n ∧ ∀ k < n, memRead m (a + k) = l[k]? := by
  induction n generalizing a l with
  | zero => cases l <;> simp [readRun]
  | succ n ih =>
    simp only [readRun, bind_eq_ok, readCell_eq_ok, ih, Except.ok.injEq]
    constructor
    · rintro ⟨b, hb, rest, ⟨hl, hr⟩, rfl⟩
      refine ⟨by simp [hl], fun k hk => ?_⟩
      cases k with
      | zero => simpa using hb
      | succ k => simpa [Nat.add_assoc, Nat.add_comm 1] using hr k (by omega)
    · rintro ⟨hl, hr⟩
      cases l with
      | nil => simp at hl
      | cons b rest =>
        refine ⟨b, by simpa using hr 0 (by omega), rest, ⟨by simpa using hl, fun k hk => ?_⟩, rfl⟩
        simpa [Nat.add_assoc, Nat.add_comm 1] using hr (k + 1) (by omega)

/-! ## Loops -/

section Loops
variable {σ : Type} {f : Nat → σ → Except Stop σ}

/-- A loop that ends keeps what every turn of it keeps. -/
theorem forLoop_keeps {P : Nat → σ → Prop} {n i : Nat} {x r : σ} (hx : P i x)
    (hf : ∀ j y z, i ≤ j → j < i + n → P j y → f j y = .ok z → P (j + 1) z) (h : forLoop f n i x = .ok r) : P (i + n) r := by
  induction n generalizing i x with
  | zero => cases h; exact hx
  | succ n ih =>
    obtain ⟨y, hy, h⟩ := bind_eq_ok.1 h
    have := ih (hf i x y (Nat.le_refl i) (by omega) hx hy) (fun j y z h1 h2 => hf j y z (by omega) (by omega)) h
    rwa [Nat.add_assoc, Nat.add_comm 1] at this

/-- A loop ends where every turn of it does, and keeps what every turn keeps. -/
theorem forLoop_ends {P : Nat → σ → Prop} {n i : Nat} {x : σ} (hx : P i x)
    (hf : ∀ j y, i ≤ j → j < i + n → P j y → ∃ z, f j y = .ok z ∧ P (j + 1) z) : ∃ r, forLoop f n i x = .ok r ∧ P (i + n) r := by
  induction n generalizing i x with
  | zero => exact ⟨x, rfl, hx⟩
  | succ n ih =>
    obtain ⟨y, hy, hp⟩ := hf i x (Nat.le_refl i) (by omega) hx
    obtain ⟨r, hr, hp⟩ := ih hp (fun j y h1 h2 => hf j y (by omega) (by omega))
    exact ⟨r, by simp [forLoop, hy, hr], by rwa [Nat.add_assoc, Nat.add_comm 1] at hp⟩

/-- A loop stops in one of its turns. -/
theorem forLoop_stops {e : Stop} {n i : Nat} {x : σ} (h : forLoop f n i x = .error e) : ∃ j y, f j y = .error e := by
  induction n generalizing i x with
  | zero => cases h
  | succ n ih =>
    rcases bind_eq_error.1 h with h | ⟨y, -, h⟩
    · exact ⟨i, x, h⟩
    · exact ih h

/-- Two loops whose turns agree agree. -/
theorem forLoop_congr {g : Nat → σ → Except Stop σ} {n i : Nat} (x : σ) (h : ∀ j y, i ≤ j → j < i + n → f j y = g j y) :
    forLoop f n i x = forLoop g n i x := by
  induction n generalizing i x with
  | zero => rfl
  | succ n ih =>
    simp only [forLoop, h i x (Nat.le_refl i) (by omega)]
    congr 1
    funext y
    exact ih y (fun j y h1 h2 => h j y (by omega) (by omega))

end Loops

/-! ## Registers -/

@[simp] theorem regValue_eq_ok {r : RegName} {x : Reg} {w : Word} : regValue r x = .ok w ↔ x = .val w := by
  cases x <;> simp [regValue]

/-- A command reads a register's number exactly where it holds one. -/
theorem regNat_eq_ok {s : State} {r : RegName} {k : Nat} : regNat s r = .ok k ↔ ∃ w, readReg s r = .val w ∧ w.toNat = k := by
  simp [regNat, bind_eq_ok]

theorem regNat_of_val {s : State} {r : RegName} {w : Word} (h : readReg s r = .val w) : regNat s r = .ok w.toNat :=
  regNat_eq_ok.2 ⟨w, h, rfl⟩

/-- A stored number reads back where it fits the register, and never as more. -/
theorem regOf_toNat_le (v : Nat) : (BitVec.ofNat 32 v).toNat ≤ v := by
  simpa using Nat.mod_le v _

/-- A clamped length is at most its bound. -/
theorem clamp_le (v : Word) (most : Nat) : (clamp v most).toNat ≤ most := by
  unfold clamp
  exact Nat.le_trans (regOf_toNat_le _) (Nat.min_le_right _ _)

/-! ## Operands -/

/-- The legal DEPTH fields are those that name a PixelFormat (30_encoding R94). -/
theorem depthOfField_isSome (f : BitVec 8) : (depthOfField f).isSome = legalDepth f := by
  unfold depthOfField legalDepth
  repeat' split
  all_goals simp_all

theorem depthOfField_eq_none {f : BitVec 8} : depthOfField f = none ↔ legalDepth f = false := by
  rw [← depthOfField_isSome, Option.isSome_eq_false_iff, Option.isNone_iff_eq_none]

theorem depthOperand_eq_ok {f : BitVec 8} {d : Depth} : depthOperand f = .ok d ↔ depthOfField f = some d := by
  unfold depthOperand
  split <;> simp_all

theorem depthOperand_illegal {f : BitVec 8} (h : legalDepth f = false) : depthOperand f = raise .unsupportedFormat := by
  simp [depthOperand, depthOfField_eq_none.2 h]

/-- What the pixel operand can be: a pixel of the Bitmap. -/
theorem pixelOperand_eq_ok {s : State} {i : Nat} : pixelOperand s = .ok i ↔
    ∃ w h, s.bmW = .val w ∧ s.bmH = .val h ∧ s.arg0.toNat < w.toNat ∧ s.arg1.toNat < h.toNat ∧
      i = s.arg1.toNat * w.toNat + s.arg0.toNat := by
  simp only [pixelOperand, bind_eq_ok, regNat_eq_ok, readReg]
  constructor
  · rintro ⟨_, ⟨w, hw, rfl⟩, _, ⟨h, hh, rfl⟩, hi⟩
    split at hi
    · simp at hi
    · next hc => exact ⟨w, h, hw, hh, by omega, by omega, by simpa [eq_comm] using hi⟩
  · rintro ⟨w, h, hw, hh, h0, h1, rfl⟩
    exact ⟨_, ⟨w, hw, rfl⟩, _, ⟨h, hh, rfl⟩, by rw [if_neg (by omega)]⟩

/-- A pixel of a Bitmap of `w` by `h` has an index below `w * h`. -/
theorem pixel_index_lt {x y w h : Nat} (hx : x < w) (hy : y < h) : y * w + x < w * h :=
  calc y * w + x < y * w + w := by omega
    _ = (y + 1) * w := by ring
    _ ≤ h * w := Nat.mul_le_mul_right w hy
    _ = w * h := Nat.mul_comm h w

/-! ## The end of a part of a command -/

/-- What `settle` answers next: the state the part computed, or the error it raised, taken. -/
theorem settle_eq_next {k : Scope} {s t : State} {x : Except Stop State} :
    settle k s x = .next t ↔ x = .ok t ∨ ∃ e, x = .error (.raised e) ∧ t = takeError k e s := by
  cases x with
  | ok a => simp [settle]
  | error e => cases e <;> simp [settle, eq_comm]

@[simp] theorem settle_ok (k : Scope) (s t : State) : settle k s (.ok t) = .next t := rfl

@[simp] theorem settle_raise (k : Scope) (s : State) (e : ErrorKind) : settle k s (raise e) = .next (takeError k e s) := rfl

/-- `settle` faults where the part faulted, and never refuses. -/
theorem settle_eq_fault {k : Scope} {s : State} {x : Except Stop State} {f : Fault} :
    settle k s x = .fault f ↔ x = .error (.faulted f) := by
  cases x with
  | ok a => simp [settle]
  | error e => cases e <;> simp [settle]

theorem settle_ne_refused {k : Scope} {s : State} {x : Except Stop State} {r : Refusal} : settle k s x ≠ .refused r := by
  cases x with
  | ok a => simp [settle]
  | error e => cases e <;> simp [settle]

end Sys2Proof.Machine
end

