-- ==== Sys2Proof/Laws/Inflate.lean ====
section
/-! SUPPORT. What the parts of the decompressor can do: how far they read, and that their output fits. -/

namespace Sys2Proof.Machine

variable {imem : Mem 8} {src : Source}

/-! ## Bits -/

/-- A bit is read inside `S`. -/
theorem getBit_inside {bp b : Nat} (h : getBit imem src bp = .ok b) : bp < 8 * srcLen src := by
  unfold getBit at h
  split at h
  · simp at h
  · omega

theorem getBit_le_one {bp b : Nat} (h : getBit imem src bp = .ok b) : b ≤ 1 := by
  unfold getBit at h
  split at h
  · simp at h
  · simp only [bind_eq_ok, Except.ok.injEq] at h
    obtain ⟨x, -, rfl⟩ := h
    omega

/-- `getbits(n)` consumes `n` bits of `S` and yields a number of `n` bits. -/
theorem getBits_eq_ok {n bp v bp' : Nat} (h : getBits imem src n bp = .ok (v, bp')) :
    bp' = bp + n ∧ v < 2 ^ n ∧ (n = 0 ∨ bp + n ≤ 8 * srcLen src) := by
  induction n generalizing bp v bp' with
  | zero => cases h; simp
  | succ n ih =>
    simp only [getBits, bind_eq_ok] at h
    obtain ⟨b, hb, ⟨x, y⟩, hr, h⟩ := h
    obtain ⟨rfl, hx, hl⟩ := ih hr
    have h1 := getBit_inside hb
    have h2 := getBit_le_one hb
    cases h
    refine ⟨by omega, by omega, .inr ?_⟩
    rcases hl with rfl | hl <;> omega

/-! ## Symbols -/

theorem decodeSymFrom_advances {c : Code} {n l code bp sym bp' : Nat} (h : decodeSymFrom imem src c n l code bp = .ok (sym, bp')) :
    bp < bp' ∧ bp' ≤ 8 * srcLen src := by
  induction n generalizing l code bp with
  | zero => simp [decodeSymFrom] at h
  | succ n ih =>
    simp only [decodeSymFrom, bind_eq_ok] at h
    obtain ⟨b, hb, h⟩ := h
    have := getBit_inside hb
    split at h
    · cases h; omega
    · have := ih h; omega

/-- A symbol takes at least one bit, all inside `S`. -/
theorem decodeSym_advances {c : Code} {bp sym bp' : Nat} (h : decodeSym imem src c bp = .ok (sym, bp')) :
    bp < bp' ∧ bp' ≤ 8 * srcLen src :=
  decodeSymFrom_advances h

theorem baseAndExtra_advances {table : List (Nat × Nat)} {k bp v bp' : Nat}
    (h : baseAndExtra imem src table k bp = .ok (v, bp')) : bp ≤ bp' := by
  unfold baseAndExtra at h
  split at h
  · simp only [bind_eq_ok] at h
    obtain ⟨⟨x, y⟩, hx, h⟩ := h
    have := (getBits_eq_ok hx).1
    cases h; omega
  · simp at h

/-! ## Output -/

/-- `put` adds one byte and fits. -/
theorem putByte_eq_ok {cap : Nat} {rout r : List Byte} {b : Byte} : putByte cap rout b = .ok r ↔ rout.length < cap ∧ r = b :: rout := by
  unfold putByte
  split
  · simp; omega
  · next h => simp [Nat.lt_of_not_le h, eq_comm]

theorem copyLoop_fits {cap d n : Nat} {rout r : List Byte} (h : copyLoop cap d n rout = .ok r) (hr : rout.length ≤ cap) :
    r.length ≤ cap := by
  induction n generalizing rout with
  | zero => cases h; exact hr
  | succ n ih =>
    simp only [copyLoop, bind_eq_ok, putByte_eq_ok] at h
    obtain ⟨_, ⟨hl, rfl⟩, h⟩ := h
    exact ih h (by simp; omega)

theorem copyBack_fits {cap len d : Nat} {rout r : List Byte} (h : copyBack cap len d rout = .ok r) (hr : rout.length ≤ cap) :
    r.length ≤ cap := by
  unfold copyBack at h
  split at h
  · simp at h
  · exact copyLoop_fits h hr

/-! ## Blocks -/

/-- What every block body does: it moves the bit position on, inside `S`, and its output fits where the output before did. -/
def BodyAdvances (body : Mem 8 → Source → Nat → Nat → List Byte → Except Stop (Nat × List Byte)) : Prop :=
  ∀ imem src cap bp rout bp' rout', body imem src cap bp rout = .ok (bp', rout') →
    bp ≤ bp' ∧ bp' ≤ 8 * srcLen src ∧ (rout.length ≤ cap → rout'.length ≤ cap)

theorem compressedBlock_advances {cap : Nat} {lit dist : Code} {n bp bp' : Nat} {rout rout' : List Byte}
    (h : compressedBlock imem src cap lit dist n bp rout = .ok (bp', rout')) :
    bp ≤ bp' ∧ bp' ≤ 8 * srcLen src ∧ (rout.length ≤ cap → rout'.length ≤ cap) := by
  induction n generalizing bp rout with
  | zero => simp [compressedBlock] at h
  | succ n ih =>
    simp only [compressedBlock, bind_eq_ok] at h
    obtain ⟨⟨sym, bp1⟩, h1, h⟩ := h
    have hb := decodeSym_advances h1
    simp only at h
    split at h
    · simp only [bind_eq_ok, putByte_eq_ok] at h
      obtain ⟨_, ⟨hl, rfl⟩, h⟩ := h
      have := ih h
      exact ⟨by omega, this.2.1, fun _ => this.2.2 (by simp; omega)⟩
    · split at h
      · cases h
        exact ⟨by omega, hb.2, id⟩
      · simp only [bind_eq_ok] at h
        obtain ⟨⟨len, bp2⟩, h2, ⟨ds, bp3⟩, h3, ⟨d, bp4⟩, h4, r, h5, h⟩ := h
        have a2 := baseAndExtra_advances h2
        have a3 := decodeSym_advances h3
        have a4 := baseAndExtra_advances h4
        have := ih h
        exact ⟨by omega, this.2.1, fun hr => this.2.2 (copyBack_fits h5 hr)⟩

theorem storedBlock_advances : BodyAdvances storedBlock := by
  intro imem src cap bp rout bp' rout' h
  simp only [storedBlock, bind_eq_ok] at h
  obtain ⟨_, -, l0, -, l1, -, n0, -, n1, -, h⟩ := h
  split at h
  · simp at h
  · simp only [bind_eq_ok] at h
    obtain ⟨_, hn, r, hr, h⟩ := h
    simp only [Except.ok.injEq, Prod.mk.injEq] at h
    obtain ⟨rfl, rfl⟩ := h
    have := need_eq_ok.1 hn
    refine ⟨by omega, by omega, fun hl => ?_⟩
    refine forLoop_keeps (P := fun _ r => r.length ≤ cap) hl ?_ hr
    intro j y z _ _ hy hz
    simp only [bind_eq_ok, putByte_eq_ok] at hz
    obtain ⟨b, -, hlt, rfl⟩ := hz
    simp; omega

theorem fixedBlock_advances : BodyAdvances fixedBlock := by
  intro imem src cap bp rout bp' rout' h
  simp only [fixedBlock, bind_eq_ok] at h
  obtain ⟨⟨lit, dist⟩, -, h⟩ := h
  exact compressedBlock_advances h

theorem readCodeLens_advances {syms : List Nat} {bp bp' : Nat} {cl cl' : List Nat}
    (h : readCodeLens imem src syms bp cl = .ok (cl', bp')) : bp ≤ bp' := by
  induction syms generalizing bp cl with
  | nil => cases h; exact Nat.le_refl _
  | cons s syms ih =>
    simp only [readCodeLens, bind_eq_ok] at h
    obtain ⟨⟨v, b⟩, hv, h⟩ := h
    have := (getBits_eq_ok hv).1
    have := ih h
    omega

theorem readRepeat_advances {s bp v rep bp' : Nat} {rlens : List Nat} (h : readRepeat imem src s rlens bp = .ok (v, rep, bp')) :
    bp ≤ bp' ∧ 3 ≤ rep := by
  unfold readRepeat at h
  repeat' split at h
  all_goals first
    | (simp at h; done)
    | (simp only [bind_eq_ok] at h
       obtain ⟨⟨x, b⟩, hx, h⟩ := h
       have := (getBits_eq_ok hx).1
       cases h
       omega)

theorem readLens_advances {clcode : Code} {total n bp bp' : Nat} {rlens rlens' : List Nat}
    (h : readLens imem src clcode total n bp rlens = .ok (rlens', bp')) : bp ≤ bp' := by
  induction n generalizing bp rlens with
  | zero => cases h; exact Nat.le_refl _
  | succ n ih =>
    simp only [readLens] at h
    split at h
    · cases h; exact Nat.le_refl _
    · simp only [bind_eq_ok] at h
      obtain ⟨⟨s, bp1⟩, h1, h⟩ := h
      have := decodeSym_advances h1
      simp only at h
      split at h
      · have := ih h; omega
      · simp only [bind_eq_ok] at h
        obtain ⟨⟨v, rep, bp2⟩, h2, h⟩ := h
        have := (readRepeat_advances h2).1
        simp only at h
        split at h
        · simp at h
        · have := ih h; omega

theorem dynamicCodes_advances {bp bp' : Nat} {lit dist : Code} (h : dynamicCodes imem src bp = .ok (lit, dist, bp')) : bp ≤ bp' := by
  simp only [dynamicCodes, bind_eq_ok] at h
  obtain ⟨⟨hl, b1⟩, h1, ⟨hd, b2⟩, h2, ⟨hc, b3⟩, h3, h⟩ := h
  have a1 := (getBits_eq_ok h1).1
  have a2 := (getBits_eq_ok h2).1
  have a3 := (getBits_eq_ok h3).1
  simp only at h
  split at h
  · simp at h
  · simp only [bind_eq_ok] at h
    obtain ⟨⟨cl, b4⟩, h4, cc, -, ⟨rl, b5⟩, h5, h⟩ := h
    have a4 := readCodeLens_advances h4
    have a5 := readLens_advances h5
    simp only at h
    split at h
    · simp at h
    · simp only [bind_eq_ok] at h
      obtain ⟨l, -, d, -, h⟩ := h
      cases h
      omega

theorem dynamicBlock_advances : BodyAdvances dynamicBlock := by
  intro imem src cap bp rout bp' rout' h
  simp only [dynamicBlock, bind_eq_ok] at h
  obtain ⟨⟨lit, dist, b⟩, h1, h⟩ := h
  have h2 := compressedBlock_advances h
  exact ⟨Nat.le_trans (dynamicCodes_advances h1) h2.1, h2.2⟩

end Sys2Proof.Machine
end

