-- ==== Sys2Proof/Laws/Stream.lean ====
section
/-! SUPPORT. What each part of a decode can do: where it answers a state, which fields of it are new and where they come from. -/

namespace Sys2Proof.Machine

/-! ## Rows and samples -/

/-- `unpack_samples` and write-back: PMEM, the Bitmap registers and the cursor are new, and the command is complete. -/
theorem pngFinish_eq_ok {s t : State} {p : PngImage} : pngFinish s p = .ok t ↔
    ∃ m, unpackSamples s.zmem p.hdr s.pmem = .ok m ∧ t = complete { s with
      pmem := m, bmW := regOf p.hdr.w, bmH := regOf p.hdr.h, bmD := depthReg p.depth, ipos := regOf p.pos } := by
  simp only [pngFinish, bind_eq_ok, Except.ok.injEq]
  exact exists_congr fun m => and_congr_right fun _ => eq_comm

/-- Entering the scanlines: the next one is next, or UNFILT is complete, or a PNG goes on to its samples. -/
theorem enterRows_eq_ok {s t : State} {c : RowCtx} : enterRows s c = .ok t ↔
    (c.row < c.rows ∧ t = { s with st := .busy, engine := .rows c }) ∨
    (c.rows ≤ c.row ∧ c.png = none ∧ t = complete s) ∨
    (c.rows ≤ c.row ∧ ∃ p, c.png = some p ∧ pngFinish s p = .ok t) := by
  unfold enterRows
  by_cases h : c.row < c.rows
  · simp [h, eq_comm]
  · rw [if_neg h]
    cases hp : c.png with
    | none => simp [h, Nat.le_of_not_lt h, eq_comm]
    | some p => simp [h, Nat.le_of_not_lt h]

/-- A filter byte: its row is reconstructed and the scanlines go on, or its command takes an error. -/
theorem filterStep_eq_next {pred : Byte → Byte → Byte → Byte} {s t : State} : filterStep pred s = .next t ↔
    ∃ c, s.engine = .rows c ∧
      ((∃ z, unfilterRow pred c.rowbytes c.bpp c.row s.zmem = .ok z ∧
          enterRows { s with zmem := z } { c with row := c.row + 1 } = .ok t) ∨
        ∃ e, t = takeError (engineScope s.engine) e s ∧ (do
          let zmem ← unfilterRow pred c.rowbytes c.bpp c.row s.zmem
          enterRows { s with zmem := zmem } { c with row := c.row + 1 }) = .error (.raised e)) := by
  unfold filterStep
  cases h : s.engine with
  | rows c =>
    simp only [settle_eq_next, bind_eq_ok, Engine.rows.injEq, exists_eq_left', engineScope]
    exact or_congr_right (exists_congr fun e => and_comm)
  | _ => simp

/-! ## Blocks -/

/-- The end of the zlib stream: ZMEM and ZLEN are new, and INFLATE is complete or the scanlines begin. -/
theorem inflateDone_eq_ok {s t : State} {c : BlockCtx} {bp : Nat} {rout : List Byte} : inflateDone s c bp rout = .ok t ↔
    (c.png = none ∧ t = complete { s with
      zmem := memWriteRun s.zmem 0 rout.reverse, zlen := regOf rout.length, ipos := regOf ((bp + 7) / 8) }) ∨
    (∃ p, c.png = some p ∧ p.hdr.h * (rowBytes p.hdr + 1) ≤ rout.length ∧
      enterRows { s with zmem := memWriteRun s.zmem 0 rout.reverse, zlen := regOf rout.length }
        ⟨rowBytes p.hdr, p.hdr.h, bytesPerPixel p.hdr, 0, some p⟩ = .ok t) := by
  unfold inflateDone
  cases hp : c.png with
  | none => simp [eq_comm]
  | some p =>
    simp only [List.length_reverse]
    split
    · next h => simp; omega
    · next h => simp [Nat.le_of_not_lt h]

/-- The body of a block as `blockStep` runs it. -/
abbrev BlockBody := Mem 8 → Source → Nat → Nat → List Byte → Except Stop (Nat × List Byte)

/-- A block: its body moves the bit position and extends the output; then the next block is next, or the stream ends; or its command takes
an error. -/
theorem blockStep_eq_next {body : BlockBody} {b : Bool} {s t : State} (h : blockStep body b s = .next t) :
    ∃ c, s.engine = .blocks c ∧
      ((∃ bp rout, body s.imem c.src s.cap.zmemBytes (c.bp + 3) c.rout = .ok (bp, rout) ∧
          ((b = true ∧ inflateDone s c bp rout = .ok t) ∨
            (b = false ∧ t = { s with engine := .blocks { c with bp := bp, rout := rout } }))) ∨
        ∃ e, t = takeError (engineScope s.engine) e s) := by
  unfold blockStep at h
  cases hs : s.engine with
  | blocks c =>
    rw [hs] at h
    rcases settle_eq_next.1 h with h | ⟨e, -, h⟩
    · obtain ⟨⟨bp, rout⟩, hb, h⟩ := bind_eq_ok.1 h
      refine ⟨c, rfl, .inl ⟨bp, rout, hb, ?_⟩⟩
      cases b with
      | true => exact .inl ⟨rfl, h⟩
      | false => exact .inr ⟨rfl, by simpa [eq_comm] using h⟩
    · exact ⟨c, rfl, .inr ⟨e, h⟩⟩
  | _ => rw [hs] at h; cases h

/-! ## The chunk walk -/

theorem pngStart_eq_ok {s t : State} {ico : Bool} {d : BitVec 8} {base lim : Nat} : pngStart s ico d base lim = .ok t ↔
    base + 8 ≤ lim ∧ readRun .imem s.imem 8 base = .ok pngSignature ∧
      t = { s with st := .busy, engine := .chunks ⟨ico, d, lim, base + 8, none, []⟩ } := by
  simp only [pngStart, bind_eq_ok, need_eq_ok]
  constructor
  · rintro ⟨_, hn, sig, hr, h⟩
    split at h
    · simp at h
    · next hs => exact ⟨hn, by rw [hr, not_not.1 hs], by simpa [eq_comm] using h⟩
  · rintro ⟨hn, hr, rfl⟩
    exact ⟨(), hn, _, hr, by simp⟩

/-- The head of a chunk: it lies in the window with its payload and its CRC. -/
theorem chunkHead_eq_ok {s : State} {c : ChunkCtx} {len type : Nat} : chunkHead s c = .ok (len, type) ↔
    c.pos + 12 + len ≤ c.lim ∧ u32be s c.pos = .ok len ∧ u32be s (c.pos + 4) = .ok type := by
  simp only [chunkHead, bind_eq_ok, need_eq_ok, Except.ok.injEq, Prod.mk.injEq]
  constructor
  · rintro ⟨_, h1, l, hl, ty, ht, _, h2, _, h3, rfl, rfl⟩
    exact ⟨by omega, hl, ht⟩
  · rintro ⟨h, hl, ht⟩
    exact ⟨(), by omega, len, hl, type, ht, (), by omega, (), by omega, rfl, rfl⟩

/-- An accepted header describes an image that fits PMEM and is not empty. -/
theorem parseIhdr_fits {s : State} {q len : Nat} {h : Ihdr} (hp : parseIhdr s q len = .ok h) :
    1 ≤ h.w ∧ 1 ≤ h.h ∧ h.w * h.h ≤ s.cap.pmemPixels := by
  unfold parseIhdr at hp
  split at hp
  · simp at hp
  · simp only [bind_eq_ok] at hp
    obtain ⟨w, -, h', -, bd, -, ct, -, _, -, _, -, il, -, hp⟩ := hp
    split at hp
    · simp at hp
    split at hp
    · simp at hp
    split at hp
    · simp at hp
    next hc =>
    cases hp
    exact ⟨by simp only; omega, by simp only; omega, by simp only; omega⟩

/-- What the three chunk types can do. -/
theorem execPngChunkIHDR_eq_next {s t : State} (h : execPngChunkIHDR s = .next t) : ∃ c, s.engine = .chunks c ∧
    ((∃ len type hdr, chunkHead s c = .ok (len, type) ∧ c.hdr = none ∧ parseIhdr s (c.pos + 8) len = .ok hdr ∧
        t = { s with
          png := { s.png with w := regOf hdr.w, h := regOf hdr.h, bd := regOf hdr.bd, ct := regOf hdr.ct }
          engine := .chunks { nextChunk c len with hdr := some hdr } }) ∨
      ∃ e, t = takeError (engineScope s.engine) e s) := by
  unfold execPngChunkIHDR at h
  cases hs : s.engine with
  | chunks c =>
    rw [hs] at h
    rcases settle_eq_next.1 h with h | ⟨e, -, h⟩
    · obtain ⟨⟨len, type⟩, hh, h⟩ := bind_eq_ok.1 h
      simp only at h
      split at h
      · simp at h
      · next hc =>
        obtain ⟨hdr, hp, h⟩ := bind_eq_ok.1 h
        exact ⟨c, rfl, .inl ⟨len, type, hdr, hh, by simpa using hc, hp, by simpa [eq_comm] using h⟩⟩
    · exact ⟨c, rfl, .inr ⟨e, h⟩⟩
  | _ => rw [hs] at h; cases h

theorem execPngChunkIDAT_eq_next {s t : State} (h : execPngChunkIDAT s = .next t) : ∃ c, s.engine = .chunks c ∧
    ((∃ len type payload, chunkHead s c = .ok (len, type) ∧ c.hdr ≠ none ∧
        readRun .imem s.imem len (c.pos + 8) = .ok payload ∧
        t = { s with engine := .chunks { nextChunk c len with idat := c.idat ++ payload } }) ∨
      ∃ e, t = takeError (engineScope s.engine) e s) := by
  unfold execPngChunkIDAT at h
  cases hs : s.engine with
  | chunks c =>
    rw [hs] at h
    rcases settle_eq_next.1 h with h | ⟨e, -, h⟩
    · obtain ⟨⟨len, type⟩, hh, h⟩ := bind_eq_ok.1 h
      simp only at h
      split at h
      · simp at h
      · next hc =>
        obtain ⟨payload, hp, h⟩ := bind_eq_ok.1 h
        exact ⟨c, rfl, .inl ⟨len, type, payload, hh, by simpa using hc, hp, by simpa [eq_comm] using h⟩⟩
    · exact ⟨c, rfl, .inr ⟨e, h⟩⟩
  | _ => rw [hs] at h; cases h

theorem pngDecompress_eq_ok {s t : State} {p : PngImage} {idat : List Byte} : pngDecompress s p idat = .ok t ↔
    p.hdr.h * (rowBytes p.hdr + 1) ≤ s.cap.zmemBytes ∧ checkZlibHeader s.imem (.bytes idat) 0 = .ok () ∧
      t = { s with
        png := { s.png with bpp := regOf (bytesPerPixel p.hdr), rowb := regOf (rowBytes p.hdr) }
        engine := .blocks ⟨.bytes idat, 16, [], some p⟩ } := by
  unfold pngDecompress
  split
  · simp; omega
  · next h =>
    simp only [bind_eq_ok, Except.ok.injEq, Nat.le_of_not_lt h, true_and]
    exact ⟨fun ⟨_, h1, h2⟩ => ⟨h1, h2.symm⟩, fun ⟨h1, h2⟩ => ⟨(), h1, h2.symm⟩⟩

theorem execPngChunkIEND_eq_next {s t : State} (h : execPngChunkIEND s = .next t) : ∃ c, s.engine = .chunks c ∧
    ((∃ len type hdr, chunkHead s c = .ok (len, type) ∧ c.hdr = some hdr ∧
        pngDecompress s ⟨c.ico, c.depth, hdr, c.pos + 12 + len⟩ c.idat = .ok t) ∨
      ∃ e, t = takeError (engineScope s.engine) e s) := by
  unfold execPngChunkIEND at h
  cases hs : s.engine with
  | chunks c =>
    rw [hs] at h
    rcases settle_eq_next.1 h with h | ⟨e, -, h⟩
    · obtain ⟨⟨len, type⟩, hh, h⟩ := bind_eq_ok.1 h
      cases hc : c.hdr with
      | none => rw [hc] at h; simp at h
      | some hdr => rw [hc] at h; exact ⟨c, rfl, .inl ⟨len, type, hdr, hh, hc, h⟩⟩
    · exact ⟨c, rfl, .inr ⟨e, h⟩⟩
  | _ => rw [hs] at h; cases h

theorem skipChunk_eq_next {s t : State} (h : skipChunk s = .next t) : ∃ c, s.engine = .chunks c ∧
    ((∃ len type, chunkHead s c = .ok (len, type) ∧ c.hdr ≠ none ∧ t = { s with engine := .chunks (nextChunk c len) }) ∨
      ∃ e, t = takeError (engineScope s.engine) e s) := by
  unfold skipChunk at h
  cases hs : s.engine with
  | chunks c =>
    rw [hs] at h
    rcases settle_eq_next.1 h with h | ⟨e, -, h⟩
    · obtain ⟨⟨len, type⟩, hh, h⟩ := bind_eq_ok.1 h
      simp only at h
      split at h
      · simp at h
      · next hc => exact ⟨c, rfl, .inl ⟨len, type, hh, by simpa using hc, by simpa [eq_comm] using h⟩⟩
    · exact ⟨c, rfl, .inr ⟨e, h⟩⟩
  | _ => rw [hs] at h; cases h

/-! ## BMP -/

theorem bmpStart_eq_ok {d : BitVec 8} {s t : State} (h : bmpStart d s = .ok t) :
    14 ≤ s.ilen.toNat ∧ ∃ off, t = { s with st := .busy, engine := .header ⟨false, d, 14, s.ilen.toNat, off⟩ } := by
  unfold bmpStart at h
  simp only [bind_eq_ok] at h
  obtain ⟨_, -, b0, -, b1, -, h⟩ := h
  split at h
  · simp at h
  · simp only [bind_eq_ok, need_eq_ok] at h
    obtain ⟨_, hn, off, -, h⟩ := h
    exact ⟨by omega, off, by simpa [eq_comm] using h⟩

/-- The two info-header parsers leave only the engine new. -/
theorem coreHeader_eq_ok {s t : State} {c : BmpCtx} (h : coreHeader s c = .ok t) :
    c.ico = false ∧ c.h0 + 12 ≤ c.lim ∧ ∃ w h : Nat, t = { s with engine := .pixels ⟨c, 12, true, w, h, 0⟩ } := by
  unfold coreHeader at h
  split at h
  · simp at h
  · next hi =>
    simp only [bind_eq_ok, need_eq_ok] at h
    obtain ⟨_, hn, w, -, h', -, _, -, h⟩ := h
    exact ⟨by simpa using hi, hn, w, h', by simpa [eq_comm] using h⟩

theorem modernHeader_eq_ok {hs : Nat} {s t : State} {c : BmpCtx} (h : modernHeader hs s c = .ok t) :
    c.h0 + hs ≤ c.lim ∧ ∃ (w h : Int) (n : Nat), t = { s with engine := .pixels ⟨c, hs, false, w, h, n⟩ } := by
  unfold modernHeader at h
  simp only [bind_eq_ok, need_eq_ok] at h
  obtain ⟨_, hn, w, -, h', -, _, -, comp, -, n, -, h⟩ := h
  split at h
  · simp at h
  · exact ⟨hn, w, h', n, by simpa [eq_comm] using h⟩

theorem headerStep_eq_next {parse : State → BmpCtx → Except Stop State} {s t : State} (h : headerStep parse s = .next t) :
    ∃ c, s.engine = .header c ∧ (parse s c = .ok t ∨ ∃ e, t = takeError (engineScope s.engine) e s) := by
  unfold headerStep at h
  cases hs : s.engine with
  | header c =>
    rw [hs] at h
    rcases settle_eq_next.1 h with h | ⟨e, -, h⟩
    · exact ⟨c, rfl, .inl h⟩
    · exact ⟨c, rfl, .inr ⟨e, h⟩⟩
  | _ => rw [hs] at h; cases h

theorem pixelStep_eq_next {decodeAll : State → BmpHeader → Except Stop State} {s t : State} (h : pixelStep decodeAll s = .next t) :
    ∃ c, s.engine = .pixels c ∧ (decodeAll s c = .ok t ∨ ∃ e, t = takeError (engineScope s.engine) e s) := by
  unfold pixelStep at h
  cases hs : s.engine with
  | pixels c =>
    rw [hs] at h
    rcases settle_eq_next.1 h with h | ⟨e, -, h⟩
    · exact ⟨c, rfl, .inl h⟩
    · exact ⟨c, rfl, .inr ⟨e, h⟩⟩
  | _ => rw [hs] at h; cases h

/-- An accepted size fits PMEM and is not empty. -/
theorem bmpSize_fits {cap : Capacities} {c : BmpHeader} {w h : Nat} {td : Bool} (hs : bmpSize cap c = .ok (w, h, td)) :
    1 ≤ w ∧ 1 ≤ h ∧ w * h ≤ cap.pmemPixels := by
  unfold bmpSize at hs
  split at hs
  · split at hs
    · simp at hs
    split at hs
    · simp at hs
    next h1 h2 => cases hs; omega
  · split at hs
    · simp at hs
    split at hs
    · simp at hs
    next h1 h2 => cases hs; omega

/-- Loading a color table: PAL and PALN are new. -/
theorem loadColorTable_eq_ok {s t : State} {pos lim bits clrUsed es n after : Nat}
    (h : loadColorTable s pos lim bits clrUsed es = .ok (t, n, after)) :
    n = tableEntries bits clrUsed ∧ n ≤ 256 ∧ pos + n * es ≤ lim ∧ after = pos + n * es ∧
      ∃ pal, forLoop (tableEntry s pos es) n 0 s.pal = .ok pal ∧ t = { s with pal := pal, paln := regOf n } := by
  unfold loadColorTable at h
  simp only at h
  split at h
  · simp at h
  · next hn =>
    simp only [bind_eq_ok, need_eq_ok] at h
    obtain ⟨_, hl, pal, hp, h⟩ := h
    simp only [Except.ok.injEq, Prod.mk.injEq] at h
    obtain ⟨rfl, rfl, rfl⟩ := h
    exact ⟨rfl, by omega, hl, rfl, pal, hp, rfl⟩

/-- The end of the pixels: the mask merged where there is one, the registers written, the command complete. -/
theorem bmpFinish_eq_ok {s t : State} {c : BmpHeader} {bits w h stride pos : Nat} {pmem : Mem 32}
    (hf : bmpFinish s c bits w h stride pos pmem = .ok t) :
    ∃ m q, (c.ctx.ico = false ∧ m = pmem ∧ q = pos ∨
        c.ctx.ico = true ∧ q = pos + bmpStride 1 w * h ∧ q ≤ c.ctx.lim ∧ mergeMask s pos w h pmem = .ok m) ∧
      t = complete { s with
        bmW := regOf w, bmH := regOf h, bmD := depthReg c.ctx.depth
        bmp := ⟨regOf c.hs, regOfInt c.w, regOfInt c.h, regOf bits, regOf 0, regOf c.ctx.off, regOf stride⟩
        pmem := m, ipos := regOf q } := by
  unfold bmpFinish at hf
  simp only at hf
  split at hf
  · next hi =>
    simp only [bind_eq_ok, need_eq_ok] at hf
    obtain ⟨_, hn, m, hm, hf⟩ := hf
    exact ⟨m, _, .inr ⟨hi, rfl, hn, hm⟩, by simpa [eq_comm] using hf⟩
  · next hi => exact ⟨pmem, _, .inl ⟨by simpa using hi, rfl, rfl⟩, by simpa [eq_comm] using hf⟩

/-- The pixels of a BMP, whole: a size that fits, a color table where the pixels are indexed, the rows, the end. -/
theorem decodePixels_eq_ok {bits : Nat} {pix : State → Nat → Nat → Nat → Except Stop Word} {s t : State} {c : BmpHeader}
    (h : decodePixels bits pix s c = .ok t) :
    ∃ w hh td u n pos after m, bmpSize s.cap c = .ok (w, hh, td) ∧
      (bits ≤ 8 ∧ loadColorTable s (c.ctx.h0 + c.hs) c.ctx.lim bits c.clrUsed (if c.core then 3 else 4) = .ok (u, n, after) ∨
        8 < bits ∧ u = s ∧ n = 0 ∧ after = c.ctx.h0 + c.hs) ∧
      pixelStart c after = .ok pos ∧ pos + bmpStride bits w * hh ≤ c.ctx.lim ∧
      unpackRows (pix u n) pos (bmpStride bits w) w hh td u.pmem = .ok m ∧
      bmpFinish u c bits w hh (bmpStride bits w) (pos + bmpStride bits w * hh) m = .ok t := by
  unfold decodePixels at h
  obtain ⟨⟨w, hh, td⟩, hs, h⟩ := bind_eq_ok.1 h
  obtain ⟨⟨u, n, after⟩, hu, h⟩ := bind_eq_ok.1 h
  simp only [bind_eq_ok, need_eq_ok] at h
  obtain ⟨pos, hp, _, hn, m, hm, h⟩ := h
  refine ⟨w, hh, td, u, n, pos, after, m, hs, ?_, hp, hn, hm, h⟩
  unfold pixelTable at hu
  split at hu
  · next hb => exact .inl ⟨hb, hu⟩
  · next hb =>
    simp only [Except.ok.injEq, Prod.mk.injEq] at hu
    exact .inr ⟨by omega, hu.1.symm, hu.2.1.symm, hu.2.2.symm⟩

/-! ## ICO -/

theorem icoStart_eq_ok {d : BitVec 8} {s t : State} (h : icoStart d s = .ok t) :
    ∃ ico off lim, ico.sel = s.ico.sel ∧ off + 8 ≤ lim ∧ lim ≤ s.ilen.toNat ∧
      t = { s with st := .busy, ico := ico, engine := .payload ⟨d, off, lim⟩ } := by
  unfold icoStart at h
  simp only [bind_eq_ok] at h
  obtain ⟨_, -, r, -, ty, -, cnt, -, h⟩ := h
  split at h
  · simp at h
  · simp only [bind_eq_ok] at h
    obtain ⟨_, -, a, -, b, -, cc, -, pl, -, eb, -, size, -, off, -, h⟩ := h
    split at h
    · simp at h
    · next hl =>
      simp only [bind_eq_ok, need_eq_ok] at h
      obtain ⟨_, hn, h⟩ := h
      simp only [Except.ok.injEq] at h
      subst h
      refine ⟨_, off, off + size, ?_, hn, by omega, rfl⟩
      rfl

theorem execIcoPayloadPng_eq_next {s t : State} (h : execIcoPayloadPng s = .next t) : ∃ c, s.engine = .payload c ∧
    (pngStart { s with ico := { s.ico with sel := regOf 1 } } true c.depth c.off c.lim = .ok t ∨
      ∃ e, t = takeError (engineScope s.engine) e s) := by
  unfold execIcoPayloadPng at h
  cases hs : s.engine with
  | payload c =>
    rw [hs] at h
    rcases settle_eq_next.1 h with h | ⟨e, -, h⟩
    · exact ⟨c, rfl, .inl h⟩
    · exact ⟨c, rfl, .inr ⟨e, h⟩⟩
  | _ => rw [hs] at h; cases h

theorem execIcoPayloadBmp_eq_next {head : BitVec 64} {s t : State} (h : execIcoPayloadBmp head s = .next t) :
    ∃ c, s.engine = .payload c ∧
      t = { s with ico := { s.ico with sel := regOf 0 }, engine := .header ⟨true, c.depth, c.off, c.lim, 0⟩ } := by
  unfold execIcoPayloadBmp at h
  cases hs : s.engine with
  | payload c => rw [hs] at h; exact ⟨c, rfl, by cases h; rfl⟩
  | _ => rw [hs] at h; cases h

/-! ## The starts of INFLATE and UNFILT -/

theorem inflateStart_eq_ok {s t : State} : inflateStart s = .ok t ↔
    checkZlibHeader s.imem (.imem s.ilen.toNat) s.arg0.toNat = .ok () ∧
      t = { s with st := .busy, engine := .blocks ⟨.imem s.ilen.toNat, 8 * (s.arg0.toNat + 2), [], none⟩ } := by
  simp only [inflateStart, bind_eq_ok, Except.ok.injEq]
  exact ⟨fun ⟨_, h1, h2⟩ => ⟨h1, h2.symm⟩, fun ⟨h1, h2⟩ => ⟨(), h1, h2.symm⟩⟩

theorem unfiltStart_eq_ok {s t : State} (h : unfiltStart s = .ok t) :
    1 ≤ s.arg2.toNat ∧ s.arg2.toNat ≤ 8 ∧ ∃ z : Word, s.zlen = .val z ∧ s.arg1.toNat * (s.arg0.toNat + 1) ≤ z.toNat ∧
      enterRows s ⟨s.arg0.toNat, s.arg1.toNat, s.arg2.toNat, 0, none⟩ = .ok t := by
  unfold unfiltStart at h
  simp only at h
  split at h
  · simp at h
  · next hb =>
    obtain ⟨_, hz, h⟩ := bind_eq_ok.1 h
    obtain ⟨z, hv, rfl⟩ := regNat_eq_ok.1 hz
    split at h
    · simp at h
    · next hl => exact ⟨by omega, by omega, z, hv, by omega, h⟩

end Sys2Proof.Machine
end

