-- ==== Sys2Proof/Laws/Written.lean ====
section
/-! SUPPORT. What the loops that write a memory do to it, said once: the canonical form and the held locations are kept, and new locations
lie below a bound. -/

namespace Sys2Proof.Machine

variable {n : Nat}

/-- `m'` is `m` after writes below `len` or to locations that held a value. -/
structure Written (m m' : Mem n) (len : Nat) : Prop where
  wf : memWf m → memWf m'
  within : ∀ size, len ≤ size → memWithin m size → memWithin m' size
  kept : ∀ k, memRead m k ≠ none → memRead m' k ≠ none

theorem Written.refl (m : Mem n) (len : Nat) : Written m m len := ⟨id, fun _ _ h => h, fun _ h => h⟩

theorem Written.trans {m m' m'' : Mem n} {len : Nat} (h : Written m m' len) (h' : Written m' m'' len) : Written m m'' len :=
  ⟨fun w => h'.wf (h.wf w), fun s hs w => h'.within s hs (h.within s hs w), fun k hk => h'.kept k (h.kept k hk)⟩

theorem Written.mono {m m' : Mem n} {len len' : Nat} (h : Written m m' len) (hl : len ≤ len') : Written m m' len' :=
  ⟨h.wf, fun s hs => h.within s (Nat.le_trans hl hs), h.kept⟩

/-- One write below the bound. -/
theorem written_memWrite (m : Mem n) {a len : Nat} (v : BitVec n) (h : a < len) : Written m (memWrite m a v) len where
  wf w := memWf_memWrite w a v
  within _ hs w := memWithin_memWrite w (Nat.lt_of_lt_of_le h hs)
  kept k hk := by rw [memRead_memWrite]; split <;> simp [hk]

/-- One write to a location that holds a value. -/
theorem written_memWrite_held {m : Mem n} {a : Nat} (v : BitVec n) (h : memRead m a ≠ none) (len : Nat) :
    Written m (memWrite m a v) len where
  wf w := memWf_memWrite w a v
  within _ _ w := memWithin_memWrite w (memRead_some_lt w h)
  kept k hk := by rw [memRead_memWrite]; split <;> simp [hk]

/-- A run from location 0 on. -/
theorem written_memWriteRun (m : Mem n) (vs : List (BitVec n)) : Written m (memWriteRun m 0 vs) vs.length where
  wf w := memWf_memWriteRun w 0 vs
  within _ hs w := memWithin_memWriteRun w (by omega)
  kept k hk := by
    rw [memRead_memWriteRun]
    split
    · next h => rw [ne_eq, List.getElem?_eq_none_iff]; omega
    · exact hk

/-- A loop whose turns write so writes so. -/
theorem written_forLoop {f : Nat → Mem n → Except Stop (Mem n)} {cnt i len : Nat} {m m' : Mem n}
    (hf : ∀ j y z, i ≤ j → j < i + cnt → f j y = .ok z → Written y z len) (h : forLoop f cnt i m = .ok m') : Written m m' len :=
  forLoop_keeps (P := fun _ y => Written m y len) (Written.refl m len) (fun j y z h1 h2 hp hz => hp.trans (hf j y z h1 h2 hz)) h

/-- A loop whose turn `j` leaves a value at `at j`, and whose turns keep what is held, leaves a value at every `at j`. -/
theorem covered_forLoop {f : Nat → Mem n → Except Stop (Mem n)} {cnt len : Nat} {m m' : Mem n} (at_ : Nat → Nat)
    (hw : ∀ j y z, j < cnt → f j y = .ok z → Written y z len) (hf : ∀ j y z, j < cnt → f j y = .ok z → memRead z (at_ j) ≠ none)
    (h : forLoop f cnt 0 m = .ok m') : ∀ j < cnt, memRead m' (at_ j) ≠ none := by
  have := forLoop_keeps (P := fun k y => ∀ j < k, memRead y (at_ j) ≠ none) (by simp)
    (fun j y z _ h2 hp hz => by
      intro k hk
      rcases Nat.lt_succ_iff_lt_or_eq.1 hk with hk | rfl
      · exact (hw j y z (by omega) hz).kept _ (hp k hk)
      · exact hf k y z (by omega) hz) h
  simpa using this

/-! ## The loops of the model -/

theorem convPixel_written {d : Depth} {i : Nat} {m m' : Mem 32} (h : convPixel d i m = .ok m') (len : Nat) : Written m m' len := by
  simp only [convPixel, bind_eq_ok, readCell_eq_ok, Except.ok.injEq] at h
  obtain ⟨c, hc, rfl⟩ := h
  exact written_memWrite_held _ (by simp [hc]) len

theorem palmapPixel_written {pmem pal : Mem 32} {paln i len : Nat} {m m' : Mem 8} (h : palmapPixel pmem pal paln i m = .ok m')
    (hi : i < len) : Written m m' len := by
  simp only [palmapPixel, bind_eq_ok, Except.ok.injEq] at h
  obtain ⟨c, -, k, -, rfl⟩ := h
  exact written_memWrite _ _ hi

theorem unfilterByte_written {pred : Byte → Byte → Byte → Byte} {rb bpp r i : Nat} {m m' : Mem 8}
    (h : unfilterByte pred rb bpp r i m = .ok m') : Written m m' 0 := by
  simp only [unfilterByte, bind_eq_ok, readCell_eq_ok, Except.ok.injEq] at h
  obtain ⟨x, hx, a, -, b, -, c, -, rfl⟩ := h
  exact written_memWrite_held _ (by simp [hx]) 0

theorem unfilterRow_written {pred : Byte → Byte → Byte → Byte} {rb bpp r : Nat} {m m' : Mem 8}
    (h : unfilterRow pred rb bpp r m = .ok m') : Written m m' 0 :=
  written_forLoop (fun _ _ _ _ _ hz => unfilterByte_written hz) h

theorem tableEntry_written {s : State} {pos es i len : Nat} {m m' : Mem 32} (h : tableEntry s pos es i m = .ok m') (hi : i < len) :
    Written m m' len := by
  simp only [tableEntry, bind_eq_ok, Except.ok.injEq] at h
  obtain ⟨b, -, g, -, r, -, rfl⟩ := h
  exact written_memWrite _ _ hi

theorem imageRow_lt {td : Bool} {h r : Nat} (hr : r < h) : imageRow td h r < h := by
  unfold imageRow
  split <;> omega

/-- The loops of a picture: inner turns that write pixel `(x, y r)` write the whole picture. -/
theorem written_picture {f : Nat → Nat → Mem 32 → Except Stop (Mem 32)} {y : Nat → Nat} {w h : Nat} {m m' : Mem 32}
    (hy : ∀ r < h, y r < h) (hs : ∀ r < h, ∃ r' < h, y r' = r)
    (hf : ∀ r x a b, r < h → x < w → f r x a = .ok b → ∃ v, b = memWrite a (y r * w + x) v)
    (hl : forLoop (fun r a => forLoop (f r) w 0 a) h 0 m = .ok m') :
    Written m m' (w * h) ∧ ∀ k < w * h, memRead m' k ≠ none := by
  have inner : ∀ r a b, r < h → forLoop (f r) w 0 a = .ok b →
      Written a b (w * h) ∧ ∀ x < w, memRead b (y r * w + x) ≠ none := by
    intro r a b hr hb
    have hw : ∀ x c d, x < w → f r x c = .ok d → Written c d (w * h) := by
      intro x c d hx hd
      obtain ⟨v, rfl⟩ := hf r x c d hr hx hd
      exact written_memWrite _ _ (pixel_index_lt hx (hy r hr))
    refine ⟨written_forLoop (fun j c d _ h2 hd => hw j c d (by omega) hd) hb, ?_⟩
    refine covered_forLoop (fun x => y r * w + x) hw (fun x c d hx hd => ?_) hb
    obtain ⟨v, rfl⟩ := hf r x c d hr hx hd
    simp
  have hwr : ∀ r a b, r < h → forLoop (f r) w 0 a = .ok b → Written a b (w * h) := fun r a b hr hb => (inner r a b hr hb).1
  refine ⟨written_forLoop (fun r a b _ h2 hb => hwr r a b (by omega) hb) hl, ?_⟩
  have all := forLoop_keeps (P := fun k a => ∀ r < k, ∀ x < w, memRead a (y r * w + x) ≠ none) (by simp)
    (fun r a b _ h2 hp hb => by
      intro r' hr' x hx
      rcases Nat.lt_succ_iff_lt_or_eq.1 hr' with hr' | rfl
      · exact (hwr r a b (by omega) hb).kept _ (hp r' hr' x hx)
      · exact (inner r' a b (by omega) hb).2 x hx) hl
  intro k hk
  have hw : 0 < w := by
    rcases Nat.eq_zero_or_pos w with rfl | h'
    · simp at hk
    · exact h'
  have hkr : k / w < h := (Nat.div_lt_iff_lt_mul hw).2 (by rw [Nat.mul_comm]; exact hk)
  obtain ⟨r', hr', he⟩ := hs (k / w) hkr
  have := all r' (by omega) (k % w) (Nat.mod_lt _ hw)
  rwa [he, Nat.mul_comm, Nat.div_add_mod] at this

/-- The samples of a PNG: the whole picture is written. -/
theorem unpackSamples_written {z : Mem 8} {hd : Ihdr} {m m' : Mem 32} (h : unpackSamples z hd m = .ok m') :
    Written m m' (hd.w * hd.h) ∧ ∀ k < hd.w * hd.h, memRead m' k ≠ none := by
  refine written_picture (y := id) (fun _ h => h) (fun r hr => ⟨r, hr, rfl⟩) ?_ h
  intro r x a b _ _ hb
  simp only [unpackPixel, bind_eq_ok, Except.ok.injEq] at hb
  obtain ⟨c, -, rfl⟩ := hb
  exact ⟨_, rfl⟩

/-- The rows of a BMP: the whole picture is written. -/
theorem unpackRows_written {pix : Nat → Nat → Except Stop Word} {pos stride w h : Nat} {td : Bool} {m m' : Mem 32}
    (hu : unpackRows pix pos stride w h td m = .ok m') : Written m m' (w * h) ∧ ∀ k < w * h, memRead m' k ≠ none := by
  refine written_picture (y := imageRow td h) (fun _ h => imageRow_lt h)
    (fun r hr => ⟨imageRow td h r, imageRow_lt hr, by unfold imageRow; split <;> omega⟩) ?_ hu
  intro r x a b _ _ hb
  simp only [bind_eq_ok, Except.ok.injEq] at hb
  obtain ⟨c, -, rfl⟩ := hb
  exact ⟨_, rfl⟩

/-- The mask rewrites pixels that are there. -/
theorem mergeMask_written {s : State} {pos w h : Nat} {m m' : Mem 32} (hm : mergeMask s pos w h m = .ok m') : Written m m' 0 := by
  refine written_forLoop (fun r a b _ _ hb => ?_) hm
  refine written_forLoop (fun x c d _ _ hd => ?_) hb
  simp only [maskPixel, bind_eq_ok, readCell_eq_ok, Except.ok.injEq] at hd
  obtain ⟨_, -, v, hv, rfl⟩ := hd
  exact written_memWrite_held _ (by simp [hv]) 0

end Sys2Proof.Machine
end

