-- ==== Sys2Proof/Laws/Effect.lean ====
section
/-! SUPPORT. What one stream step can do, said once: the cases, each with the fields that are new. Every invariant follows from it. -/

namespace Sys2Proof.Machine

/-- The next states of a stream opcode in `s`. -/
inductive StreamEffect (s : State) : State → Prop
  | error (e : ErrorKind) : StreamEffect s (takeError (engineScope s.engine) e s)
  | payloadPng (c : PayloadCtx) (he : s.engine = .payload c) (hl : c.off + 8 ≤ c.lim) :
    StreamEffect s { s with
      st := .busy, ico := { s.ico with sel := regOf 1 }, engine := .chunks ⟨true, c.depth, c.lim, c.off + 8, none, []⟩ }
  | payloadBmp (c : PayloadCtx) (he : s.engine = .payload c) :
    StreamEffect s { s with ico := { s.ico with sel := regOf 0 }, engine := .header ⟨true, c.depth, c.off, c.lim, 0⟩ }
  | header (c : BmpCtx) (b : BmpHeader) (he : s.engine = .header c) (hb : b.ctx = c) :
    StreamEffect s { s with engine := .pixels b }
  | pixels (c : BmpHeader) (w h bits pos : Nat) (pal pmem : Mem 32) (paln : Reg) (bmp : BmpRegs) (he : s.engine = .pixels c)
    (hfit : 1 ≤ w ∧ 1 ≤ h ∧ w * h ≤ s.cap.pmemPixels) (hpos : pos ≤ c.ctx.lim) (hbits : bmp.bits = regOf bits)
    (hpal : Written s.pal pal 256) (hpaln : (8 < bits ∧ pal = s.pal ∧ paln = s.paln) ∨ (bits ≤ 8 ∧ ∃ n ≤ 256, paln = regOf n))
    (hpm : Written s.pmem pmem (w * h)) (hall : ∀ k < w * h, memRead pmem k ≠ none) :
    StreamEffect s (complete { s with
      pmem := pmem, pal := pal, paln := paln, bmW := regOf w, bmH := regOf h, bmD := depthReg c.ctx.depth, bmp := bmp
      ipos := regOf pos })
  | ihdr (c : ChunkCtx) (len : Nat) (hdr : Ihdr) (png : PngRegs) (he : s.engine = .chunks c) (hl : c.pos + 12 + len ≤ c.lim)
    (hfit : 1 ≤ hdr.w ∧ 1 ≤ hdr.h ∧ hdr.w * hdr.h ≤ s.cap.pmemPixels) :
    StreamEffect s { s with png := png, engine := .chunks { nextChunk c len with hdr := some hdr } }
  | chunk (c : ChunkCtx) (len : Nat) (idat : List Byte) (he : s.engine = .chunks c) (hl : c.pos + 12 + len ≤ c.lim)
    (hi : idat.length ≤ c.idat.length + len) :
    StreamEffect s { s with engine := .chunks { nextChunk c len with idat := idat } }
  | iend (c : ChunkCtx) (len : Nat) (hdr : Ihdr) (png : PngRegs) (he : s.engine = .chunks c) (hl : c.pos + 12 + len ≤ c.lim)
    (hh : c.hdr = some hdr) (hz : hdr.h * (rowBytes hdr + 1) ≤ s.cap.zmemBytes) :
    StreamEffect s { s with png := png, engine := .blocks ⟨.bytes c.idat, 16, [], some ⟨c.ico, c.depth, hdr, c.pos + 12 + len⟩⟩ }
  | block (c : BlockCtx) (bp : Nat) (rout : List Byte) (he : s.engine = .blocks c) (hbp : c.bp + 3 ≤ bp)
    (hr : c.rout.length ≤ s.cap.zmemBytes → rout.length ≤ s.cap.zmemBytes) :
    StreamEffect s { s with engine := .blocks { c with bp := bp, rout := rout } }
  | inflated (c : BlockCtx) (rout : List Byte) (pos : Nat) (he : s.engine = .blocks c) (hp : c.png = none)
    (hpos : pos ≤ srcLen c.src) (hr : c.rout.length ≤ s.cap.zmemBytes → rout.length ≤ s.cap.zmemBytes) :
    StreamEffect s (complete { s with zmem := memWriteRun s.zmem 0 rout.reverse, zlen := regOf rout.length, ipos := regOf pos })
  | decompressed (c : BlockCtx) (rout : List Byte) (p : PngImage) (t : State) (he : s.engine = .blocks c) (hp : c.png = some p)
    (hr : c.rout.length ≤ s.cap.zmemBytes → rout.length ≤ s.cap.zmemBytes)
    (ht : enterRows { s with zmem := memWriteRun s.zmem 0 rout.reverse, zlen := regOf rout.length }
      ⟨rowBytes p.hdr, p.hdr.h, bytesPerPixel p.hdr, 0, some p⟩ = .ok t) : StreamEffect s t
  | row (c : RowCtx) (z : Mem 8) (t : State) (he : s.engine = .rows c) (hz : Written s.zmem z 0)
    (ht : enterRows { s with zmem := z } { c with row := c.row + 1 } = .ok t) : StreamEffect s t

/-- Write-back of a PNG: the whole picture is written. -/
theorem pngFinish_writes {s t : State} {p : PngImage} (h : pngFinish s p = .ok t) : ∃ m, Written s.pmem m (p.hdr.w * p.hdr.h) ∧
    (∀ k < p.hdr.w * p.hdr.h, memRead m k ≠ none) ∧ t = complete { s with
      pmem := m, bmW := regOf p.hdr.w, bmH := regOf p.hdr.h, bmD := depthReg p.depth, ipos := regOf p.pos } := by
  obtain ⟨m, hm, rfl⟩ := pngFinish_eq_ok.1 h
  exact ⟨m, (unpackSamples_written hm).1, (unpackSamples_written hm).2, rfl⟩

theorem filterStep_effect {pred : Byte → Byte → Byte → Byte} {s t : State} (h : filterStep pred s = .next t) : StreamEffect s t := by
  obtain ⟨c, he, ⟨z, hz, ht⟩ | ⟨e, rfl, -⟩⟩ := filterStep_eq_next.1 h
  · exact .row c z t he (unfilterRow_written hz) ht
  · exact .error e

theorem blockStep_effect {body : BlockBody} {b : Bool} {s t : State} (hb : BodyAdvances body) (h : blockStep body b s = .next t) :
    StreamEffect s t := by
  obtain ⟨c, he, ⟨bp, rout, hr, ⟨-, hd⟩ | ⟨-, rfl⟩⟩ | ⟨e, rfl⟩⟩ := blockStep_eq_next h
  · obtain ⟨-, hl, hf⟩ := hb _ _ _ _ _ _ _ hr
    rcases inflateDone_eq_ok.1 hd with ⟨hp, rfl⟩ | ⟨p, hp, -, ht⟩
    · exact .inflated c rout _ he hp (by omega) hf
    · exact .decompressed c rout p t he hp hf ht
  · exact .block c bp rout he (hb _ _ _ _ _ _ _ hr).1 (hb _ _ _ _ _ _ _ hr).2.2
  · exact .error e

theorem headerStep_effect {parse : State → BmpCtx → Except Stop State} {s t : State}
    (hp : ∀ c, parse s c = .ok t → ∃ b : BmpHeader, b.ctx = c ∧ t = { s with engine := .pixels b }) (h : headerStep parse s = .next t) :
    StreamEffect s t := by
  obtain ⟨c, he, hc | ⟨e, rfl⟩⟩ := headerStep_eq_next h
  · obtain ⟨b, hb, rfl⟩ := hp c hc
    exact .header c b he hb
  · exact .error e

theorem coreHeader_effect {s t : State} (c : BmpCtx) (h : coreHeader s c = .ok t) :
    ∃ b : BmpHeader, b.ctx = c ∧ t = { s with engine := .pixels b } := by
  obtain ⟨-, -, w, h', rfl⟩ := coreHeader_eq_ok h
  exact ⟨_, rfl, rfl⟩

theorem modernHeader_effect {hs : Nat} {s t : State} (c : BmpCtx) (h : modernHeader hs s c = .ok t) :
    ∃ b : BmpHeader, b.ctx = c ∧ t = { s with engine := .pixels b } := by
  obtain ⟨-, w, h', n, rfl⟩ := modernHeader_eq_ok h
  exact ⟨_, rfl, rfl⟩

theorem decodePixels_effect {bits : Nat} {pix : State → Nat → Nat → Nat → Except Stop Word} {s t : State} {c : BmpHeader}
    (he : s.engine = .pixels c) (h : decodePixels bits pix s c = .ok t) : StreamEffect s t := by
  obtain ⟨w, hh, td, u, n, pos, after, m, hs, hu, -, hn, hm, hf⟩ := decodePixels_eq_ok h
  have hfit := bmpSize_fits hs
  obtain ⟨m', q, hm', rfl⟩ := bmpFinish_eq_ok hf
  obtain ⟨hw, hall⟩ := unpackRows_written hm
  have hw' : Written u.pmem m' (w * hh) ∧ ∀ k < w * hh, memRead m' k ≠ none := by
    rcases hm' with ⟨-, rfl, -⟩ | ⟨-, -, -, hm'⟩
    · exact ⟨hw, hall⟩
    · have := mergeMask_written hm'
      exact ⟨hw.trans (this.mono (Nat.zero_le _)), fun k hk => this.kept k (hall k hk)⟩
  have hq : q ≤ c.ctx.lim := by rcases hm' with ⟨-, -, rfl⟩ | ⟨-, -, hq, -⟩ <;> assumption
  rcases hu with ⟨h8, hu⟩ | ⟨h8, rfl, -, -⟩
  · obtain ⟨rfl, hn, -, -, pal, hp, rfl⟩ := loadColorTable_eq_ok hu
    refine .pixels c w hh bits q pal m' (regOf _) _ he hfit hq rfl ?_ (.inr ⟨h8, _, hn, rfl⟩) hw'.1 hw'.2
    exact (written_forLoop (fun j y z _ h2 hz => tableEntry_written hz h2) hp).mono (by omega)
  · exact .pixels c w hh bits q u.pal m' u.paln _ he hfit hq rfl (Written.refl _ _) (.inl ⟨h8, rfl, rfl⟩) hw'.1 hw'.2

theorem pixelStep_effect {decodeAll : State → BmpHeader → Except Stop State} {s t : State}
    (hp : ∀ c, s.engine = .pixels c → decodeAll s c = .ok t → StreamEffect s t) (h : pixelStep decodeAll s = .next t) :
    StreamEffect s t := by
  obtain ⟨c, he, hc | ⟨e, rfl⟩⟩ := pixelStep_eq_next h
  · exact hp c he hc
  · exact .error e

theorem skipChunk_effect {s t : State} (h : skipChunk s = .next t) : StreamEffect s t := by
  obtain ⟨c, he, ⟨len, type, hh, -, rfl⟩ | ⟨e, rfl⟩⟩ := skipChunk_eq_next h
  · exact .chunk c len c.idat he (chunkHead_eq_ok.1 hh).1 (by omega)
  · exact .error e

/-- Every stream opcode does one of these things where it answers a state. -/
theorem execStream_effect {i : Instr} {s t : State} (h : execStream i s = .next t) : StreamEffect s t := by
  cases i with
  | pngChunkIHDR =>
    obtain ⟨c, he, ⟨len, type, hdr, hh, -, hp, rfl⟩ | ⟨e, rfl⟩⟩ := execPngChunkIHDR_eq_next h
    · exact .ihdr c len hdr _ he (chunkHead_eq_ok.1 hh).1 (parseIhdr_fits hp)
    · exact .error e
  | pngChunkIDAT =>
    obtain ⟨c, he, ⟨len, type, payload, hh, -, hr, rfl⟩ | ⟨e, rfl⟩⟩ := execPngChunkIDAT_eq_next h
    · exact .chunk c len _ he (chunkHead_eq_ok.1 hh).1 (by simp [(readRun_eq_ok.1 hr).1])
    · exact .error e
  | pngChunkIEND =>
    obtain ⟨c, he, ⟨len, type, hdr, hh, hc, hd⟩ | ⟨e, rfl⟩⟩ := execPngChunkIEND_eq_next h
    · obtain ⟨hz, -, rfl⟩ := pngDecompress_eq_ok.1 hd
      exact .iend c len hdr _ he (chunkHead_eq_ok.1 hh).1 hc hz
    · exact .error e
  | pngFilterNone => exact filterStep_effect h
  | pngFilterSub => exact filterStep_effect h
  | pngFilterUp => exact filterStep_effect h
  | pngFilterAverage => exact filterStep_effect h
  | pngFilterPaeth => exact filterStep_effect h
  | deflateStored b => exact blockStep_effect storedBlock_advances h
  | deflateFixed b => exact blockStep_effect fixedBlock_advances h
  | deflateDynamic b => exact blockStep_effect dynamicBlock_advances h
  | bmpHeaderCore => exact headerStep_effect coreHeader_effect h
  | bmpHeader40 => exact headerStep_effect modernHeader_effect h
  | bmpHeader52 => exact headerStep_effect modernHeader_effect h
  | bmpHeader56 => exact headerStep_effect modernHeader_effect h
  | bmpHeader108 => exact headerStep_effect modernHeader_effect h
  | bmpHeader124 => exact headerStep_effect modernHeader_effect h
  | bmpBits1 => exact pixelStep_effect (fun _ => decodePixels_effect) h
  | bmpBits4 => exact pixelStep_effect (fun _ => decodePixels_effect) h
  | bmpBits8 => exact pixelStep_effect (fun _ => decodePixels_effect) h
  | bmpBits16 =>
    change execBmpBits16 s = .next t at h
    unfold execBmpBits16 at h
    refine pixelStep_effect (fun c he hc => ?_) h
    split at hc
    · simp at hc
    · exact decodePixels_effect he hc
  | bmpBits24 => exact pixelStep_effect (fun _ => decodePixels_effect) h
  | bmpBits32 => exact pixelStep_effect (fun _ => decodePixels_effect) h
  | icoPayloadPng =>
    obtain ⟨c, he, hc | ⟨e, rfl⟩⟩ := execIcoPayloadPng_eq_next h
    · obtain ⟨hl, -, rfl⟩ := pngStart_eq_ok.1 hc
      exact .payloadPng c he hl
    · exact .error e
  | icoPayloadBmp head =>
    obtain ⟨c, he, rfl⟩ := execIcoPayloadBmp_eq_next (head := head) h
    exact .payloadBmp c he
  | _ => simp [execStream] at h

/-- A stream step of a command in flight does one of these things. -/
theorem engineStep_effect {s t : State} (h : engineStep s = .next t) : StreamEffect s t := by
  unfold engineStep at h
  split at h
  · cases h; exact .error _
  · cases h
  · exact skipChunk_effect h
  · exact execStream_effect h

/-- What every stream step keeps, a run of the engine keeps. -/
theorem runEngine_keeps {P : State → Prop} (hstep : ∀ s t, s.st = .busy → P s → engineStep s = .next t → P t) {n : Nat} {s t : State}
    (hs : P s) (h : runEngine n s = .next t) : P t := by
  induction n generalizing s with
  | zero => cases h; exact hs
  | succ n ih =>
    unfold runEngine at h
    split at h
    · next hb =>
      split at h
      · next u hu => exact ih (hstep s u hb hs hu) h
      · cases h
      · cases h
    · cases h; exact hs

/-- A command with a start: where it answers a state, its start ended and the engine ran from there. -/
theorem runCommand_eq_next {o : Host.Outcome State Fault Refusal} {t : State} (h : runCommand o = .next t) :
    ∃ u, o = .next u ∧ runEngine (engineWork u) u = .next t := by
  unfold runCommand at h
  split at h
  · exact ⟨_, rfl, h⟩
  · cases h
  · cases h

end Sys2Proof.Machine
end

