-- ==== Sys2Proof/Laws/Command.lean ====
section
/-! SUPPORT. What a command can do, said once: the commands that run in one go, and the starts of those that run the engine. -/

namespace Sys2Proof.Machine

/-- The next states of the commands that run in one go. -/
inductive SimpleEffect (s : State) : State → Prop
  | error (e : ErrorKind) : SimpleEffect s (takeError .nothing e s)
  | nop : SimpleEffect s (complete s)
  | clr : SimpleEffect s (returnFromError s)
  | newbm (d : BitVec 8) (hd : legalDepth d = true)
    (hf : 1 ≤ s.arg0.toNat ∧ 1 ≤ s.arg1.toNat ∧ s.arg0.toNat * s.arg1.toNat ≤ s.cap.pmemPixels) :
    SimpleEffect s (complete { s with
      pmem := memWriteRun s.pmem 0 (List.replicate (s.arg0.toNat * s.arg1.toNat) 0#32)
      bmW := .val s.arg0, bmH := .val s.arg1, bmD := depthReg d })
  | setpx (w h : Word) (i : Nat) (hw : s.bmW = .val w) (hh : s.bmH = .val h) (hi : i < w.toNat * h.toNat) :
    SimpleEffect s (complete { s with pmem := memWrite s.pmem i s.arg2 })
  | result (r0 : Word) : SimpleEffect s (complete { s with res0 := r0 })
  | results (r0 r1 : Word) : SimpleEffect s (complete { s with res0 := r0, res1 := r1 })
  | conv (d : BitVec 8) (pmem : Mem 32) (hd : legalDepth d = true) (hp : Written s.pmem pmem 0) :
    SimpleEffect s (complete { s with pmem := pmem, bmD := depthReg d })
  | palmap (w h : Word) (xmem : Mem 8) (hw : s.bmW = .val w) (hh : s.bmH = .val h) (hx : Written s.xmem xmem (w.toNat * h.toNat)) :
    SimpleEffect s (complete { s with xmem := xmem })

theorem legalDepth_of_operand {f : BitVec 8} {d : Depth} (h : depthOperand f = .ok d) : legalDepth f = true := by
  rw [← depthOfField_isSome, depthOperand_eq_ok.1 h]; rfl

theorem execNewbm_effect {d : BitVec 8} {s t : State} (h : execNewbm d s = .next t) : SimpleEffect s t := by
  rcases settle_eq_next.1 h with h | ⟨e, -, rfl⟩
  · obtain ⟨_, hd, h⟩ := bind_eq_ok.1 h
    simp only at h
    split at h
    · simp at h
    · cases h; exact .newbm d (legalDepth_of_operand hd) (by omega)
  · exact .error e

theorem execGetpx_effect {s t : State} (h : execGetpx s = .next t) : SimpleEffect s t := by
  rcases settle_eq_next.1 h with h | ⟨e, -, rfl⟩
  · obtain ⟨i, -, h⟩ := bind_eq_ok.1 h
    obtain ⟨c, -, h⟩ := bind_eq_ok.1 h
    cases h; exact .result c
  · exact .error e

theorem execSetpx_effect {s t : State} (h : execSetpx s = .next t) : SimpleEffect s t := by
  rcases settle_eq_next.1 h with h | ⟨e, -, rfl⟩
  · obtain ⟨i, hi, h⟩ := bind_eq_ok.1 h
    obtain ⟨w, h', hw, hh, h0, h1, rfl⟩ := pixelOperand_eq_ok.1 hi
    cases h; exact .setpx w h' _ hw hh (pixel_index_lt h0 h1)
  · exact .error e

theorem execDes_effect {d : BitVec 8} {s t : State} (h : execDes d s = .next t) : SimpleEffect s t := by
  rcases settle_eq_next.1 h with h | ⟨e, -, rfl⟩
  · simp only [bind_eq_ok] at h
    obtain ⟨_, -, _, -, bytes, -, h⟩ := h
    cases h; exact .results _ _
  · exact .error e

theorem execSer_effect {d : BitVec 8} {s t : State} (h : execSer d s = .next t) : SimpleEffect s t := by
  rcases settle_eq_next.1 h with h | ⟨e, -, rfl⟩
  · obtain ⟨_, -, h⟩ := bind_eq_ok.1 h
    cases h; exact .results _ _
  · exact .error e

theorem execConv_effect {d : BitVec 8} {s t : State} (h : execConv d s = .next t) : SimpleEffect s t := by
  rcases settle_eq_next.1 h with h | ⟨e, -, rfl⟩
  · simp only [bind_eq_ok] at h
    obtain ⟨_, hd, w, -, h', -, m, hm, h⟩ := h
    cases h
    exact .conv d m (legalDepth_of_operand hd) (written_forLoop (fun _ _ _ _ _ hz => convPixel_written hz 0) hm)
  · exact .error e

theorem execPalmap_effect {s t : State} (h : execPalmap s = .next t) : SimpleEffect s t := by
  rcases settle_eq_next.1 h with h | ⟨e, -, rfl⟩
  · simp only [bind_eq_ok, regNat_eq_ok, readReg] at h
    obtain ⟨_, ⟨w, hw, rfl⟩, _, ⟨h', hh, rfl⟩, h⟩ := h
    split at h
    · cases h; exact .nop
    · simp only [bind_eq_ok] at h
      obtain ⟨n, -, h⟩ := h
      split at h
      · simp at h
      · obtain ⟨m, hm, h⟩ := bind_eq_ok.1 h
        cases h
        exact .palmap w h' m hw hh (written_forLoop (fun j y z _ h2 hz => palmapPixel_written hz (by omega)) hm)
  · exact .error e

/-- The states in which the commands that run the engine start it, or have already ended. -/
inductive StartEffect (s : State) : Scope → State → Prop
  | error (k : Scope) (e : ErrorKind) : StartEffect s k (takeError k e s)
  | bmp (d : BitVec 8) (hd : legalDepth d = true) (off : Nat) (hl : 14 ≤ s.ilen.toNat) :
    StartEffect s .decbmp { s with st := .busy, engine := .header ⟨false, d, 14, s.ilen.toNat, off⟩ }
  | png (d : BitVec 8) (hd : legalDepth d = true) (hl : 8 ≤ s.ilen.toNat) :
    StartEffect s .decpng { s with st := .busy, engine := .chunks ⟨false, d, s.ilen.toNat, 8, none, []⟩ }
  | ico (d : BitVec 8) (hd : legalDepth d = true) (r : IcoRegs) (off lim : Nat) (hr : r.sel = s.ico.sel) (hl : off + 8 ≤ lim) (hi : lim ≤ s.ilen.toNat) :
    StartEffect s .decico { s with st := .busy, ico := r, engine := .payload ⟨d, off, lim⟩ }
  | inflate (hz : checkZlibHeader s.imem (.imem s.ilen.toNat) s.arg0.toNat = .ok ()) :
    StartEffect s .inflate { s with st := .busy, engine := .blocks ⟨.imem s.ilen.toNat, 8 * (s.arg0.toNat + 2), [], none⟩ }
  | unfilt (hr : 0 < s.arg1.toNat) :
    StartEffect s .unfilt { s with st := .busy, engine := .rows ⟨s.arg0.toNat, s.arg1.toNat, s.arg2.toNat, 0, none⟩ }
  | unfiltNone (hr : s.arg1.toNat = 0) : StartEffect s .unfilt (complete s)

/-- What DECBMP, DECPNG, DECICO can do: an illegal DEPTH, or a start and a run of the engine from it. -/
theorem decodeCommandRun_eq_next {k : Scope} {d : BitVec 8} {start : State → Except Stop State} {s t : State}
    (hs : ∀ u, legalDepth d = true → start s = .ok u → StartEffect s k u) (h : decodeCommandRun k d start s = .next t) :
    (legalDepth d = false ∧ t = takeError .nothing .unsupportedFormat s) ∨
    (legalDepth d = true ∧ ∃ u, StartEffect s k u ∧ runEngine (engineWork u) u = .next t) := by
  unfold decodeCommandRun at h
  split at h
  · next hd => cases h; exact .inl ⟨depthOfField_eq_none.1 hd, rfl⟩
  · next x hd =>
    have hl : legalDepth d = true := by rw [← depthOfField_isSome, hd]; rfl
    obtain ⟨u, hu, hr⟩ := runCommand_eq_next h
    rcases settle_eq_next.1 hu with hu | ⟨e, -, rfl⟩
    · exact .inr ⟨hl, u, hs u hl hu, hr⟩
    · exact .inr ⟨hl, _, .error k e, hr⟩

theorem execDecbmp_eq_next {d : BitVec 8} {s t : State} (h : execDecbmp d s = .next t) :
    (legalDepth d = false ∧ t = takeError .nothing .unsupportedFormat s) ∨
    (legalDepth d = true ∧ ∃ u, StartEffect s .decbmp u ∧ runEngine (engineWork u) u = .next t) := by
  refine decodeCommandRun_eq_next (fun u hd hu => ?_) h
  obtain ⟨hl, off, rfl⟩ := bmpStart_eq_ok hu
  exact .bmp d hd off hl

theorem execDecpng_eq_next {d : BitVec 8} {s t : State} (h : execDecpng d s = .next t) :
    (legalDepth d = false ∧ t = takeError .nothing .unsupportedFormat s) ∨
    (legalDepth d = true ∧ ∃ u, StartEffect s .decpng u ∧ runEngine (engineWork u) u = .next t) := by
  refine decodeCommandRun_eq_next (fun u hd hu => ?_) h
  obtain ⟨hl, -, rfl⟩ := pngStart_eq_ok.1 hu
  exact .png d hd (by omega)

theorem execDecico_eq_next {d : BitVec 8} {s t : State} (h : execDecico d s = .next t) :
    (legalDepth d = false ∧ t = takeError .nothing .unsupportedFormat s) ∨
    (legalDepth d = true ∧ ∃ u, StartEffect s .decico u ∧ runEngine (engineWork u) u = .next t) := by
  refine decodeCommandRun_eq_next (fun u hd hu => ?_) h
  obtain ⟨r, off, lim, hr, hl, hi, rfl⟩ := icoStart_eq_ok hu
  exact .ico d hd r off lim hr hl hi

theorem execInflate_eq_next {s t : State} (h : execInflate s = .next t) :
    ∃ u, StartEffect s .inflate u ∧ runEngine (engineWork u) u = .next t := by
  obtain ⟨u, hu, hr⟩ := runCommand_eq_next h
  rcases settle_eq_next.1 hu with hu | ⟨e, -, rfl⟩
  · obtain ⟨hz, rfl⟩ := inflateStart_eq_ok.1 hu
    exact ⟨_, .inflate hz, hr⟩
  · exact ⟨_, .error _ e, hr⟩

theorem execUnfilt_eq_next {s t : State} (h : execUnfilt s = .next t) :
    ∃ u, StartEffect s .unfilt u ∧ runEngine (engineWork u) u = .next t := by
  obtain ⟨u, hu, hr⟩ := runCommand_eq_next h
  rcases settle_eq_next.1 hu with hu | ⟨e, -, rfl⟩
  · obtain ⟨-, -, z, -, -, ht⟩ := unfiltStart_eq_ok hu
    rcases enterRows_eq_ok.1 ht with ⟨hr', rfl⟩ | ⟨hr', -, rfl⟩ | ⟨-, p, hp, -⟩
    · exact ⟨_, .unfilt hr', hr⟩
    · exact ⟨_, .unfiltNone (Nat.le_zero.1 hr'), hr⟩
    · cases hp
  · exact ⟨_, .error _ e, hr⟩

/-- The row of the table of 60_exceptions R325 that a command's start takes its errors with. -/
def startScope : Instr → Scope
  | .decbmp _ => .decbmp
  | .decpng _ => .decpng
  | .decico _ => .decico
  | .inflate => .inflate
  | _ => .unfilt

/-- What a command can do where it answers a state: one of the simple effects, or a start and a run of the engine from it. -/
theorem execCommand_effect {i : Instr} {s t : State} (hi : i.format = .command) (h : exec i s = .next t) :
    SimpleEffect s t ∨ ∃ u, StartEffect s (startScope i) u ∧ runEngine (engineWork u) u = .next t := by
  cases i with
  | nop => cases h; exact .inl .nop
  | clr => cases h; exact .inl .clr
  | newbm d => exact .inl (execNewbm_effect h)
  | getpx => exact .inl (execGetpx_effect h)
  | setpx => exact .inl (execSetpx_effect h)
  | des d => exact .inl (execDes_effect h)
  | ser d => exact .inl (execSer_effect h)
  | conv d => exact .inl (execConv_effect h)
  | decbmp d =>
    rcases execDecbmp_eq_next h with ⟨-, rfl⟩ | ⟨-, h⟩
    · exact .inl (.error _)
    · exact .inr h
  | decpng d =>
    rcases execDecpng_eq_next h with ⟨-, rfl⟩ | ⟨-, h⟩
    · exact .inl (.error _)
    · exact .inr h
  | decico d =>
    rcases execDecico_eq_next h with ⟨-, rfl⟩ | ⟨-, h⟩
    · exact .inl (.error _)
    · exact .inr h
  | inflate => exact .inr (execInflate_eq_next h)
  | unfilt => exact .inr (execUnfilt_eq_next h)
  | palmap => exact .inl (execPalmap_effect h)
  | _ => cases hi

/-- A stream opcode outside a command is the stream opcode. -/
theorem exec_eq_execStream {i : Instr} (hi : i.format ≠ .command) (s : State) : exec i s = execStream i s := by
  cases i <;> first | rfl | exact absurd rfl hi

end Sys2Proof.Machine
end

