-- ==== Sys2Proof/Laws/PerInstr.lean ====
section
/-! SUPPORT. Statements made for every instruction, one lemma per constructor. `EncodeMatchesTable`: the encoder against the rows of
spec/opcode_table.json, written out here from the table. -/

namespace Sys2Proof.Laws

/-- A row of spec/opcode_table.json: its format, and which bits of a word are fixed to what. -/
structure TableRow where
  format : Format
  mask : Nat
  bits : Nat
  deriving DecidableEq, Repr

/-- The row of an instruction, in the order of the table. -/
def tableRow : Instr → TableRow
  | .nop => ⟨.command, 0xFFFFFFFF, 0x00000000⟩
  | .clr => ⟨.command, 0xFFFFFFFF, 0x00000001⟩
  | .newbm _ => ⟨.command, 0xFFFF00FF, 0x00000002⟩
  | .getpx => ⟨.command, 0xFFFFFFFF, 0x00000003⟩
  | .setpx => ⟨.command, 0xFFFFFFFF, 0x00000004⟩
  | .des _ => ⟨.command, 0xFFFF00FF, 0x00000010⟩
  | .ser _ => ⟨.command, 0xFFFF00FF, 0x00000011⟩
  | .conv _ => ⟨.command, 0xFFFF00FF, 0x00000012⟩
  | .decbmp _ => ⟨.command, 0xFFFF00FF, 0x00000020⟩
  | .decpng _ => ⟨.command, 0xFFFF00FF, 0x00000021⟩
  | .decico _ => ⟨.command, 0xFFFF00FF, 0x00000022⟩
  | .inflate => ⟨.command, 0xFFFFFFFF, 0x00000030⟩
  | .unfilt => ⟨.command, 0xFFFFFFFF, 0x00000031⟩
  | .palmap => ⟨.command, 0xFFFFFFFF, 0x00000040⟩
  | .pngChunkIHDR => ⟨.chunkType, 0xFFFFFFFF, 0x49484452⟩
  | .pngChunkIDAT => ⟨.chunkType, 0xFFFFFFFF, 0x49444154⟩
  | .pngChunkIEND => ⟨.chunkType, 0xFFFFFFFF, 0x49454E44⟩
  | .pngFilterNone => ⟨.filterByte, 0xFF, 0x00⟩
  | .pngFilterSub => ⟨.filterByte, 0xFF, 0x01⟩
  | .pngFilterUp => ⟨.filterByte, 0xFF, 0x02⟩
  | .pngFilterAverage => ⟨.filterByte, 0xFF, 0x03⟩
  | .pngFilterPaeth => ⟨.filterByte, 0xFF, 0x04⟩
  | .deflateStored _ => ⟨.blockHeader, 0x6, 0x0⟩
  | .deflateFixed _ => ⟨.blockHeader, 0x6, 0x2⟩
  | .deflateDynamic _ => ⟨.blockHeader, 0x6, 0x4⟩
  | .bmpHeaderCore => ⟨.headerSize, 0xFFFFFFFF, 0x0000000C⟩
  | .bmpHeader40 => ⟨.headerSize, 0xFFFFFFFF, 0x00000028⟩
  | .bmpHeader52 => ⟨.headerSize, 0xFFFFFFFF, 0x00000034⟩
  | .bmpHeader56 => ⟨.headerSize, 0xFFFFFFFF, 0x00000038⟩
  | .bmpHeader108 => ⟨.headerSize, 0xFFFFFFFF, 0x0000006C⟩
  | .bmpHeader124 => ⟨.headerSize, 0xFFFFFFFF, 0x0000007C⟩
  | .bmpBits1 => ⟨.bitCount, 0xFFFF, 0x0001⟩
  | .bmpBits4 => ⟨.bitCount, 0xFFFF, 0x0004⟩
  | .bmpBits8 => ⟨.bitCount, 0xFFFF, 0x0008⟩
  | .bmpBits16 => ⟨.bitCount, 0xFFFF, 0x0010⟩
  | .bmpBits24 => ⟨.bitCount, 0xFFFF, 0x0018⟩
  | .bmpBits32 => ⟨.bitCount, 0xFFFF, 0x0020⟩
  | .icoPayloadPng => ⟨.payloadHead, 0xFFFFFFFFFFFFFFFF, 0x89504E470D0A1A0A⟩
  | .icoPayloadBmp _ => ⟨.payloadHead, 0x0000000000000000, 0x0000000000000000⟩

/-- The instruction is encoded in its row's format and width, and its word has the row's fixed bits. -/
def EncodeMatchesTable.Statement (i : Instr) : Prop :=
  i.format = (tableRow i).format ∧ encode i < 2 ^ i.format.width ∧ encode i &&& (tableRow i).mask = (tableRow i).bits

/-- A command with a DEPTH operand: the operand stands in bits 15:8, outside the mask. -/
theorem commandWord_matches (opc : BitVec 8) (h : ∀ depth : BitVec 8, commandWord opc depth &&& 0xFFFF00FF = opc.toNat)
    (depth : BitVec 8) : commandWord opc depth < 2 ^ 32 ∧ commandWord opc depth &&& 0xFFFF00FF = opc.toNat :=
  ⟨by simp only [commandWord]; omega, h depth⟩

namespace EncodeMatchesTable

theorem nop : Statement .nop := ⟨rfl, by decide, rfl⟩
theorem clr : Statement .clr := ⟨rfl, by decide, rfl⟩
theorem newbm (depth : BitVec 8) : Statement (.newbm depth) := ⟨rfl, commandWord_matches _ (by decide +kernel) depth⟩
theorem getpx : Statement .getpx := ⟨rfl, by decide, rfl⟩
theorem setpx : Statement .setpx := ⟨rfl, by decide, rfl⟩
theorem des (depth : BitVec 8) : Statement (.des depth) := ⟨rfl, commandWord_matches _ (by decide +kernel) depth⟩
theorem ser (depth : BitVec 8) : Statement (.ser depth) := ⟨rfl, commandWord_matches _ (by decide +kernel) depth⟩
theorem conv (depth : BitVec 8) : Statement (.conv depth) := ⟨rfl, commandWord_matches _ (by decide +kernel) depth⟩
theorem decbmp (depth : BitVec 8) : Statement (.decbmp depth) := ⟨rfl, commandWord_matches _ (by decide +kernel) depth⟩
theorem decpng (depth : BitVec 8) : Statement (.decpng depth) := ⟨rfl, commandWord_matches _ (by decide +kernel) depth⟩
theorem decico (depth : BitVec 8) : Statement (.decico depth) := ⟨rfl, commandWord_matches _ (by decide +kernel) depth⟩
theorem inflate : Statement .inflate := ⟨rfl, by decide, rfl⟩
theorem unfilt : Statement .unfilt := ⟨rfl, by decide, rfl⟩
theorem palmap : Statement .palmap := ⟨rfl, by decide, rfl⟩
theorem pngChunkIHDR : Statement .pngChunkIHDR := ⟨rfl, by decide, rfl⟩
theorem pngChunkIDAT : Statement .pngChunkIDAT := ⟨rfl, by decide, rfl⟩
theorem pngChunkIEND : Statement .pngChunkIEND := ⟨rfl, by decide, rfl⟩
theorem pngFilterNone : Statement .pngFilterNone := ⟨rfl, by decide, rfl⟩
theorem pngFilterSub : Statement .pngFilterSub := ⟨rfl, by decide, rfl⟩
theorem pngFilterUp : Statement .pngFilterUp := ⟨rfl, by decide, rfl⟩
theorem pngFilterAverage : Statement .pngFilterAverage := ⟨rfl, by decide, rfl⟩
theorem pngFilterPaeth : Statement .pngFilterPaeth := ⟨rfl, by decide, rfl⟩
theorem deflateStored (bfinal : Bool) : Statement (.deflateStored bfinal) := by cases bfinal <;> exact ⟨rfl, by decide, rfl⟩
theorem deflateFixed (bfinal : Bool) : Statement (.deflateFixed bfinal) := by cases bfinal <;> exact ⟨rfl, by decide, rfl⟩
theorem deflateDynamic (bfinal : Bool) : Statement (.deflateDynamic bfinal) := by cases bfinal <;> exact ⟨rfl, by decide, rfl⟩
theorem bmpHeaderCore : Statement .bmpHeaderCore := ⟨rfl, by decide, rfl⟩
theorem bmpHeader40 : Statement .bmpHeader40 := ⟨rfl, by decide, rfl⟩
theorem bmpHeader52 : Statement .bmpHeader52 := ⟨rfl, by decide, rfl⟩
theorem bmpHeader56 : Statement .bmpHeader56 := ⟨rfl, by decide, rfl⟩
theorem bmpHeader108 : Statement .bmpHeader108 := ⟨rfl, by decide, rfl⟩
theorem bmpHeader124 : Statement .bmpHeader124 := ⟨rfl, by decide, rfl⟩
theorem bmpBits1 : Statement .bmpBits1 := ⟨rfl, by decide, rfl⟩
theorem bmpBits4 : Statement .bmpBits4 := ⟨rfl, by decide, rfl⟩
theorem bmpBits8 : Statement .bmpBits8 := ⟨rfl, by decide, rfl⟩
theorem bmpBits16 : Statement .bmpBits16 := ⟨rfl, by decide, rfl⟩
theorem bmpBits24 : Statement .bmpBits24 := ⟨rfl, by decide, rfl⟩
theorem bmpBits32 : Statement .bmpBits32 := ⟨rfl, by decide, rfl⟩
theorem icoPayloadPng : Statement .icoPayloadPng := ⟨rfl, by decide, rfl⟩
theorem icoPayloadBmp (head : BitVec 64) : Statement (.icoPayloadBmp head) := ⟨rfl, head.isLt, Nat.and_zero _⟩

end EncodeMatchesTable

end Sys2Proof.Laws
end

