-- ==== Sys2Proof/Laws/Step.lean ====
section
/-! SUPPORT. What a step can do, said once. -/

namespace Sys2Proof.Machine

/-- Both branches of a choice decode to commands only. -/
theorem ite_command {p : Prop} [Decidable p] {a b : Except DecodeError Instr} (ha : ∀ i, a = .ok i → i.format = .command)
    (hb : ∀ i, b = .ok i → i.format = .command) : ∀ i, (if p then a else b) = .ok i → i.format = .command := by
  split <;> assumption

/-- The command decoder answers commands only. -/
theorem decodeCommand_format {w : Word} {i : Instr} (h : decodeCommand w = .ok i) : i.format = .command := by
  refine (?_ : ∀ i, decodeCommand w = .ok i → i.format = .command) i h
  clear h i
  unfold decodeCommand decodeNoDepth
  dsimp only
  repeat' apply ite_command
  all_goals
    intro i h
    simp only [Except.ok.injEq, reduceCtorEq] at h
    try (subst h; rfl)

/-- Where a memory write lands: inside its memory. -/
theorem resolve_cell {cap : Capacities} {w : Width} {a : Nat} {sp : Space} {i : Nat} (h : resolve cap w a = some (.cell sp i)) :
    (spaceUnit sp = 1 → i + widthBytes w ≤ spaceSize cap sp) ∧ (spaceUnit sp = 4 → i < spaceSize cap sp) := by
  unfold resolve at h
  simp only at h
  split at h
  · cases h
  next ha =>
  split at h
  · split at h
    · split at h <;> cases h
    · cases h
  · split at h
    · next sp' hf =>
      have hin := List.find?_some hf
      split at h
      · cases h
      next hu =>
      simp only [Option.some.injEq, Target.cell.injEq] at h
      obtain ⟨rfl, rfl⟩ := h
      simp only [inSpace, Bool.and_eq_true, decide_eq_true_eq] at hin
      constructor
      · intro h1
        rw [h1] at hin ⊢
        omega
      · intro h4
        rw [h4] at hin ⊢
        have hw : w = .word := by
          by_contra hc
          exact hu ⟨h4, hc⟩
        subst hw
        simp only [widthBytes] at hin ha
        omega
    · cases h

/-- A command word written to CMD: ignored, run, or an error. -/
theorem issue_eq_next {w : Word} {s t : State} (h : issue w s = .next t) :
    t = s ∨ (s.st = .err ∧ t = returnFromError s) ∨
    ((s.st = .idle ∨ s.st = .done) ∧ ((∃ i, i.format = .command ∧ decodeCommand w = .ok i ∧ exec i s = .next t) ∨
      t = takeError .nothing .unsupportedFormat s)) := by
  have run : ∀ {o : Except DecodeError Instr}, o = decodeCommand w → (match o with
      | .ok i => exec i s
      | .error _ => .next (takeError .nothing .unsupportedFormat s)) = .next t →
      (∃ i, i.format = .command ∧ decodeCommand w = .ok i ∧ exec i s = .next t) ∨ t = takeError .nothing .unsupportedFormat s := by
    intro o ho hr
    cases o with
    | ok i => exact .inl ⟨i, decodeCommand_format ho.symm, ho.symm, hr⟩
    | error e => cases hr; exact .inr rfl
  unfold issue at h
  split at h
  · cases h; exact .inl rfl
  · next hs =>
    split at h
    · cases h; exact .inr (.inl ⟨hs, rfl⟩)
    · cases h; exact .inl rfl
  · next hs => exact .inr (.inr ⟨.inl hs, run rfl h⟩)
  · next hs => exact .inr (.inr ⟨.inr hs, run rfl h⟩)

/-- The next states of one action of the host or the reset pin. -/
inductive HostEffect (s : State) : State → Prop
  | ignored : HostEffect s s
  | command (i : Instr) (hi : i.format = .command) (hs : s.st = .idle ∨ s.st = .done) (t : State) (h : exec i s = .next t) :
    HostEffect s t
  | illegal (hs : s.st = .idle ∨ s.st = .done) : HostEffect s (takeError .nothing .unsupportedFormat s)
  | clr (hs : s.st = .err) : HostEffect s (returnFromError s)
  | reg (r : RegName) (v : Word) (hs : s.st ≠ .busy) : HostEffect s (writeReg s r v)
  | mem (sp : Space) (n i : Nat) (v : Word) (hs : s.st ≠ .busy) (h1 : spaceUnit sp = 1 → i + n ≤ spaceSize s.cap sp)
    (h4 : spaceUnit sp = 4 → i < spaceSize s.cap sp) : HostEffect s (writeSpace s sp n i v)
  | read (v : Word) : HostEffect s { s with rdata := some v, fresh := s.fresh + 1 }
  | reset : HostEffect s (resetBlock s)

theorem deliver_eq_next {s t : State} {v : Except Stop Word} (h : deliver s v = .next t) :
    ∃ w, v = .ok w ∧ t = { s with rdata := some w, fresh := s.fresh + 1 } := by
  unfold deliver at h
  split at h
  · cases h; exact ⟨_, rfl, rfl⟩
  · cases h
  · cases h

/-- A host read delivers its data and nothing else. -/
theorem hostRead_eq_next {w : Width} {a : Word} {s t : State} (h : hostRead w a s = .next t) :
    ∃ v, t = { s with rdata := some v, fresh := s.fresh + 1 } := by
  unfold hostRead at h
  split at h
  · cases h
  · obtain ⟨v, -, ht⟩ := deliver_eq_next h; exact ⟨v, ht⟩
  · split at h
    · cases h
    · split at h
      all_goals
        obtain ⟨v, -, ht⟩ := deliver_eq_next h
        exact ⟨v, ht⟩

/-- What an action of the host can do. -/
theorem hostStep_effect {op : HostOp} {s t : State} (h : hostStep op s = .next t) : HostEffect s t := by
  cases op with
  | rst => cases h; exact .reset
  | read w a =>
    obtain ⟨v, rfl⟩ := hostRead_eq_next h
    exact .read v
  | write w a v =>
    change hostWrite w a v s = .next t at h
    unfold hostWrite at h
    split at h
    · cases h
    · rcases issue_eq_next h with rfl | ⟨hs, rfl⟩ | ⟨hs, ⟨i, hi, -, he⟩ | rfl⟩
      · exact .ignored
      · exact .clr hs
      · exact .command i hi hs t he
      · exact .illegal hs
    · next tg _ htg =>
      split at h
      · cases h
      · next hb =>
        split at h
        · cases h; exact .reg _ v hb
        · cases h; exact .ignored
        · next sp i _ =>
          cases h
          obtain ⟨h1, h4⟩ := resolve_cell htg
          exact .mem sp _ i v hb h1 h4

/-- What a step can do: the host's next action, or with none pending a stream step of a command in flight, or nothing. -/
theorem step_eq_next {s t : State} (h : step s = .next t) :
    (∃ op rest, s.script = op :: rest ∧ HostEffect { s with script := rest } t) ∨
    (s.script = [] ∧ s.st = .busy ∧ StreamEffect s t) ∨ (s.script = [] ∧ s.st ≠ .busy ∧ t = s) := by
  unfold step at h
  split at h
  · next op rest hs => exact .inl ⟨op, rest, hs, hostStep_effect h⟩
  · next hs =>
    split at h
    · next hb => exact .inr (.inl ⟨hs, hb, engineStep_effect h⟩)
    · next hb => cases h; exact .inr (.inr ⟨hs, hb, rfl⟩)

/-! ## Host accesses, one by one -/

/-- The bounds of 00_scope R5. -/
theorem legal_bounds {c : Capacities} (h : c.legal = true) :
    c.imemBytes ≤ 2 ^ 24 ∧ c.zmemBytes ≤ 2 ^ 24 ∧ c.pmemPixels ≤ 2 ^ 22 := by
  simp only [Capacities.legal, Bool.and_eq_true, decide_eq_true_eq] at h
  omega

theorem inSpace_eq_true {cap : Capacities} {sp : Space} {n a : Nat} : inSpace cap sp n a = true ↔
    spaceBase sp ≤ a ∧ a + n ≤ spaceBase sp + spaceUnit sp * spaceSize cap sp := by
  simp only [inSpace, Bool.and_eq_true, decide_eq_true_eq]

/-- The windows of the address map do not overlap (20_memory R75). -/
theorem inSpace_unique {cap : Capacities} {sp sp' : Space} {n a : Nat} (hc : cap.legal = true) (hn : 1 ≤ n)
    (h : inSpace cap sp n a = true) (h' : inSpace cap sp' n a = true) : sp' = sp := by
  obtain ⟨h1, h2, h3⟩ := legal_bounds hc
  rw [inSpace_eq_true] at h h'
  cases sp <;> cases sp' <;> first
    | rfl
    | (exfalso; simp only [spaceBase, spaceUnit, spaceSize] at h h'; omega)

/-- An aligned access inside a window names its location. -/
theorem resolve_location {cap : Capacities} {w : Width} {sp : Space} {i : Nat} (hc : cap.legal = true)
    (hw : spaceUnit sp = 4 → w = .word) (ha : (spaceUnit sp * i) % widthBytes w = 0)
    (hi : spaceUnit sp * i + widthBytes w ≤ spaceUnit sp * spaceSize cap sp) :
    resolve cap w (spaceBase sp + spaceUnit sp * i) = some (.cell sp i) := by
  have hp : 1 ≤ widthBytes w := by cases w <;> decide
  have hin : inSpace cap sp (widthBytes w) (spaceBase sp + spaceUnit sp * i) = true := inSpace_eq_true.2 (by omega)
  have hf : [Space.pal, .imem, .zmem, .pmem, .xmem].find?
      (fun sp' => inSpace cap sp' (widthBytes w) (spaceBase sp + spaceUnit sp * i)) = some sp := by
    cases h : [Space.pal, .imem, .zmem, .pmem, .xmem].find?
        (fun sp' => inSpace cap sp' (widthBytes w) (spaceBase sp + spaceUnit sp * i)) with
    | none => exact absurd hin (List.find?_eq_none.1 h sp (by cases sp <;> simp))
    | some sp' =>
      have hs := List.find?_some h
      rw [inSpace_unique (sp' := sp') hc hp hin hs]
  have hb : 0x400 ≤ spaceBase sp ∧ spaceBase sp % 4 = 0 := by cases sp <;> decide
  have hm : (spaceBase sp + spaceUnit sp * i) % widthBytes w = 0 := by
    cases w <;> simp only [widthBytes] at * <;> omega
  have hu : spaceUnit sp = 1 ∨ spaceUnit sp = 4 := by cases sp <;> simp [spaceUnit]
  unfold resolve
  simp only [hm, ne_eq, not_true_eq_false, if_false, hf]
  rw [if_neg (by omega), if_neg (fun h => h.2 (hw h.1))]
  rcases hu with h | h <;> simp [h]

/-- A word access at a register's offset names the register. -/
theorem resolve_register (cap : Capacities) (r : RegName) : resolve cap .word (BitVec.ofNat 32 (regOffset r)).toNat = some (.reg r) := by
  cases r <;> rfl

/-- The step of a pending host access. -/
theorem step_write {s : State} {w : Width} {a v : Word} {rest : List HostOp} (h : s.script = .write w a v :: rest) :
    step s = hostWrite w a v { s with script := rest } := by
  unfold step; rw [h]; rfl

theorem step_read {s : State} {w : Width} {a : Word} {rest : List HostOp} (h : s.script = .read w a :: rest) :
    step s = hostRead w a { s with script := rest } := by
  unfold step; rw [h]; rfl

end Sys2Proof.Machine
end

