-- ==== Sys2Proof/Machine/Script.lean ====
section
/-! DEFINITION. The host-script notation and the pseudo-instructions (30_encoding R97, R98), expanded into host actions. -/

namespace Sys2Proof.Machine

/-- A line of a host script (30_encoding R97) or a pseudo-instruction (R98). -/
inductive ScriptLine
  | load (space : Space) (addr : Nat) (bytes : List Byte)
  | wr (reg : RegName) (value : Word)
  | wrPal (index : Nat) (value : Word)
  | wrPmem (index : Nat) (value : Word)
  | cmd (i : Instr)
  | wait
  | rd (reg : RegName)
  | rdPal (index : Nat)
  | rdPmem (index : Nat)
  | rdXmem (addr : Nat)
  | rdZmem (addr : Nat)
  | decodeFile (depth : BitVec 8) (name : String)
  | get (x y : Word)
  | set (x y c : Word)
  | fromBytes (depth : BitVec 8) (off : Word)
  | toBytes (depth : BitVec 8) (c : Word)
  deriving DecidableEq, Repr

/-- The address of a memory location (20_memory R75). -/
def cellAddr (sp : Space) (i : Nat) : Word := BitVec.ofNat 32 (spaceBase sp + spaceUnit sp * i)

/-- A register access. -/
def writeRegOp (r : RegName) (v : Word) : HostOp := .write .word (BitVec.ofNat 32 (regOffset r)) v
def readRegOp (r : RegName) : HostOp := .read .word (BitVec.ofNat 32 (regOffset r))

/-- `WAIT`: reads STATUS until ST is not BUSY; commands are atomic, so one read does (log 24). -/
def waitOps : List HostOp := [readRegOp .status]

/-- The write of a command word; only a command can be assembled. -/
def cmdOps (i : Instr) : Option (List HostOp) :=
  if i.format = .command then some [writeRegOp .cmd (BitVec.ofNat 32 (encode i))] else none

/-- Byte writes from an address on. -/
def loadOps (sp : Space) : Nat → List Byte → List HostOp
  | _, [] => []
  | a, b :: bs => .write .byte (cellAddr sp a) (b.setWidth 32) :: loadOps sp (a + 1) bs

/-- The extension of a file name: what follows the last full stop, lower-cased. -/
def extensionOf (name : String) : List Char :=
  let cs := name.toList
  if cs.contains '.' then ((cs.reverse.takeWhile (fun c => c != '.')).reverse).map Char.toLower else []

/-- The decode command of a file name (30_encoding R98); no other extension can be assembled. -/
def decodeOfName (depth : BitVec 8) (name : String) : Option Instr :=
  let ext := extensionOf name
  if ext = ['b', 'm', 'p'] then some (.decbmp depth)
  else if ext = ['p', 'n', 'g'] then some (.decpng depth)
  else if ext = ['i', 'c', 'o'] then some (.decico depth)
  else none

/-- Register writes, a command, and the wait (the shape of the pseudo-instructions of 30_encoding R98). -/
def commandWith (writes : List HostOp) (i : Instr) : Option (List HostOp) :=
  match cmdOps i with
  | some ops => some (writes ++ ops ++ waitOps)
  | none => none

/-- The host actions of a line; `none` where the assembler refuses. -/
def expandLine : ScriptLine → Option (List HostOp)
  | .load sp a bytes => if spaceUnit sp = 1 then some (loadOps sp a bytes) else none
  | .wr r v => some [writeRegOp r v]
  | .wrPal i v => some [.write .word (cellAddr .pal i) v]
  | .wrPmem i v => some [.write .word (cellAddr .pmem i) v]
  | .cmd i => cmdOps i
  | .wait => some waitOps
  | .rd r => some [readRegOp r]
  | .rdPal i => some [.read .word (cellAddr .pal i)]
  | .rdPmem i => some [.read .word (cellAddr .pmem i)]
  | .rdXmem a => some [.read .byte (cellAddr .xmem a)]
  | .rdZmem a => some [.read .byte (cellAddr .zmem a)]
  | .decodeFile depth name =>
    match decodeOfName depth name with
    | some i => cmdOps i
    | none => none
  | .get x y => commandWith [writeRegOp .arg0 x, writeRegOp .arg1 y] .getpx
  | .set x y c => commandWith [writeRegOp .arg0 x, writeRegOp .arg1 y, writeRegOp .arg2 c] .setpx
  | .fromBytes depth off => commandWith [writeRegOp .arg0 off] (.des depth)
  | .toBytes depth c => commandWith [writeRegOp .arg2 c] (.ser depth)

/-- A script: its lines' actions in order, if every line can be assembled. -/
def expandScript : List ScriptLine → Option (List HostOp)
  | [] => some []
  | l :: ls =>
    match expandLine l, expandScript ls with
    | some a, some b => some (a ++ b)
    | _, _ => none

end Sys2Proof.Machine
end

