-- ==== Sys2Proof/Tests/Slice0.lean ====
section
/-! SUPPORT. The model's own tests: ill-formed terms that WellFormed refuses, hand-written words of every constructor, one step on the worked
examples of 95_test_vectors.md, and for every statement with hypotheses a state and operands that meet all of them. -/

namespace Sys2Proof.Tests

open Sys2Proof Sys2Proof.Machine

set_option Elab.async false

/-! ## Small states -/

/-- A small instance of the block. -/
def caps : Capacities := ⟨256, 256, 64⟩

/-- Its state after reset. -/
def blank : State := State.resetWith caps

/-- Byte values as bytes. -/
def raw (l : List Nat) : List Byte := l.map (BitVec.ofNat 8)

/-- An input file in IMEM, ILEN behind its last byte. -/
def loaded (l : List Nat) : State := { blank with imem := memWriteRun [] 0 (raw l), ilen := BitVec.ofNat 32 l.length }

/-- A Bitmap in PMEM. -/
def bitmap (w h : Nat) (pixels : List Word) : State :=
  { blank with bmW := regOf w, bmH := regOf h, bmD := regOf 32, pmem := memWriteRun [] 0 pixels }

/-- Data in ZMEM, and the operands of UNFILT. -/
def scanlines (l : List Nat) (rowbytes rows bpp : Nat) : State :=
  { blank with
    zmem := memWriteRun [] 0 (raw l), zlen := regOf l.length
    arg0 := BitVec.ofNat 32 rowbytes, arg1 := BitVec.ofNat 32 rows, arg2 := BitVec.ofNat 32 bpp }

/-- A palette, a Bitmap of one row. -/
def paletted (pal pixels : List Word) : State :=
  { bitmap pixels.length 1 pixels with pal := memWriteRun [] 0 pal, paln := regOf pal.length }

/-- A command in flight. -/
def inFlight (e : Engine) (s : State) : State := { s with st := .busy, engine := e }

/-- What an outcome shows, if it is a next state. -/
def seen {α : Type} (o : Host.Outcome State Fault Refusal) (f : State → α) : Option α :=
  match o with
  | .next t => some (f t)
  | .fault _ => none
  | .refused _ => none

/-- The fault of an outcome. -/
def faultOf (o : Host.Outcome State Fault Refusal) : Option Fault :=
  match o with
  | .fault f => some f
  | .next _ => none
  | .refused _ => none

/-- The refusal of an outcome. -/
def refusalOf (o : Host.Outcome State Fault Refusal) : Option Refusal :=
  match o with
  | .refused r => some r
  | .next _ => none
  | .fault _ => none

/-- ST and ERRCODE. -/
def status (s : State) : Status × Option ErrorKind := (s.st, s.errcode)

/-- The values a memory lists, in order. -/
def values {n : Nat} (m : Mem n) : List (BitVec n) := m.map (fun e => e.2)

/-! ## Ill-formed instructions (30_encoding R94, 46_ico R304) -/

theorem test_wellFormed_newbm : (Instr.newbm 7#8).wellFormed = false ∧ (Instr.newbm 0#8).wellFormed = false := by decide
theorem test_wellFormed_des : (Instr.des 7#8).wellFormed = false ∧ (Instr.des 0#8).wellFormed = false := by decide
theorem test_wellFormed_ser : (Instr.ser 7#8).wellFormed = false ∧ (Instr.ser 0#8).wellFormed = false := by decide
theorem test_wellFormed_conv : (Instr.conv 7#8).wellFormed = false ∧ (Instr.conv 0#8).wellFormed = false := by decide
theorem test_wellFormed_decbmp : (Instr.decbmp 7#8).wellFormed = false ∧ (Instr.decbmp 0#8).wellFormed = false := by decide
theorem test_wellFormed_decpng : (Instr.decpng 7#8).wellFormed = false ∧ (Instr.decpng 0#8).wellFormed = false := by decide
theorem test_wellFormed_decico : (Instr.decico 7#8).wellFormed = false ∧ (Instr.decico 0#8).wellFormed = false := by decide
theorem test_wellFormed_icoPayloadBmp : (Instr.icoPayloadBmp 0x89504E470D0A1A0A#64).wellFormed = false := by decide

/-! ## Words written out from the encodings of the spec -/

/-- 30_encoding R92: OPC in bits 7:0, DEPTH in bits 15:8. -/
theorem test_decode_commands :
    decode .command 0x00000000 = .ok .nop ∧ decode .command 0x00000001 = .ok .clr ∧
    decode .command 0x00001802 = .ok (.newbm 24#8) ∧ decode .command 0x00000003 = .ok .getpx ∧
    decode .command 0x00000004 = .ok .setpx ∧ decode .command 0x00001010 = .ok (.des 16#8) ∧
    decode .command 0x00000111 = .ok (.ser 1#8) ∧ decode .command 0x00000812 = .ok (.conv 8#8) ∧
    decode .command 0x00001820 = .ok (.decbmp 24#8) ∧ decode .command 0x00002021 = .ok (.decpng 32#8) ∧
    decode .command 0x00000822 = .ok (.decico 8#8) ∧ decode .command 0x00000030 = .ok .inflate ∧
    decode .command 0x00000031 = .ok .unfilt ∧ decode .command 0x00000040 = .ok .palmap := by decide

/-- 30_encoding R96: V-CTL-11, V-CTL-12, V-CTL-13, V-CTL-16. -/
theorem test_decode_illegal_commands :
    decode .command 0x00000100 = .error .depthNotAllowed ∧ decode .command 0x00010000 = .error .reservedBits ∧
    decode .command 0x00000005 = .error .unknownOpcode ∧ decode .command 0x00002003 = .error .depthNotAllowed := by decide

/-- 30_encoding R102: the letters IHDR, IDAT, IEND, first letter high; tEXt and ihdr are none of them. -/
theorem test_decode_chunkTypes :
    decode .chunkType 0x49484452 = .ok .pngChunkIHDR ∧ decode .chunkType 0x49444154 = .ok .pngChunkIDAT ∧
    decode .chunkType 0x49454E44 = .ok .pngChunkIEND ∧ decode .chunkType 0x74455874 = .error .otherChunkType ∧
    decode .chunkType 0x69686472 = .error .otherChunkType := by decide

/-- 30_encoding R105. -/
theorem test_decode_filterBytes :
    decode .filterByte 0 = .ok .pngFilterNone ∧ decode .filterByte 1 = .ok .pngFilterSub ∧
    decode .filterByte 2 = .ok .pngFilterUp ∧ decode .filterByte 3 = .ok .pngFilterAverage ∧
    decode .filterByte 4 = .ok .pngFilterPaeth ∧ decode .filterByte 5 = .error .illegalFilter := by decide

/-- 43_inflate R213: BFINAL in bit 0, BTYPE in bits 2:1. -/
theorem test_decode_blockHeaders :
    decode .blockHeader 0b000 = .ok (.deflateStored false) ∧ decode .blockHeader 0b001 = .ok (.deflateStored true) ∧
    decode .blockHeader 0b010 = .ok (.deflateFixed false) ∧ decode .blockHeader 0b011 = .ok (.deflateFixed true) ∧
    decode .blockHeader 0b100 = .ok (.deflateDynamic false) ∧ decode .blockHeader 0b101 = .ok (.deflateDynamic true) ∧
    decode .blockHeader 0b110 = .error .reservedBlockType ∧ decode .blockHeader 0b111 = .error .reservedBlockType := by decide

/-- 30_encoding R111. -/
theorem test_decode_headerSizes :
    decode .headerSize 12 = .ok .bmpHeaderCore ∧ decode .headerSize 40 = .ok .bmpHeader40 ∧
    decode .headerSize 52 = .ok .bmpHeader52 ∧ decode .headerSize 56 = .ok .bmpHeader56 ∧
    decode .headerSize 108 = .ok .bmpHeader108 ∧ decode .headerSize 124 = .ok .bmpHeader124 ∧
    decode .headerSize 16 = .error .unknownHeaderSize := by decide

/-- 30_encoding R115. -/
theorem test_decode_bitCounts :
    decode .bitCount 1 = .ok .bmpBits1 ∧ decode .bitCount 4 = .ok .bmpBits4 ∧ decode .bitCount 8 = .ok .bmpBits8 ∧
    decode .bitCount 16 = .ok .bmpBits16 ∧ decode .bitCount 24 = .ok .bmpBits24 ∧ decode .bitCount 32 = .ok .bmpBits32 ∧
    decode .bitCount 2 = .error .unknownBitCount := by decide

/-- 30_encoding R122; V-ICO-1 begins with the header size 40, which is no signature. -/
theorem test_decode_payloadHeads :
    decode .payloadHead 0x89504E470D0A1A0A = .ok .icoPayloadPng ∧
    decode .payloadHead 0x2800000002000000 = .ok (.icoPayloadBmp 0x2800000002000000#64) := by decide

/-- The table's numbering: in a file the words have the order of their bytes, in `decodeTableWord` that of the table. -/
theorem test_decodeTableWord :
    decodeTableWord 32 0x00001802 = some (.newbm 24#8) ∧ decodeTableWord 32 0x49484452 = some .pngChunkIHDR ∧
    decodeTableWord 32 40 = some .bmpHeader40 ∧ decodeTableWord 8 4 = some .pngFilterPaeth ∧
    decodeTableWord 3 4 = some (.deflateDynamic false) ∧ decodeTableWord 8 5 = some (.deflateDynamic true) ∧
    decodeTableWord 16 24 = some .bmpBits24 ∧ decodeTableWord 64 0x89504E470D0A1A0A = some .icoPayloadPng ∧
    decodeTableWord 32 0xFFFFFFFF = none ∧ decodeTableWord 8 255 = none := by decide

/-- A placed word is what the next step runs. -/
theorem test_withFetchWord :
    seen (step (blank.withFetchWord 32 0x00001802)) status = some (.err, some .unsupportedFormat) ∧
    seen (step (blank.withFetchWord 32 0x49484452)) status = some (.err, some .truncatedData) ∧
    seen (step (blank.withFetchWord 32 0x49454E44)) status = some (.err, some .truncatedData) ∧
    seen (step (blank.withFetchWord 8 4)) (fun t => (t.st, t.zmem)) = some (.done, [(0, 4#8), (1, 0#8)]) ∧
    seen (step (blank.withFetchWord 3 1)) status = some (.err, some .corruptData) ∧
    seen (step (blank.withFetchWord 32 124)) (fun t => t.engine) =
      some (.pixels ⟨⟨false, 32#8, 14, 138, 138⟩, 124, false, 0, 0, 0⟩) ∧
    seen (step (blank.withFetchWord 16 24)) (fun t => (t.st, t.pmem)) = some (.done, [(0, 0xFF000000#32)]) ∧
    seen (step (blank.withFetchWord 64 0x89504E470D0A1A0A)) (fun t => t.ico.sel) = some (.val 1#32) := by decide +kernel

/-! ## One step of every instruction, on the vectors of 95_test_vectors.md -/

/-- V-CTL-1. -/
theorem test_nop : seen (exec .nop blank) (fun t => t) = some { blank with st := .done } := by decide +kernel

/-- V-CTL-19. -/
theorem test_clr : seen (exec .clr { blank with st := .err, errcode := some .outOfBounds }) (fun t => t) = some blank := by
  decide +kernel

/-- V-CTL-3. -/
theorem test_newbm : seen (exec (.newbm 24#8) { blank with arg0 := 2#32, arg1 := 3#32 })
    (fun t => (t.st, t.bmW, t.bmH, t.bmD, values t.pmem)) =
    some (.done, .val 2#32, .val 3#32, .val 24#32, [0#32, 0#32, 0#32, 0#32, 0#32, 0#32]) := by decide +kernel

/-- V-CTL-5: no wrap-around of the product. -/
theorem test_newbm_over : seen (exec (.newbm 32#8) { blank with arg0 := 0x10000#32, arg1 := 0x10000#32 }) status =
    some (.err, some .unsupportedFormat) := by decide +kernel

/-- V-CTL-7, V-CTL-8: a pixel, and x = BM_W. -/
theorem test_getpx :
    seen (exec .getpx { bitmap 2 1 [0#32, 0x80FF0000#32] with arg0 := 1#32 }) (fun t => (t.st, t.res0)) =
      some (.done, 0x80FF0000#32) ∧
    seen (exec .getpx { bitmap 2 1 [0#32, 0x80FF0000#32] with arg0 := 2#32 }) status = some (.err, some .outOfBounds) := by
  decide +kernel

/-- V-CTL-6. -/
theorem test_setpx : seen (exec .setpx { bitmap 2 3 (List.replicate 6 0#32) with
      arg0 := 1#32, arg1 := 2#32, arg2 := 0x80FF0000#32 }) (fun t => values t.pmem) =
    some [0#32, 0#32, 0#32, 0#32, 0#32, 0x80FF0000#32] := by decide +kernel

/-- V-DES, the rows of DES.16 at 4 and of DES.24 at 4. -/
theorem test_des :
    seen (exec (.des 16#8) { loaded [0, 0, 0, 0, 0x12, 0x34, 0x56, 0x78, 0, 1] with arg0 := 4#32 }) (fun t => (t.res0, t.res1)) =
      some (0xFF003412#32, 2#32) ∧
    seen (exec (.des 24#8) { loaded [0, 0, 0, 0, 0x12, 0x34, 0x56, 0x78, 0, 1] with arg0 := 4#32 }) (fun t => (t.res0, t.res1)) =
      some (0xFF563412#32, 3#32) := by decide +kernel

/-- V-DES, DES.8 at 0xFFFFFFFF: no wrap-around. -/
theorem test_des_over : seen (exec (.des 8#8) { loaded [1] with arg0 := 0xFFFFFFFF#32 }) status =
    some (.err, some .truncatedData) := by decide +kernel

/-- V-SER: R = 127 and R = 128 at one bit, three bytes. -/
theorem test_ser :
    seen (exec (.ser 1#8) { blank with arg2 := 0x0302017F#32 }) (fun t => (t.res0, t.res1)) = some (0#32, 1#32) ∧
    seen (exec (.ser 1#8) { blank with arg2 := 0x03020180#32 }) (fun t => (t.res0, t.res1)) = some (1#32, 1#32) ∧
    seen (exec (.ser 24#8) { blank with arg2 := 0x80C86432#32 }) (fun t => (t.res0, t.res1)) = some (0xC86432#32, 3#32) := by
  decide +kernel

/-- V-CONV: a row of the table at two depths. -/
theorem test_conv :
    seen (exec (.conv 1#8) (bitmap 2 1 [0x80C86432#32, 0x11223380#32])) (fun t => (t.bmD, values t.pmem)) =
      some (.val 1#32, [0#32, 0xFF#32]) ∧
    seen (exec (.conv 16#8) (bitmap 2 1 [0x80C86432#32, 0x11223380#32])) (fun t => (t.bmD, values t.pmem)) =
      some (.val 16#32, [0xFF006432#32, 0xFF003380#32]) := by decide +kernel

/-- V-PAL-1. -/
theorem test_palmap : seen (exec .palmap (paletted [0xFF000000#32, 0xFFFFFFFF#32, 0xFF0000FF#32]
      [0xFF0000FF#32, 0xFF0A0A0A#32, 0x00FFFFFF#32, 0xFFC8C8C8#32])) (fun t => values t.xmem) =
    some [2#8, 0#8, 1#8, 1#8] := by decide +kernel

/-- V-PAL-3, V-PAL-5: the first minimum wins, and an exact match wins over an earlier distance 0. -/
theorem test_palmap_ties :
    seen (exec .palmap (paletted [0xFF000014#32, 0xFF000000#32] [0xFF00000A#32])) (fun t => values t.xmem) = some [0#8] ∧
    seen (exec .palmap (paletted [0x00050505#32, 0xFF050506#32, 0xFF050505#32] [0xFF050505#32])) (fun t => values t.xmem) =
      some [2#8] := by decide +kernel

/-- The input of V-BMP-1. -/
def bmp1 : List Nat :=
  [0x42, 0x4D, 0x46, 0x00, 0x00, 0x00, 0x00, 0x00, 0x00, 0x00, 0x36, 0x00, 0x00, 0x00, 0x28, 0x00, 0x00, 0x00, 0x02, 0x00,
   0x00, 0x00, 0x02, 0x00, 0x00, 0x00, 0x01, 0x00, 0x18, 0x00, 0x00, 0x00, 0x00, 0x00, 0x00, 0x00, 0x00, 0x00, 0x13, 0x0B,
   0x00, 0x00, 0x13, 0x0B, 0x00, 0x00, 0x00, 0x00, 0x00, 0x00, 0x00, 0x00, 0x00, 0x00, 0xFF, 0x00, 0x00, 0xFF, 0xFF, 0xFF,
   0x00, 0x00, 0x00, 0x00, 0xFF, 0x00, 0xFF, 0x00, 0x00, 0x00]

/-- The input of V-BMP-2. -/
def bmp2 : List Nat :=
  [0x42, 0x4D, 0x4C, 0x00, 0x00, 0x00, 0x00, 0x00, 0x00, 0x00, 0x44, 0x00, 0x00, 0x00, 0x28, 0x00, 0x00, 0x00, 0x03, 0x00,
   0x00, 0x00, 0xFE, 0xFF, 0xFF, 0xFF, 0x01, 0x00, 0x08, 0x00, 0x00, 0x00, 0x00, 0x00, 0x00, 0x00, 0x00, 0x00, 0x13, 0x0B,
   0x00, 0x00, 0x13, 0x0B, 0x00, 0x00, 0x03, 0x00, 0x00, 0x00, 0x00, 0x00, 0x00, 0x00, 0x00, 0x00, 0x00, 0x00, 0x00, 0x00,
   0xFF, 0x00, 0xFF, 0xFF, 0xFF, 0x77, 0x00, 0x00, 0x00, 0x01, 0x02, 0xAA, 0x02, 0x01, 0x00, 0xBB]

/-- The input of V-BMP-3. -/
def bmp3 : List Nat :=
  [0x42, 0x4D, 0x24, 0x00, 0x00, 0x00, 0x00, 0x00, 0x00, 0x00, 0x20, 0x00, 0x00, 0x00, 0x0C, 0x00, 0x00, 0x00, 0x0A, 0x00,
   0x01, 0x00, 0x01, 0x00, 0x01, 0x00, 0x00, 0x00, 0x00, 0xFF, 0xFF, 0xFF, 0xA0, 0x40, 0x00, 0x00]

/-- The input of V-BMP-4. -/
def bmp4 : List Nat :=
  [0x42, 0x4D, 0x3E, 0x00, 0x00, 0x00, 0x00, 0x00, 0x00, 0x00, 0x36, 0x00, 0x00, 0x00, 0x28, 0x00, 0x00, 0x00, 0x03, 0x00,
   0x00, 0x00, 0x01, 0x00, 0x00, 0x00, 0x01, 0x00, 0x10, 0x00, 0x00, 0x00, 0x00, 0x00, 0x00, 0x00, 0x00, 0x00, 0x13, 0x0B,
   0x00, 0x00, 0x13, 0x0B, 0x00, 0x00, 0x00, 0x00, 0x00, 0x00, 0x00, 0x00, 0x00, 0x00, 0x00, 0xF8, 0x40, 0x08, 0x20, 0x00,
   0x00, 0x00]

/-- The input of V-BMP-6. -/
def bmp6 : List Nat :=
  [0x42, 0x4D, 0x3A, 0x00, 0x00, 0x00, 0x00, 0x00, 0x00, 0x00, 0x36, 0x00, 0x00, 0x00, 0x28, 0x00, 0x00, 0x00, 0x01, 0x00,
   0x00, 0x00, 0x01, 0x00, 0x00, 0x00, 0x01, 0x00, 0x20, 0x00, 0x00, 0x00, 0x00, 0x00, 0x00, 0x00, 0x00, 0x00, 0x13, 0x0B,
   0x00, 0x00, 0x13, 0x0B, 0x00, 0x00, 0x00, 0x00, 0x00, 0x00, 0x00, 0x00, 0x00, 0x00, 0x10, 0x20, 0x30, 0x40]

/-- The input of V-INF-2. -/
def inf2 : List Nat :=
  [0x78, 0x9C, 0x4B, 0x4C, 0x02, 0x43, 0x00, 0x0A, 0xAF, 0x02, 0xAB]

/-- The input of V-INF-3. -/
def inf3 : List Nat :=
  [0x78, 0xDA, 0x0D, 0xC0, 0x81, 0x00, 0x00, 0x00, 0x00, 0x80, 0x20, 0xD6, 0xFC, 0x25, 0x3E, 0x0B, 0x03, 0xCE, 0x01, 0x85]

/-- The input of V-INF-4. -/
def inf4 : List Nat :=
  [0xEE, 0xEE, 0xEE, 0x78, 0x01, 0x00, 0x03, 0x00, 0xFC, 0xFF, 0x78, 0x79, 0x7A, 0x03, 0x22, 0x00, 0x09, 0xEF, 0x02, 0xD7]

/-- The input of V-PNG-1. -/
def png1 : List Nat :=
  [0x89, 0x50, 0x4E, 0x47, 0x0D, 0x0A, 0x1A, 0x0A, 0x00, 0x00, 0x00, 0x0D, 0x49, 0x48, 0x44, 0x52, 0x00, 0x00, 0x00, 0x01,
   0x00, 0x00, 0x00, 0x01, 0x08, 0x00, 0x00, 0x00, 0x00, 0x3A, 0x7E, 0x9B, 0x55, 0x00, 0x00, 0x00, 0x0D, 0x49, 0x44, 0x41,
   0x54, 0x78, 0x01, 0x01, 0x02, 0x00, 0xFD, 0xFF, 0x00, 0xFF, 0x01, 0x01, 0x01, 0x00, 0x60, 0x87, 0x12, 0xB5, 0x00, 0x00,
   0x00, 0x00, 0x49, 0x45, 0x4E, 0x44, 0xAE, 0x42, 0x60, 0x82]

/-- The input of V-PNG-2. -/
def png2 : List Nat :=
  [0x89, 0x50, 0x4E, 0x47, 0x0D, 0x0A, 0x1A, 0x0A, 0x00, 0x00, 0x00, 0x0D, 0x49, 0x48, 0x44, 0x52, 0x00, 0x00, 0x00, 0x02,
   0x00, 0x00, 0x00, 0x02, 0x08, 0x02, 0x00, 0x00, 0x00, 0xFD, 0xD4, 0x9A, 0x73, 0x00, 0x00, 0x00, 0x03, 0x74, 0x45, 0x58,
   0x74, 0x6B, 0x00, 0x76, 0xCB, 0x04, 0xF3, 0x90, 0x00, 0x00, 0x00, 0x01, 0x49, 0x44, 0x41, 0x54, 0x78, 0x76, 0xE6, 0x84,
   0xE6, 0x00, 0x00, 0x00, 0x00, 0x49, 0x44, 0x41, 0x54, 0x35, 0xAF, 0x06, 0x1E, 0x00, 0x00, 0x00, 0x18, 0x49, 0x44, 0x41,
   0x54, 0x01, 0x01, 0x0E, 0x00, 0xF1, 0xFF, 0x01, 0xFF, 0x00, 0x00, 0x01, 0xFF, 0x00, 0x04, 0x01, 0x00, 0xFF, 0xFF, 0x00,
   0x00, 0x1D, 0x2B, 0x04, 0x04, 0xE1, 0x42, 0x70, 0x16, 0x00, 0x00, 0x00, 0x00, 0x49, 0x45, 0x4E, 0x44, 0xAE, 0x42, 0x60,
   0x82, 0xDE, 0xAD]

/-- The input of V-ICO-1. -/
def ico1 : List Nat :=
  [0x00, 0x00, 0x01, 0x00, 0x01, 0x00, 0x02, 0x02, 0x00, 0x00, 0x01, 0x00, 0x20, 0x00, 0x40, 0x00, 0x00, 0x00, 0x16, 0x00,
   0x00, 0x00, 0x28, 0x00, 0x00, 0x00, 0x02, 0x00, 0x00, 0x00, 0x04, 0x00, 0x00, 0x00, 0x01, 0x00, 0x20, 0x00, 0x00, 0x00,
   0x00, 0x00, 0x00, 0x00, 0x00, 0x00, 0x00, 0x00, 0x00, 0x00, 0x00, 0x00, 0x00, 0x00, 0x00, 0x00, 0x00, 0x00, 0x00, 0x00,
   0x00, 0x00, 0x10, 0x20, 0x30, 0x40, 0x11, 0x21, 0x31, 0x00, 0x12, 0x22, 0x32, 0xFF, 0x13, 0x23, 0x33, 0x80, 0x40, 0x00,
   0x00, 0x00, 0x80, 0x00, 0x00, 0x00]

/-- The input of V-ICO-2. -/
def ico2 : List Nat :=
  [0x00, 0x00, 0x01, 0x00, 0x01, 0x00, 0x20, 0x20, 0x10, 0x00, 0x01, 0x00, 0x04, 0x00, 0x46, 0x00, 0x00, 0x00, 0x16, 0x00,
   0x00, 0x00, 0x89, 0x50, 0x4E, 0x47, 0x0D, 0x0A, 0x1A, 0x0A, 0x00, 0x00, 0x00, 0x0D, 0x49, 0x48, 0x44, 0x52, 0x00, 0x00,
   0x00, 0x01, 0x00, 0x00, 0x00, 0x01, 0x08, 0x00, 0x00, 0x00, 0x00, 0x3A, 0x7E, 0x9B, 0x55, 0x00, 0x00, 0x00, 0x0D, 0x49,
   0x44, 0x41, 0x54, 0x78, 0x01, 0x01, 0x02, 0x00, 0xFD, 0xFF, 0x00, 0xFF, 0x01, 0x01, 0x01, 0x00, 0x60, 0x87, 0x12, 0xB5,
   0x00, 0x00, 0x00, 0x00, 0x49, 0x45, 0x4E, 0x44, 0xAE, 0x42, 0x60, 0x82]

/-- The input of V-ICO-3. -/
def ico3 : List Nat :=
  [0x00, 0x00, 0x01, 0x00, 0x02, 0x00, 0x09, 0x01, 0x02, 0x00, 0x01, 0x00, 0x01, 0x00, 0x3A, 0x00, 0x00, 0x00, 0x26, 0x00,
   0x00, 0x00, 0x01, 0x01, 0x00, 0x00, 0x00, 0x00, 0x00, 0x00, 0x00, 0x00, 0x00, 0x00, 0x00, 0x00, 0x00, 0x00, 0x28, 0x00,
   0x00, 0x00, 0x09, 0x00, 0x00, 0x00, 0x02, 0x00, 0x00, 0x00, 0x01, 0x00, 0x01, 0x00, 0x00, 0x00, 0x00, 0x00, 0x00, 0x00,
   0x00, 0x00, 0x00, 0x00, 0x00, 0x00, 0x00, 0x00, 0x00, 0x00, 0x02, 0x00, 0x00, 0x00, 0x00, 0x00, 0x00, 0x00, 0x00, 0x00,
   0x00, 0x00, 0x00, 0xFF, 0xFF, 0x00, 0x80, 0x80, 0x00, 0x00, 0x01, 0x00, 0x00, 0x00, 0xCC, 0xCC]

/-- V-BMP-1. -/
theorem test_decbmp : seen (exec (.decbmp 24#8) (loaded bmp1))
    (fun t => (t.st, [t.bmW, t.bmH, t.bmD, t.ipos, t.bmp.stride, t.bmp.off], values t.pmem)) =
    some (.done, [.val 2#32, .val 2#32, .val 24#32, .val 70#32, .val 8#32, .val 54#32],
      [0xFF0000FF#32, 0xFF00FF00#32, 0xFFFF0000#32, 0xFFFFFFFF#32]) := by decide +kernel

/-- V-BMP-E15: the last padding byte missing; the Bitmap and the BMP registers hold no value. -/
theorem test_decbmp_truncated : seen (exec (.decbmp 24#8) { loaded bmp1 with ilen := 69#32 })
    (fun t => (status t, t.bmW, t.bmp.w, t.pmem)) = some ((.err, some .truncatedData), .unspecified, .unspecified, []) := by decide +kernel

/-- V-PNG-2: two filters, a skipped chunk, the stream over three IDAT chunks, junk after IEND. -/
theorem test_decpng : seen (exec (.decpng 24#8) (loaded png2))
    (fun t => (t.st, [t.bmW, t.bmH, t.bmD, t.ipos, t.png.bpp, t.png.rowb, t.zlen], values t.pmem, values t.zmem)) =
    some (.done, [.val 2#32, .val 2#32, .val 24#32, .val 121#32, .val 3#32, .val 6#32, .val 14#32],
      [0xFF0000FF#32, 0xFF00FF00#32, 0xFFFF0000#32, 0xFFFFFFFF#32],
      raw [0x01, 0xFF, 0x00, 0x00, 0x00, 0xFF, 0x00, 0x04, 0x00, 0x00, 0xFF, 0xFF, 0xFF, 0xFF]) := by decide +kernel

/-- V-ICO-2: the PNG payload, whatever the entry says. -/
theorem test_decico : seen (exec (.decico 32#8) (loaded ico2))
    (fun t => (t.st, [t.ico.eW, t.ico.eBits, t.ico.eSize, t.ico.sel, t.ipos, t.bmp.w], values t.pmem)) =
    some (.done, [.val 32#32, .val 4#32, .val 70#32, .val 1#32, .val 92#32, .val 0#32], [0xFFFFFFFF#32]) := by decide +kernel

/-- V-ICO-3: an indexed payload and its mask. -/
theorem test_decico_bmp : seen (exec (.decico 8#8) (loaded ico3))
    (fun t => (t.st, [t.ico.sel, t.ipos, t.paln], values t.pmem)) =
    some (.done, [.val 0#32, .val 94#32, .val 2#32], [0xFF00FFFF#32, 0xFF000000#32, 0xFF000000#32, 0xFF000000#32,
      0xFF000000#32, 0xFF000000#32, 0xFF000000#32, 0x00000000#32, 0xFF00FFFF#32]) := by decide +kernel

/-- V-INF-4: a stored and a fixed block, a match across them. -/
theorem test_inflate : seen (exec .inflate { loaded inf4 with arg0 := 3#32 })
    (fun t => (t.st, t.zlen, t.ipos, values t.zmem)) =
    some (.done, .val 6#32, .val 16#32, raw [0x78, 0x79, 0x7A, 0x78, 0x79, 0x7A]) := by decide +kernel

/-- 43_inflate R225: two bytes of output and room for one. -/
theorem test_inflate_capacity : seen (exec .inflate { loaded [0x78, 0x01, 0x01, 0x02, 0x00, 0xFD, 0xFF, 0x00, 0xFF] with
      cap := ⟨256, 1, 64⟩ }) status = some (.err, some .unsupportedFormat) := by decide +kernel

/-- V-FLT-4. -/
theorem test_unfilt : seen (exec .unfilt (scanlines [0, 0x0A, 0x14, 0x1E, 0x28, 0x32, 0x3C, 4, 0x01, 0x02, 0x03, 0xFA, 0xFB, 0xFC] 6 2 3))
    (fun t => (t.st, values t.zmem)) =
    some (.done, raw [0, 0x0A, 0x14, 0x1E, 0x28, 0x32, 0x3C, 4, 0x0B, 0x16, 0x21, 0x22, 0x2D, 0x38]) := by decide +kernel

/-- V-FLT-16: with no data bytes every byte is a filter byte. -/
theorem test_unfilt_emptyRows : seen (exec .unfilt (scanlines [4, 7, 0, 9] 0 4 1)) status =
    some (.err, some .corruptData) := by decide +kernel

/-- V-PNG-1, the chunk at 8. -/
theorem test_pngChunkIHDR : seen (exec .pngChunkIHDR (inFlight (.chunks ⟨false, 32#8, 70, 8, none, []⟩) (loaded png1)))
    (fun t => (t.engine, t.png)) = some (.chunks ⟨false, 32#8, 70, 33, some ⟨1, 1, 8, 0⟩, []⟩,
      ⟨.val 1#32, .val 1#32, .val 8#32, .val 0#32, .val 0#32, .val 0#32⟩) := by decide +kernel

/-- V-PNG-E11: a second IHDR. -/
theorem test_pngChunkIHDR_second : seen (exec .pngChunkIHDR (inFlight (.chunks ⟨false, 32#8, 70, 8, some ⟨1, 1, 8, 0⟩, []⟩) (loaded png1))) status =
    some (.err, some .invalidSignature) := by decide +kernel

/-- V-PNG-1, the chunk at 33: the stream of V-INF-1. -/
theorem test_pngChunkIDAT : seen (exec .pngChunkIDAT
      (inFlight (.chunks ⟨false, 32#8, 70, 33, some ⟨1, 1, 8, 0⟩, [7#8]⟩) (loaded png1))) (fun t => t.engine) =
    some (.chunks ⟨false, 32#8, 70, 58, some ⟨1, 1, 8, 0⟩,
      raw [7, 0x78, 0x01, 0x01, 0x02, 0x00, 0xFD, 0xFF, 0x00, 0xFF, 0x01, 0x01, 0x01, 0x00]⟩) := by decide +kernel

/-- V-PNG-1, the chunk at 58, with the two bytes of a zlib header accumulated. -/
theorem test_pngChunkIEND : seen (exec .pngChunkIEND
      (inFlight (.chunks ⟨false, 32#8, 70, 58, some ⟨1, 1, 8, 0⟩, raw [0x78, 0x01]⟩) (loaded png1)))
    (fun t => (t.engine, t.png.bpp, t.png.rowb)) =
    some (.blocks ⟨.bytes (raw [0x78, 0x01]), 16, [], some ⟨false, 32#8, ⟨1, 1, 8, 0⟩, 70⟩⟩, .val 1#32, .val 1#32) := by decide +kernel

/-- V-FLT-0, row 1. -/
theorem test_pngFilterNone : seen (exec .pngFilterNone (inFlight (.rows ⟨6, 2, 3, 1, none⟩)
      (scanlines [0, 0x0A, 0x14, 0x1E, 0x28, 0x32, 0x3C, 0, 0x0B, 0x16, 0x21, 0x22, 0x2D, 0x38] 6 2 3))) (fun t => (t.st, values t.zmem)) =
    some (.done, raw [0, 0x0A, 0x14, 0x1E, 0x28, 0x32, 0x3C, 0, 0x0B, 0x16, 0x21, 0x22, 0x2D, 0x38]) := by decide +kernel

/-- V-FLT-1, row 1. -/
theorem test_pngFilterSub : seen (exec .pngFilterSub (inFlight (.rows ⟨6, 2, 3, 1, none⟩)
      (scanlines [0, 0x0A, 0x14, 0x1E, 0x28, 0x32, 0x3C, 1, 0x0B, 0x16, 0x21, 0x17, 0x17, 0x17] 6 2 3))) (fun t => (t.st, values t.zmem)) =
    some (.done, raw [0, 0x0A, 0x14, 0x1E, 0x28, 0x32, 0x3C, 1, 0x0B, 0x16, 0x21, 0x22, 0x2D, 0x38]) := by decide +kernel

/-- V-FLT-2, row 1. -/
theorem test_pngFilterUp : seen (exec .pngFilterUp (inFlight (.rows ⟨6, 2, 3, 1, none⟩)
      (scanlines [0, 0x0A, 0x14, 0x1E, 0x28, 0x32, 0x3C, 2, 0x01, 0x02, 0x03, 0xFA, 0xFB, 0xFC] 6 2 3))) (fun t => (t.st, values t.zmem)) =
    some (.done, raw [0, 0x0A, 0x14, 0x1E, 0x28, 0x32, 0x3C, 2, 0x0B, 0x16, 0x21, 0x22, 0x2D, 0x38]) := by decide +kernel

/-- V-FLT-3, row 1. -/
theorem test_pngFilterAverage : seen (exec .pngFilterAverage (inFlight (.rows ⟨6, 2, 3, 1, none⟩)
      (scanlines [0, 0x0A, 0x14, 0x1E, 0x28, 0x32, 0x3C, 3, 0x06, 0x0C, 0x12, 0x09, 0x09, 0x0A] 6 2 3))) (fun t => (t.st, values t.zmem)) =
    some (.done, raw [0, 0x0A, 0x14, 0x1E, 0x28, 0x32, 0x3C, 3, 0x0B, 0x16, 0x21, 0x22, 0x2D, 0x38]) := by decide +kernel

/-- V-FLT-4, row 1. -/
theorem test_pngFilterPaeth : seen (exec .pngFilterPaeth (inFlight (.rows ⟨6, 2, 3, 1, none⟩)
      (scanlines [0, 0x0A, 0x14, 0x1E, 0x28, 0x32, 0x3C, 4, 0x01, 0x02, 0x03, 0xFA, 0xFB, 0xFC] 6 2 3))) (fun t => (t.st, values t.zmem)) =
    some (.done, raw [0, 0x0A, 0x14, 0x1E, 0x28, 0x32, 0x3C, 4, 0x0B, 0x16, 0x21, 0x22, 0x2D, 0x38]) := by decide +kernel

/-- V-INF-4, the first block. -/
theorem test_deflateStored : seen (exec (.deflateStored false) (inFlight (.blocks ⟨.imem 20, 40, [], none⟩) (loaded inf4)))
    (fun t => t.engine) = some (.blocks ⟨.imem 20, 104, raw [0x7A, 0x79, 0x78], none⟩) := by decide +kernel

/-- V-INF-2: literals and an overlapping copy. -/
theorem test_deflateFixed : seen (exec (.deflateFixed true) (inFlight (.blocks ⟨.imem 11, 16, [], none⟩) (loaded inf2)))
    (fun t => (t.st, t.ipos, values t.zmem)) = some (.done, .val 7#32, raw [0x61, 0x62, 0x61, 0x62, 0x61, 0x62, 0x61]) := by decide +kernel

/-- V-INF-3. -/
theorem test_deflateDynamic : seen (exec (.deflateDynamic true) (inFlight (.blocks ⟨.imem 20, 16, [], none⟩) (loaded inf3)))
    (fun t => (t.st, t.ipos, values t.zmem)) = some (.done, .val 16#32, raw [0x61, 0x61, 0x61, 0x61]) := by decide +kernel

/-- V-INF-E18: an incomplete code-length code. -/
theorem test_deflateDynamic_incomplete : seen (exec (.deflateDynamic true) (inFlight (.blocks ⟨.imem 6, 16, [], none⟩)
    (loaded [0x78, 0x01, 0x05, 0x00, 0x02, 0x00]))) status = some (.err, some .corruptData) := by decide +kernel

/-- V-BMP-3: a core header. -/
theorem test_bmpHeaderCore : seen (exec .bmpHeaderCore (inFlight (.header ⟨false, 1#8, 14, 36, 32⟩) (loaded bmp3))) (fun t => t.engine) =
    some (.pixels ⟨⟨false, 1#8, 14, 36, 32⟩, 12, true, 10, 1, 0⟩) := by decide +kernel

/-- V-BMP-2: a negative height, and the palette size. -/
theorem test_bmpHeader40 : seen (exec .bmpHeader40 (inFlight (.header ⟨false, 8#8, 14, 76, 68⟩) (loaded bmp2))) (fun t => t.engine) =
    some (.pixels ⟨⟨false, 8#8, 14, 76, 68⟩, 40, false, 3, -2, 3⟩) := by decide +kernel

/-- An info header of `hs` bytes at 14: width 2, height -3, one plane, 24 bits, compression 0, colorsUsed 5; the bytes from 40 on are 0xEE. -/
def modern (hs : Nat) : List Nat :=
  List.replicate 14 0 ++ ([hs, 0, 0, 0, 2, 0, 0, 0, 0xFD, 0xFF, 0xFF, 0xFF, 1, 0, 24, 0, 0, 0, 0, 0] ++
    (List.replicate 12 0xEE ++ ([5, 0, 0, 0, 0xEE, 0xEE, 0xEE, 0xEE] ++ List.replicate (hs - 40) 0xEE)))

/-- 30_encoding R113: the header is read and must be there to its last byte. -/
theorem test_bmpHeader52 :
    seen (exec .bmpHeader52 (inFlight (.header ⟨false, 8#8, 14, 66, 200⟩) (loaded (modern 52)))) (fun t => t.engine) =
      some (.pixels ⟨⟨false, 8#8, 14, 66, 200⟩, 52, false, 2, -3, 5⟩) ∧
    seen (exec .bmpHeader52 (inFlight (.header ⟨false, 8#8, 14, 65, 200⟩) (loaded (modern 52)))) status =
      some (.err, some .truncatedData) := by decide +kernel

/-- 30_encoding R113: the header is read and must be there to its last byte. -/
theorem test_bmpHeader56 :
    seen (exec .bmpHeader56 (inFlight (.header ⟨false, 8#8, 14, 70, 200⟩) (loaded (modern 56)))) (fun t => t.engine) =
      some (.pixels ⟨⟨false, 8#8, 14, 70, 200⟩, 56, false, 2, -3, 5⟩) ∧
    seen (exec .bmpHeader56 (inFlight (.header ⟨false, 8#8, 14, 69, 200⟩) (loaded (modern 56)))) status =
      some (.err, some .truncatedData) := by decide +kernel

/-- 30_encoding R113: the header is read and must be there to its last byte. -/
theorem test_bmpHeader108 :
    seen (exec .bmpHeader108 (inFlight (.header ⟨false, 8#8, 14, 122, 200⟩) (loaded (modern 108)))) (fun t => t.engine) =
      some (.pixels ⟨⟨false, 8#8, 14, 122, 200⟩, 108, false, 2, -3, 5⟩) ∧
    seen (exec .bmpHeader108 (inFlight (.header ⟨false, 8#8, 14, 121, 200⟩) (loaded (modern 108)))) status =
      some (.err, some .truncatedData) := by decide +kernel

/-- 30_encoding R113: the header is read and must be there to its last byte. -/
theorem test_bmpHeader124 :
    seen (exec .bmpHeader124 (inFlight (.header ⟨false, 8#8, 14, 138, 200⟩) (loaded (modern 124)))) (fun t => t.engine) =
      some (.pixels ⟨⟨false, 8#8, 14, 138, 200⟩, 124, false, 2, -3, 5⟩) ∧
    seen (exec .bmpHeader124 (inFlight (.header ⟨false, 8#8, 14, 137, 200⟩) (loaded (modern 124)))) status =
      some (.err, some .truncatedData) := by decide +kernel

/-- V-BMP-3: the leftmost pixel in the high bit, ten pixels. -/
theorem test_bmpBits1 : seen (exec .bmpBits1 (inFlight (.pixels ⟨⟨false, 1#8, 14, 36, 32⟩, 12, true, 10, 1, 0⟩) (loaded bmp3)))
    (fun t => (t.st, t.paln, values t.pmem)) =
    some (.done, .val 2#32, 0xFFFFFFFF#32 :: 0xFF000000#32 :: 0xFFFFFFFF#32 :: (List.replicate 6 0xFF000000#32 ++ [0xFFFFFFFF#32])) := by decide +kernel

/-- V-BMP-5, its table and pixels at 14: the high nibble first. -/
theorem test_bmpBits4 : seen (exec .bmpBits4 (inFlight (.pixels ⟨⟨false, 32#8, 0, 34, 30⟩, 14, false, 3, 1, 4⟩)
      (loaded (List.replicate 14 0 ++ [0, 0, 0, 0, 0, 0, 0xFF, 0, 0, 0xFF, 0, 0, 0xFF, 0, 0, 0, 0x12, 0x30, 0, 0]))))
    (fun t => (t.st, t.ipos, values t.pmem)) = some (.done, .val 34#32, [0xFF0000FF#32, 0xFF00FF00#32, 0xFFFF0000#32]) := by decide +kernel

/-- V-BMP-2: top-down rows, a gap before the pixels. -/
theorem test_bmpBits8 : seen (exec .bmpBits8 (inFlight (.pixels ⟨⟨false, 8#8, 14, 76, 68⟩, 40, false, 3, -2, 3⟩) (loaded bmp2)))
    (fun t => (t.st, t.ipos, t.bmp.h, values t.pmem)) = some (.done, .val 76#32, .val 0xFFFFFFFE#32,
      [0xFF000000#32, 0xFF0000FF#32, 0xFFFFFFFF#32, 0xFFFFFFFF#32, 0xFF0000FF#32, 0xFF000000#32]) := by decide +kernel

/-- V-BMP-E19: index 3 and a palette of three. -/
theorem test_bmpBits8_index : seen (exec .bmpBits8 (inFlight (.pixels ⟨⟨false, 8#8, 14, 76, 68⟩, 40, false, 3, -2, 3⟩)
    (loaded (bmp2.set 68 3)))) status = some (.err, some .corruptData) := by decide +kernel

/-- V-BMP-4: five bits a channel, bit 5 ignored. -/
theorem test_bmpBits16 : seen (exec .bmpBits16 (inFlight (.pixels ⟨⟨false, 16#8, 14, 62, 54⟩, 40, false, 3, 1, 0⟩) (loaded bmp4)))
    (fun t => (t.st, values t.pmem)) = some (.done, [0xFF0000FF#32, 0xFF000808#32, 0xFF000000#32]) := by decide +kernel

/-- V-BMP-1: bottom-up rows. -/
theorem test_bmpBits24 : seen (exec .bmpBits24 (inFlight (.pixels ⟨⟨false, 24#8, 14, 70, 54⟩, 40, false, 2, 2, 0⟩) (loaded bmp1)))
    (fun t => (t.st, values t.pmem)) = some (.done, [0xFF0000FF#32, 0xFF00FF00#32, 0xFFFF0000#32, 0xFFFFFFFF#32]) := by decide +kernel

/-- V-BMP-6. -/
theorem test_bmpBits32 : seen (exec .bmpBits32 (inFlight (.pixels ⟨⟨false, 32#8, 14, 58, 54⟩, 40, false, 1, 1, 0⟩) (loaded bmp6)))
    (fun t => (t.st, values t.pmem)) = some (.done, [0x40102030#32]) := by decide +kernel

/-- V-ICO-1: every alpha is the mask's. -/
theorem test_bmpBits32_masked : seen (exec .bmpBits32 (inFlight (.pixels ⟨⟨true, 32#8, 22, 86, 0⟩, 40, false, 2, 4, 0⟩) (loaded ico1)))
    (fun t => (t.st, t.ipos, values t.pmem)) =
    some (.done, .val 86#32, [0x00122232#32, 0xFF132333#32, 0xFF102030#32, 0x00112131#32]) := by decide +kernel

/-- V-ICO-2, the payload at 22. -/
theorem test_icoPayloadPng : seen (exec .icoPayloadPng (inFlight (.payload ⟨32#8, 22, 92⟩) (loaded ico2))) (fun t => (t.ico.sel, t.engine)) =
    some (.val 1#32, .chunks ⟨true, 32#8, 92, 30, none, []⟩) := by decide +kernel

/-- V-ICO-1, the payload at 22. -/
theorem test_icoPayloadBmp : seen (exec (.icoPayloadBmp 0x2800000002000000#64) (inFlight (.payload ⟨32#8, 22, 86⟩) (loaded ico1)))
    (fun t => (t.ico.sel, t.engine)) = some (.val 0#32, .header ⟨true, 32#8, 22, 86, 0⟩) := by decide +kernel

/-- Outside the phase of a command that reads it a stream opcode is refused (log 11). -/
theorem test_outsideItsPhase :
    refusalOf (exec .pngFilterSub blank) = some .outsideItsPhase ∧
    refusalOf (exec (.deflateFixed true) (inFlight (.rows ⟨1, 1, 1, 0, none⟩) blank)) = some .outsideItsPhase := by decide +kernel

/-! ## Hypotheses that are met: one theorem for every statement that has any, its clauses one by one -/

/-- A next state of which `f` is known. -/
theorem next_of_seen {α : Type} {o : Host.Outcome State Fault Refusal} {f : State → α} {a : α} (h : seen o f = some a) :
    ∃ t, o = .next t ∧ f t = a := by
  cases o with
  | next t => exact ⟨t, rfl, Option.some.inj h⟩
  | fault _ => cases h
  | refused _ => cases h

theorem witness_DecodeInvertsEncode : (Instr.newbm 24#8).wellFormed = true ∧ (Instr.icoPayloadBmp 0#64).wellFormed = true ∧
    (Instr.deflateStored true).wellFormed = true := by decide

theorem witness_EncodeInvertsDecode :
    (0x2022 < 2 ^ Format.command.width ∧ decode .command 0x2022 = .ok (.decico 32#8)) ∧
    (5 < 2 ^ Format.blockHeader.width ∧ decode .blockHeader 5 = .ok (.deflateDynamic true)) := by decide

/-- A host about to write `w` to CMD. -/
def aboutTo (w : Nat) (st : Status) : State := { blank with st := st, script := [.write .word 0#32 (BitVec.ofNat 32 w), .rst] }

theorem witness_StepRunsCommand :
    ((aboutTo 0x1802 .idle).script = .write .word 0#32 0x1802#32 :: [.rst] ∧ (aboutTo 0x1802 .idle).st = .idle ∧
      decode .command (0x1802#32 : Word).toNat = .ok (.newbm 24#8)) ∧
    ((aboutTo 0 .done).script = .write .word 0#32 0#32 :: [.rst] ∧ (aboutTo 0 .done).st = .done ∧
      decode .command (0#32 : Word).toNat = .ok .nop) := by decide

/-- Where a word is placed, it is where the engine reads: one word of each stream format. -/
theorem witness_StepRunsStreamOpcode :
    (∀ p ∈ [(Format.chunkType, 32, 0x49484452), (.filterByte, 8, 4), (.blockHeader, 3, 5), (.headerSize, 32, 124), (.bitCount, 16, 24),
        (.payloadHead, 64, 0x89504E470D0A1A0A)],
      (blank.withFetchWord p.2.1 p.2.2).script = [] ∧ (blank.withFetchWord p.2.1 p.2.2).st = .busy ∧ p.2.2 < 2 ^ p.1.width ∧
      (decode? p.1 p.2.2).isSome = true) ∧
    streamWordAt (blank.withFetchWord 32 0x49484452) .chunkType 0x49484452 ∧
    streamWordAt (blank.withFetchWord 8 4) .filterByte 4 ∧
    streamWordAt (blank.withFetchWord 3 5) .blockHeader 5 ∧
    streamWordAt (blank.withFetchWord 32 124) .headerSize 124 ∧
    streamWordAt (blank.withFetchWord 16 24) .bitCount 24 ∧
    streamWordAt (blank.withFetchWord 64 0x89504E470D0A1A0A) .payloadHead 0x89504E470D0A1A0A := by
  refine ⟨by decide +kernel, ⟨0, by decide, by decide, ?_⟩, ?_, ?_, ⟨by decide, ?_⟩, ?_, ?_⟩
  · exact (by decide +kernel : ∀ k < 8, memRead (blank.withFetchWord 32 0x49484452).imem (8 + k) = (be32 0 ++ be32 0x49484452)[k]?)
  · exact (by decide +kernel : memRead (blank.withFetchWord 8 4).zmem 0 = some 4#8)
  · exact (by decide +kernel : ∀ k < 3, sourceBit (blank.withFetchWord 3 5).imem (.imem 8) (0 + k) = (bitsLsb 3 5)[k]?)
  · exact (by decide +kernel : ∀ k < 4, memRead (blank.withFetchWord 32 124).imem (14 + k) = (le32 124)[k]?)
  · exact (by decide +kernel : ∀ k < 2, memRead (blank.withFetchWord 16 24).imem (28 + k) = (le16 24)[k]?)
  · exact (by decide +kernel : ∀ k < 8, memRead (blank.withFetchWord 64 0x89504E470D0A1A0A).imem (22 + k) =
      (beBytes 8 0x89504E470D0A1A0A)[k]?)

/-- A chunk tEXt of no bytes, in a walk that has seen IHDR or not. -/
def textChunk (hdr : Option Ihdr) : State := inFlight (.chunks ⟨false, 32#8, 12, 0, hdr, []⟩) (loaded [0, 0, 0, 0, 0x74, 0x45, 0x58, 0x74, 0, 0, 0, 0])

/-- The values of V-BMP-E6, V-BMP-E10, V-PNG-E24, V-INF-E7 where they are read, and a chunk that is skipped. -/
theorem witness_IllegalStreamWordRaises :
    (streamWordAt (inFlight (.header ⟨false, 24#8, 0, 4, 0⟩) (loaded [16, 0, 0, 0])) .headerSize 16 ∧
      decode .headerSize 16 = .error .unknownHeaderSize) ∧
    (streamWordAt (inFlight (.pixels ⟨⟨false, 24#8, 0, 16, 0⟩, 40, false, 1, 1, 0⟩)
        (loaded (List.replicate 14 0 ++ [2, 0]))) .bitCount 2 ∧ decode .bitCount 2 = .error .unknownBitCount) ∧
    (streamWordAt (inFlight (.rows ⟨1, 1, 1, 0, none⟩) (scanlines [5, 0xFF] 1 1 1)) .filterByte 5 ∧
      decode .filterByte 5 = .error .illegalFilter) ∧
    (streamWordAt (inFlight (.blocks ⟨.imem 1, 0, [], none⟩) (loaded [7])) .blockHeader 7 ∧
      decode .blockHeader 7 = .error .reservedBlockType) ∧
    (∀ hdr ∈ [none, some (Ihdr.mk 1 1 8 0)], streamWordAt (textChunk hdr) .chunkType 0x74455874 ∧
      holdsAt (textChunk hdr).imem 0 (be32 0 ++ be32 0x74455874)) ∧
    decode .chunkType 0x74455874 = .error .otherChunkType := by
  refine ⟨⟨?_, by decide⟩, ⟨?_, by decide⟩, ⟨?_, by decide⟩, ⟨?_, by decide⟩, ?_, by decide⟩
  · simp only [streamWordAt, holdsAt, inFlight]; decide +kernel
  · simp only [streamWordAt, holdsAt, inFlight]; decide +kernel
  · simp only [streamWordAt, inFlight]; decide +kernel
  · simp only [streamWordAt, sourceBits, inFlight]; decide +kernel
  · intro hdr h
    refine ⟨⟨0, by decide, by simp, ?_⟩, ?_⟩
    all_goals
      simp only [holdsAt, textChunk, inFlight]
      decide +kernel

/-- A safe state in which a command is in flight, and a step of it. -/
def midUnfilt : State := inFlight (.rows ⟨1, 2, 1, 0, none⟩) (scanlines [0, 7, 2, 1] 1 2 1)

theorem witness_invariants : midUnfilt.safe ∧ ∃ t, step midUnfilt = .next t ∧ (t.st, values t.zmem) = (.busy, raw [0, 7, 2, 1]) := by
  refine ⟨⟨?_, ?_, ?_, ?_, ?_, ?_⟩, next_of_seen (by decide +kernel)⟩
  · simp only [State.memoriesCanonical]; decide +kernel
  · simp [State.statusConsistent, midUnfilt, inFlight, scanlines, blank, State.resetWith]
  · exact ⟨by decide +kernel, (by decide : (0#32 : Word).toNat ≤ 256), (by decide : (0#32 : Word).toNat ≤ 64),
      (by decide : (0#32 : Word).toNat ≤ 64), Or.inl rfl, (by decide : (0#32 : Word).toNat ≤ 256),
      (by decide : (4#32 : Word).toNat ≤ 256), (by decide : (0#32 : Word).toNat ≤ 1)⟩
  · simp only [State.bitmapSound, bitmapSize, midUnfilt, inFlight, scanlines, blank, State.resetWith, Reg.zero]
    decide +kernel
  · simp only [State.memoriesWithin]; decide +kernel
  · intro p h; cases h

theorem witness_ResetPinWorksInEveryState : ({ blank with st := .busy, engine := .rows ⟨1, 1, 1, 0, none⟩, script := [.rst] } : State).script =
    .rst :: [] := by decide

/-- A command that ends in DONE, one that ends in ERR, one that faults. -/
theorem witness_CommandsTerminate :
    (Instr.decbmp 24#8).format = .command ∧
    seen (exec (.decbmp 24#8) (loaded bmp6)) (fun t => t.st) = some .done ∧
    seen (exec (.decbmp 24#8) blank) (fun t => t.st) = some .err ∧
    faultOf (exec (.decbmp 24#8) { blank with ilen := 14#32 }) = some (.unwrittenRead .imem 0) := by decide +kernel

theorem witness_FailedCommandClobbersItsRow : Instr.inflate.format = .command ∧ ∃ t, exec .inflate blank = .next t ∧ t.st = .err :=
  ⟨rfl, next_of_seen (by decide +kernel)⟩

theorem witness_InputIsNeverWritten : (∃ t, exec (.decpng 32#8) (loaded png1) = .next t ∧ t.st = .done) ∧
    ∃ t, exec .pngFilterNone midUnfilt = .next t ∧ t.st = .busy :=
  ⟨next_of_seen (by decide +kernel), next_of_seen (by decide +kernel)⟩

/-- A command in one go; V-ICO-1 and V-ICO-2, which take the two paths of DECICO; V-BMP-6, whose pixels are direct; a failed one. -/
theorem witness_CommandFrame : Instr.palmap.format = .command ∧
    seen (exec .palmap (paletted [0xFF000000#32] [0#32])) (fun t => values t.xmem) = some [0#8] ∧
    seen (exec (.decico 32#8) (loaded ico1)) (fun t => (t.st, t.ico.sel)) = some (.done, .val 0#32) ∧
    seen (exec (.decico 32#8) (loaded ico2)) (fun t => (t.st, t.ico.sel)) = some (.done, .val 1#32) ∧
    seen (exec (.decbmp 32#8) (loaded bmp6)) (fun t => (t.st, t.bmp.bits)) = some (.done, .val 32#32) ∧
    seen (exec .getpx blank) (fun t => t.st) = some .err ∧ failureScope .getpx = .nothing := by decide +kernel

/-- One byte below ILEN, and another IMEM that differs from there on. -/
theorem witness_InputWindowIsIlen : (Instr.des 8#8).format = .command ∧
    (∀ a < ({ loaded [1, 2] with ilen := 1#32 } : State).ilen.toNat,
      memRead ([(0, 1#8), (1, 3#8)] : Mem 8) a = memRead (loaded [1, 2]).imem a) ∧
    memRead ([(0, 1#8), (1, 3#8)] : Mem 8) 1 ≠ memRead (loaded [1, 2]).imem 1 := by decide +kernel

theorem witness_IllegalCommandRaises :
    (∀ w ∈ [0x10000, 5, 0x100, 0x721, 0x21], (aboutTo w .done).script = .write .word 0#32 (BitVec.ofNat 32 w) :: [.rst] ∧
      (aboutTo w .done).st = .done ∧ illegalWord (BitVec.ofNat 32 w)) ∧
    legalDepth 0#8 = false ∧ legalDepth 33#8 = false := by
  simp only [illegalWord]; decide +kernel

theorem witness_ErrAcceptsOnlyClr : (aboutTo 1 .err).st = .err ∧ (aboutTo 1 .err).script = .write .word 0#32 1#32 :: [.rst] ∧
    (aboutTo 5 .err).script = .write .word 0#32 5#32 :: [.rst] := by decide

/-- A BUSY block with one host action pending. -/
def busyWith (op : HostOp) : State := { midUnfilt with script := [op] }

theorem witness_BusyHostAccess : ∀ op ∈ [HostOp.write .word 0#32 1#32, .read .word 4#32, .write .word 0x10#32 1#32, .read .byte 4#32],
    (busyWith op).st = .busy ∧ (busyWith op).script = op :: [] := by decide +kernel

/-- A misaligned access, a half-word of PAL, a byte of PMEM and of a register, and the first and the last address of each of the six
holes, both ways. -/
theorem witness_BusErrorsRefused : caps.legal = true ∧
    ∀ p ∈ [(Width.word, 0x01000002#32), (.half, 0x400#32), (.byte, 0x030000FF#32), (.byte, 0xFF#32),
        (.word, 0x100#32), (.byte, 0x3FF#32), (.word, 0x800#32), (.byte, 0x00FFFFFF#32), (.byte, 0x01000100#32), (.byte, 0x01FFFFFF#32),
        (.byte, 0x02000100#32), (.byte, 0x02FFFFFF#32), (.word, 0x03000100#32), (.byte, 0x03FFFFFF#32), (.byte, 0x04000040#32),
        (.byte, 0xFFFFFFFF#32)],
      refusalOf (step { blank with script := [.read p.1 p.2] }) = some .busError ∧
      refusalOf (step { blank with script := [.write p.1 p.2 0#32] }) = some .busError := by decide +kernel

/-- What the host gets of a read. -/
def dataOf (s : State) (w : Width) (a : Word) : Option (Option Word) := seen (step { s with script := [.read w a] }) (fun t => t.rdata)

/-- The first and the last register, and the first and the last reserved offset. -/
theorem witness_HostReadsChangeNothing :
    dataOf (loaded [0x12, 0x34]) .half 0x01000000#32 = some (some 0x3412#32) ∧
    (RegName.cmd, 0x00, Reg.val 0#32) ∈ hostRegisters blank ∧ (RegName.icoSel, 0x94, Reg.val 0#32) ∈ hostRegisters blank ∧
    (RegName.status, 0x04, Reg.val 1#32) ∈ hostRegisters midUnfilt ∧ midUnfilt.st = .busy ∧
    dataOf { blank with st := .done } .word 0x04#32 = some (some 2#32) ∧
    ∀ a ∈ [0x98, 0xFC], 0x98 ≤ a ∧ a ≤ 0xFC ∧ a % 4 = 0 ∧ dataOf blank .word (BitVec.ofNat 32 a) = some (some 0#32) := by decide +kernel

/-- Data in the last word of IMEM, of ZMEM within ZLEN, of XMEM within the Bitmap. -/
def hostData : State :=
  { blank with
    imem := memWriteRun [] 252 (raw [1, 2, 3, 4]), zmem := memWriteRun [] 252 (raw [5, 6, 7, 8]), zlen := .val 256#32
    xmem := memWriteRun [] 60 (raw [9, 10, 11, 12]), bmW := .val 8#32, bmH := .val 8#32 }

/-- The last access of each width of each byte memory, to write and to read; the last word of IMEM and its last byte. -/
theorem witness_WordThenBytes : caps.legal = true ∧ hostData.cap = caps ∧ hostData.st ≠ .busy ∧
    (∀ w ∈ [Width.byte, .half, .word], ∀ p ∈ [(256, hostData.imem), (256, hostData.zmem), (64, hostData.xmem)],
      (p.1 - widthBytes w) % widthBytes w = 0 ∧ ∀ k < widthBytes w, memRead p.2 (p.1 - widthBytes w + k) ≠ none) ∧
    (.zmem, 0x02000000, hostData.zmem, 256) ∈ byteMemories hostData ∧ (.xmem, 0x04000000, hostData.xmem, 64) ∈ byteMemories hostData ∧
    dataOf hostData .half 0x020000FE#32 = some (some 0x0807#32) ∧ dataOf hostData .word 0x0400003C#32 = some (some 0x0C0B0A09#32) ∧
    (3 < 4 ∧ 4 * 63 + 4 ≤ blank.cap.imemBytes ∧ blank.cap.imemBytes ≤ 2 ^ 24) := by decide +kernel

theorem witness_inData : inData hostData .zmem 255 ∧ inData hostData .xmem 63 ∧ inData hostData .pmem 63 ∧
    inData { blank with paln := .val 256#32 } .pal 255 :=
  ⟨⟨_, rfl, by decide⟩, ⟨_, _, rfl, rfl, by decide⟩, ⟨_, _, rfl, rfl, by decide⟩, ⟨_, rfl, by decide⟩⟩

/-- The last entry of PAL, valid and not, the last of PMEM. -/
theorem witness_PaletteHoldsHostColors : caps.legal = true ∧ blank.st ≠ .busy ∧
    (.pal, 0x400, blank.pal, 256) ∈ colorMemories blank ∧ (.pmem, 0x03000000, blank.pmem, 64) ∈ colorMemories blank ∧
    seen (step { blank with script := [.write .word 0x7FC#32 5#32] }) (fun t => memRead t.pal 255) = some (some 5#32) ∧
    seen (step { blank with script := [.write .word 0x030000FC#32 6#32] }) (fun t => memRead t.pmem 63) = some (some 6#32) ∧
    dataOf (bitmap 1 1 [7#32]) .word 0x03000000#32 = some (some 7#32) ∧
    ({ blank with paln := .val 256#32 } : State).paln = .val 256#32 ∧ 255 < (256#32 : Word).toNat := by decide +kernel

/-- A write of IE = 0 with the line high. -/
theorem witness_InterruptLine : irq { blank with st := .done, ie := true, script := [.write .word 0x0C#32 2#32] } = true ∧
    (2#32 : Word).getLsbD 0 = false ∧
    ∃ t, step { blank with st := .done, ie := true, script := [.write .word 0x0C#32 2#32] } = .next t ∧ irq t = false :=
  ⟨by decide, by decide, next_of_seen (by decide +kernel)⟩

theorem witness_NopAndClr : (aboutTo 0 .idle).script = .write .word 0#32 0x00000000#32 :: [.rst] ∧ (aboutTo 0 .idle).st = .idle ∧
    (aboutTo 1 .err).script = .write .word 0#32 0x00000001#32 :: [.rst] ∧ (aboutTo 1 .err).st ≠ .busy ∧
    (aboutTo 0x100 .done).script = .write .word 0#32 0x00000100#32 :: [.rst] ∧ (aboutTo 0x100 .done).st = .done ∧
    (aboutTo 0 .err).script = .write .word 0#32 0#32 :: [.rst] ∧ (0#32 : Word) ≠ 0x00000001#32 := by decide

/-- The length registers, above their range; each other register that a write may name. -/
theorem witness_RegisterWrites : blank.st ≠ .busy ∧
    (∀ r ∈ [RegName.status, .ctrl, .ilen, .arg0, .arg1, .arg2, .paln, .zlen, .icoSel], r ≠ .cmd) ∧
    seen (step { blank with script := [.write .word 0x38#32 300#32] }) (fun t => t.paln) = some (.val 256#32) ∧
    seen (step { blank with script := [.write .word 0x0C#32 0xFFFFFFFF#32] }) (fun t => readReg t .ctrl) = some (.val 1#32) := by
  decide +kernel

/-- The second byte of a half-word of each byte memory, the last entry of each Color memory, registers after a failed DECICO, and for
every command clause a state. -/
theorem witness_UnspecifiedReadsFault :
    (∀ p ∈ [(0x01000000#32, Space.imem), (0x02000000#32, .zmem), (0x04000000#32, .xmem)],
      faultOf (step { blank with
        imem := [(0, 1#8)], zmem := [(0, 1#8)], xmem := [(0, 1#8)], script := [.read .half p.1] }) =
        some (.unwrittenRead p.2 1)) ∧
    faultOf (step { blank with script := [.read .word 0x7FC#32] }) = some (.unwrittenRead .pal 255) ∧
    faultOf (step { blank with script := [.read .word 0x030000FC#32] }) = some (.unwrittenRead .pmem 63) ∧
    (∀ p ∈ [(RegName.ipos, 0x14), (.zlen, 0x3C), (.icoSel, 0x94)],
      (p.1, p.2, Reg.unspecified) ∈ hostRegisters (takeError .decico .corruptData blank)) ∧
    ((bitmap 2 2 [0#32]).bmW = .val 2#32 ∧ (bitmap 2 2 [0#32]).bmH = .val 2#32 ∧
      memRead (bitmap 2 2 [0#32]).pmem ((1#32 : Word).toNat * (2#32 : Word).toNat + (1#32 : Word).toNat) = none) ∧
    faultOf (exec (.des 16#8) { loaded [1] with ilen := 2#32 }) = some (.unwrittenRead .imem 1) ∧
    (takeError .decbmp .corruptData blank).bmW = .unspecified ∧
    faultOf (exec .palmap { bitmap 1 1 [0#32] with paln := .unspecified }) = some (.unspecifiedRead .paln) ∧
    faultOf (exec .unfilt { blank with arg2 := 8#32, zlen := .unspecified }) = some (.unspecifiedRead .zlen) := by decide +kernel

/-- The largest Bitmap of the instance, an empty one, one pixel too many. -/
theorem witness_NewbmMakesBitmap : legalDepth 1#8 = true ∧
    (1 ≤ (8#32 : Word).toNat ∧ (8#32 : Word).toNat * (8#32 : Word).toNat ≤ blank.cap.pmemPixels) ∧
    (0#32 : Word).toNat = 0 ∧ blank.cap.pmemPixels < (5#32 : Word).toNat * (13#32 : Word).toNat := by decide

/-- A Bitmap of two pixels and a pixel's coordinates. -/
def pointing (x y : Word) : State := { bitmap 2 1 [5#32, 6#32] with arg0 := x, arg1 := y }

/-- The last pixel, x = BM_W, y = BM_H. -/
theorem witness_GetpxReadsPixel :
    ((pointing 1#32 0#32).bmW = .val 2#32 ∧ (pointing 1#32 0#32).bmH = .val 1#32 ∧
      (pointing 1#32 0#32).arg0.toNat < (2#32 : Word).toNat ∧ (pointing 1#32 0#32).arg1.toNat < (1#32 : Word).toNat ∧
      memRead (pointing 1#32 0#32).pmem ((pointing 1#32 0#32).arg1.toNat * (2#32 : Word).toNat + (pointing 1#32 0#32).arg0.toNat) =
        some 6#32) ∧
    (2#32 : Word).toNat ≤ (pointing 2#32 0#32).arg0.toNat ∧ (1#32 : Word).toNat ≤ (pointing 0#32 1#32).arg1.toNat := by decide +kernel

theorem witness_SetpxWritesPixel : (pointing 1#32 0#32).bmW = .val 2#32 ∧ (pointing 1#32 0#32).bmH = .val 1#32 ∧
    (pointing 1#32 0#32).arg0.toNat < (2#32 : Word).toNat ∧ (pointing 1#32 0#32).arg1.toNat < (1#32 : Word).toNat ∧
    (2#32 : Word).toNat ≤ (pointing 2#32 0#32).arg0.toNat ∧ (1#32 : Word).toNat ≤ (pointing 0#32 1#32).arg1.toNat := by decide +kernel

/-- The last bytes below ILEN, and one byte too few. -/
theorem witness_DesReadsColor : depthOfField 24#8 = some .d24 ∧ (raw [2, 3, 4]).length = nbytes .d24 ∧
    ({ loaded [1, 2, 3, 4] with arg0 := 1#32 } : State).arg0.toNat + nbytes .d24 ≤ (loaded [1, 2, 3, 4]).ilen.toNat ∧
    holdsAt (loaded [1, 2, 3, 4]).imem 1 (raw [2, 3, 4]) ∧
    (loaded [1, 2, 3, 4]).ilen.toNat < ({ loaded [1, 2, 3, 4] with arg0 := 2#32 } : State).arg0.toNat + nbytes .d24 := by
  simp only [holdsAt]; decide +kernel

theorem witness_illegalDepths : ∀ f ∈ [0#8, 2#8, 255#8], f ∉ [1#8, 8#8, 16#8, 24#8, 32#8] := by decide

theorem witness_SerPacksColor : ∀ p ∈ [(1#8, Depth.d1), (8#8, .d8), (16#8, .d16), (24#8, .d24), (32#8, .d32)],
    depthOfField p.1 = some p.2 := by decide

/-- A Bitmap, and the empty one. -/
theorem witness_ConvConvertsBitmap : depthOfField 1#8 = some .d1 ∧
    ((bitmap 2 1 [5#32, 6#32]).bmW = .val 2#32 ∧ (bitmap 2 1 [5#32, 6#32]).bmH = .val 1#32 ∧
      ∀ k < (2#32 : Word).toNat * (1#32 : Word).toNat, memRead (bitmap 2 1 [5#32, 6#32]).pmem k ≠ none) ∧
    (blank.bmW = .val 0#32 ∧ blank.bmH = .val 0#32 ∧ ∀ k < (0#32 : Word).toNat * (0#32 : Word).toNat, memRead blank.pmem k ≠ none) := by
  decide +kernel

theorem witness_DepthLaws : (raw [1, 2, 3]).length = nbytes .d24 ∧ (raw [1]).length = nbytes .d1 := by decide

/-- One entry, and the full palette. -/
theorem witness_PalmapMapsPixels : ∀ n ∈ [1, 256],
    (paletted (List.replicate n 7#32) [5#32, 7#32]).bmW = .val 2#32 ∧ (paletted (List.replicate n 7#32) [5#32, 7#32]).bmH = .val 1#32 ∧
    (paletted (List.replicate n 7#32) [5#32, 7#32]).paln = .val (BitVec.ofNat 32 n) ∧
    (∀ k < n, memRead (paletted (List.replicate n 7#32) [5#32, 7#32]).pal k ≠ none) ∧
    ∀ i < 2, memRead (paletted (List.replicate n 7#32) [5#32, 7#32]).pmem i ≠ none := by decide +kernel

theorem witness_PalmapMapsPixels_corners :
    (0 < (1#32 : Word).toNat * (1#32 : Word).toNat ∧ (bitmap 1 1 [0#32]).paln = .val 0#32 ∧ (bitmap 1 1 [0#32]).bmW = .val 1#32) ∧
    (0#32 : Word).toNat * (0#32 : Word).toNat = 0 ∧ blank.bmW = .val 0#32 := by decide +kernel

/-- The first and the last scanline, and the last one of a PNG. -/
theorem witness_FilterReconstructsRow :
    (1 ≤ 1 ∧ 0 + 1 < 2 ∧ ∀ k < 1, memRead midUnfilt.zmem (scanAddr 1 0 k) ≠ none) ∧
    (1 ≤ 1 ∧ 2 ≤ 1 + 1 ∧ (∀ k < 1, memRead midUnfilt.zmem (scanAddr 1 1 k) ≠ none) ∧
      ∀ k < 1, memRead midUnfilt.zmem (scanAddr 1 (1 - 1) k) ≠ none) ∧
    (RowCtx.mk 1 2 1 1 (some ⟨false, 32#8, ⟨1, 2, 8, 0⟩, 70⟩)).png = some ⟨false, 32#8, ⟨1, 2, 8, 0⟩, 70⟩ := by decide +kernel

/-- The smallest and the largest bpp, an image without rows. -/
theorem witness_UnfiltReconstructs :
    (∀ bpp ∈ [1, 8],
      1 ≤ (scanlines [0, 7, 4, 1] 1 2 bpp).arg2.toNat ∧ (scanlines [0, 7, 4, 1] 1 2 bpp).arg2.toNat ≤ 8 ∧
      (scanlines [0, 7, 4, 1] 1 2 bpp).zlen = .val 4#32 ∧ 2 * (1 + 1) ≤ (4#32 : Word).toNat ∧
      (∀ k < 2 * (1 + 1), memRead (scanlines [0, 7, 4, 1] 1 2 bpp).zmem k ≠ none) ∧
      ∀ r < 2, (byteAt (scanlines [0, 7, 4, 1] 1 2 bpp).zmem (r * (1 + 1))).toNat ≤ 4) ∧
    (scanlines [] 1 0 1).arg1.toNat * ((scanlines [] 1 0 1).arg0.toNat + 1) ≤ (0#32 : Word).toNat := by decide +kernel

/-- bpp just outside its range, one byte too few below ZLEN, an illegal filter byte in the last row. -/
theorem witness_UnfiltReconstructs_errors :
    (scanlines [0, 7] 1 1 0).arg2.toNat < 1 ∧ 8 < (scanlines [0, 7] 1 1 9).arg2.toNat ∧
    (scanlines [0, 7, 4] 1 2 8).zlen = .val 3#32 ∧ (3#32 : Word).toNat < 2 * (1 + 1) ∧
    (∀ k < 2 * (1 + 1), memRead (scanlines [0, 7, 5, 1] 1 2 1).zmem k ≠ none) ∧
    4 < (byteAt (scanlines [0, 7, 5, 1] 1 2 1).zmem (1 * (1 + 1))).toNat := by decide +kernel

/-- Every accepted format, with the largest samples of a 1×1 image. -/
theorem witness_PngUnpacksSamples : ∀ f ∈ pngFormats, (f.1, f.2) ∈ pngFormats ∧
    ∀ y < 1, ∀ k < rowBytes ⟨1, 1, f.2, f.1⟩,
      memRead (scanlines [0, 1, 2, 3, 4, 5, 6, 7, 8] 8 1 8).zmem (y * (rowBytes ⟨1, 1, f.2, f.1⟩ + 1) + 1 + k) ≠ none := by
  decide +kernel

/-- V-INF-1 without its trailer. -/
def inf1 : List Nat := [0x78, 0x01, 0x01, 0x02, 0x00, 0xFD, 0xFF, 0x00, 0xFF]

theorem witness_InflateStoredStream :
    (0x78#8 : Byte).toNat % 16 = 8 ∧ (0x78#8 : Byte).toNat / 16 ≤ 7 ∧ ((0x78#8 : Byte).toNat * 256 + (1#8 : Byte).toNat) % 31 = 0 ∧
    (1#8 : Byte).getLsbD 5 = false ∧ (1#8 : Byte).toNat % 8 = 1 ∧ (raw [0, 0xFF]).length ≤ (loaded inf1).cap.zmemBytes ∧
    (loaded inf1).arg0.toNat + 7 + (raw [0, 0xFF]).length ≤ (loaded inf1).ilen.toNat ∧
    holdsAt (loaded inf1).imem 0 ([0x78#8, 1#8, 1#8] ++ (le16 2 ++ (le16 (65535 - 2) ++ raw [0, 0xFF]))) := by
  simp only [holdsAt]; decide +kernel

/-- V-INF-E1, and V-INF-E2 to V-INF-E5. -/
theorem witness_ZlibHeaderIsChecked :
    (loaded [0x78]).ilen.toNat < (loaded [0x78]).arg0.toNat + 2 ∧
    (∀ p ∈ [(0x78, 0x00), (0x79, 0x18), (0x88, 0x1C), (0x78, 0x20)], ∀ k < 2,
      memRead (loaded [p.1, p.2]).imem k = (raw [p.1, p.2])[k]?) ∧
    (0x7800 % 31 ≠ 0 ∧ 0x79 % 16 ≠ 8 ∧ 7 < 0x88 / 16 ∧ (0x20#8 : Byte).getLsbD 5 = true) := by decide +kernel

/-- The first block of V-INF-4, the only one of V-INF-1, and one that ends a PNG. -/
theorem witness_StoredBlockCopies :
    sourceHolds (loaded inf4).imem (.imem 20) ((40 + 3 + 7) / 8) (le16 3 ++ (le16 (65535 - 3) ++ raw [0x78, 0x79, 0x7A])) ∧
    blockEnds ⟨.imem 20, 40, [], none⟩ false (raw [0x78, 0x79, 0x7A]) ∧
    sourceHolds (loaded inf1).imem (.imem 9) ((16 + 3 + 7) / 8) (le16 2 ++ (le16 (65535 - 2) ++ raw [0, 0xFF])) ∧
    blockEnds ⟨.imem 9, 16, [], none⟩ true (raw [0, 0xFF]) ∧
    sourceHolds [] (.bytes (raw inf1)) ((16 + 3 + 7) / 8) (le16 2 ++ (le16 (65535 - 2) ++ raw [0, 0xFF])) ∧
    blockEnds ⟨.bytes (raw inf1), 16, [], some ⟨false, 32#8, ⟨1, 1, 8, 0⟩, 70⟩⟩ true (raw [0, 0xFF]) := by
  refine ⟨?_, ?_, ?_, ?_, ?_, ?_⟩
  · simp only [sourceHolds]; decide +kernel
  · intro h; cases h
  · simp only [sourceHolds]; decide +kernel
  · intro _ p h; cases h
  · simp only [sourceHolds]; decide +kernel
  · intro _ p h; cases h; decide +kernel

/-- The fixed code, the symbol 256, seven zero bits. -/
theorem witness_HuffmanDecodesItsCodes : (∃ t, buildCode fixedLitLens .lens = .ok t) ∧ hasCode fixedLitLens 256 = true ∧
    sourceBits (loaded [0]).imem (.imem 1) 0 (codeBits fixedLitLens 256) := by
  refine ⟨?_, by decide +kernel, ?_⟩
  · have h : (buildCode fixedLitLens .lens).toOption.isSome = true := by decide +kernel
    cases e : buildCode fixedLitLens .lens with
    | ok t => exact ⟨t, rfl⟩
    | error x => rw [e] at h; cases h
  · simp only [sourceBits]; decide +kernel

/-- V-INF-2: two literals, a copy of 5 from 2 back. -/
theorem witness_FixedBlockExpands :
    (∀ t ∈ [Token.literal 0x61#8, .literal 0x62#8, .copy 2 0 1 0], t.legal fixedLitLens fixedDistLens = true) ∧
    emitAll [.literal 0x61#8, .literal 0x62#8, .copy 2 0 1 0] [] = some (raw [0x61, 0x62, 0x61, 0x62, 0x61, 0x62, 0x61]) ∧
    sourceBits (loaded inf2).imem (.imem 11) (16 + 3)
      (blockBits fixedLitLens fixedDistLens [.literal 0x61#8, .literal 0x62#8, .copy 2 0 1 0]) := by
  simp only [sourceBits]; decide +kernel

/-- The header of V-INF-3, as its walk in 95_test_vectors.md reads it. -/
def inf3Header : DynHeader :=
  { hlit := 258, hdist := 1, hclen := 18
    cl := [0, 2, 2, 0, 0, 0, 0, 0, 0, 0, 0, 0, 0, 0, 0, 0, 0, 0, 1]
    items := [.zerosLong 86, .len 1, .zerosLong 127, .zerosLong 9, .len 2, .len 2, .len 1]
    lens := List.replicate 97 0 ++ (1 :: (List.replicate 158 0 ++ [2, 2, 1])) }

theorem witness_DynamicBlockExpands : inf3Header.legal ∧
    (∀ t ∈ [Token.literal 0x61#8, .copy 0 0 0 0], t.legal inf3Header.lit inf3Header.dist = true) ∧
    emitAll [.literal 0x61#8, .copy 0 0 0 0] [] = some (raw [0x61, 0x61, 0x61, 0x61]) ∧
    sourceBits (loaded inf3).imem (.imem 20) (16 + 3)
      (inf3Header.bits ++ blockBits inf3Header.lit inf3Header.dist [.literal 0x61#8, .copy 0 0 0 0]) := by
  simp only [sourceBits, DynHeader.legal]; decide +kernel

/-- V-PNG-1, the chunk at 8, with IHDR of 13 bytes and the first and the last accepted format. -/
theorem witness_IhdrIsParsed : (0, 1) ∈ pngFormats ∧ (6, 16) ∈ pngFormats ∧ 8 + 12 + 13 ≤ 70 ∧
    holdsAt (loaded png1).imem 8 (be32 13 ++ (be32 0x49484452 ++ ihdrBytes 1 1 8#8 0#8 0#8 0#8)) := by
  simp only [holdsAt]; decide +kernel

/-- An IHDR of 12 bytes; interlace, color type 3, an empty image and one of 65 pixels. -/
theorem witness_IhdrIsParsed_errors :
    holdsAt (loaded ([0, 0, 0, 12, 0x49, 0x48, 0x44, 0x52] ++ List.replicate 16 0)).imem 0 (be32 12 ++ be32 0x49484452) ∧
    (∀ p ∈ [(1, 1, 0, 1), (1, 1, 3, 0), (1, 0, 0, 0), (65, 1, 0, 0)],
      (BitVec.ofNat 8 p.2.2.2 ≠ 0#8 ∨ (p.2.2.1, 8) ∉ pngFormats ∨ p.1 = 0 ∨ p.2.1 = 0 ∨ caps.pmemPixels < p.1 * p.2.1) ∧
      ∀ k < 21, memRead (loaded ([0, 0, 0, 13, 0x49, 0x48, 0x44, 0x52, 0, 0, 0, p.1, 0, 0, 0, p.2.1, 8, p.2.2.1, 0, 0, p.2.2.2] ++
          List.replicate 4 0)).imem (0 + k) =
        (be32 13 ++ (be32 0x49484452 ++ (be32 p.1 ++ (be32 p.2.1 ++
          [8#8, BitVec.ofNat 8 p.2.2.1, 0#8, 0#8, BitVec.ofNat 8 p.2.2.2]))))[k]?) := by
  simp only [holdsAt]; decide +kernel

/-- V-PNG-1, the chunk at 33; an IDAT of no bytes. -/
theorem witness_IdatIsAccumulated : 33 + 12 + 13 ≤ 70 ∧
    holdsAt (loaded png1).imem 33 (be32 13 ++ (be32 0x49444154 ++
      raw [0x78, 0x01, 0x01, 0x02, 0x00, 0xFD, 0xFF, 0x00, 0xFF, 0x01, 0x01, 0x01, 0x00])) ∧
    holdsAt (loaded png2).imem 61 (be32 ([] : List Byte).length ++ (be32 0x49444154 ++ [])) := by
  simp only [holdsAt]; decide +kernel

/-- V-PNG-1, the chunk at 58, its end the end of the window. -/
theorem witness_IendStartsInflate : 58 + 12 + 0 ≤ 70 ∧ (0, 8) ∈ pngFormats ∧ 1 * (rowBytes ⟨1, 1, 8, 0⟩ + 1) ≤ caps.zmemBytes ∧
    holdsAt (loaded png1).imem 58 (be32 0 ++ be32 0x49454E44) ∧ (0x78#8 : Byte).toNat / 16 ≤ 7 ∧ (1#8 : Byte).getLsbD 5 = false ∧
    ((0x78#8 : Byte).toNat * 256 + (1#8 : Byte).toNat) % 31 = 0 := by
  simp only [holdsAt]; decide +kernel

/-- V-PNG-1, its IHDR a second time, its IDAT and its IEND first. -/
theorem witness_IhdrIsFirstAndOnly :
    holdsAt (loaded png1).imem 8 (be32 13 ++ be32 (encode .pngChunkIHDR)) ∧
    holdsAt (loaded png1).imem 33 (be32 13 ++ be32 (encode .pngChunkIDAT)) ∧
    holdsAt (loaded png1).imem 58 (be32 0 ++ be32 (encode .pngChunkIEND)) := by
  simp only [holdsAt]; decide +kernel

/-- V-BMP-3, and a header of the largest size; the least height, a compression. -/
theorem witness_BmpHeadersAreParsed :
    (14 + 12 ≤ 36 ∧ holdsAt (loaded bmp3).imem 14 (le32 12 ++ (le16 10 ++ (le16 1 ++ (le16 1 ++ le16 1))))) ∧
    (BmpCtx.mk true 32#8 22 86 0).ico = true ∧
    (∀ p ∈ [(2 ^ 31 - 1, -3, 0), (1, -2 ^ 31, 3)],
      holdsAt (memWriteRun [] 14 (le32 124 ++ (le32 (BitVec.ofInt 32 p.1).toNat ++ (le32 (BitVec.ofInt 32 p.2.1).toNat ++ (le16 1 ++
        (le16 24 ++ (le32 p.2.2 ++ (le32 0 ++ (le32 0 ++ (le32 0 ++ le32 5)))))))))) 14
        (le32 124 ++ (le32 (BitVec.ofInt 32 p.1).toNat ++ (le32 (BitVec.ofInt 32 p.2.1).toNat ++ (le16 1 ++
        (le16 24 ++ (le32 p.2.2 ++ (le32 0 ++ (le32 0 ++ (le32 0 ++ le32 5)))))))))) := by
  simp only [holdsAt]; decide +kernel

/-- V-BMP-1, V-BMP-4, V-BMP-6. -/
theorem witness_BmpDirectPixels : ∀ p ∈ [(16, bmp4, 3, 1), (24, bmp1, 2, 2), (32, bmp6, 1, 1)],
    14 + 40 ≤ 54 ∧ 54 + bmpStride p.1 p.2.2.1 * p.2.2.2 ≤ p.2.1.length ∧
    ∀ r < p.2.2.2, ∀ x < p.2.2.1, storedColor (loaded p.2.1).imem p.1 (54 + r * bmpStride p.1 p.2.2.1) x ≠ none := by decide +kernel

/-- V-BMP-2 and V-BMP-3: a modern header with its own palette size, a core header with 2 entries of 3 bytes. -/
theorem witness_BmpIndexedPixels :
    (14 + 40 + 3 * 4 ≤ 68 ∧ 68 + bmpStride 8 3 * 2 ≤ bmp2.length ∧ (∀ k < 3, storedEntry (loaded bmp2).imem (14 + 40) 4 k ≠ none) ∧
      ∀ r < 2, ∀ x < 3, ∃ k < 3, storedIndex (loaded bmp2).imem 8 (68 + r * bmpStride 8 3) x = some k) ∧
    (14 + 12 + 2 * 3 ≤ 32 ∧ 32 + bmpStride 1 10 * 1 ≤ bmp3.length ∧ (∀ k < 2, storedEntry (loaded bmp3).imem (14 + 12) 3 k ≠ none) ∧
      ∀ r < 1, ∀ x < 10, ∃ k < 2, storedIndex (loaded bmp3).imem 1 (32 + r * bmpStride 1 10) x = some k) := by decide +kernel

/-- A header of the given size, palette size, offset and window, over the bytes of V-BMP-2 (three entries at 54, indices 0 to 2 at 68). -/
def sized (w h : Int) (clrUsed off lim : Nat) : State :=
  inFlight (.pixels ⟨⟨false, 32#8, 14, lim, off⟩, 40, false, w, h, clrUsed⟩) (loaded bmp2)

/-- The error of an outcome. -/
def errorOf (o : Host.Outcome State Fault Refusal) : Option (Option ErrorKind) := seen o (fun t => t.errcode)

/-- Each error of the sizes, the offset and the rows at a boundary. -/
theorem witness_BmpDirectPixels_errors :
    (∀ s ∈ [sized 0 1 0 54 76, sized 1 0 0 54 76, sized 13 (-5) 0 54 76],
      errorOf (exec .bmpBits24 s) = some (some .unsupportedFormat)) ∧
    errorOf (exec .bmpBits24 (sized 1 1 0 53 76)) = some (some .corruptData) ∧
    errorOf (exec .bmpBits24 (sized 1 1 0 54 57)) = some (some .truncatedData) := by decide +kernel

/-- The same, the table's own, and an index of 2 in a table of two entries. -/
theorem witness_BmpIndexedPixels_errors :
    (∀ s ∈ [sized 0 1 0 68 76, sized 13 (-5) 3 68 76, sized 1 1 257 68 76],
      errorOf (exec .bmpBits8 s) = some (some .unsupportedFormat)) ∧
    errorOf (exec .bmpBits8 (sized 3 2 3 68 65)) = some (some .truncatedData) ∧
    errorOf (exec .bmpBits8 (sized 3 2 3 65 76)) = some (some .corruptData) ∧
    errorOf (exec .bmpBits8 (sized 3 2 3 68 75)) = some (some .truncatedData) ∧
    (errorOf (exec .bmpBits8 (sized 3 2 2 68 76)) = some (some .corruptData) ∧
      ∃ r < 2, ∃ x < 3, storedIndex (loaded bmp2).imem 8 (68 + r * bmpStride 8 3) x = some 2) := by decide +kernel

/-- V-ICO-1 and V-ICO-3. -/
theorem witness_IcoPixelsAreMasked :
    (78 = 62 + bmpStride 32 2 * 2 ∧ 78 + bmpStride 1 2 * 2 ≤ 86 ∧
      (∀ r < 2, ∀ x < 2, storedColor (loaded ico1).imem 32 (62 + r * bmpStride 32 2) x ≠ none) ∧
      ∀ r < 2, ∀ x < 2, storedMask (loaded ico1).imem (78 + r * bmpStride 1 2) x ≠ none) ∧
    (86 = 78 + 2 * 4 ∧ 90 = 86 + bmpStride 1 9 * 1 ∧ 90 + bmpStride 1 9 * 1 ≤ 96 ∧
      (∀ k < 2, storedEntry (loaded ico3).imem 78 4 k ≠ none) ∧
      (∀ r < 1, ∀ x < 9, ∃ k < 2, storedIndex (loaded ico3).imem 1 (86 + r * bmpStride 1 9) x = some k) ∧
      ∀ r < 1, ∀ x < 9, storedMask (loaded ico3).imem (90 + r * bmpStride 1 9) x ≠ none) ∧
    (BmpHeader.mk ⟨true, 32#8, 22, 86, 0⟩ 40 false 2 4 0).ctx.ico = true := by decide +kernel

theorem witness_PayloadSelect : 22 + 8 ≤ 92 ∧
    holdsAt (loaded ico2).imem 22 [0x89#8, 0x50#8, 0x4E#8, 0x47#8, 0x0D#8, 0x0A#8, 0x1A#8, 0x0A#8] := by
  simp only [holdsAt]; decide +kernel

/-- V-BMP-4, V-BMP-1, V-BMP-6: all three depths, the offset at its least. -/
theorem witness_DecbmpDecodesFile : ∀ p ∈ [(16, bmp4, 62, 3, 1), (24, bmp1, 70, 2, 2), (32, bmp6, 58, 1, 1)],
    p.2.2.1 = p.2.1.length ∧ ∀ k < 54, memRead (loaded p.2.1).imem k =
      (fileHeader p.2.2.1 0 54 ++ infoHeader p.2.2.2.1 p.2.2.2.2 1 p.1 0 2835 2835 0 0)[k]? := by decide +kernel

/-- A file of two RGBA pixels (those of V-PNG-5), any CRCs. -/
def rgbaFile : List Byte := pngFile 2 1 (raw [1, 2, 3, 4, 5, 6, 7, 8]) (raw [0, 0, 0, 0]) (raw [9, 9, 9, 9]) (raw [1, 2, 3, 4]) (raw [0, 0, 0, 0])

theorem witness_DecpngDecodesFile : legalDepth 32#8 = true ∧ 1 * (4 * 2 + 1) ≤ caps.zmemBytes ∧
    (raw [1, 2, 3, 4, 5, 6, 7, 8]).length = 4 * 2 * 1 ∧ rgbaFile.length ≤ (loaded (rgbaFile.map BitVec.toNat)).ilen.toNat ∧
    holdsAt (loaded (rgbaFile.map BitVec.toNat)).imem 0 rgbaFile ∧
    seen (exec (.decpng 32#8) (loaded (rgbaFile.map BitVec.toNat))) (fun t => values t.pmem) = some [0x04030201#32, 0x08070605#32] := by
  simp only [holdsAt]; decide +kernel

/-- V-ICO-1, and the file above behind a directory. -/
theorem witness_DecicoDecodesFile :
    (holdsAt (loaded ico1).imem 0 (icoDirectory 2#8 2#8 0#8 0#8 1 32 64) ∧ 22 + 64 ≤ (loaded ico1).ilen.toNat ∧
      holdsAt (loaded ico1).imem 22 (infoHeader 2 4 1 32 0 0 0 0 0) ∧ 40 + bmpStride 32 2 * 2 + bmpStride 1 2 * 2 ≤ 64) ∧
    (let file := icoDirectory 0#8 0#8 0#8 0#8 0 0 rgbaFile.length ++ rgbaFile;
      holdsAt (loaded (file.map BitVec.toNat)).imem 22 rgbaFile ∧ 22 + rgbaFile.length ≤ (loaded (file.map BitVec.toNat)).ilen.toNat) := by
  simp only [holdsAt]; decide +kernel

end Sys2Proof.Tests
end

/-! SUPPORT. Host accesses that end in a bus error (20_memory R65, R75). -/

namespace Sys2Proof.Machine

/-! ## Addresses inside and outside the windows; `inSpace cap sp 1 a` says that the byte at `a` lies in the window of `sp` -/

/-- An access inside a window starts at a byte of the window. -/
theorem inSpace_first_byte {cap : Capacities} {sp : Space} {w : Width} {a : Nat} (h : inSpace cap sp (widthBytes w) a = true) :
    inSpace cap sp 1 a = true := by
  have hn : 1 ≤ widthBytes w := by cases w <;> decide
  rw [inSpace_eq_true] at h ⊢
  omega

/-- The windows of the memories lie above the registers. -/
theorem above_registers_of_inSpace {cap : Capacities} {sp : Space} {n a : Nat} (h : inSpace cap sp n a = true) : 0x100 ≤ a := by
  have hb : 0x100 ≤ spaceBase sp := by cases sp <;> decide
  exact hb.trans (inSpace_eq_true.1 h).1

/-- The gaps between the windows of the address map, and what follows the last window, belong to no memory. -/
theorem inSpace_eq_false_of_gap {cap : Capacities} {a : Nat} (hc : cap.legal = true)
    (h : (0x100 ≤ a ∧ a < 0x400) ∨ (0x800 ≤ a ∧ a < 0x01000000) ∨
      (0x01000000 + cap.imemBytes ≤ a ∧ a < 0x02000000) ∨
      (0x02000000 + cap.zmemBytes ≤ a ∧ a < 0x03000000) ∨
      (0x03000000 + 4 * cap.pmemPixels ≤ a ∧ a < 0x04000000) ∨
      0x04000000 + cap.pmemPixels ≤ a) (sp : Space) : inSpace cap sp 1 a = false := by
  obtain ⟨hi, hz, hp⟩ := legal_bounds hc
  rw [← Bool.not_eq_true, inSpace_eq_true]
  cases sp <;> simp only [spaceBase, spaceUnit, spaceSize] <;> omega

/-! ## Accesses that name no target -/

theorem resolve_misaligned {cap : Capacities} {w : Width} {a : Nat} (h : a % widthBytes w ≠ 0) : resolve cap w a = none :=
  if_pos h

theorem resolve_narrow_register {cap : Capacities} {w : Width} {a : Nat} (hw : w ≠ .word) (ha : a < 0x100) :
    resolve cap w a = none := by
  simp [resolve, hw, ha]

/-- Above the registers, an access that fits in no window, or only in one that takes no access of its width, names nothing. -/
theorem resolve_above_registers {cap : Capacities} {w : Width} {a : Nat} (ha : 0x100 ≤ a)
    (h : ∀ sp, inSpace cap sp (widthBytes w) a = true → spaceUnit sp = 4 ∧ w ≠ .word) : resolve cap w a = none := by
  unfold resolve
  dsimp only
  split
  · rfl
  rw [if_neg (Nat.not_lt.2 ha)]
  split
  next sp hf =>
    have hin := List.find?_some hf
    exact if_pos (h sp hin)
  next => rfl

theorem resolve_narrow_color {cap : Capacities} {w : Width} {sp : Space} {a : Nat} (hc : cap.legal = true) (hw : w ≠ .word)
    (hu : spaceUnit sp = 4) (ha : inSpace cap sp 1 a = true) : resolve cap w a = none := by
  refine resolve_above_registers (above_registers_of_inSpace ha) fun sp' h => ?_
  have hsp : sp' = sp := inSpace_unique hc le_rfl ha (inSpace_first_byte h)
  exact ⟨hsp ▸ hu, hw⟩

theorem resolve_unmapped {cap : Capacities} {w : Width} {a : Nat} (ha : 0x100 ≤ a) (h : ∀ sp, inSpace cap sp 1 a = false) :
    resolve cap w a = none :=
  resolve_above_registers ha fun sp hin => absurd (inSpace_first_byte hin) (by simp [h sp])

/-! ## The refusal -/

/-- An access that names no target is refused before anything else is looked at. -/
theorem step_busError_of_resolve_eq_none {s : State} {rest : List HostOp} {w : Width} {a v : Word}
    (hs : s.script = .write w a v :: rest ∨ s.script = .read w a :: rest) (h : resolve s.cap w a.toNat = none) :
    step s = .refused .busError := by
  rcases hs with hs | hs
  · rw [step_write hs]; simp [hostWrite, h]
  · rw [step_read hs]; simp [hostRead, h]

/-- Settles O22: each kind of access that 20_memory R65 names has no target. -/
theorem busErrorsRefused : Obligations.BusErrorsRefused := by
  unfold Obligations.BusErrorsRefused
  intro s rest width a v hc hs hbad
  refine step_busError_of_resolve_eq_none hs ?_
  rcases hbad with hmis | ⟨hw, hreg | hpal | hpmem⟩ | hgap
  · exact resolve_misaligned hmis
  · exact resolve_narrow_register hw hreg
  · exact resolve_narrow_color (sp := .pal) hc hw rfl (inSpace_eq_true.2 (by simp only [spaceBase, spaceUnit, spaceSize]; omega))
  · exact resolve_narrow_color (sp := .pmem) hc hw rfl (inSpace_eq_true.2 (by simp only [spaceBase, spaceUnit, spaceSize]; omega))
  · exact resolve_unmapped (by omega) (inSpace_eq_false_of_gap hc hgap)

end Sys2Proof.Machine

/-! SUPPORT. Illegal command words (30_encoding R96): what the decoder makes of them, and a DEPTH that is no PixelFormat. -/

namespace Sys2Proof.Machine

/-! ## Commands with a DEPTH that is no PixelFormat -/

/-- The commands with a DEPTH operand (30_encoding R92). -/
def depthCommands (d : BitVec 8) : List Instr :=
  [.newbm d, .des d, .ser d, .conv d, .decbmp d, .decpng d, .decico d]

/-- A command whose first act is to take its DEPTH operand ends there when the DEPTH is illegal. -/
theorem settle_depthOperand_illegal {d : BitVec 8} (hd : legalDepth d = false) (k : Scope) (s : State)
    (f : Depth → Except Stop State) : settle k s (depthOperand d >>= f) = .next (takeError k .unsupportedFormat s) := by
  rw [depthOperand_illegal hd]; rfl

/-- A decode command with an illegal DEPTH fails before it starts, so it loses nothing (60_exceptions R325). -/
theorem decodeCommandRun_illegalDepth {d : BitVec 8} (hd : legalDepth d = false) (k : Scope)
    (start : State → Except Stop State) (s : State) :
    decodeCommandRun k d start s = .next (takeError .nothing .unsupportedFormat s) := by
  simp only [decodeCommandRun, depthOfField_eq_none.2 hd]

theorem exec_illegalDepth {d : BitVec 8} {i : Instr} (hd : legalDepth d = false) (hi : i ∈ depthCommands d) (s : State) :
    exec i s = .next (takeError .nothing .unsupportedFormat s) := by
  simp only [depthCommands, List.mem_cons, List.not_mem_nil, or_false] at hi
  rcases hi with rfl | rfl | rfl | rfl | rfl | rfl | rfl
  · exact settle_depthOperand_illegal hd _ s _
  · exact settle_depthOperand_illegal hd _ s _
  · exact settle_depthOperand_illegal hd _ s _
  · exact settle_depthOperand_illegal hd _ s _
  · exact decodeCommandRun_illegalDepth hd .decbmp _ s
  · exact decodeCommandRun_illegalDepth hd .decpng (fun t => pngStart t false d 0 t.ilen.toNat) s
  · exact decodeCommandRun_illegalDepth hd .decico _ s

/-! ## The command decoder on illegal words -/

theorem decodeCommand_reservedBits {w : Word} (hr : w.extractLsb' 16 16 ≠ 0#16) : decodeCommand w = .error .reservedBits :=
  if_pos hr

theorem decodeCommand_unknownOpcode {w : Word} (hr : w.extractLsb' 16 16 = 0#16)
    (ho : w.extractLsb' 0 8 ∉
      [0x00#8, 0x01#8, 0x02#8, 0x03#8, 0x04#8, 0x10#8, 0x11#8, 0x12#8, 0x20#8, 0x21#8, 0x22#8, 0x30#8, 0x31#8, 0x40#8]) :
    decodeCommand w = .error .unknownOpcode := by
  simp only [List.mem_cons, List.not_mem_nil, or_false, not_or] at ho
  simp [decodeCommand, hr, ho]

theorem decodeCommand_depthNotAllowed {w : Word} (hr : w.extractLsb' 16 16 = 0#16)
    (ho : w.extractLsb' 0 8 ∈ [0x00#8, 0x01#8, 0x03#8, 0x04#8, 0x30#8, 0x31#8, 0x40#8]) (hd : w.extractLsb' 8 8 ≠ 0#8) :
    decodeCommand w = .error .depthNotAllowed := by
  simp only [List.mem_cons, List.not_mem_nil, or_false] at ho
  rcases ho with ho | ho | ho | ho | ho | ho | ho <;> simp [decodeCommand, decodeNoDepth, hr, ho, hd]

/-- An opcode with a DEPTH operand selects its command whatever the DEPTH field holds. -/
theorem decodeCommand_depthCommand {w : Word} (hr : w.extractLsb' 16 16 = 0#16)
    (ho : w.extractLsb' 0 8 ∈ [0x02#8, 0x10#8, 0x11#8, 0x12#8, 0x20#8, 0x21#8, 0x22#8]) :
    ∃ i ∈ depthCommands (w.extractLsb' 8 8), decodeCommand w = .ok i := by
  simp only [List.mem_cons, List.not_mem_nil, or_false] at ho
  rcases ho with ho | ho | ho | ho | ho | ho | ho <;> simp [decodeCommand, depthCommands, hr, ho]

theorem legalDepth_eq_false {d : BitVec 8} (h : d ∉ [1#8, 8#8, 16#8, 24#8, 32#8]) : legalDepth d = false := by
  simpa [legalDepth, and_assoc] using h

/-- An illegal word is rejected by the decoder, or selects a command with a DEPTH that the command rejects. -/
theorem decodeCommand_of_illegalWord {w : Word} (h : illegalWord w) :
    (∃ e, decodeCommand w = .error e) ∨
    (legalDepth (w.extractLsb' 8 8) = false ∧ ∃ i ∈ depthCommands (w.extractLsb' 8 8), decodeCommand w = .ok i) := by
  by_cases hr : w.extractLsb' 16 16 = 0#16
  · rcases h with hr' | ho | ⟨ho, hd⟩ | ⟨ho, hd⟩
    · exact absurd hr hr'
    · exact .inl ⟨_, decodeCommand_unknownOpcode hr ho⟩
    · exact .inl ⟨_, decodeCommand_depthNotAllowed hr ho hd⟩
    · exact .inr ⟨legalDepth_eq_false hd, decodeCommand_depthCommand hr ho⟩
  · exact .inl ⟨_, decodeCommand_reservedBits hr⟩

/-! ## Command issue -/

/-- Neither BUSY nor in ERR, the block runs the command of a word. -/
theorem issue_of_decodeCommand_eq_ok {s : State} {w : Word} {i : Instr} (hs : s.st = .idle ∨ s.st = .done)
    (h : decodeCommand w = .ok i) : issue w s = exec i s := by
  rcases hs with hs | hs <;> simp only [issue, hs, h]

/-- Neither BUSY nor in ERR, the block takes a word without a command as an error. -/
theorem issue_of_decodeCommand_eq_error {s : State} {w : Word} {e : DecodeError} (hs : s.st = .idle ∨ s.st = .done)
    (h : decodeCommand w = .error e) : issue w s = .next (takeError .nothing .unsupportedFormat s) := by
  rcases hs with hs | hs <;> simp only [issue, hs, h]

theorem issue_illegalWord {s : State} {w : Word} (hs : s.st = .idle ∨ s.st = .done) (h : illegalWord w) :
    issue w s = .next (takeError .nothing .unsupportedFormat s) := by
  rcases decodeCommand_of_illegalWord h with ⟨e, he⟩ | ⟨hd, i, hi, he⟩
  · exact issue_of_decodeCommand_eq_error hs he
  · rw [issue_of_decodeCommand_eq_ok hs he]
    exact exec_illegalDepth hd hi s

/-- The step of a word written to CMD. -/
theorem step_write_cmd {s : State} {w : Word} {rest : List HostOp} (h : s.script = .write .word 0#32 w :: rest) :
    step s = issue w { s with script := rest } := by
  rw [step_write h, hostWrite, show resolve s.cap .word (0#32 : Word).toNat = some (.reg .cmd) from resolve_register s.cap .cmd]

/-- Settles O19: the decoder rejects the word, or the command its DEPTH, and the error entry of neither loses anything. -/
theorem illegalCommandRaises : Obligations.IllegalCommandRaises := by
  unfold Obligations.IllegalCommandRaises
  refine ⟨fun s rest w hscript hs hw => ?_, fun d i s hd hi => exec_illegalDepth hd hi s⟩
  rw [step_write_cmd hscript]
  exact issue_illegalWord hs hw

end Sys2Proof.Machine

/-! SUPPORT. NOP, CLR, GETPX and SETPX (40_bitmap_ctrl R140, R141, R143, R144). -/

namespace Sys2Proof.Machine

/-! ## The word of CLR, the only one accepted in ERR -/

theorem decodeNoDepth_eq_ok {d : BitVec 8} {i j : Instr} : decodeNoDepth d i = .ok j ↔ d = 0#8 ∧ i = j := by
  unfold decodeNoDepth
  split <;> simp_all

/-- A command word is its three fields OPC, DEPTH and RSV (30_encoding R90). -/
theorem commandWord_ext {v w : Word} (ho : v.extractLsb' 0 8 = w.extractLsb' 0 8) (hd : v.extractLsb' 8 8 = w.extractLsb' 8 8)
    (hr : v.extractLsb' 16 16 = w.extractLsb' 16 16) : v = w := by
  simp only [BitVec.toNat_eq, BitVec.extractLsb'_toNat, Nat.shiftRight_eq_div_pow] at *
  omega

/-- CLR has one word: its row of the decoder fixes all three fields. -/
theorem decodeCommand_eq_clr {w : Word} : decodeCommand w = .ok .clr ↔ w = 1#32 := by
  refine ⟨fun h => ?_, fun h => h ▸ rfl⟩
  simp only [decodeCommand, ite_eq_iff, decodeNoDepth_eq_ok, Except.ok.injEq, reduceCtorEq, and_false, and_true, false_or,
    or_false] at h
  obtain ⟨hrsv, -, hopc, hdepth⟩ := h
  exact commandWord_ext hopc hdepth (not_not.1 hrsv)

theorem issue_clr {s : State} (hs : s.st ≠ .busy) : issue 1#32 s = exec .clr s := by
  have hd : decodeCommand 1#32 = .ok .clr := decodeCommand_eq_clr.2 rfl
  cases h : s.st with
  | idle => exact issue_of_decodeCommand_eq_ok (.inl h) hd
  | busy => exact absurd h hs
  | done => exact issue_of_decodeCommand_eq_ok (.inr h) hd
  | err => simp only [issue, h, hd]

/-- In ERR a word that is not CLR's is ignored (60_exceptions R327). -/
theorem issue_ignored_in_err {s : State} {w : Word} (hs : s.st = .err) (hw : w ≠ 1#32) : issue w s = .next s := by
  simp only [issue, hs]
  split
  next hd => exact absurd (decodeCommand_eq_clr.1 hd) hw
  next => rfl

/-! ## NOP and CLR -/

theorem exec_nop (s : State) : exec .nop s = .next (complete s) := rfl

theorem exec_clr (s : State) : exec .clr s = .next (returnFromError s) := rfl

theorem step_nop {s : State} {rest : List HostOp} (h : s.script = .write .word 0#32 0x00000000#32 :: rest)
    (hs : s.st = .idle ∨ s.st = .done) : step s = .next (complete { s with script := rest }) := by
  rw [step_write_cmd h]
  exact issue_of_decodeCommand_eq_ok hs (i := .nop) rfl

theorem step_clr {s : State} {rest : List HostOp} (h : s.script = .write .word 0#32 0x00000001#32 :: rest) (hs : s.st ≠ .busy) :
    step s = .next (returnFromError { s with script := rest }) := by
  rw [step_write_cmd h]
  exact issue_clr hs

theorem step_ignored_in_err {s : State} {rest : List HostOp} {w : Word} (h : s.script = .write .word 0#32 w :: rest)
    (hs : s.st = .err) (hw : w ≠ 1#32) : step s = .next { s with script := rest } := by
  rw [step_write_cmd h]
  exact issue_ignored_in_err hs hw

/-- NOP and CLR take no DEPTH: the word 0x00000100 is illegal (30_encoding R96). -/
theorem illegalWord_nopWithDepth : illegalWord 0x00000100#32 := by
  unfold illegalWord; decide

/-- Settles O29: each word's step is the issue of the command it decodes to, and only CLR's word decodes to CLR. -/
theorem nopAndClr : Obligations.NopAndClr := by
  unfold Obligations.NopAndClr
  refine ⟨rfl, rfl, fun s => ⟨exec_nop s, exec_clr s, ?nop, ?clr, ?illegal, ?ignored⟩⟩
  case nop => exact fun _ h hs => step_nop h hs
  case clr => exact fun _ h hs => step_clr h hs
  case illegal => exact fun rest h hs => illegalCommandRaises.1 s rest _ h hs illegalWord_nopWithDepth
  case ignored => exact fun _ _ h hs hw => step_ignored_in_err h hs hw

/-! ## The pixel that ARG0 and ARG1 name -/

theorem pixelOperand_of_inside {s : State} {w h : Word} (hw : s.bmW = .val w) (hh : s.bmH = .val h)
    (hx : s.arg0.toNat < w.toNat) (hy : s.arg1.toNat < h.toNat) :
    pixelOperand s = .ok (s.arg1.toNat * w.toNat + s.arg0.toNat) :=
  pixelOperand_eq_ok.2 ⟨w, h, hw, hh, hx, hy, rfl⟩

theorem pixelOperand_of_outside {s : State} {w h : Word} (hw : s.bmW = .val w) (hh : s.bmH = .val h)
    (hout : w.toNat ≤ s.arg0.toNat ∨ h.toNat ≤ s.arg1.toNat) : pixelOperand s = raise .outOfBounds := by
  simp only [pixelOperand, regNat_of_val (r := .bmW) hw, regNat_of_val (r := .bmH) hh, bind_ok]
  exact if_pos hout

/-- A command whose first act is to take its pixel operand ends there when that raises. -/
theorem settle_pixelOperand_raises {s : State} {e : ErrorKind} (hp : pixelOperand s = raise e) (k : Scope)
    (f : Nat → Except Stop State) : settle k s (pixelOperand s >>= f) = .next (takeError k e s) := by
  rw [hp]; rfl

/-! ## GETPX and SETPX -/

theorem exec_getpx_of_pixel {s : State} {i : Nat} {c : Word} (hp : pixelOperand s = .ok i) (hc : memRead s.pmem i = some c) :
    exec .getpx s = .next (complete { s with res0 := c }) := by
  simp only [exec, execGetpx, hp, bind_ok, readCell_of_some hc, settle_ok]

theorem exec_getpx_raises {s : State} {e : ErrorKind} (hp : pixelOperand s = raise e) :
    exec .getpx s = .next (takeError .nothing e s) :=
  settle_pixelOperand_raises hp .nothing _

theorem exec_setpx_of_pixel {s : State} {i : Nat} (hp : pixelOperand s = .ok i) :
    exec .setpx s = .next (complete { s with pmem := memWrite s.pmem i s.arg2 }) := by
  simp only [exec, execSetpx, hp, bind_ok, settle_ok]

theorem exec_setpx_raises {s : State} {e : ErrorKind} (hp : pixelOperand s = raise e) :
    exec .setpx s = .next (takeError .nothing e s) :=
  settle_pixelOperand_raises hp .nothing _

theorem sameOutside_memWrite {n : Nat} (m : Mem n) (a : Nat) (v : BitVec n) : sameOutside m (memWrite m a v) a 1 :=
  fun _ hk => memRead_memWrite_ne m v (by omega)

/-- Settles O31: the operand is the pixel's index or raises, and GETPX reads PMEM there. -/
theorem getpxReadsPixel : Obligations.GetpxReadsPixel := by
  unfold Obligations.GetpxReadsPixel
  intro s w h hw hh
  refine ⟨fun c hx hy hc => ?inside, fun hout => ?outside⟩
  case inside => exact exec_getpx_of_pixel (pixelOperand_of_inside hw hh hx hy) hc
  case outside => exact exec_getpx_raises (pixelOperand_of_outside hw hh hout)

/-- Settles O32: the operand is the pixel's index or raises, and SETPX writes that one location of PMEM. -/
theorem setpxWritesPixel : Obligations.SetpxWritesPixel := by
  unfold Obligations.SetpxWritesPixel
  intro s w h hw hh
  refine ⟨fun hx hy => ?inside, fun hout => ?outside⟩
  case inside =>
    exact ⟨_, exec_setpx_of_pixel (pixelOperand_of_inside hw hh hx hy), memRead_memWrite_same .., sameOutside_memWrite _ _ _⟩
  case outside => exact exec_setpx_raises (pixelOperand_of_outside hw hh hout)

end Sys2Proof.Machine

/-! SUPPORT. The depth converter DES, SER, CONV (41_depth_converter R160 to R169), and the forms of a Color (10_state R24, 42_bmp R187, R189). -/

namespace Sys2Proof.Machine

/-! ## Bytes in a word -/

/-- Bit vectors put side by side are added with their weights. -/
theorem toNat_append_eq_add {n m : Nat} (x : BitVec n) (y : BitVec m) : (x ++ y).toNat = x.toNat * 2 ^ m + y.toNat := by
  rw [BitVec.toNat_append, ← Nat.shiftLeft_add_eq_or_of_lt y.isLt, Nat.shiftLeft_eq]

/-- Bytes packed little-endian fit the bytes they come from. -/
theorem packBytes_lt_pow (l : List Byte) : packBytes l < 256 ^ l.length := by
  induction l with
  | nil => simp [packBytes]
  | cons b l ih =>
    have hb := b.isLt
    simp only [packBytes, List.length_cons, Nat.pow_succ']
    omega

/-- Byte `k` of packed bytes is the byte they have there. -/
theorem getElem?_eq_packBytes_byte {l : List Byte} {k : Nat} (hk : k < l.length) :
    l[k]? = some (BitVec.ofNat 8 (packBytes l / 256 ^ k)) := by
  induction l generalizing k with
  | nil => simp at hk
  | cons b l ih =>
    have hb := b.isLt
    cases k with
    | zero =>
      have hlow : BitVec.ofNat 8 (packBytes (b :: l)) = b := BitVec.eq_of_toNat_eq (by simp [packBytes]; omega)
      simp [hlow]
    | succ k =>
      have hhigh : packBytes (b :: l) / 256 = packBytes l := by simp only [packBytes]; omega
      rw [List.getElem?_cons_succ, ih (by simpa using hk), Nat.pow_succ', ← Nat.div_div_eq_div_mul, hhigh]

/-- A byte field of a word that holds a number. -/
theorem extractByte_ofNat {v : Nat} (hv : v < 2 ^ 32) (k : Nat) :
    (BitVec.ofNat 32 v).extractLsb' (8 * k) 8 = BitVec.ofNat 8 (v / 256 ^ k) := by
  have hpow : 2 ^ (8 * k) = 256 ^ k := pow_mul 2 8 k
  apply BitVec.eq_of_toNat_eq
  rw [BitVec.extractLsb'_toNat, BitVec.toNat_ofNat, BitVec.toNat_ofNat, Nat.mod_eq_of_lt hv, Nat.shiftRight_eq_div_pow, hpow]

/-! ## Colors in words (10_state R24) -/

theorem packColor_toNat (c : Color) :
    (packColor c).toNat = c.r.toNat + 2 ^ 8 * c.g.toNat + 2 ^ 16 * c.b.toNat + 2 ^ 24 * c.a.toNat := by
  simp only [packColor, toNat_append_eq_add]
  omega

@[simp] theorem unpackColor_packColor (c : Color) : unpackColor (packColor c) = c := by
  obtain ⟨r, g, b, a⟩ := c
  have hr := r.isLt
  have hg := g.isLt
  have hb := b.isLt
  simp only [unpackColor, Color.mk.injEq, BitVec.toNat_eq, BitVec.extractLsb'_toNat, packColor_toNat, Nat.shiftRight_eq_div_pow]
  omega

@[simp] theorem packColor_unpackColor (w : Word) : packColor (unpackColor w) = w := by
  have hw := w.isLt
  apply BitVec.eq_of_toNat_eq
  simp only [packColor_toNat, unpackColor, BitVec.extractLsb'_toNat, Nat.shiftRight_eq_div_pow]
  omega

/-! ## The forms of a Color at the five depths (41_depth_converter R160 to R166) -/

@[simp] theorem length_ser (d : Depth) (c : Color) : (ser d c).length = nbytes d := by
  cases d <;> rfl

theorem nbytes_le_four (d : Depth) : nbytes d ≤ 4 := by
  cases d <;> decide

theorem des_d1 (b : Byte) : des .d1 [b] = ⟨if b = 0#8 then 0#8 else 255#8, 0#8, 0#8, 0#8⟩ := by
  have hpos : 0#8 < b ↔ ¬ b = 0#8 := by simp only [BitVec.lt_def, BitVec.toNat_eq, BitVec.toNat_ofNat]; omega
  simp only [des, List.getD_cons_zero, hpos, ite_not]

theorem ser_d1 (c : Color) : ser .d1 c = [if 127 < c.r.toNat then 1#8 else 0#8] := rfl

/-! ## 16-bit pixels and rows of a BMP (42_bmp R187, R189) -/

/-- The three fields of a 16-bit pixel; bit 5 is in none of them. -/
theorem unpack16_fields {r5 g5 skipped b5 : Nat} (hr : r5 < 32) (hg : g5 < 32) (hs : skipped < 2) (hb : b5 < 32) :
    unpack16 (r5 * 2 ^ 11 + g5 * 2 ^ 6 + skipped * 2 ^ 5 + b5) =
      ⟨BitVec.ofNat 8 (r5 * 255 / 31), BitVec.ofNat 8 (g5 * 255 / 31), BitVec.ofNat 8 (b5 * 255 / 31), 255#8⟩ := by
  have hred : (r5 * 2 ^ 11 + g5 * 2 ^ 6 + skipped * 2 ^ 5 + b5) / 2 ^ 11 % 32 = r5 := by omega
  have hgreen : (r5 * 2 ^ 11 + g5 * 2 ^ 6 + skipped * 2 ^ 5 + b5) / 2 ^ 6 % 32 = g5 := by omega
  have hblue : (r5 * 2 ^ 11 + g5 * 2 ^ 6 + skipped * 2 ^ 5 + b5) % 32 = b5 := by omega
  simp only [unpack16, hred, hgreen, hblue]

/-- The stride is the bytes of the row, rounded up to a multiple of four. -/
theorem bmpStride_eq_roundUp (bits w : Nat) : bmpStride bits w = 4 * (((bits * w + 7) / 8 + 3) / 4) := by
  unfold bmpStride
  omega

/-- Settles O35: the bytes of each depth, the word of a Color as a sum, the fields of a 16-bit pixel, and the stride. -/
theorem depthForms : Obligations.DepthForms := by
  unfold Obligations.DepthForms
  refine ⟨fun b0 b1 b2 b3 c => ?bytes, fun c => ?word, fun w => ?unpacked, fun r5 hr g5 hg skipped hs b5 hb => ?fields, ?table,
    fun bits w => ?stride, ?examples⟩
  case bytes => exact ⟨des_d1 b0, rfl, rfl, rfl, rfl, ser_d1 c, rfl, rfl, rfl, rfl⟩
  case word => exact ⟨packColor_toNat c, unpackColor_packColor c⟩
  case unpacked => exact ⟨packColor_unpackColor w, rfl⟩
  case fields => exact unpack16_fields hr hg hs hb
  case table => decide
  case stride => exact ⟨rfl, bmpStride_eq_roundUp bits w⟩
  case examples => decide

/-! ## DES -/

theorem depthOperand_of_field {f : BitVec 8} {d : Depth} (h : depthOfField f = some d) : depthOperand f = .ok d :=
  depthOperand_eq_ok.2 h

theorem readRun_of_holdsAt {sp : Space} {m : Mem 8} {a : Nat} {l : List Byte} (h : holdsAt m a l) :
    readRun sp m l.length a = .ok l :=
  readRun_eq_ok.2 ⟨rfl, h⟩

theorem exec_des_of_bytes {f : BitVec 8} {d : Depth} {s : State} {bytes : List Byte} (hd : depthOfField f = some d)
    (hlen : bytes.length = nbytes d) (hfit : s.arg0.toNat + nbytes d ≤ s.ilen.toNat) (hb : holdsAt s.imem s.arg0.toNat bytes) :
    exec (.des f) s = .next (complete { s with res0 := packColor (des d bytes), res1 := BitVec.ofNat 32 (nbytes d) }) := by
  rw [← hlen] at hfit ⊢
  simp only [exec, execDes, depthOperand_of_field hd, bind_ok, ← hlen, need_of_le hfit, readRun_of_holdsAt hb, settle_ok]

theorem exec_des_of_truncated {f : BitVec 8} {d : Depth} {s : State} (hd : depthOfField f = some d)
    (hshort : s.ilen.toNat < s.arg0.toNat + nbytes d) : exec (.des f) s = .next (takeError .nothing .truncatedData s) := by
  simp only [exec, execDes, depthOperand_of_field hd, bind_ok, need_of_lt hshort]
  rfl

/-- Settles O33: the DEPTH names the count, `need` compares it to ILEN, and the bytes below ILEN are read as a run. -/
theorem desReadsColor : Obligations.DesReadsColor := by
  unfold Obligations.DesReadsColor
  refine ⟨fun f d s hd => ⟨fun bytes hlen hfit hb => ?read, fun hshort => ?truncated⟩, fun f s hf => ?illegal⟩
  case read => exact exec_des_of_bytes hd hlen hfit hb
  case truncated => exact exec_des_of_truncated hd hshort
  case illegal => exact exec_illegalDepth (legalDepth_eq_false hf) (by simp [depthCommands]) s

/-! ## SER -/

theorem exec_ser_of_depth {f : BitVec 8} {d : Depth} (hd : depthOfField f = some d) (s : State) :
    exec (.ser f) s = .next (complete { s with
      res0 := BitVec.ofNat 32 (packBytes (ser d (unpackColor s.arg2))), res1 := BitVec.ofNat 32 (nbytes d) }) := by
  simp only [exec, execSer, depthOperand_of_field hd, bind_ok, settle_ok]

theorem packBytes_ser_lt (d : Depth) (c : Color) : packBytes (ser d c) < 256 ^ nbytes d :=
  length_ser d c ▸ packBytes_lt_pow (ser d c)

/-- The bytes of a Color fit a word at every depth. -/
theorem packBytes_ser_lt_word (d : Depth) (c : Color) : packBytes (ser d c) < 2 ^ 32 :=
  calc packBytes (ser d c) < 256 ^ nbytes d := packBytes_ser_lt d c
    _ ≤ 256 ^ 4 := Nat.pow_le_pow_right (by decide) (nbytes_le_four d)
    _ = 2 ^ 32 := by decide

/-- Settles O34: the bytes of the Color fit the word, so its byte fields are those bytes. -/
theorem serPacksColor : Obligations.SerPacksColor := by
  unfold Obligations.SerPacksColor
  refine ⟨fun f d s hd => ⟨_, exec_ser_of_depth hd s, fun k hk => ?byte, ?high⟩, fun f s hf => ?illegal⟩
  case byte => rw [extractByte_ofNat (packBytes_ser_lt_word d _), getElem?_eq_packBytes_byte (by simpa using hk)]
  case high =>
    rw [BitVec.toNat_ofNat, Nat.mod_eq_of_lt (packBytes_ser_lt_word d _)]
    exact packBytes_ser_lt d _
  case illegal => exact exec_illegalDepth (legalDepth_eq_false hf) (by simp [depthCommands]) s

/-! ## CONV -/

/-- The word of a pixel after CONV.d (41_depth_converter R169). -/
def convWord (d : Depth) (w : Word) : Word := packColor (convColor d (unpackColor w))

/-- The loop of CONV.d before turn `i`: of the locations of `m`, those below `i` are converted in `m'` and no others changed. -/
def ConvertedBelow (d : Depth) (m : Mem 32) (i : Nat) (m' : Mem 32) : Prop :=
  ∀ k, memRead m' k = if k < i then (memRead m k).map (convWord d) else memRead m k

theorem convPixel_of_some {d : Depth} {i : Nat} {m : Mem 32} {w : Word} (h : memRead m i = some w) :
    convPixel d i m = .ok (memWrite m i (convWord d w)) := by
  simp only [convPixel, readCell_of_some h, bind_ok, convWord]

/-- One turn of the loop converts the next location. -/
theorem convertedBelow_succ {d : Depth} {m m' : Mem 32} {i : Nat} {w : Word} (hm : ConvertedBelow d m i m')
    (hw : memRead m i = some w) : ConvertedBelow d m (i + 1) (memWrite m' i (convWord d w)) := by
  intro k
  rcases Nat.lt_trichotomy k i with hlt | rfl | hgt
  · rw [memRead_memWrite_ne _ _ (by omega), hm k, if_pos hlt, if_pos (by omega)]
  · rw [memRead_memWrite_same, if_pos (by omega), hw, Option.map_some]
  · rw [memRead_memWrite_ne _ _ (by omega), hm k, if_neg (by omega), if_neg (by omega)]

/-- Where every pixel holds a value, the loop of CONV.d ends and has converted them all. -/
theorem convLoop_converts {d : Depth} {m : Mem 32} {n : Nat} (hm : ∀ k < n, memRead m k ≠ none) :
    ∃ m', forLoop (convPixel d) n 0 m = .ok m' ∧ ConvertedBelow d m n m' := by
  have hstart : ConvertedBelow d m 0 m := fun k => by simp
  have hturn : ∀ i y, 0 ≤ i → i < 0 + n → ConvertedBelow d m i y →
      ∃ z, convPixel d i y = .ok z ∧ ConvertedBelow d m (i + 1) z := by
    intro i y _ hi hy
    obtain ⟨w, hw⟩ := Option.ne_none_iff_exists'.1 (hm i (by omega))
    have hread : memRead y i = some w := by rw [hy i, if_neg (lt_irrefl i), hw]
    exact ⟨_, convPixel_of_some hread, convertedBelow_succ hy hw⟩
  obtain ⟨m', hloop, hconv⟩ := forLoop_ends hstart hturn
  exact ⟨m', hloop, by rwa [Nat.zero_add] at hconv⟩

theorem exec_conv_of_loop {f : BitVec 8} {d : Depth} {s : State} {w h : Word} {m : Mem 32} (hd : depthOfField f = some d)
    (hw : s.bmW = .val w) (hh : s.bmH = .val h) (hm : forLoop (convPixel d) (w.toNat * h.toNat) 0 s.pmem = .ok m) :
    exec (.conv f) s = .next (complete { s with pmem := m, bmD := depthReg f }) := by
  simp only [exec, execConv, depthOperand_of_field hd, regNat_of_val (r := .bmW) hw, regNat_of_val (r := .bmH) hh, bind_ok, hm,
    settle_ok]

/-- Settles O36: the loop turns every written pixel, each once, and leaves the rest of PMEM. -/
theorem convConvertsBitmap : Obligations.ConvConvertsBitmap := by
  unfold Obligations.ConvConvertsBitmap
  refine ⟨fun f d s w h hd hw hh hpix => ?legal, fun f s hf => ?illegal⟩
  case legal =>
    obtain ⟨m, hloop, hconv⟩ := convLoop_converts (d := d) hpix
    refine ⟨m, exec_conv_of_loop hd hw hh hloop, fun k hk => ?pixel, fun k hk => ?frame⟩
    case pixel => rw [hconv k, if_pos hk]; rfl
    case frame => rw [hconv k, if_neg (by omega)]
  case illegal => exact exec_illegalDepth (legalDepth_eq_false hf) (by simp [depthCommands]) s

end Sys2Proof.Machine

/-! SUPPORT. The color mapper PALMAP (45_palmap R290 to R293). -/

namespace Sys2Proof.Machine

/-! ## The exact lookup -/

/-- The first entry of the palette that is `c` stands at `k` (45_palmap R291). -/
def FirstExact (pal : Mem 32) (c : Word) (k : Nat) : Prop :=
  memRead pal k = some c ∧ ∀ j < k, memRead pal j ≠ some c

/-- Over entries that hold values, with none equal to `c` before them, the lookup finds the first equal one, or there is none. -/
theorem palExact_finds {pal : Mem 32} {c : Word} {n k : Nat} (hheld : ∀ j < k + n, memRead pal j ≠ none)
    (hbefore : ∀ j < k, memRead pal j ≠ some c) :
    (∃ i < k + n, palExact pal c n k = .ok (some i) ∧ FirstExact pal c i) ∨
    (palExact pal c n k = .ok none ∧ ∀ j < k + n, memRead pal j ≠ some c) := by
  induction n generalizing k with
  | zero => exact .inr ⟨rfl, hbefore⟩
  | succ n ih =>
    obtain ⟨e, he⟩ := Option.ne_none_iff_exists'.1 (hheld k (by omega))
    by_cases hec : e = c
    · subst hec
      exact .inl ⟨k, by omega, by simp only [palExact, readCell_of_some he, bind_ok, if_pos], he, hbefore⟩
    · have hbefore' : ∀ j < k + 1, memRead pal j ≠ some c := by
        intro j hj
        rcases Nat.lt_succ_iff_lt_or_eq.1 hj with hj | rfl
        · exact hbefore j hj
        · simpa [he] using hec
      have hstep : palExact pal c (n + 1) k = palExact pal c n (k + 1) := by
        simp only [palExact, readCell_of_some he, bind_ok, if_neg hec]
      rw [hstep, show k + (n + 1) = k + 1 + n by omega]
      exact ih (fun j hj => hheld j (by omega)) hbefore'

/-! ## The nearest entry -/

theorem channelDist_eq_sq (x y : Byte) : (channelDist x y : Int) = ((x.toNat : Int) - y.toNat) ^ 2 := by
  unfold channelDist
  split
  case isTrue h => rw [Nat.cast_pow, Nat.cast_sub h, ← neg_sub, neg_sq]
  case isFalse h => rw [Nat.cast_pow, Nat.cast_sub (by omega)]

/-- The machine's distance, kept in naturals, is the squared distance of signed differences (45_palmap R293). -/
theorem rgbDist_eq_squaredDistance (p q : Color) : (rgbDist p q : Int) = squaredDistance p q := by
  simp only [rgbDist, squaredDistance, Nat.cast_add, channelDist_eq_sq]

/-- The distance between `c` and the entry at `k`; of use only where the palette holds a value there. -/
def entryDist (pal : Mem 32) (c : Word) (k : Nat) : Nat :=
  rgbDist (unpackColor ((memRead pal k).getD 0#32)) (unpackColor c)

theorem entryDist_of_some {pal : Mem 32} {k : Nat} {e : Word} (h : memRead pal k = some e) (c : Word) :
    entryDist pal c k = rgbDist (unpackColor e) (unpackColor c) := by
  rw [entryDist, h, Option.getD_some]

/-- `b` is the first of the entries below `n` at the least distance to `c` (45_palmap R292). -/
def FirstNearest (pal : Mem 32) (c : Word) (n b : Nat) : Prop :=
  b < n ∧ ∀ j < n, entryDist pal c b ≤ entryDist pal c j ∧ (j < b → entryDist pal c b < entryDist pal c j)

theorem firstNearest_one (pal : Mem 32) (c : Word) : FirstNearest pal c 1 0 := by
  refine ⟨Nat.one_pos, fun j hj => ?_⟩
  obtain rfl : j = 0 := by omega
  exact ⟨le_rfl, fun h => absurd h (lt_irrefl 0)⟩

/-- A later entry replaces the best so far only when it is strictly nearer (45_palmap R292). -/
theorem firstNearest_succ {pal : Mem 32} {c : Word} {n b : Nat} (h : FirstNearest pal c n b) :
    FirstNearest pal c (n + 1) (if entryDist pal c n < entryDist pal c b then n else b) := by
  obtain ⟨hb, hmin⟩ := h
  split
  case isTrue hlt =>
    refine ⟨by omega, fun j hj => ?_⟩
    rcases Nat.lt_succ_iff_lt_or_eq.1 hj with hj | rfl
    · have hnearer := hlt.trans_le (hmin j hj).1
      exact ⟨hnearer.le, fun _ => hnearer⟩
    · exact ⟨le_rfl, fun h => absurd h (lt_irrefl j)⟩
  case isFalse hge =>
    refine ⟨by omega, fun j hj => ?_⟩
    rcases Nat.lt_succ_iff_lt_or_eq.1 hj with hj | rfl
    · exact hmin j hj
    · exact ⟨not_lt.1 hge, fun h => by omega⟩

/-- The search over the entries that follow keeps its best the first nearest. -/
theorem palNearest_of_best {pal : Mem 32} {c : Word} {n k b : Nat} (hheld : ∀ j < k + n, memRead pal j ≠ none)
    (hb : FirstNearest pal c k b) :
    ∃ i, palNearest pal c n k (some (b, entryDist pal c b)) = .ok (some (i, entryDist pal c i)) ∧ FirstNearest pal c (k + n) i := by
  induction n generalizing k b with
  | zero => exact ⟨b, rfl, hb⟩
  | succ n ih =>
    obtain ⟨e, he⟩ := Option.ne_none_iff_exists'.1 (hheld k (by omega))
    obtain ⟨i, hi, hfirst⟩ := ih (fun j hj => hheld j (by omega)) (firstNearest_succ hb)
    refine ⟨i, ?_, by rwa [show k + (n + 1) = k + 1 + n by omega]⟩
    rw [← hi]
    simp only [palNearest, readCell_of_some he, bind_ok, ← entryDist_of_some he]
    split <;> rfl

/-- Over a palette with an entry, the search finds the first nearest one. -/
theorem palNearest_finds {pal : Mem 32} {n : Nat} (c : Word) (hn : 1 ≤ n) (hheld : ∀ j < n, memRead pal j ≠ none) :
    ∃ i, palNearest pal c n 0 none = .ok (some (i, entryDist pal c i)) ∧ FirstNearest pal c n i := by
  obtain ⟨n, rfl⟩ := Nat.exists_eq_add_of_le hn
  obtain ⟨e, he⟩ := Option.ne_none_iff_exists'.1 (hheld 0 (by omega))
  obtain ⟨i, hi, hfirst⟩ := palNearest_of_best hheld (firstNearest_one pal c)
  refine ⟨i, ?_, hfirst⟩
  rw [← hi, Nat.add_comm 1 n]
  simp only [palNearest, readCell_of_some he, bind_ok, entryDist_of_some he, Nat.zero_add]

/-! ## The index of a Color -/

theorem mapsTo_of_firstExact {pal : Mem 32} {n k : Nat} {c : Word} (hk : k < n) (h : FirstExact pal c k) : mapsTo pal n c k :=
  ⟨hk, fun _ => h, fun hnone => absurd h.1 (hnone k hk)⟩

theorem mapsTo_of_firstNearest {pal : Mem 32} {n k : Nat} {c : Word} (hnone : ∀ j < n, memRead pal j ≠ some c)
    (h : FirstNearest pal c n k) : mapsTo pal n c k := by
  refine ⟨h.1, fun ⟨j, hj, hc⟩ => absurd hc (hnone j hj), fun _ e he j hj e' he' => ?_⟩
  have hmin := h.2 j hj
  rw [entryDist_of_some he, entryDist_of_some he'] at hmin
  simpa only [← rgbDist_eq_squaredDistance, Nat.cast_le, Nat.cast_lt] using hmin

/-- Over a palette with an entry, every Color has its index (45_palmap R291). -/
theorem mapIndex_maps {pal : Mem 32} {n : Nat} (c : Word) (hn : 1 ≤ n) (hheld : ∀ j < n, memRead pal j ≠ none) :
    ∃ k, mapIndex pal n c = .ok k ∧ mapsTo pal n c k := by
  have hexact := palExact_finds (c := c) (n := n) (k := 0) (by simpa using hheld) (by simp)
  rw [Nat.zero_add] at hexact
  rcases hexact with ⟨k, hk, hfound, hfirst⟩ | ⟨hmissing, hnone⟩
  · exact ⟨k, by simp only [mapIndex, hfound, bind_ok], mapsTo_of_firstExact hk hfirst⟩
  · obtain ⟨k, hfound, hfirst⟩ := palNearest_finds c hn hheld
    exact ⟨k, by simp only [mapIndex, hmissing, hfound, bind_ok], mapsTo_of_firstNearest hnone hfirst⟩

/-! ## PALMAP -/

/-- The loop of PALMAP before turn `i`: the pixels below `i` have their index in `x'`, and of XMEM as it was in `x` no more has changed. -/
structure MappedBelow (pmem pal : Mem 32) (n : Nat) (x : Mem 8) (i : Nat) (x' : Mem 8) : Prop where
  indexed : ∀ j < i, ∀ c, memRead pmem j = some c → ∃ k, memRead x' j = some (BitVec.ofNat 8 k) ∧ mapsTo pal n c k
  frame : sameOutside x x' 0 i

theorem palmapPixel_of_index {pmem pal : Mem 32} {n i k : Nat} {c : Word} (hc : memRead pmem i = some c)
    (hk : mapIndex pal n c = .ok k) (x : Mem 8) : palmapPixel pmem pal n i x = .ok (memWrite x i (BitVec.ofNat 8 k)) := by
  simp only [palmapPixel, readCell_of_some hc, hk, bind_ok]

/-- One turn of the loop gives the next pixel its index. -/
theorem mappedBelow_succ {pmem pal : Mem 32} {n i k : Nat} {x x' : Mem 8} {c : Word} (hx : MappedBelow pmem pal n x i x')
    (hc : memRead pmem i = some c) (hk : mapsTo pal n c k) :
    MappedBelow pmem pal n x (i + 1) (memWrite x' i (BitVec.ofNat 8 k)) where
  indexed j hj c' hc' := by
    rcases Nat.lt_succ_iff_lt_or_eq.1 hj with hj | rfl
    · obtain ⟨k', hread, hmaps⟩ := hx.indexed j hj c' hc'
      exact ⟨k', by rw [memRead_memWrite_ne _ _ (by omega), hread], hmaps⟩
    · obtain rfl : c = c' := Option.some.inj (hc.symm.trans hc')
      exact ⟨k, memRead_memWrite_same .., hk⟩
  frame j hj := by rw [memRead_memWrite_ne _ _ (by omega), hx.frame j (by omega)]

/-- Where every pixel and every entry holds a value and there is an entry, the loop of PALMAP ends and has mapped every pixel. -/
theorem palmapLoop_maps {pmem pal : Mem 32} {n len : Nat} (x : Mem 8) (hn : 1 ≤ n) (hpal : ∀ k < n, memRead pal k ≠ none)
    (hpix : ∀ i < len, memRead pmem i ≠ none) :
    ∃ x', forLoop (palmapPixel pmem pal n) len 0 x = .ok x' ∧ MappedBelow pmem pal n x len x' := by
  have hstart : MappedBelow pmem pal n x 0 x := ⟨by simp, fun _ _ => rfl⟩
  have hturn : ∀ i y, 0 ≤ i → i < 0 + len → MappedBelow pmem pal n x i y →
      ∃ z, palmapPixel pmem pal n i y = .ok z ∧ MappedBelow pmem pal n x (i + 1) z := by
    intro i y _ hi hy
    obtain ⟨c, hc⟩ := Option.ne_none_iff_exists'.1 (hpix i (by omega))
    obtain ⟨k, hindex, hmaps⟩ := mapIndex_maps c hn hpal
    exact ⟨_, palmapPixel_of_index hc hindex y, mappedBelow_succ hy hc hmaps⟩
  simpa using forLoop_ends hstart hturn

theorem exec_palmap_of_empty {s : State} {w h : Word} (hw : s.bmW = .val w) (hh : s.bmH = .val h)
    (hempty : w.toNat * h.toNat = 0) : exec .palmap s = .next (complete s) := by
  simp only [exec, execPalmap, regNat_of_val (r := .bmW) hw, regNat_of_val (r := .bmH) hh, bind_ok, if_pos hempty, settle_ok]

theorem exec_palmap_of_noPalette {s : State} {w h : Word} (hw : s.bmW = .val w) (hh : s.bmH = .val h)
    (hpixels : w.toNat * h.toNat ≠ 0) (hn : s.paln = .val 0#32) :
    exec .palmap s = .next (takeError .nothing .unsupportedFormat s) := by
  simp only [exec, execPalmap, regNat_of_val (r := .bmW) hw, regNat_of_val (r := .bmH) hh, regNat_of_val (r := .paln) hn, bind_ok,
    if_neg hpixels, BitVec.toNat_zero, if_pos, settle_raise]

/-- With a palette, PALMAP does what its loop does, on the empty Bitmap as well. -/
theorem exec_palmap_of_loop {s : State} {w h n : Word} {x : Mem 8} (hw : s.bmW = .val w) (hh : s.bmH = .val h)
    (hn : s.paln = .val n) (hpos : 1 ≤ n.toNat)
    (hx : forLoop (palmapPixel s.pmem s.pal n.toNat) (w.toNat * h.toNat) 0 s.xmem = .ok x) :
    exec .palmap s = .next (complete { s with xmem := x }) := by
  by_cases hempty : w.toNat * h.toNat = 0
  · rw [hempty] at hx
    obtain rfl : s.xmem = x := by simpa [forLoop] using hx
    exact exec_palmap_of_empty hw hh hempty
  · simp only [exec, execPalmap, regNat_of_val (r := .bmW) hw, regNat_of_val (r := .bmH) hh, regNat_of_val (r := .paln) hn, bind_ok,
      if_neg hempty, if_neg (show n.toNat ≠ 0 by omega), hx, settle_ok]

/-- Settles O38: the loop gives every pixel the first exact entry or else the first nearest one, and writes nothing else. -/
theorem palmapMapsPixels : Obligations.PalmapMapsPixels := by
  unfold Obligations.PalmapMapsPixels
  intro s w h hw hh
  refine ⟨fun n hn hpos _ hpal hpix => ?palette, fun hpixels hn => ?noPalette, fun hempty => ?empty⟩
  case palette =>
    obtain ⟨x, hloop, hmapped⟩ := palmapLoop_maps s.xmem hpos hpal hpix
    exact ⟨x, exec_palmap_of_loop hw hh hn hpos hloop, hmapped.indexed, hmapped.frame⟩
  case noPalette => exact exec_palmap_of_noPalette hw hh (by omega) hn
  case empty => exact exec_palmap_of_empty hw hh hempty

end Sys2Proof.Machine

/-! SUPPORT. The interrupt line (60_exceptions R330) and the write of CTRL that masks it (10_state R29). -/

namespace Sys2Proof.Machine

/-! ## The line as a function of IE and ST -/

theorem irq_eq_true_iff {s : State} : irq s = true ↔ s.ie = true ∧ (s.st = .done ∨ s.st = .err) := by
  simp only [irq, Bool.and_eq_true, Bool.or_eq_true, beq_iff_eq]

theorem irq_eq_false_of_ie {s : State} (h : s.ie = false) : irq s = false := by
  rw [irq, h, Bool.false_and]

theorem irq_eq_false_of_idle_or_busy {s : State} (h : s.st = .idle ∨ s.st = .busy) : irq s = false := by
  rw [Bool.eq_false_iff, ne_eq, irq_eq_true_iff]
  rcases h with h | h <;> simp [h]

/-! ## A write of CTRL -/

/-- A write of a register other than CMD is refused while BUSY, and else is the write that 10_state R37 describes. -/
theorem hostWrite_register {r : RegName} (hr : r ≠ .cmd) (v : Word) (s : State) :
    hostWrite .word (BitVec.ofNat 32 (regOffset r)) v s =
      if s.st = .busy then .refused .accessWhileBusy else .next (writeReg s r v) := by
  rw [hostWrite, resolve_register]
  cases r with
  | cmd => exact absurd rfl hr
  | _ => rfl

theorem writeReg_ctrl_ie (s : State) (v : Word) : (writeReg s .ctrl v).ie = v.getLsbD 0 := rfl

/-- A step that writes CTRL and is not refused leaves IE as bit 0 of the data. -/
theorem ie_of_step_write_ctrl {s t : State} {rest : List HostOp} {v : Word} (hs : s.script = .write .word 0x0C#32 v :: rest)
    (h : step s = .next t) : t.ie = v.getLsbD 0 := by
  rw [step_write hs, show 0x0C#32 = BitVec.ofNat 32 (regOffset .ctrl) from rfl, hostWrite_register (by decide)] at h
  split at h
  case isTrue => cases h
  case isFalse =>
    cases h
    exact writeReg_ctrl_ie _ v

/-- Settles O28: reset, CLR and BUSY keep ST away from DONE and ERR, and the write of CTRL clears IE. -/
theorem interruptLine : Obligations.InterruptLine := by
  unfold Obligations.InterruptLine
  intro s
  refine ⟨irq_eq_true_iff, fun c => ?reset, fun t ht => ?clr, fun rest v t hs hv ht => ?ctrl, fun hb => ?busy⟩
  case reset => exact irq_eq_false_of_idle_or_busy (.inl rfl)
  case clr =>
    rw [exec_clr] at ht
    cases ht
    exact irq_eq_false_of_idle_or_busy (.inl (returnFromError_st s))
  case ctrl => exact irq_eq_false_of_ie ((ie_of_step_write_ctrl hs ht).trans hv)
  case busy => exact irq_eq_false_of_idle_or_busy (.inr hb)

end Sys2Proof.Machine

/-! SUPPORT. The state after reset, and a block that nobody asks anything of (70_reset R360, 60_exceptions R340). -/

namespace Sys2Proof.Machine

/-! ## What the host finds after reset -/

@[simp] theorem readReg_resetWith (c : Capacities) (r : RegName) : readReg (State.resetWith c) r = .val 0#32 := by
  cases r <;> rfl

theorem memRead_resetWith (c : Capacities) (a : Nat) :
    memRead (State.resetWith c).imem a = none ∧ memRead (State.resetWith c).zmem a = none ∧
      memRead (State.resetWith c).pmem a = none ∧ memRead (State.resetWith c).pal a = none ∧
      memRead (State.resetWith c).xmem a = none :=
  ⟨memRead_nil a, memRead_nil a, memRead_nil a, memRead_nil a, memRead_nil a⟩

/-! ## A step with nothing to do -/

/-- The engine starts nothing by itself: without a host action pending only a command in flight can change the state. -/
theorem step_eq_self {s : State} (hs : s.script = []) (hb : s.st ≠ .busy) : step s = .next s := by
  simp only [step, hs, if_neg hb]

/-- Settles O11: the registers and the memories by their reset values, the line from ST = IDLE, and the step because the script is
empty and ST is not BUSY. -/
theorem resetState : Obligations.ResetState := by
  unfold Obligations.ResetState
  refine ⟨readReg_resetWith, fun c a => ?flagsAndMemories, fun c => ?step⟩
  case flagsAndMemories =>
    have hst : (State.resetWith c).st = .idle := rfl
    exact ⟨hst, rfl, irq_eq_false_of_idle_or_busy (.inl hst), rfl, memRead_resetWith c a⟩
  case step => exact step_eq_self rfl (by decide : Status.idle ≠ .busy)

end Sys2Proof.Machine

/-! SUPPORT. The decoders and the encoder are inverse to each other (30_encoding R90 to R122, 43_inflate R213). -/

namespace Sys2Proof.Machine

/-! ## The fields of a command word (30_encoding R90) -/

@[simp] theorem commandWord_opcode (opc depth : BitVec 8) :
    (BitVec.ofNat 32 (commandWord opc depth)).extractLsb' 0 8 = opc := by
  have ho := opc.isLt
  have hd := depth.isLt
  simp only [BitVec.toNat_eq, BitVec.extractLsb'_toNat, BitVec.toNat_ofNat, commandWord, Nat.shiftRight_eq_div_pow]
  omega

@[simp] theorem commandWord_depth (opc depth : BitVec 8) :
    (BitVec.ofNat 32 (commandWord opc depth)).extractLsb' 8 8 = depth := by
  have ho := opc.isLt
  have hd := depth.isLt
  simp only [BitVec.toNat_eq, BitVec.extractLsb'_toNat, BitVec.toNat_ofNat, commandWord, Nat.shiftRight_eq_div_pow]
  omega

@[simp] theorem commandWord_reserved (opc depth : BitVec 8) :
    (BitVec.ofNat 32 (commandWord opc depth)).extractLsb' 16 16 = 0#16 := by
  have ho := opc.isLt
  have hd := depth.isLt
  simp only [BitVec.toNat_eq, BitVec.extractLsb'_toNat, BitVec.toNat_ofNat, commandWord, Nat.shiftRight_eq_div_pow]
  omega

/-- A word without reserved bits is made of its opcode and its DEPTH field. -/
theorem commandWord_of_fields {w : Word} (hr : w.extractLsb' 16 16 = 0#16) :
    commandWord (w.extractLsb' 0 8) (w.extractLsb' 8 8) = w.toNat := by
  have hw := w.isLt
  simp only [BitVec.toNat_eq, BitVec.extractLsb'_toNat, BitVec.toNat_ofNat, Nat.shiftRight_eq_div_pow] at hr
  simp only [commandWord, BitVec.extractLsb'_toNat, Nat.shiftRight_eq_div_pow]
  omega

/-! ## Decoding what was encoded -/

/-- The command decoder sees the fields the encoder wrote, so a command with a DEPTH operand comes back whatever the operand is. -/
theorem decode_commandWord (opc depth : BitVec 8) : decode .command (commandWord opc depth) =
    decodeCommand (BitVec.ofNat 32 (commandWord opc depth)) := rfl

/-- Settles O1: the stream formats by their tables, the commands by the fields of their word, a payload head by its not being the
signature. -/
theorem decodeInvertsEncode : Obligations.DecodeInvertsEncode := by
  unfold Obligations.DecodeInvertsEncode
  intro i hi
  cases i with
  | newbm d => simp [Instr.format, encode, decode_commandWord, decodeCommand]
  | des d => simp [Instr.format, encode, decode_commandWord, decodeCommand]
  | ser d => simp [Instr.format, encode, decode_commandWord, decodeCommand]
  | conv d => simp [Instr.format, encode, decode_commandWord, decodeCommand]
  | decbmp d => simp [Instr.format, encode, decode_commandWord, decodeCommand]
  | decpng d => simp [Instr.format, encode, decode_commandWord, decodeCommand]
  | decico d => simp [Instr.format, encode, decode_commandWord, decodeCommand]
  | deflateStored b => cases b <;> rfl
  | deflateFixed b => cases b <;> rfl
  | deflateDynamic b => cases b <;> rfl
  | icoPayloadBmp head =>
    have hne : head ≠ pngSignatureHead := by simpa [Instr.wellFormed] using hi
    simp [Instr.format, encode, decode, decodePayloadHead, hne]
  | _ => rfl

/-! ## Encoding what was decoded -/

/-- What a decoder answers is an instruction of the format `f` whose encoding is `w`, or an error. -/
def AnswersWord (f : Format) (w : Nat) (o : Except DecodeError Instr) : Prop :=
  ∀ i, o = .ok i → i.format = f ∧ encode i = w

variable {f : Format} {w : Nat}

theorem answersWord_ok {i : Instr} (hf : i.format = f) (hw : encode i = w) : AnswersWord f w (.ok i) := by
  intro j hj
  cases hj
  exact ⟨hf, hw⟩

theorem answersWord_error (e : DecodeError) : AnswersWord f w (.error e) := fun _ h => by cases h

/-- A row of a decoder's table: the answer where the word is the row's, and the rows after it where it is not. -/
theorem answersWord_ite {p : Prop} [Decidable p] {a b : Except DecodeError Instr} (ha : p → AnswersWord f w a)
    (hb : AnswersWord f w b) : AnswersWord f w (if p then a else b) := by
  split
  case isTrue h => exact ha h
  case isFalse => exact hb

theorem answersWord_noDepth {d : BitVec 8} {i : Instr} (h : d = 0#8 → i.format = f ∧ encode i = w) :
    AnswersWord f w (decodeNoDepth d i) := by
  intro j hj
  obtain ⟨hd, rfl⟩ := decodeNoDepth_eq_ok.1 hj
  exact h hd

theorem decodeCommand_answersWord (v : Word) : AnswersWord .command v.toNat (decodeCommand v) := by
  unfold decodeCommand
  dsimp only
  by_cases hr : v.extractLsb' 16 16 = 0#16
  case neg => rw [if_pos hr]; exact answersWord_error _
  rw [if_neg (not_not.2 hr)]
  have hw := commandWord_of_fields hr
  have noDepth : ∀ (opc : BitVec 8) (i : Instr), i.format = .command → encode i = commandWord opc 0#8 →
      v.extractLsb' 0 8 = opc → AnswersWord .command v.toNat (decodeNoDepth (v.extractLsb' 8 8) i) := by
    intro opc i hf he ho
    exact answersWord_noDepth fun hd => ⟨hf, by rw [he, ← hw, ho, hd]⟩
  have withDepth : ∀ (opc : BitVec 8) (i : Instr), i.format = .command → encode i = commandWord opc (v.extractLsb' 8 8) →
      v.extractLsb' 0 8 = opc → AnswersWord .command v.toNat (.ok i) := by
    intro opc i hf he ho
    exact answersWord_ok hf (by rw [he, ← hw, ho])
  refine answersWord_ite (noDepth _ .nop rfl rfl) <| answersWord_ite (noDepth _ .clr rfl rfl) <|
    answersWord_ite (withDepth _ (.newbm _) rfl rfl) <| answersWord_ite (noDepth _ .getpx rfl rfl) <|
    answersWord_ite (noDepth _ .setpx rfl rfl) <| answersWord_ite (withDepth _ (.des _) rfl rfl) <|
    answersWord_ite (withDepth _ (.ser _) rfl rfl) <| answersWord_ite (withDepth _ (.conv _) rfl rfl) <|
    answersWord_ite (withDepth _ (.decbmp _) rfl rfl) <| answersWord_ite (withDepth _ (.decpng _) rfl rfl) <|
    answersWord_ite (withDepth _ (.decico _) rfl rfl) <| answersWord_ite (noDepth _ .inflate rfl rfl) <|
    answersWord_ite (noDepth _ .unfilt rfl rfl) <| answersWord_ite (noDepth _ .palmap rfl rfl) (answersWord_error _)

/-- A row of a table of constant words. -/
theorem answersWord_row {n : Nat} {v c : BitVec n} {i : Instr} {b : Except DecodeError Instr} (hf : i.format = f)
    (he : encode i = c.toNat) (hb : AnswersWord f v.toNat b) : AnswersWord f v.toNat (if v = c then .ok i else b) :=
  answersWord_ite (fun h => answersWord_ok hf (h ▸ he)) hb

theorem decodeChunkType_answersWord (v : BitVec 32) : AnswersWord .chunkType v.toNat (decodeChunkType v) :=
  answersWord_row rfl rfl <| answersWord_row rfl rfl <| answersWord_row rfl rfl (answersWord_error _)

theorem decodeFilter_answersWord (v : BitVec 8) : AnswersWord .filterByte v.toNat (decodeFilter v) :=
  answersWord_row rfl rfl <| answersWord_row rfl rfl <| answersWord_row rfl rfl <| answersWord_row rfl rfl <|
    answersWord_row rfl rfl (answersWord_error _)

theorem decodeHeaderSize_answersWord (v : BitVec 32) : AnswersWord .headerSize v.toNat (decodeHeaderSize v) :=
  answersWord_row rfl rfl <| answersWord_row rfl rfl <| answersWord_row rfl rfl <| answersWord_row rfl rfl <|
    answersWord_row rfl rfl <| answersWord_row rfl rfl (answersWord_error _)

theorem decodeBitCount_answersWord (v : BitVec 16) : AnswersWord .bitCount v.toNat (decodeBitCount v) :=
  answersWord_row rfl rfl <| answersWord_row rfl rfl <| answersWord_row rfl rfl <| answersWord_row rfl rfl <|
    answersWord_row rfl rfl <| answersWord_row rfl rfl (answersWord_error _)

/-- A block header is made of BFINAL and BTYPE (43_inflate R213). -/
theorem blockHeaderWord_of_fields (v : BitVec 3) :
    blockHeaderWord (v.extractLsb' 0 1 == 1#1) (v.extractLsb' 1 2).toNat = v.toNat := by
  revert v
  decide

theorem decodeBlockHeader_answersWord (v : BitVec 3) : AnswersWord .blockHeader v.toNat (decodeBlockHeader v) := by
  have hw := blockHeaderWord_of_fields v
  unfold decodeBlockHeader
  dsimp only
  have row : ∀ (t : BitVec 2) (i : Instr), i.format = .blockHeader →
      encode i = blockHeaderWord (v.extractLsb' 0 1 == 1#1) t.toNat → v.extractLsb' 1 2 = t →
      AnswersWord .blockHeader v.toNat (.ok i) := by
    intro t i hf he ht
    exact answersWord_ok hf (by rw [he, ← hw, ht])
  exact answersWord_ite (row _ (.deflateStored _) rfl rfl) <| answersWord_ite (row _ (.deflateFixed _) rfl rfl) <|
    answersWord_ite (row _ (.deflateDynamic _) rfl rfl) (answersWord_error _)

theorem decodePayloadHead_answersWord (v : BitVec 64) : AnswersWord .payloadHead v.toNat (decodePayloadHead v) :=
  answersWord_row rfl rfl (answersWord_ok rfl rfl)

theorem decode_answersWord (f : Format) {w : Nat} (hw : w < 2 ^ f.width) : AnswersWord f w (decode f w) := by
  have word : ∀ n, w < 2 ^ n → (BitVec.ofNat n w).toNat = w := fun n h => by
    rw [BitVec.toNat_ofNat, Nat.mod_eq_of_lt h]
  cases f with
  | command => have h := decodeCommand_answersWord (BitVec.ofNat 32 w); rwa [word 32 hw] at h
  | chunkType => have h := decodeChunkType_answersWord (BitVec.ofNat 32 w); rwa [word 32 hw] at h
  | filterByte => have h := decodeFilter_answersWord (BitVec.ofNat 8 w); rwa [word 8 hw] at h
  | blockHeader => have h := decodeBlockHeader_answersWord (BitVec.ofNat 3 w); rwa [word 3 hw] at h
  | headerSize => have h := decodeHeaderSize_answersWord (BitVec.ofNat 32 w); rwa [word 32 hw] at h
  | bitCount => have h := decodeBitCount_answersWord (BitVec.ofNat 16 w); rwa [word 16 hw] at h
  | payloadHead => have h := decodePayloadHead_answersWord (BitVec.ofNat 64 w); rwa [word 64 hw] at h

/-- Settles O2: row by row, the instruction a decoder answers is encoded in the word the row is for. -/
theorem encodeInvertsDecode : Obligations.EncodeInvertsDecode := by
  unfold Obligations.EncodeInvertsDecode
  intro f w i hw hd
  exact decode_answersWord f hw i hd

/-- Settles O3: each word is a row of its table. -/
theorem tableWordsDecode : Obligations.TableWordsDecode := by
  unfold Obligations.TableWordsDecode
  exact ⟨rfl, rfl, rfl, rfl, rfl, rfl, rfl, rfl, rfl⟩

end Sys2Proof.Machine

/-! SUPPORT. What every step keeps: the packaging of an invariant over the cases of a step, and the three invariants of
Sys2Proof/Safety.lean. -/

namespace Sys2Proof.Machine

/-! ## An invariant from its cases -/

/-- What the start of a command and every stream step keep, a command that runs the engine keeps. -/
theorem runFromStart_keeps {P : State → Prop} (hstart : ∀ s k u, P s → s.st = .idle ∨ s.st = .done → StartEffect s k u → P u)
    (hstream : ∀ s t, P s → s.st = .busy → StreamEffect s t → P t) {s u t : State} {k : Scope} (hp : P s)
    (hs : s.st = .idle ∨ s.st = .done) (hu : StartEffect s k u) (hr : runEngine (engineWork u) u = .next t) : P t :=
  runEngine_keeps (fun a b hb ha he => hstream a b ha hb (engineStep_effect he)) (hstart s k u hp hs hu) hr

/-- The cases an invariant has to be checked in, and that they are all. -/
theorem step_keeps {P : State → Prop} (hscript : ∀ s rest, P s → P { s with script := rest })
    (hsimple : ∀ s t, P s → s.st = .idle ∨ s.st = .done → SimpleEffect s t → P t)
    (hstart : ∀ s k u, P s → s.st = .idle ∨ s.st = .done → StartEffect s k u → P u)
    (hstream : ∀ s t, P s → s.st = .busy → StreamEffect s t → P t)
    (hclr : ∀ s, P s → s.st = .err → P (returnFromError s))
    (hreg : ∀ s r v, P s → P (writeReg s r v))
    (hmem : ∀ s sp n i v, P s → (spaceUnit sp = 1 → i + n ≤ spaceSize s.cap sp) → (spaceUnit sp = 4 → i < spaceSize s.cap sp) →
      P (writeSpace s sp n i v))
    (hread : ∀ s v, P s → P { s with rdata := some v, fresh := s.fresh + 1 })
    (hreset : ∀ s, P s → P (resetBlock s)) {s t : State} (hp : P s) (h : step s = .next t) : P t := by
  rcases step_eq_next h with ⟨op, rest, -, he⟩ | ⟨-, hb, he⟩ | ⟨-, -, rfl⟩
  · have hp' := hscript s rest hp
    cases he with
    | ignored => exact hp'
    | command i hi hs t h =>
      rcases execCommand_effect hi h with he | ⟨u, hu, hr⟩
      · exact hsimple _ t hp' hs he
      · exact runFromStart_keeps hstart hstream hp' hs hu hr
    | illegal hs => exact hsimple _ _ hp' hs (.error _)
    | clr hs => exact hclr _ hp' hs
    | reg r v => exact hreg _ r v hp'
    | mem sp n i v _ h1 h4 => exact hmem _ sp n i v hp' h1 h4
    | read v => exact hread _ v hp'
    | reset => exact hreset _ hp'
  · exact hstream s t hp hb he
  · exact hp

/-! ## Error entry -/

/-- Settles O15: each row of `clobber` is written out as one record update. -/
theorem errorEntryLeavesItsRow : Obligations.ErrorEntryLeavesItsRow := by
  unfold Obligations.ErrorEntryLeavesItsRow
  intro e s
  simp only [takeError, clobber, loseBitmap, loseBmp, loseZmem, losePng, loseIco, loseIpos, and_self]

/-! ## The memories stay canonical -/

theorem takeError_memoriesCanonical {s : State} (h : s.memoriesCanonical) (k : Scope) (e : ErrorKind) :
    (takeError k e s).memoriesCanonical := by
  obtain ⟨hi, hz, hp, hl, hx⟩ := h
  obtain ⟨rowNothing, rowDecbmp, rowDecpng, rowDecico, rowInflate, rowUnfilt⟩ := errorEntryLeavesItsRow e s
  cases k with
  | nothing => rw [rowNothing]; exact ⟨hi, hz, hp, hl, hx⟩
  | decbmp => rw [rowDecbmp]; exact ⟨hi, hz, memWf_nil, memWf_nil, hx⟩
  | decpng => rw [rowDecpng]; exact ⟨hi, memWf_nil, memWf_nil, hl, hx⟩
  | decico => rw [rowDecico]; exact ⟨hi, memWf_nil, memWf_nil, memWf_nil, hx⟩
  | inflate => rw [rowInflate]; exact ⟨hi, memWf_nil, hp, hl, hx⟩
  | unfilt => rw [rowUnfilt]; exact ⟨hi, memWf_nil, hp, hl, hx⟩

theorem simpleEffect_memoriesCanonical {s t : State} (h : s.memoriesCanonical) (he : SimpleEffect s t) : t.memoriesCanonical := by
  have hs := h
  obtain ⟨hi, hz, hp, hl, hx⟩ := h
  cases he with
  | error e => exact takeError_memoriesCanonical hs _ e
  | nop => exact hs
  | clr => exact hs
  | newbm => exact ⟨hi, hz, memWf_memWriteRun hp _ _, hl, hx⟩
  | setpx => exact ⟨hi, hz, memWf_memWrite hp _ _, hl, hx⟩
  | result => exact hs
  | results => exact hs
  | conv d pmem _ hw => exact ⟨hi, hz, hw.wf hp, hl, hx⟩
  | palmap w h xmem _ _ hw => exact ⟨hi, hz, hp, hl, hw.wf hx⟩

theorem startEffect_memoriesCanonical {s u : State} {k : Scope} (h : s.memoriesCanonical) (he : StartEffect s k u) :
    u.memoriesCanonical := by
  cases he with
  | error _ e => exact takeError_memoriesCanonical h k e
  | bmp => exact h
  | png => exact h
  | ico => exact h
  | inflate => exact h
  | unfilt => exact h
  | unfiltNone => exact h

/-- Entering the scanlines writes at most the picture of a PNG. -/
theorem enterRows_memoriesCanonical {s t : State} {c : RowCtx} (ht : enterRows s c = .ok t) (h : s.memoriesCanonical) :
    t.memoriesCanonical := by
  obtain ⟨hi, hz, hp, hl, hx⟩ := h
  rcases enterRows_eq_ok.1 ht with ⟨-, rfl⟩ | ⟨-, -, rfl⟩ | ⟨-, p, -, hf⟩
  · exact ⟨hi, hz, hp, hl, hx⟩
  · exact ⟨hi, hz, hp, hl, hx⟩
  · obtain ⟨m, hw, -, rfl⟩ := pngFinish_writes hf
    exact ⟨hi, hz, hw.wf hp, hl, hx⟩

theorem streamEffect_memoriesCanonical {s t : State} (h : s.memoriesCanonical) (he : StreamEffect s t) : t.memoriesCanonical := by
  have hs := h
  obtain ⟨hi, hz, hp, hl, hx⟩ := h
  cases he with
  | error e => exact takeError_memoriesCanonical hs _ e
  | payloadPng => exact hs
  | payloadBmp => exact hs
  | header => exact hs
  | pixels c w hh bits pos pal pmem paln bmp _ _ _ _ hpal _ hpm => exact ⟨hi, hz, hpm.wf hp, hpal.wf hl, hx⟩
  | ihdr => exact hs
  | chunk => exact hs
  | iend => exact hs
  | block => exact hs
  | inflated => exact ⟨hi, memWf_memWriteRun hz _ _, hp, hl, hx⟩
  | decompressed c rout p t _ _ _ ht => exact enterRows_memoriesCanonical ht ⟨hi, memWf_memWriteRun hz _ _, hp, hl, hx⟩
  | row c z t _ hw ht => exact enterRows_memoriesCanonical ht ⟨hi, hw.wf hz, hp, hl, hx⟩

theorem writeReg_memoriesCanonical {s : State} (h : s.memoriesCanonical) (r : RegName) (v : Word) :
    (writeReg s r v).memoriesCanonical := by
  simpa only [State.memoriesCanonical, writeReg_imem, writeReg_zmem, writeReg_pmem, writeReg_pal, writeReg_xmem] using h

theorem writeSpace_memoriesCanonical {s : State} (h : s.memoriesCanonical) (sp : Space) (n i : Nat) (v : Word) :
    (writeSpace s sp n i v).memoriesCanonical := by
  obtain ⟨hi, hz, hp, hl, hx⟩ := h
  cases sp with
  | imem => exact ⟨memWf_writeLE hi _ _ _, hz, hp, hl, hx⟩
  | zmem => exact ⟨hi, memWf_writeLE hz _ _ _, hp, hl, hx⟩
  | pmem => exact ⟨hi, hz, memWf_memWrite hp _ _, hl, hx⟩
  | pal => exact ⟨hi, hz, hp, memWf_memWrite hl _ _, hx⟩
  | xmem => exact ⟨hi, hz, hp, hl, memWf_writeLE hx _ _ _⟩

/-- Settles O7: every case of a step writes the memories with operations that keep the canonical form. -/
theorem stepKeepsMemoriesCanonical : Obligations.StepKeepsMemoriesCanonical := by
  unfold Obligations.StepKeepsMemoriesCanonical
  intro s t hs ht
  refine step_keeps ?script ?simple ?start ?stream ?clr ?reg ?mem ?read ?reset hs ht
  case script => exact fun s rest h => h
  case simple => exact fun s t h _ he => simpleEffect_memoriesCanonical h he
  case start => exact fun s k u h _ he => startEffect_memoriesCanonical h he
  case stream => exact fun s t h _ he => streamEffect_memoriesCanonical h he
  case clr => exact fun s h _ => h
  case reg => exact fun s r v h => writeReg_memoriesCanonical h r v
  case mem => exact fun s sp n i v h _ _ => writeSpace_memoriesCanonical h sp n i v
  case read => exact fun s v h => h
  case reset => exact fun s _ => resetWith_memWf s.cap

/-! ## The status stays consistent -/

theorem statusConsistent_of_err {s : State} (hs : s.st = .err) (hc : s.errcode ≠ none) (he : s.engine = .idle) :
    s.statusConsistent := by
  simp [State.statusConsistent, hs, hc, he]

theorem statusConsistent_of_busy {s : State} (hs : s.st = .busy) (hc : s.errcode = none) (he : s.engine ≠ .idle) :
    s.statusConsistent := by
  simp [State.statusConsistent, hs, hc, he]

theorem statusConsistent_of_rest {s : State} (hs : s.st = .idle ∨ s.st = .done) (hc : s.errcode = none) (he : s.engine = .idle) :
    s.statusConsistent := by
  rcases hs with hs | hs <;> simp [State.statusConsistent, hs, hc, he]

/-- Outside ERR there is no error code. -/
theorem State.statusConsistent.errcode_eq_none {s : State} (h : s.statusConsistent) (hs : s.st ≠ .err) : s.errcode = none :=
  not_not.1 fun hc => hs (h.1.2 hc)

theorem State.statusConsistent.engine_eq_idle {s : State} (h : s.statusConsistent) (hs : s.st ≠ .busy) : s.engine = .idle :=
  not_not.1 fun he => hs (h.2.2 he)

theorem takeError_statusConsistent (k : Scope) (e : ErrorKind) (s : State) : (takeError k e s).statusConsistent :=
  statusConsistent_of_err rfl (by simp) rfl

theorem complete_statusConsistent {s : State} (hc : s.errcode = none) : (complete s).statusConsistent :=
  statusConsistent_of_rest (.inr rfl) hc rfl

theorem simpleEffect_statusConsistent {s t : State} (h : s.statusConsistent) (hs : s.st = .idle ∨ s.st = .done)
    (he : SimpleEffect s t) : t.statusConsistent := by
  have hc : s.errcode = none := h.errcode_eq_none (by rcases hs with hs | hs <;> simp [hs])
  cases he with
  | error e => exact takeError_statusConsistent _ e s
  | clr => exact statusConsistent_of_rest (.inl rfl) rfl (h.engine_eq_idle (by rcases hs with hs | hs <;> simp [hs]))
  | nop => exact complete_statusConsistent hc
  | newbm => exact complete_statusConsistent hc
  | setpx => exact complete_statusConsistent hc
  | result => exact complete_statusConsistent hc
  | results => exact complete_statusConsistent hc
  | conv => exact complete_statusConsistent hc
  | palmap => exact complete_statusConsistent hc

theorem startEffect_statusConsistent {s u : State} {k : Scope} (h : s.statusConsistent) (hs : s.st = .idle ∨ s.st = .done)
    (he : StartEffect s k u) : u.statusConsistent := by
  have hc : s.errcode = none := h.errcode_eq_none (by rcases hs with hs | hs <;> simp [hs])
  cases he with
  | error _ e => exact takeError_statusConsistent k e s
  | bmp => exact statusConsistent_of_busy rfl hc (by simp)
  | png => exact statusConsistent_of_busy rfl hc (by simp)
  | ico => exact statusConsistent_of_busy rfl hc (by simp)
  | inflate => exact statusConsistent_of_busy rfl hc (by simp)
  | unfilt => exact statusConsistent_of_busy rfl hc (by simp)
  | unfiltNone => exact complete_statusConsistent hc

theorem enterRows_statusConsistent {s t : State} {c : RowCtx} (ht : enterRows s c = .ok t) (hc : s.errcode = none) :
    t.statusConsistent := by
  rcases enterRows_eq_ok.1 ht with ⟨-, rfl⟩ | ⟨-, -, rfl⟩ | ⟨-, p, -, hf⟩
  · exact statusConsistent_of_busy rfl hc (by simp)
  · exact complete_statusConsistent hc
  · obtain ⟨m, -, -, rfl⟩ := pngFinish_writes hf
    exact complete_statusConsistent hc

theorem streamEffect_statusConsistent {s t : State} (h : s.statusConsistent) (hs : s.st = .busy) (he : StreamEffect s t) :
    t.statusConsistent := by
  have hc : s.errcode = none := h.errcode_eq_none (by simp [hs])
  cases he with
  | error e => exact takeError_statusConsistent _ e s
  | payloadPng => exact statusConsistent_of_busy rfl hc (by simp)
  | payloadBmp => exact statusConsistent_of_busy hs hc (by simp)
  | header => exact statusConsistent_of_busy hs hc (by simp)
  | pixels => exact complete_statusConsistent hc
  | ihdr => exact statusConsistent_of_busy hs hc (by simp)
  | chunk => exact statusConsistent_of_busy hs hc (by simp)
  | iend => exact statusConsistent_of_busy hs hc (by simp)
  | block => exact statusConsistent_of_busy hs hc (by simp)
  | inflated => exact complete_statusConsistent hc
  | decompressed c rout p t _ _ _ ht => exact enterRows_statusConsistent ht hc
  | row c z t _ _ ht => exact enterRows_statusConsistent ht hc

/-- Settles O8: ERRCODE is written where ST becomes ERR or IDLE, and the engine is idle exactly where ST leaves BUSY. -/
theorem stepKeepsStatusConsistent : Obligations.StepKeepsStatusConsistent := by
  unfold Obligations.StepKeepsStatusConsistent
  intro s t hs ht
  refine step_keeps ?script ?simple ?start ?stream ?clr ?reg ?mem ?read ?reset hs ht
  case script => exact fun s rest h => h
  case simple => exact fun s t h hs he => simpleEffect_statusConsistent h hs he
  case start => exact fun s k u h hs he => startEffect_statusConsistent h hs he
  case stream => exact fun s t h hs he => streamEffect_statusConsistent h hs he
  case clr => exact fun s h hs => statusConsistent_of_rest (.inl rfl) rfl (h.engine_eq_idle (by simp [hs]))
  case reg => exact fun s r v h => by simpa only [State.statusConsistent, writeReg_st, writeReg_errcode, writeReg_engine] using h
  case mem =>
    exact fun s sp n i v h _ _ => by
      simpa only [State.statusConsistent, writeSpace_st, writeSpace_errcode, writeSpace_engine] using h
  case read => exact fun s v h => h
  case reset => exact fun s _ => statusConsistent_of_rest (.inl rfl) rfl rfl

/-! ## Registers, Bitmap, memories and the command in flight stay within bounds -/

@[simp] theorem atMost_unspecified (most : Nat) : Reg.unspecified.atMost most := trivial

theorem atMost_regOf {v most : Nat} (h : v ≤ most) : (regOf v).atMost most := (regOf_toNat_le v).trans h

@[simp] theorem isDepth_unspecified : Reg.unspecified.isDepth := trivial

theorem isDepth_depthReg {d : BitVec 8} (h : legalDepth d = true) : (depthReg d).isDepth := by
  simp only [legalDepth, Bool.or_eq_true, beq_iff_eq] at h
  rcases h with (((rfl | rfl) | rfl) | rfl) | rfl <;> simp [depthReg, Reg.isDepth]

/-- The Bitmap fits and is written where its size is at most the number of the pixels written. -/
theorem bitmapSound_of_written {s : State} {n : Nat} (hn : n ≤ s.cap.pmemPixels) (hm : ∀ k < n, memRead s.pmem k ≠ none)
    (hs : ∀ w h, s.bmW = .val w → s.bmH = .val h → w.toNat * h.toNat ≤ n) : s.bitmapSound := by
  unfold State.bitmapSound bitmapSize
  cases hw : s.bmW with
  | unspecified => trivial
  | val w =>
    cases hh : s.bmH with
    | unspecified => trivial
    | val h =>
      have := hs w h hw hh
      exact ⟨this.trans hn, fun k hk => hm k (hk.trans_le this)⟩

/-- The Bitmap stays sound where its size stays and PMEM keeps what it holds. -/
theorem bitmapSound_mono {s t : State} (h : s.bitmapSound) (hw : t.bmW = s.bmW) (hh : t.bmH = s.bmH) (hc : t.cap = s.cap)
    (hm : ∀ k, memRead s.pmem k ≠ none → memRead t.pmem k ≠ none) : t.bitmapSound := by
  have hsize : bitmapSize t = bitmapSize s := by rw [bitmapSize, bitmapSize, hw, hh]
  unfold State.bitmapSound at *
  rw [hsize, hc]
  cases hn : bitmapSize s with
  | none => trivial
  | some n =>
    rw [hn] at h
    exact ⟨h.1, fun k hk => hm k (h.2 k hk)⟩

theorem bitmapSound_of_unspecified {s : State} (h : s.bmW = .unspecified) : s.bitmapSound := by
  simp [State.bitmapSound, bitmapSize, h]

/-- The bounds, and which capacities they refer to. -/
def BoundedBy (cap : Capacities) (s : State) : Prop := s.bounded ∧ s.cap = cap

variable {cap : Capacities}

theorem takeError_bounded {s : State} (h : BoundedBy cap s) (k : Scope) (e : ErrorKind) : BoundedBy cap (takeError k e s) := by
  obtain ⟨⟨⟨hil, hip, hw, hh, hd, hn, hz, hsel⟩, hbm, ⟨mi, mz, mp, ml, mx⟩, -⟩, rfl⟩ := h
  obtain ⟨rowNothing, rowDecbmp, rowDecpng, rowDecico, rowInflate, rowUnfilt⟩ := errorEntryLeavesItsRow e s
  cases k with
  | nothing =>
    rw [rowNothing]
    exact ⟨⟨⟨hil, hip, hw, hh, hd, hn, hz, hsel⟩, hbm, ⟨mi, mz, mp, ml, mx⟩, trivial⟩, rfl⟩
  | decbmp =>
    rw [rowDecbmp]
    exact ⟨⟨⟨hil, trivial, trivial, trivial, trivial, trivial, hz, hsel⟩, bitmapSound_of_unspecified rfl,
      ⟨mi, mz, memWithin_nil _, memWithin_nil _, mx⟩, trivial⟩, rfl⟩
  | decpng =>
    rw [rowDecpng]
    exact ⟨⟨⟨hil, trivial, trivial, trivial, trivial, hn, trivial, hsel⟩, bitmapSound_of_unspecified rfl,
      ⟨mi, memWithin_nil _, memWithin_nil _, ml, mx⟩, trivial⟩, rfl⟩
  | decico =>
    rw [rowDecico]
    exact ⟨⟨⟨hil, trivial, trivial, trivial, trivial, trivial, trivial, trivial⟩, bitmapSound_of_unspecified rfl,
      ⟨mi, memWithin_nil _, memWithin_nil _, memWithin_nil _, mx⟩, trivial⟩, rfl⟩
  | inflate =>
    rw [rowInflate]
    exact ⟨⟨⟨hil, trivial, hw, hh, hd, hn, trivial, hsel⟩, hbm, ⟨mi, memWithin_nil _, mp, ml, mx⟩, trivial⟩, rfl⟩
  | unfilt =>
    rw [rowUnfilt]
    exact ⟨⟨⟨hil, hip, hw, hh, hd, hn, hz, hsel⟩, hbm, ⟨mi, memWithin_nil _, mp, ml, mx⟩, trivial⟩, rfl⟩

/-- The size of a sound Bitmap fits PMEM. -/
theorem bitmapSound_fits {s : State} {w h : Word} (hb : s.bitmapSound) (hw : s.bmW = .val w) (hh : s.bmH = .val h) :
    w.toNat * h.toNat ≤ s.cap.pmemPixels := by
  simp only [State.bitmapSound, bitmapSize, hw, hh] at hb
  exact hb.1

theorem simpleEffect_bounded {s t : State} (h : BoundedBy cap s) (he : SimpleEffect s t) : BoundedBy cap t := by
  have hs := h
  obtain ⟨⟨⟨hil, hip, hw, hh, hd, hn, hz, hsel⟩, hbm, ⟨mi, mz, mp, ml, mx⟩, heng⟩, rfl⟩ := h
  cases he with
  | error e => exact takeError_bounded hs _ e
  | nop => exact ⟨⟨⟨hil, hip, hw, hh, hd, hn, hz, hsel⟩, hbm, ⟨mi, mz, mp, ml, mx⟩, trivial⟩, rfl⟩
  | clr => exact ⟨⟨⟨hil, hip, hw, hh, hd, hn, hz, hsel⟩, hbm, ⟨mi, mz, mp, ml, mx⟩, heng⟩, rfl⟩
  | newbm d hleg hf =>
    obtain ⟨h0, h1, hfit⟩ := hf
    have hle0 : s.arg0.toNat ≤ s.cap.pmemPixels := (Nat.le_mul_of_pos_right _ h1).trans hfit
    have hle1 : s.arg1.toNat ≤ s.cap.pmemPixels := (Nat.le_mul_of_pos_left _ h0).trans hfit
    refine ⟨⟨⟨hil, hip, hle0, hle1, isDepth_depthReg hleg, hn, hz, hsel⟩, ?bitmap,
      ⟨mi, mz, memWithin_memWriteRun mp (by simpa using hfit), ml, mx⟩, trivial⟩, rfl⟩
    case bitmap =>
      refine bitmapSound_of_written (n := s.arg0.toNat * s.arg1.toNat) hfit (fun k hk => ?_) (fun w h hw hh => ?_)
      · simp [memRead_memWriteRun, hk]
      · cases hw; cases hh; exact le_rfl
  | setpx w h i hw' hh' hi =>
    refine ⟨⟨⟨hil, hip, hw, hh, hd, hn, hz, hsel⟩, bitmapSound_mono hbm rfl rfl rfl fun k hk => ?_,
      ⟨mi, mz, memWithin_memWrite mp (hi.trans_le (bitmapSound_fits (s := s) hbm hw' hh')), ml, mx⟩, trivial⟩, rfl⟩
    exact (written_memWrite _ _ (Nat.lt_succ_self i)).kept k hk
  | result => exact ⟨⟨⟨hil, hip, hw, hh, hd, hn, hz, hsel⟩, hbm, ⟨mi, mz, mp, ml, mx⟩, trivial⟩, rfl⟩
  | results => exact ⟨⟨⟨hil, hip, hw, hh, hd, hn, hz, hsel⟩, hbm, ⟨mi, mz, mp, ml, mx⟩, trivial⟩, rfl⟩
  | conv d pmem hleg hwr =>
    exact ⟨⟨⟨hil, hip, hw, hh, isDepth_depthReg hleg, hn, hz, hsel⟩, bitmapSound_mono hbm rfl rfl rfl hwr.kept,
      ⟨mi, mz, hwr.within _ (Nat.zero_le _) mp, ml, mx⟩, trivial⟩, rfl⟩
  | palmap w h xmem hw' hh' hwr =>
    exact ⟨⟨⟨hil, hip, hw, hh, hd, hn, hz, hsel⟩, hbm,
      ⟨mi, mz, mp, ml, hwr.within _ (bitmapSound_fits (s := s) hbm hw' hh') mx⟩, trivial⟩, rfl⟩

theorem startEffect_bounded {s u : State} {k : Scope} (h : BoundedBy cap s) (he : StartEffect s k u) : BoundedBy cap u := by
  have hs := h
  obtain ⟨⟨⟨hil, hip, hw, hh, hd, hn, hz, hsel⟩, hbm, hmem, -⟩, rfl⟩ := h
  cases he with
  | error _ e => exact takeError_bounded hs k e
  | bmp d hleg => exact ⟨⟨⟨hil, hip, hw, hh, hd, hn, hz, hsel⟩, hbm, hmem, hleg, hil⟩, rfl⟩
  | png d hleg => exact ⟨⟨⟨hil, hip, hw, hh, hd, hn, hz, hsel⟩, hbm, hmem, hleg, hil, by simp⟩, rfl⟩
  | ico d hleg r off lim hr _ hlim =>
    exact ⟨⟨⟨hil, hip, hw, hh, hd, hn, hz, hr.symm ▸ hsel⟩, hbm, hmem, hleg, hlim.trans hil⟩, rfl⟩
  | inflate =>
    exact ⟨⟨⟨hil, hip, hw, hh, hd, hn, hz, hsel⟩, hbm, hmem, Nat.zero_le _, fun _ => hil, by simp⟩, rfl⟩
  | unfilt => exact ⟨⟨⟨hil, hip, hw, hh, hd, hn, hz, hsel⟩, hbm, hmem, by simp [Engine.sound]⟩, rfl⟩
  | unfiltNone => exact ⟨⟨⟨hil, hip, hw, hh, hd, hn, hz, hsel⟩, hbm, hmem, trivial⟩, rfl⟩

/-- The Bitmap a decode writes back: its size fits, and every pixel of it was written. -/
theorem decoded_bounded {s : State} {w h pos : Nat} {pmem : Mem 32} {d : BitVec 8} (hs : BoundedBy cap s) (hw : 1 ≤ w) (hh : 1 ≤ h)
    (hfit : w * h ≤ cap.pmemPixels) (hpos : pos ≤ cap.imemBytes) (hd : legalDepth d = true) (hpm : Written s.pmem pmem (w * h))
    (hall : ∀ k < w * h, memRead pmem k ≠ none) :
    BoundedBy cap (complete { s with
      pmem := pmem, bmW := regOf w, bmH := regOf h, bmD := depthReg d, ipos := regOf pos }) := by
  obtain ⟨⟨⟨hil, -, -, -, -, hn, hz, hsel⟩, -, ⟨mi, mz, mp, ml, mx⟩, -⟩, rfl⟩ := hs
  have hlew : w ≤ s.cap.pmemPixels := (Nat.le_mul_of_pos_right _ hh).trans hfit
  have hleh : h ≤ s.cap.pmemPixels := (Nat.le_mul_of_pos_left _ hw).trans hfit
  refine ⟨⟨⟨hil, atMost_regOf hpos, atMost_regOf hlew, atMost_regOf hleh, isDepth_depthReg hd, hn, hz, hsel⟩, ?bitmap,
    ⟨mi, mz, hpm.within _ hfit mp, ml, mx⟩, trivial⟩, rfl⟩
  case bitmap =>
    refine bitmapSound_of_written hfit hall fun a b ha hb => ?_
    cases ha; cases hb
    exact Nat.mul_le_mul (regOf_toNat_le w) (regOf_toNat_le h)

theorem enterRows_bounded {s t : State} {c : RowCtx} (ht : enterRows s c = .ok t) (h : BoundedBy cap s)
    (hp : ∀ p, c.png = some p → p.sound cap) : BoundedBy cap t := by
  rcases enterRows_eq_ok.1 ht with ⟨-, rfl⟩ | ⟨-, -, rfl⟩ | ⟨-, p, hc, hf⟩
  · obtain ⟨⟨hreg, hbm, hmem, -⟩, rfl⟩ := h
    exact ⟨⟨hreg, hbm, hmem, hp⟩, rfl⟩
  · obtain ⟨⟨hreg, hbm, hmem, -⟩, rfl⟩ := h
    exact ⟨⟨hreg, hbm, hmem, trivial⟩, rfl⟩
  · obtain ⟨m, hw, hall, rfl⟩ := pngFinish_writes hf
    obtain ⟨⟨h1, h2, hfit⟩, hleg, hpos⟩ := hp p hc
    exact decoded_bounded h h1 h2 hfit hpos hleg hw hall

/-- The end of a decompression: its output is in ZMEM, its length in ZLEN. -/
theorem output_bounded {s : State} {rout : List Byte} (h : BoundedBy cap s) (hr : rout.length ≤ cap.zmemBytes) :
    BoundedBy cap { s with zmem := memWriteRun s.zmem 0 rout.reverse, zlen := regOf rout.length } := by
  obtain ⟨⟨⟨hil, hip, hw, hh, hd, hn, -, hsel⟩, hbm, ⟨mi, mz, mp, ml, mx⟩, heng⟩, rfl⟩ := h
  exact ⟨⟨⟨hil, hip, hw, hh, hd, hn, atMost_regOf hr, hsel⟩, hbm,
    ⟨mi, memWithin_memWriteRun mz (by simpa using hr), mp, ml, mx⟩, heng⟩, rfl⟩

theorem streamEffect_bounded {s t : State} (h : BoundedBy cap s) (he : StreamEffect s t) : BoundedBy cap t := by
  have hs := h
  obtain ⟨⟨⟨hil, hip, hw, hh, hd, hn, hz, hsel⟩, hbm, hmem, heng⟩, rfl⟩ := h
  obtain ⟨mi, mz, mp, ml, mx⟩ := hmem
  have sound : ∀ e, s.engine = e → e.sound s.cap := fun _ h => h ▸ heng
  cases he with
  | error e => exact takeError_bounded hs _ e
  | payloadPng c hc =>
    obtain ⟨hleg, hlim⟩ := sound _ hc
    exact ⟨⟨⟨hil, hip, hw, hh, hd, hn, hz, atMost_regOf le_rfl⟩, hbm, ⟨mi, mz, mp, ml, mx⟩, hleg, hlim, by simp⟩, rfl⟩
  | payloadBmp c hc =>
    obtain ⟨hleg, hlim⟩ := sound _ hc
    exact ⟨⟨⟨hil, hip, hw, hh, hd, hn, hz, atMost_regOf (Nat.zero_le _)⟩, hbm, ⟨mi, mz, mp, ml, mx⟩, hleg, hlim⟩, rfl⟩
  | header c b hc hb =>
    subst hb
    exact ⟨⟨⟨hil, hip, hw, hh, hd, hn, hz, hsel⟩, hbm, ⟨mi, mz, mp, ml, mx⟩, sound (.header b.ctx) hc⟩, rfl⟩
  | pixels c w h bits pos pal pmem paln bmp hc hfit hpos _ hpal hpaln hpm hall =>
    obtain ⟨hleg, hlim⟩ := sound _ hc
    have hn' : paln.atMost 256 := by
      rcases hpaln with ⟨-, -, rfl⟩ | ⟨-, n, hle, rfl⟩
      · exact hn
      · exact atMost_regOf hle
    have htable : BoundedBy s.cap { s with pal := pal, paln := paln, bmp := bmp } :=
      ⟨⟨⟨hil, hip, hw, hh, hd, hn', hz, hsel⟩, hbm, ⟨mi, mz, mp, hpal.within _ le_rfl ml, mx⟩, heng⟩, rfl⟩
    exact decoded_bounded htable hfit.1 hfit.2.1 hfit.2.2 (hpos.trans hlim) hleg hpm hall
  | ihdr c len hdr png hc _ hfit =>
    obtain ⟨hleg, hlim, -⟩ := sound _ hc
    exact ⟨⟨⟨hil, hip, hw, hh, hd, hn, hz, hsel⟩, hbm, ⟨mi, mz, mp, ml, mx⟩, hleg, hlim, fun _ h => Option.some.inj h ▸ hfit⟩, rfl⟩
  | chunk c len idat hc =>
    obtain ⟨hleg, hlim, hf⟩ := sound _ hc
    exact ⟨⟨⟨hil, hip, hw, hh, hd, hn, hz, hsel⟩, hbm, ⟨mi, mz, mp, ml, mx⟩, hleg, hlim, hf⟩, rfl⟩
  | iend c len hdr png hc hl hsome =>
    obtain ⟨hleg, hlim, hf⟩ := sound _ hc
    refine ⟨⟨⟨hil, hip, hw, hh, hd, hn, hz, hsel⟩, hbm, ⟨mi, mz, mp, ml, mx⟩, Nat.zero_le _, by simp, fun p hp => ?_⟩, rfl⟩
    cases hp
    exact ⟨hf hdr hsome, hleg, hl.trans hlim⟩
  | block c bp rout hc _ hr =>
    obtain ⟨hout, hsrc, hp⟩ := sound _ hc
    exact ⟨⟨⟨hil, hip, hw, hh, hd, hn, hz, hsel⟩, hbm, ⟨mi, mz, mp, ml, mx⟩, hr hout, hsrc, hp⟩, rfl⟩
  | inflated c rout pos hc hnone hpos hr =>
    obtain ⟨hout, hsrc, -⟩ := sound _ hc
    obtain ⟨⟨⟨hil, -, hw, hh, hd, hn, hz, hsel⟩, hbm, hmem, -⟩, -⟩ := output_bounded hs (hr hout)
    exact ⟨⟨⟨hil, atMost_regOf (hpos.trans (hsrc hnone)), hw, hh, hd, hn, hz, hsel⟩, hbm, hmem, trivial⟩, rfl⟩
  | decompressed c rout p t hc hsome hr ht =>
    obtain ⟨hout, -, hp⟩ := sound _ hc
    exact enterRows_bounded ht (output_bounded hs (hr hout)) fun q hq => hp q (hsome.trans hq)
  | row c z t hc hw' ht =>
    exact enterRows_bounded ht
      ⟨⟨⟨hil, hip, hw, hh, hd, hn, hz, hsel⟩, hbm, ⟨mi, hw'.within _ (Nat.zero_le _) mz, mp, ml, mx⟩, heng⟩, rfl⟩ (sound _ hc)

theorem writeReg_bounded {s : State} (h : BoundedBy cap s) (r : RegName) (v : Word) : BoundedBy cap (writeReg s r v) := by
  have hs := h
  obtain ⟨⟨⟨hil, hip, hw, hh, hd, hn, hz, hsel⟩, hbm, hmem, heng⟩, rfl⟩ := h
  cases r with
  | ilen => exact ⟨⟨⟨clamp_le v _, hip, hw, hh, hd, hn, hz, hsel⟩, hbm, hmem, heng⟩, rfl⟩
  | paln => exact ⟨⟨⟨hil, hip, hw, hh, hd, clamp_le v _, hz, hsel⟩, hbm, hmem, heng⟩, rfl⟩
  | zlen => exact ⟨⟨⟨hil, hip, hw, hh, hd, hn, clamp_le v _, hsel⟩, hbm, hmem, heng⟩, rfl⟩
  | _ => exact hs

theorem writeSpace_bounded {s : State} (h : BoundedBy cap s) (sp : Space) (n i : Nat) (v : Word)
    (h1 : spaceUnit sp = 1 → i + n ≤ spaceSize s.cap sp) (h4 : spaceUnit sp = 4 → i < spaceSize s.cap sp) :
    BoundedBy cap (writeSpace s sp n i v) := by
  obtain ⟨⟨hreg, hbm, ⟨mi, mz, mp, ml, mx⟩, heng⟩, rfl⟩ := h
  cases sp with
  | imem => exact ⟨⟨hreg, hbm, ⟨memWithin_writeLE mi _ _ _ (h1 rfl), mz, mp, ml, mx⟩, heng⟩, rfl⟩
  | zmem => exact ⟨⟨hreg, hbm, ⟨mi, memWithin_writeLE mz _ _ _ (h1 rfl), mp, ml, mx⟩, heng⟩, rfl⟩
  | pmem =>
    refine ⟨⟨hreg, bitmapSound_mono hbm rfl rfl rfl fun k hk => ?_, ⟨mi, mz, memWithin_memWrite mp (h4 rfl), ml, mx⟩, heng⟩, rfl⟩
    exact (written_memWrite _ _ (Nat.lt_succ_self i)).kept k hk
  | pal => exact ⟨⟨hreg, hbm, ⟨mi, mz, mp, memWithin_memWrite ml (h4 rfl), mx⟩, heng⟩, rfl⟩
  | xmem => exact ⟨⟨hreg, hbm, ⟨mi, mz, mp, ml, memWithin_writeLE mx _ _ _ (h1 rfl)⟩, heng⟩, rfl⟩

theorem resetWith_bounded (c : Capacities) : (State.resetWith c).bounded := by
  have hz : ∀ n, Reg.zero.atMost n := fun n => Nat.zero_le n
  exact ⟨⟨Nat.zero_le _, hz _, hz _, hz _, .inl rfl, hz _, hz _, hz _⟩,
    bitmapSound_of_written (Nat.zero_le _) (by simp) (fun w h hw hh => by cases hw; cases hh; simp),
    ⟨memWithin_nil _, memWithin_nil _, memWithin_nil _, memWithin_nil _, memWithin_nil _⟩, trivial⟩

/-- Settles O9: the invariant holds the capacities of the state before, and every case of a step keeps both. -/
theorem stepKeepsBounded : Obligations.StepKeepsBounded := by
  unfold Obligations.StepKeepsBounded
  intro s t hs ht
  refine step_keeps (P := BoundedBy s.cap) ?script ?simple ?start ?stream ?clr ?reg ?mem ?read ?reset ⟨hs, rfl⟩ ht
  case script => exact fun s rest h => h
  case simple => exact fun s t h _ he => simpleEffect_bounded h he
  case start => exact fun s k u h _ he => startEffect_bounded h he
  case stream => exact fun s t h _ he => streamEffect_bounded h he
  case clr => exact fun s h _ => simpleEffect_bounded h .clr
  case reg => exact fun s r v h => writeReg_bounded h r v
  case mem => exact fun s sp n i v h h1 h4 => writeSpace_bounded h sp n i v h1 h4
  case read => exact fun s v h => h
  case reset => exact fun u h => ⟨resetWith_bounded u.cap, h.2⟩

/-! ## Reset -/

/-- Settles O10: empty memories, no error and no command in flight, every register 0. -/
theorem resetIsSafe : Obligations.ResetIsSafe := by
  unfold Obligations.ResetIsSafe
  exact fun c => ⟨resetWith_memWf c, statusConsistent_of_rest (.inl rfl) rfl rfl, resetWith_bounded c⟩

/-- Settles O12: a pending `rst` is the whole of its step, whatever ST is. -/
theorem resetPinWorksInEveryState : Obligations.ResetPinWorksInEveryState := by
  unfold Obligations.ResetPinWorksInEveryState
  intro s rest hs
  simp only [step, hs, hostStep, resetBlock]

end Sys2Proof.Machine

/-! SUPPORT. Commands as a whole: what they leave alone, what a failed one loses, and that they end (30_encoding R93,
60_exceptions R325, 70_reset R368). -/

namespace Sys2Proof.Machine

/-! ## The input and the model's own fields -/

/-- IMEM, ILEN, the operands, CTRL, the capacities and the model's own fields are the same. -/
def SameInput (s t : State) : Prop :=
  t.imem = s.imem ∧ t.ilen = s.ilen ∧ t.arg0 = s.arg0 ∧ t.arg1 = s.arg1 ∧ t.arg2 = s.arg2 ∧ t.ie = s.ie ∧ t.cap = s.cap ∧
  t.script = s.script ∧ t.rdata = s.rdata ∧ t.fresh = s.fresh

theorem SameInput.refl (s : State) : SameInput s s := ⟨rfl, rfl, rfl, rfl, rfl, rfl, rfl, rfl, rfl, rfl⟩

theorem SameInput.trans {s t u : State} (h : SameInput s t) (h' : SameInput t u) : SameInput s u := by
  obtain ⟨a1, a2, a3, a4, a5, a6, a7, a8, a9, a10⟩ := h
  obtain ⟨b1, b2, b3, b4, b5, b6, b7, b8, b9, b10⟩ := h'
  exact ⟨b1.trans a1, b2.trans a2, b3.trans a3, b4.trans a4, b5.trans a5, b6.trans a6, b7.trans a7, b8.trans a8, b9.trans a9,
    b10.trans a10⟩

theorem takeError_sameInput (k : Scope) (e : ErrorKind) (s : State) : SameInput s (takeError k e s) := by
  simp only [SameInput, takeError_imem, takeError_ilen, takeError_arg0, takeError_arg1, takeError_arg2, takeError_ie, takeError_cap,
    takeError_script, takeError_rdata, takeError_fresh, and_self]

theorem simpleEffect_sameInput {s t : State} (he : SimpleEffect s t) : SameInput s t := by
  cases he with
  | error e => exact takeError_sameInput _ e s
  | nop => exact SameInput.refl s
  | clr => exact SameInput.refl s
  | newbm => exact SameInput.refl s
  | setpx => exact SameInput.refl s
  | result => exact SameInput.refl s
  | results => exact SameInput.refl s
  | conv => exact SameInput.refl s
  | palmap => exact SameInput.refl s

theorem startEffect_sameInput {s u : State} {k : Scope} (he : StartEffect s k u) : SameInput s u := by
  cases he with
  | error _ e => exact takeError_sameInput k e s
  | bmp => exact SameInput.refl s
  | png => exact SameInput.refl s
  | ico => exact SameInput.refl s
  | inflate => exact SameInput.refl s
  | unfilt => exact SameInput.refl s
  | unfiltNone => exact SameInput.refl s

theorem enterRows_sameInput {s t : State} {c : RowCtx} (ht : enterRows s c = .ok t) : SameInput s t := by
  rcases enterRows_eq_ok.1 ht with ⟨-, rfl⟩ | ⟨-, -, rfl⟩ | ⟨-, p, -, hf⟩
  · exact SameInput.refl s
  · exact SameInput.refl s
  · obtain ⟨m, -, -, rfl⟩ := pngFinish_writes hf
    exact SameInput.refl s

theorem streamEffect_sameInput {s t : State} (he : StreamEffect s t) : SameInput s t := by
  cases he with
  | error e => exact takeError_sameInput _ e s
  | payloadPng => exact SameInput.refl s
  | payloadBmp => exact SameInput.refl s
  | header => exact SameInput.refl s
  | pixels => exact SameInput.refl s
  | ihdr => exact SameInput.refl s
  | chunk => exact SameInput.refl s
  | iend => exact SameInput.refl s
  | block => exact SameInput.refl s
  | inflated => exact SameInput.refl s
  | decompressed c rout p t _ _ _ ht => exact (enterRows_sameInput ht :)
  | row c z t _ _ ht => exact (enterRows_sameInput ht :)

/-- What every stream step adds to, a run of the engine adds to. -/
theorem runEngine_sameInput {n : Nat} {s t : State} (h : runEngine n s = .next t) : SameInput s t :=
  runEngine_keeps (P := SameInput s) (fun _ _ _ hp he => hp.trans (streamEffect_sameInput (engineStep_effect he)))
    (SameInput.refl s) h

/-- Settles O16: no effect of a command, of a start or of a stream step has a new value for any of these fields. -/
theorem inputIsNeverWritten : Obligations.InputIsNeverWritten := by
  unfold Obligations.InputIsNeverWritten
  intro i s t h
  by_cases hi : i.format = .command
  case pos =>
    rcases execCommand_effect hi h with he | ⟨u, hu, hr⟩
    · exact simpleEffect_sameInput he
    · exact (startEffect_sameInput hu).trans (runEngine_sameInput hr)
  case neg =>
    rw [exec_eq_execStream hi] at h
    exact streamEffect_sameInput (execStream_effect h)

/-! ## A command and its row of the table of 60_exceptions R325 -/

/-- The states agree but for ST, ERRCODE, the engine and what the row lists: an error taken with that row makes them one. -/
def AgreesOutside (k : Scope) (s t : State) : Prop := ∀ e, takeError k e t = takeError k e s

theorem AgreesOutside.trans {k : Scope} {s t u : State} (h : AgreesOutside k s t) (h' : AgreesOutside k t u) : AgreesOutside k s u :=
  fun e => (h' e).trans (h e)

theorem agreesOutside_takeError (k : Scope) (e : ErrorKind) (s : State) : AgreesOutside k s (takeError k e s) :=
  fun e' => clobber_takeError k e' e s

/-- The rows of a PNG decode list the Bitmap, ZMEM, ZLEN, PNG_* and IPOS. -/
theorem agreesOutside_pngScope (b : Bool) (s : State) (pmem : Mem 32) (zmem : Mem 8) (bmW bmH bmD zlen ipos : Reg) (png : PngRegs)
    (e : Engine) (st : Status) : AgreesOutside (pngScope b) s { s with
      pmem := pmem, zmem := zmem, bmW := bmW, bmH := bmH, bmD := bmD, zlen := zlen, ipos := ipos, png := png, engine := e, st := st } := by
  intro err
  cases b <;>
    simp only [pngScope, Bool.false_eq_true, if_false, if_true, takeError, clobber, loseBitmap, loseBmp, loseZmem, losePng, loseIco, loseIpos]

/-- The rows of a BMP decode list the Bitmap, PAL, PALN, BMP_* and IPOS. -/
theorem agreesOutside_bmpScope (b : Bool) (s : State) (pmem pal : Mem 32) (bmW bmH bmD paln ipos : Reg) (bmp : BmpRegs)
    (e : Engine) (st : Status) : AgreesOutside (bmpScope b) s { s with
      pmem := pmem, pal := pal, bmW := bmW, bmH := bmH, bmD := bmD, paln := paln, ipos := ipos, bmp := bmp, engine := e, st := st } := by
  intro err
  cases b <;>
    simp only [bmpScope, Bool.false_eq_true, if_false, if_true, takeError, clobber, loseBitmap, loseBmp, loseZmem, losePng, loseIco, loseIpos]

/-- The row of a DECICO lists ICO_*. -/
theorem agreesOutside_decico (s : State) (ico : IcoRegs) (e : Engine) (st : Status) :
    AgreesOutside .decico s { s with ico := ico, engine := e, st := st } := by
  intro err
  simp only [takeError, clobber, loseBitmap, loseBmp, loseZmem, losePng, loseIco, loseIpos]

theorem agreesOutside_inflate (s : State) (zmem : Mem 8) (zlen ipos : Reg) (e : Engine) (st : Status) :
    AgreesOutside .inflate s { s with zmem := zmem, zlen := zlen, ipos := ipos, engine := e, st := st } := by
  intro err
  simp only [takeError, clobber, loseZmem, loseIpos]

theorem agreesOutside_unfilt (s : State) (zmem : Mem 8) (e : Engine) (st : Status) :
    AgreesOutside .unfilt s { s with zmem := zmem, engine := e, st := st } := by
  intro err
  simp only [takeError, clobber]

/-- No row minds the engine or ST. -/
theorem agreesOutside_engine (k : Scope) (s : State) (e : Engine) (st : Status) :
    AgreesOutside k s { s with engine := e, st := st } := by
  intro err
  cases k <;> simp only [takeError, clobber, loseBitmap, loseBmp, loseZmem, losePng, loseIco, loseIpos]

/-! ## The row of the command in flight -/

/-- Entering the scanlines of UNFILT stays within its row, entering those of a PNG within the row of its decode. -/
theorem enterRows_agreesOutside {s u t : State} {c : RowCtx} (ht : enterRows u c = .ok t) {z : Mem 8} {zlen : Reg}
    (hu : u = { s with zmem := z, zlen := zlen }) (hz : c.png = none → zlen = s.zlen) :
    AgreesOutside (engineScope (.rows c)) s t := by
  subst hu
  cases hp : c.png with
  | none =>
    have hs : engineScope (.rows c) = .unfilt := by simp only [engineScope, hp]
    rw [hs]
    obtain rfl := hz hp
    rcases enterRows_eq_ok.1 ht with ⟨-, rfl⟩ | ⟨-, -, rfl⟩ | ⟨-, p, hp', -⟩
    · exact agreesOutside_unfilt s z _ _
    · exact agreesOutside_unfilt s z _ _
    · rw [hp] at hp'; cases hp'
  | some p =>
    have hs : engineScope (.rows c) = pngScope p.ico := by simp only [engineScope, hp]
    rw [hs]
    rcases enterRows_eq_ok.1 ht with ⟨-, rfl⟩ | ⟨-, hp', -⟩ | ⟨-, q, -, hf⟩
    · exact agreesOutside_pngScope p.ico s s.pmem z s.bmW s.bmH s.bmD zlen s.ipos s.png _ _
    · rw [hp] at hp'; cases hp'
    · obtain ⟨m, -, -, rfl⟩ := pngFinish_writes hf
      exact agreesOutside_pngScope p.ico s m z _ _ _ zlen _ s.png _ _

/-- A stream step changes nothing outside the row of its command. -/
theorem streamEffect_agreesOutside {s t : State} (he : StreamEffect s t) : AgreesOutside (engineScope s.engine) s t := by
  cases he with
  | error e => exact agreesOutside_takeError _ e s
  | payloadPng c hc => rw [hc]; exact agreesOutside_decico s _ _ _
  | payloadBmp c hc => rw [hc]; exact agreesOutside_decico s _ _ s.st
  | header c b hc hb => exact agreesOutside_engine _ s _ s.st
  | pixels c w h bits pos pal pmem paln bmp hc =>
    rw [hc]
    exact agreesOutside_bmpScope c.ctx.ico s pmem pal _ _ _ paln _ bmp _ _
  | ihdr c len hdr png hc =>
    rw [hc]
    exact agreesOutside_pngScope c.ico s s.pmem s.zmem s.bmW s.bmH s.bmD s.zlen s.ipos png _ s.st
  | chunk => exact agreesOutside_engine _ s _ s.st
  | iend c len hdr png hc =>
    rw [hc]
    exact agreesOutside_pngScope c.ico s s.pmem s.zmem s.bmW s.bmH s.bmD s.zlen s.ipos png _ s.st
  | block => exact agreesOutside_engine _ s _ s.st
  | inflated c rout pos hc hnone =>
    have hs : engineScope s.engine = .inflate := by simp only [engineScope, hc, hnone]
    rw [hs]
    exact agreesOutside_inflate s _ _ _ _ _
  | decompressed c rout p t hc hsome _ ht =>
    have hs : engineScope s.engine = pngScope p.ico := by simp only [engineScope, hc, hsome]
    rw [hs]
    exact enterRows_agreesOutside ht rfl (by simp)
  | row c z t hc _ ht =>
    have hs : engineScope s.engine = engineScope (.rows { c with row := c.row + 1 }) := by simp only [engineScope, hc]
    rw [hs]
    exact enterRows_agreesOutside ht rfl (fun _ => rfl)

theorem enterRows_scope {s t : State} {c : RowCtx} (ht : enterRows s c = .ok t) (hb : t.st = .busy) :
    engineScope t.engine = engineScope (.rows c) := by
  rcases enterRows_eq_ok.1 ht with ⟨-, rfl⟩ | ⟨-, -, rfl⟩ | ⟨-, p, -, hf⟩
  · rfl
  · cases hb
  · obtain ⟨m, -, -, rfl⟩ := pngFinish_writes hf
    cases hb

/-- While a command is in flight its row stays the same. -/
theorem streamEffect_scope {s t : State} (he : StreamEffect s t) (hb : t.st = .busy) :
    engineScope t.engine = engineScope s.engine := by
  cases he with
  | error e => cases hb
  | payloadPng c hc => rw [hc]; rfl
  | payloadBmp c hc => rw [hc]; rfl
  | header c b hc h => subst h; rw [hc]; rfl
  | pixels => cases hb
  | ihdr c len hdr png hc => rw [hc]; rfl
  | chunk c len idat hc => rw [hc]; rfl
  | iend c len hdr png hc => rw [hc]; rfl
  | block c bp rout hc => rw [hc]; rfl
  | inflated => cases hb
  | decompressed c rout p t hc hsome _ ht => rw [enterRows_scope ht hb]; simp only [engineScope, hc, hsome]
  | row c z t hc _ ht => rw [enterRows_scope ht hb]; simp only [engineScope, hc]

/-- What a run of the engine that was begun in `s` with the row `k` has of `s`: a failure is an error of `s` taken with that row, a command in
flight has that row, and nothing outside it has changed. -/
structure RunsIn (k : Scope) (s t : State) : Prop where
  agrees : AgreesOutside k s t
  failed : t.st = .err → ∃ e, t = takeError k e s
  scope : t.st = .busy → engineScope t.engine = k
  errcode : t.st ≠ .err → t.errcode = s.errcode

theorem enterRows_status {s t : State} {c : RowCtx} (ht : enterRows s c = .ok t) : t.st ≠ .err ∧ t.errcode = s.errcode := by
  rcases enterRows_eq_ok.1 ht with ⟨-, rfl⟩ | ⟨-, -, rfl⟩ | ⟨-, p, -, hf⟩
  · exact ⟨by simp, rfl⟩
  · exact ⟨by simp, rfl⟩
  · obtain ⟨m, -, -, rfl⟩ := pngFinish_writes hf
    exact ⟨by simp, rfl⟩

/-- A stream step of a command in flight takes an error, or ERRCODE stays and the step does not end in ERR. -/
theorem streamEffect_status {s t : State} (hs : s.st = .busy) (he : StreamEffect s t) :
    (∃ e, t = takeError (engineScope s.engine) e s) ∨ (t.st ≠ .err ∧ t.errcode = s.errcode) := by
  cases he with
  | error e => exact .inl ⟨e, rfl⟩
  | payloadPng => exact .inr ⟨by simp, rfl⟩
  | payloadBmp => exact .inr ⟨by simp [hs], rfl⟩
  | header => exact .inr ⟨by simp [hs], rfl⟩
  | pixels => exact .inr ⟨by simp, rfl⟩
  | ihdr => exact .inr ⟨by simp [hs], rfl⟩
  | chunk => exact .inr ⟨by simp [hs], rfl⟩
  | iend => exact .inr ⟨by simp [hs], rfl⟩
  | block => exact .inr ⟨by simp [hs], rfl⟩
  | inflated => exact .inr ⟨by simp, rfl⟩
  | decompressed c rout p t _ _ _ ht => exact .inr (enterRows_status ht :)
  | row c z t _ _ ht => exact .inr (enterRows_status ht :)

theorem RunsIn.step {k : Scope} {s u t : State} (h : RunsIn k s u) (hb : u.st = .busy) (he : StreamEffect u t) : RunsIn k s t := by
  have hk := h.scope hb
  have hagree : AgreesOutside k s t := h.agrees.trans (hk ▸ streamEffect_agreesOutside he)
  rcases streamEffect_status hb he with ⟨e, rfl⟩ | ⟨hne, hcode⟩
  · rw [hk] at hagree ⊢
    exact ⟨hagree, fun _ => ⟨e, h.agrees e⟩, fun hb' => by simp at hb', fun hne => by simp at hne⟩
  · refine ⟨hagree, fun herr => absurd herr hne, fun hb' => (streamEffect_scope he hb').trans hk, fun _ => hcode.trans ?_⟩
    exact h.errcode (by simp [hb])

theorem startEffect_runsIn {s u : State} {k : Scope} (he : StartEffect s k u) : RunsIn k s u := by
  cases he with
  | error _ e => exact ⟨agreesOutside_takeError k e s, fun _ => ⟨e, rfl⟩, fun h => by simp at h, fun h => by simp at h⟩
  | bmp => exact ⟨agreesOutside_engine _ s _ _, fun h => by simp at h, fun _ => rfl, fun _ => rfl⟩
  | png => exact ⟨agreesOutside_engine _ s _ _, fun h => by simp at h, fun _ => rfl, fun _ => rfl⟩
  | ico d _ r => exact ⟨agreesOutside_decico s r _ _, fun h => by simp at h, fun _ => rfl, fun _ => rfl⟩
  | inflate => exact ⟨agreesOutside_engine _ s _ _, fun h => by simp at h, fun _ => rfl, fun _ => rfl⟩
  | unfilt => exact ⟨agreesOutside_engine _ s _ _, fun h => by simp at h, fun _ => rfl, fun _ => rfl⟩
  | unfiltNone => exact ⟨agreesOutside_engine _ s _ _, fun h => by simp at h, fun h => by simp at h, fun _ => rfl⟩

theorem runFromStart_runsIn {s u t : State} {k : Scope} (hu : StartEffect s k u) (hr : runEngine (engineWork u) u = .next t) :
    RunsIn k s t :=
  runEngine_keeps (P := RunsIn k s) (fun _ _ hb hp he => hp.step hb (engineStep_effect he)) (startEffect_runsIn hu) hr

/-- A command either has no row and runs in one go, or starts the engine and takes its errors with its row. -/
theorem execCommand_row {i : Instr} {s t : State} (hi : i.format = .command) (h : exec i s = .next t) :
    (failureScope i = .nothing ∧ SimpleEffect s t) ∨
    (failureScope i = startScope i ∧ ∃ u, StartEffect s (failureScope i) u ∧ runEngine (engineWork u) u = .next t) := by
  cases i with
  | decbmp d =>
    rcases execDecbmp_eq_next h with ⟨hd, rfl⟩ | ⟨hd, h⟩
    · exact .inl ⟨by simp [failureScope, hd], .error _⟩
    · exact .inr (by simpa [failureScope, startScope, hd] using h)
  | decpng d =>
    rcases execDecpng_eq_next h with ⟨hd, rfl⟩ | ⟨hd, h⟩
    · exact .inl ⟨by simp [failureScope, hd], .error _⟩
    · exact .inr (by simpa [failureScope, startScope, hd] using h)
  | decico d =>
    rcases execDecico_eq_next h with ⟨hd, rfl⟩ | ⟨hd, h⟩
    · exact .inl ⟨by simp [failureScope, hd], .error _⟩
    · exact .inr (by simpa [failureScope, startScope, hd] using h)
  | inflate => exact .inr ⟨rfl, execInflate_eq_next h⟩
  | unfilt => exact .inr ⟨rfl, execUnfilt_eq_next h⟩
  | nop => cases h; exact .inl ⟨rfl, .nop⟩
  | clr => cases h; exact .inl ⟨rfl, .clr⟩
  | newbm d => exact .inl ⟨rfl, execNewbm_effect h⟩
  | getpx => exact .inl ⟨rfl, execGetpx_effect h⟩
  | setpx => exact .inl ⟨rfl, execSetpx_effect h⟩
  | des d => exact .inl ⟨rfl, execDes_effect h⟩
  | ser d => exact .inl ⟨rfl, execSer_effect h⟩
  | conv d => exact .inl ⟨rfl, execConv_effect h⟩
  | palmap => exact .inl ⟨rfl, execPalmap_effect h⟩
  | _ => cases hi

/-- A command that runs in one go ends in ERR only by an error that loses nothing. -/
theorem simpleEffect_failed {s t : State} (he : SimpleEffect s t) (ht : t.st = .err) : ∃ e, t = takeError .nothing e s := by
  cases he with
  | error e => exact ⟨e, rfl⟩
  | _ => cases ht

/-- Settles O14: what a command has changed before it fails lies in its row, which the error loses. -/
theorem failedCommandClobbersItsRow : Obligations.FailedCommandClobbersItsRow := by
  unfold Obligations.FailedCommandClobbersItsRow
  intro i s t hi h ht
  rcases execCommand_row hi h with ⟨hrow, he⟩ | ⟨-, u, hu, hr⟩
  · rw [hrow]; exact simpleEffect_failed he ht
  · exact (runFromStart_runsIn hu hr).failed ht

end Sys2Proof.Machine

/-! SUPPORT. The frame of a command (30_encoding R93): the commands that run in one go by the fields of their next state, the others by
their row of 60_exceptions R325 and, for DECBMP and DECICO, by the path they took. -/

namespace Sys2Proof.Machine

/-! ## The commands that run in one go, by what they write -/

theorem execNewbm_eq_next {d : BitVec 8} {s t : State} (h : execNewbm d s = .next t) :
    (∃ m w hh dd, t = complete { s with pmem := m, bmW := w, bmH := hh, bmD := dd }) ∨ ∃ e, t = takeError .nothing e s := by
  rcases settle_eq_next.1 h with h | ⟨e, -, rfl⟩
  · obtain ⟨_, -, h⟩ := bind_eq_ok.1 h
    simp only at h
    split at h
    · simp at h
    · cases h; exact .inl ⟨_, _, _, _, rfl⟩
  · exact .inr ⟨e, rfl⟩

theorem execGetpx_eq_next {s t : State} (h : execGetpx s = .next t) :
    (∃ r, t = complete { s with res0 := r }) ∨ ∃ e, t = takeError .nothing e s := by
  rcases settle_eq_next.1 h with h | ⟨e, -, rfl⟩
  · obtain ⟨i, -, h⟩ := bind_eq_ok.1 h
    obtain ⟨c, -, h⟩ := bind_eq_ok.1 h
    cases h; exact .inl ⟨c, rfl⟩
  · exact .inr ⟨e, rfl⟩

theorem execSetpx_eq_next {s t : State} (h : execSetpx s = .next t) :
    (∃ m, t = complete { s with pmem := m }) ∨ ∃ e, t = takeError .nothing e s := by
  rcases settle_eq_next.1 h with h | ⟨e, -, rfl⟩
  · obtain ⟨i, -, h⟩ := bind_eq_ok.1 h
    cases h; exact .inl ⟨_, rfl⟩
  · exact .inr ⟨e, rfl⟩

theorem execDes_eq_next {d : BitVec 8} {s t : State} (h : execDes d s = .next t) :
    (∃ r0 r1, t = complete { s with res0 := r0, res1 := r1 }) ∨ ∃ e, t = takeError .nothing e s := by
  rcases settle_eq_next.1 h with h | ⟨e, -, rfl⟩
  · simp only [bind_eq_ok] at h
    obtain ⟨_, -, _, -, bytes, -, h⟩ := h
    cases h; exact .inl ⟨_, _, rfl⟩
  · exact .inr ⟨e, rfl⟩

theorem execSer_eq_next {d : BitVec 8} {s t : State} (h : execSer d s = .next t) :
    (∃ r0 r1, t = complete { s with res0 := r0, res1 := r1 }) ∨ ∃ e, t = takeError .nothing e s := by
  rcases settle_eq_next.1 h with h | ⟨e, -, rfl⟩
  · obtain ⟨_, -, h⟩ := bind_eq_ok.1 h
    cases h; exact .inl ⟨_, _, rfl⟩
  · exact .inr ⟨e, rfl⟩

theorem execConv_eq_next {d : BitVec 8} {s t : State} (h : execConv d s = .next t) :
    (∃ m dd, t = complete { s with pmem := m, bmD := dd }) ∨ ∃ e, t = takeError .nothing e s := by
  rcases settle_eq_next.1 h with h | ⟨e, -, rfl⟩
  · simp only [bind_eq_ok] at h
    obtain ⟨_, -, w, -, h', -, m, -, h⟩ := h
    cases h; exact .inl ⟨_, _, rfl⟩
  · exact .inr ⟨e, rfl⟩

theorem execPalmap_eq_next {s t : State} (h : execPalmap s = .next t) :
    (∃ m, t = complete { s with xmem := m }) ∨ ∃ e, t = takeError .nothing e s := by
  rcases settle_eq_next.1 h with h | ⟨e, -, rfl⟩
  · simp only [bind_eq_ok] at h
    obtain ⟨w, -, h', -, h⟩ := h
    split at h
    · cases h; exact .inl ⟨s.xmem, rfl⟩
    · obtain ⟨n, -, h⟩ := bind_eq_ok.1 h
      split at h
      · simp at h
      · obtain ⟨m, -, h⟩ := bind_eq_ok.1 h
        cases h; exact .inl ⟨m, rfl⟩
  · exact .inr ⟨e, rfl⟩

/-! ## The clauses of the frame -/

/-- The frame of command `i` from `s` to `t`, clause by clause as the statement lists them. -/
def FramedBy (i : Instr) (s t : State) : Prop :=
  (writesRes0 i = false → t.res0 = s.res0) ∧ (writesRes1 i = false → t.res1 = s.res1) ∧
  (writesPixels i = false → t.pmem = s.pmem) ∧ (writesSize i = false → t.bmW = s.bmW ∧ t.bmH = s.bmH) ∧
  (writesDepth i = false → t.bmD = s.bmD) ∧
  (writesZmem i = false → t.zmem = s.zmem) ∧ (writesZmem i = false ∨ i = .unfilt → t.zlen = s.zlen) ∧
  (writesPalette i = false → t.pal = s.pal ∧ t.paln = s.paln ∧ t.bmp = s.bmp) ∧
  (writesPng i = false → t.png = s.png) ∧ (writesDirectory i = false → t.ico = s.ico) ∧
  (writesCursor i = false → t.ipos = s.ipos) ∧ (i ≠ .palmap → t.xmem = s.xmem) ∧
  (t.st = .done → t.errcode = s.errcode) ∧
  (t.st = .done → t.bmp.bits = .val 16#32 ∨ t.bmp.bits = .val 24#32 ∨ t.bmp.bits = .val 32#32 → t.pal = s.pal ∧ t.paln = s.paln) ∧
  (∀ d, i = .decico d → t.st = .done →
    (t.ico.sel = .val 1#32 ∧ t.pal = s.pal ∧ t.paln = s.paln ∧ t.bmp = s.bmp) ∨
    (t.ico.sel = .val 0#32 ∧ t.zmem = s.zmem ∧ t.zlen = s.zlen ∧ t.png = s.png)) ∧
  (t.st = .err → failureScope i = .nothing → t = { s with errcode := t.errcode, st := .err, engine := .idle })

/-- An error that loses nothing is within every frame. -/
theorem framedBy_takeError (i : Instr) (e : ErrorKind) (s : State) : FramedBy i s (takeError .nothing e s) := by
  simp [FramedBy, takeError, clobber]

theorem execSimple_framedBy {i : Instr} {s t : State} (hi : i.format = .command) (hk : failureScope i = .nothing)
    (h : exec i s = .next t) : FramedBy i s t := by
  cases i with
  | nop => cases h; simp [FramedBy, complete]
  | clr => cases h; simp [FramedBy, returnFromError]
  | newbm d =>
    rcases execNewbm_eq_next h with ⟨m, w, hh, dd, rfl⟩ | ⟨e, rfl⟩
    · simp [FramedBy, writesPixels, writesSize, writesDepth]
    · exact framedBy_takeError _ e s
  | getpx =>
    rcases execGetpx_eq_next h with ⟨r, rfl⟩ | ⟨e, rfl⟩
    · simp [FramedBy, writesRes0]
    · exact framedBy_takeError _ e s
  | setpx =>
    rcases execSetpx_eq_next h with ⟨m, rfl⟩ | ⟨e, rfl⟩
    · simp [FramedBy, writesPixels]
    · exact framedBy_takeError _ e s
  | des d =>
    rcases execDes_eq_next h with ⟨r0, r1, rfl⟩ | ⟨e, rfl⟩
    · simp [FramedBy, writesRes0, writesRes1]
    · exact framedBy_takeError _ e s
  | ser d =>
    rcases execSer_eq_next h with ⟨r0, r1, rfl⟩ | ⟨e, rfl⟩
    · simp [FramedBy, writesRes0, writesRes1]
    · exact framedBy_takeError _ e s
  | conv d =>
    rcases execConv_eq_next h with ⟨m, dd, rfl⟩ | ⟨e, rfl⟩
    · simp [FramedBy, writesPixels, writesDepth]
    · exact framedBy_takeError _ e s
  | palmap =>
    rcases execPalmap_eq_next h with ⟨m, rfl⟩ | ⟨e, rfl⟩
    · simp [FramedBy]
    · exact framedBy_takeError _ e s
  | decbmp d =>
    have hd : legalDepth d = false := by simpa [failureScope] using hk
    rw [exec_illegalDepth hd (by simp [depthCommands])] at h
    cases h; exact framedBy_takeError _ _ s
  | decpng d =>
    have hd : legalDepth d = false := by simpa [failureScope] using hk
    rw [exec_illegalDepth hd (by simp [depthCommands])] at h
    cases h; exact framedBy_takeError _ _ s
  | decico d =>
    have hd : legalDepth d = false := by simpa [failureScope] using hk
    rw [exec_illegalDepth hd (by simp [depthCommands])] at h
    cases h; exact framedBy_takeError _ _ s
  | inflate => cases hk
  | unfilt => cases hk
  | _ => cases hi

/-! ## What lies outside a row -/

/-- No row lists RES0, RES1, XMEM. -/
theorem AgreesOutside.results {k : Scope} {s t : State} (h : AgreesOutside k s t) :
    t.res0 = s.res0 ∧ t.res1 = s.res1 ∧ t.xmem = s.xmem := by
  have h0 := congrArg State.res0 (h .corruptData)
  have h1 := congrArg State.res1 (h .corruptData)
  have hx := congrArg State.xmem (h .corruptData)
  simp only [takeError_res0, takeError_res1, takeError_xmem] at h0 h1 hx
  exact ⟨h0, h1, hx⟩

/-- The state of the palette and BMP side of a decode. -/
def SamePalette (s t : State) : Prop := t.pal = s.pal ∧ t.paln = s.paln ∧ t.bmp = s.bmp

/-- The state of the compressed and PNG side of a decode. -/
def SameZmem (s t : State) : Prop := t.zmem = s.zmem ∧ t.zlen = s.zlen ∧ t.png = s.png

/-- The Bitmap. -/
def SameBitmap (s t : State) : Prop := t.pmem = s.pmem ∧ t.bmW = s.bmW ∧ t.bmH = s.bmH ∧ t.bmD = s.bmD

/-- A field that an error taken with the row does not write is the same. -/
theorem AgreesOutside.field {α : Type} {k : Scope} {s t : State} (h : AgreesOutside k s t) (f : State → α) :
    f (takeError k .corruptData t) = f (takeError k .corruptData s) := congrArg f (h .corruptData)

theorem AgreesOutside.decbmp {s t : State} (h : AgreesOutside .decbmp s t) : SameZmem s t ∧ t.ico = s.ico :=
  ⟨⟨(h.field State.zmem :), (h.field State.zlen :), (h.field State.png :)⟩, (h.field State.ico :)⟩

theorem AgreesOutside.decpng {s t : State} (h : AgreesOutside .decpng s t) : SamePalette s t ∧ t.ico = s.ico :=
  ⟨⟨(h.field State.pal :), (h.field State.paln :), (h.field State.bmp :)⟩, (h.field State.ico :)⟩

theorem AgreesOutside.inflate {s t : State} (h : AgreesOutside .inflate s t) :
    SameBitmap s t ∧ SamePalette s t ∧ t.png = s.png ∧ t.ico = s.ico :=
  ⟨⟨(h.field State.pmem :), (h.field State.bmW :), (h.field State.bmH :), (h.field State.bmD :)⟩,
    ⟨(h.field State.pal :), (h.field State.paln :), (h.field State.bmp :)⟩, (h.field State.png :), (h.field State.ico :)⟩

theorem AgreesOutside.unfilt {s t : State} (h : AgreesOutside .unfilt s t) :
    SameBitmap s t ∧ SamePalette s t ∧ t.zlen = s.zlen ∧ t.png = s.png ∧ t.ico = s.ico ∧ t.ipos = s.ipos :=
  ⟨⟨(h.field State.pmem :), (h.field State.bmW :), (h.field State.bmH :), (h.field State.bmD :)⟩,
    ⟨(h.field State.pal :), (h.field State.paln :), (h.field State.bmp :)⟩, (h.field State.zlen :), (h.field State.png :),
    (h.field State.ico :), (h.field State.ipos :)⟩

/-! ## The path a DECBMP or DECICO takes -/

/-- Where a DECBMP or DECICO begun in `s` stands: it has failed, it is before the payload select, or it is on or at the end of one of the two
paths and has left the state of the other one alone; ICO_SEL says which path a DECICO is on (46_ico R304). -/
inductive DecodePath (k : Scope) (s t : State) : Prop
  | failed (h : t.st = .err)
  | select (c : PayloadCtx) (he : t.engine = .payload c) (hp : SamePalette s t) (hz : SameZmem s t)
  | bmp (he : (∃ c, t.engine = .header c) ∨ ∃ c, t.engine = .pixels c) (hp : SamePalette s t) (hz : SameZmem s t)
    (hsel : k = .decico → t.ico.sel = regOf 0)
  | png (he : (∃ c, t.engine = .chunks c) ∨ (∃ c, t.engine = .blocks c) ∨ ∃ c, t.engine = .rows c) (hp : SamePalette s t)
    (hsel : k = .decico → t.ico.sel = regOf 1)
  | bmpDone (hst : t.st = .done) (hz : SameZmem s t) (hsel : k = .decico → t.ico.sel = regOf 0)
    (hbits : t.bmp.bits = .val 16#32 ∨ t.bmp.bits = .val 24#32 ∨ t.bmp.bits = .val 32#32 → t.pal = s.pal ∧ t.paln = s.paln)
  | pngDone (hst : t.st = .done) (hp : SamePalette s t) (hsel : k = .decico → t.ico.sel = regOf 1)

/-- On the BMP side of a path. -/
theorem DecodePath.onBmp {k : Scope} {s u : State} (h : DecodePath k s u) (hb : u.st = .busy)
    (he : (∃ c, u.engine = .header c) ∨ ∃ c, u.engine = .pixels c) :
    SamePalette s u ∧ SameZmem s u ∧ (k = .decico → u.ico.sel = regOf 0) := by
  cases h with
  | failed h => rw [hb] at h; cases h
  | select c hc => rcases he with ⟨b, he⟩ | ⟨b, he⟩ <;> · rw [hc] at he; cases he
  | bmp _ hp hz hsel => exact ⟨hp, hz, hsel⟩
  | png hc =>
    exfalso
    rcases he with ⟨b, he⟩ | ⟨b, he⟩ <;> rcases hc with ⟨c, hc⟩ | ⟨c, hc⟩ | ⟨c, hc⟩ <;> · rw [hc] at he; cases he
  | bmpDone h => rw [hb] at h; cases h
  | pngDone h => rw [hb] at h; cases h

/-- On the PNG side of a path. -/
theorem DecodePath.onPng {k : Scope} {s u : State} (h : DecodePath k s u) (hb : u.st = .busy)
    (he : (∃ c, u.engine = .chunks c) ∨ (∃ c, u.engine = .blocks c) ∨ ∃ c, u.engine = .rows c) :
    SamePalette s u ∧ (k = .decico → u.ico.sel = regOf 1) := by
  cases h with
  | failed h => rw [hb] at h; cases h
  | select c hc => rcases he with ⟨b, he⟩ | ⟨b, he⟩ | ⟨b, he⟩ <;> · rw [hc] at he; cases he
  | bmp hc =>
    exfalso
    rcases hc with ⟨c, hc⟩ | ⟨c, hc⟩ <;> rcases he with ⟨b, he⟩ | ⟨b, he⟩ | ⟨b, he⟩ <;> · rw [hc] at he; cases he
  | png _ hp hsel => exact ⟨hp, hsel⟩
  | bmpDone h => rw [hb] at h; cases h
  | pngDone h => rw [hb] at h; cases h

/-- Before the payload select. -/
theorem DecodePath.onSelect {k : Scope} {s u : State} {c : PayloadCtx} (h : DecodePath k s u) (hb : u.st = .busy)
    (he : u.engine = .payload c) : SamePalette s u ∧ SameZmem s u := by
  cases h with
  | failed h => rw [hb] at h; cases h
  | select _ _ hp hz => exact ⟨hp, hz⟩
  | bmp _ hp hz => exact ⟨hp, hz⟩
  | png hc =>
    exfalso
    rcases hc with ⟨c, hc⟩ | ⟨c, hc⟩ | ⟨c, hc⟩ <;> · rw [hc] at he; cases he
  | bmpDone h => rw [hb] at h; cases h
  | pngDone h => rw [hb] at h; cases h

theorem enterRows_path {k : Scope} {s u t : State} {c : RowCtx} {p : PngImage} (ht : enterRows u c = .ok t) (hc : c.png = some p)
    (hp : SamePalette s u) (hsel : k = .decico → u.ico.sel = regOf 1) : DecodePath k s t := by
  rcases enterRows_eq_ok.1 ht with ⟨-, rfl⟩ | ⟨-, hc', -⟩ | ⟨-, q, -, hf⟩
  · exact .png (.inr (.inr ⟨_, rfl⟩)) hp hsel
  · rw [hc] at hc'; cases hc'
  · obtain ⟨m, -, -, rfl⟩ := pngFinish_writes hf
    exact .pngDone rfl hp hsel

/-- The registers hold the bit count, so an indexed picture does not read as a direct one. -/
theorem regOf_indexed {bits : Nat} (h : bits ≤ 8) :
    ¬ (regOf bits = .val 16#32 ∨ regOf bits = .val 24#32 ∨ regOf bits = .val 32#32) := by
  simp only [regOf, Reg.val.injEq, BitVec.toNat_eq, BitVec.toNat_ofNat]
  omega

theorem DecodePath.step {k : Scope} {s u t : State} (hk : k = .decbmp ∨ k = .decico) (h : DecodePath k s u) (hb : u.st = .busy)
    (hscope : engineScope u.engine = k) (he : StreamEffect u t) : DecodePath k s t := by
  cases he with
  | error e => exact .failed rfl
  | payloadPng c hc =>
    obtain ⟨hp, -⟩ := h.onSelect hb hc
    exact .png (.inl ⟨_, rfl⟩) hp (fun _ => rfl)
  | payloadBmp c hc =>
    obtain ⟨hp, hz⟩ := h.onSelect hb hc
    exact .bmp (.inl ⟨_, rfl⟩) hp hz (fun _ => rfl)
  | header c b hc =>
    obtain ⟨hp, hz, hsel⟩ := h.onBmp hb (.inl ⟨c, hc⟩)
    exact .bmp (.inr ⟨_, rfl⟩) hp hz hsel
  | pixels c w hh bits pos pal pmem paln bmp hc _ _ hbits _ hpaln =>
    obtain ⟨⟨hpal, hn, -⟩, hz, hsel⟩ := h.onBmp hb (.inr ⟨c, hc⟩)
    refine .bmpDone rfl hz hsel fun hdirect => ?_
    rcases hpaln with ⟨-, rfl, rfl⟩ | ⟨hle, -⟩
    · exact ⟨hpal, hn⟩
    · rw [complete_bmp, hbits] at hdirect
      exact absurd hdirect (regOf_indexed hle)
  | ihdr c len hdr png hc =>
    obtain ⟨hp, hsel⟩ := h.onPng hb (.inl ⟨c, hc⟩)
    exact .png (.inl ⟨_, rfl⟩) hp hsel
  | chunk c len idat hc =>
    obtain ⟨hp, hsel⟩ := h.onPng hb (.inl ⟨c, hc⟩)
    exact .png (.inl ⟨_, rfl⟩) hp hsel
  | iend c len hdr png hc =>
    obtain ⟨hp, hsel⟩ := h.onPng hb (.inl ⟨c, hc⟩)
    exact .png (.inr (.inl ⟨_, rfl⟩)) hp hsel
  | block c bp rout hc =>
    obtain ⟨hp, hsel⟩ := h.onPng hb (.inr (.inl ⟨c, hc⟩))
    exact .png (.inr (.inl ⟨_, rfl⟩)) hp hsel
  | inflated c rout pos hc hnone =>
    simp only [hc, engineScope, hnone] at hscope
    rcases hk with rfl | rfl <;> cases hscope
  | decompressed c rout p t hc hsome _ ht =>
    obtain ⟨hp, hsel⟩ := h.onPng hb (.inr (.inl ⟨c, hc⟩))
    exact enterRows_path ht rfl hp hsel
  | row c z t hc _ ht =>
    obtain ⟨hp, hsel⟩ := h.onPng hb (.inr (.inr ⟨c, hc⟩))
    cases hpng : c.png with
    | none =>
      simp only [hc, engineScope, hpng] at hscope
      rcases hk with rfl | rfl <;> cases hscope
    | some p => exact enterRows_path ht hpng hp hsel

theorem startEffect_path {k : Scope} {s u : State} (hk : k = .decbmp ∨ k = .decico) (he : StartEffect s k u) : DecodePath k s u := by
  cases he with
  | error => exact .failed rfl
  | bmp => exact .bmp (.inl ⟨_, rfl⟩) ⟨rfl, rfl, rfl⟩ ⟨rfl, rfl, rfl⟩ (fun h => by cases h)
  | ico => exact .select _ rfl ⟨rfl, rfl, rfl⟩ ⟨rfl, rfl, rfl⟩
  | _ => rcases hk with hk | hk <;> cases hk

theorem runFromStart_path {k : Scope} {s u t : State} (hk : k = .decbmp ∨ k = .decico) (hu : StartEffect s k u)
    (hr : runEngine (engineWork u) u = .next t) : DecodePath k s t := by
  have hboth : RunsIn k s t ∧ DecodePath k s t := by
    refine runEngine_keeps (P := fun v => RunsIn k s v ∧ DecodePath k s v) (fun a b hb hp he => ?_)
      ⟨startEffect_runsIn hu, startEffect_path hk hu⟩ hr
    have heff := engineStep_effect he
    exact ⟨hp.1.step hb heff, hp.2.step hk hb (hp.1.scope hb) heff⟩
  exact hboth.2

/-- At its end a DECBMP or DECICO with direct pixels, or with none, has left PAL and PALN alone. -/
theorem DecodePath.palette {k : Scope} {s t : State} (h : DecodePath k s t) (ht : t.st = .done)
    (hbits : t.bmp.bits = .val 16#32 ∨ t.bmp.bits = .val 24#32 ∨ t.bmp.bits = .val 32#32) : t.pal = s.pal ∧ t.paln = s.paln := by
  cases h with
  | failed h => rw [ht] at h; cases h
  | select _ _ hp => exact ⟨hp.1, hp.2.1⟩
  | bmp _ hp => exact ⟨hp.1, hp.2.1⟩
  | png _ hp => exact ⟨hp.1, hp.2.1⟩
  | bmpDone _ _ _ hb => exact hb hbits
  | pngDone _ hp => exact ⟨hp.1, hp.2.1⟩

/-- At its end a DECICO has left the state of the path it did not take. -/
theorem DecodePath.other {s t : State} (h : DecodePath .decico s t) (ht : t.st = .done) (he : t.engine = .idle) :
    (t.ico.sel = .val 1#32 ∧ SamePalette s t) ∨ (t.ico.sel = .val 0#32 ∧ SameZmem s t) := by
  cases h with
  | failed h => rw [ht] at h; cases h
  | select _ hc => rw [he] at hc; cases hc
  | bmp _ _ hz hsel => exact .inr ⟨hsel rfl, hz⟩
  | png _ hp hsel => exact .inl ⟨hsel rfl, hp⟩
  | bmpDone _ hz hsel => exact .inr ⟨hsel rfl, hz⟩
  | pngDone _ hp hsel => exact .inl ⟨hsel rfl, hp⟩

/-! ## The end of a run -/

/-- A command that is complete has no hidden state. -/
theorem runEngine_idle_of_done {n : Nat} {s t : State} (hs : s.st = .done → s.engine = .idle) (h : runEngine n s = .next t) :
    t.st = .done → t.engine = .idle := by
  refine runEngine_keeps (P := fun v => v.st = .done → v.engine = .idle) (fun a b hb _ he hd => ?_) hs h
  have rows : ∀ {u v : State} {c : RowCtx}, enterRows u c = .ok v → v.st = .done → v.engine = .idle := by
    intro u v c hv hd
    rcases enterRows_eq_ok.1 hv with ⟨-, rfl⟩ | ⟨-, -, rfl⟩ | ⟨-, q, -, hf⟩
    · cases hd
    · rfl
    · obtain ⟨m, -, -, rfl⟩ := pngFinish_writes hf
      rfl
  cases engineStep_effect he with
  | error e => rfl
  | payloadPng => cases hd
  | payloadBmp => simp [hb] at hd
  | header => simp [hb] at hd
  | pixels => rfl
  | ihdr => simp [hb] at hd
  | chunk => simp [hb] at hd
  | iend => simp [hb] at hd
  | block => simp [hb] at hd
  | inflated => rfl
  | decompressed c rout p t _ _ _ ht => exact rows ht hd
  | row c z t _ _ ht => exact rows ht hd

theorem startEffect_idle_of_done {s u : State} {k : Scope} (he : StartEffect s k u) (hd : u.st = .done) : u.engine = .idle := by
  cases he with
  | error => rfl
  | unfiltNone => rfl
  | _ => cases hd

/-- The frame of a command that runs the engine. -/
theorem execRun_framedBy {i : Instr} {s t u : State} (hk : failureScope i = startScope i) (hi : i.format = .command)
    (hn : failureScope i ≠ .nothing) (hu : StartEffect s (failureScope i) u) (hr : runEngine (engineWork u) u = .next t) :
    FramedBy i s t := by
  have hruns := runFromStart_runsIn hu hr
  have hidle := runEngine_idle_of_done (startEffect_idle_of_done hu) hr
  have hcode : t.st = .done → t.errcode = s.errcode := fun h => hruns.errcode (by simp [h])
  obtain ⟨h0, h1, hx⟩ := hruns.agrees.results
  have hpath := fun hk => runFromStart_path (k := failureScope i) hk hu hr
  cases i with
  | decbmp d =>
    rw [hk] at hruns hpath hn
    obtain ⟨⟨hz, hzl, hpng⟩, hico⟩ := hruns.agrees.decbmp
    refine ⟨fun _ => h0, fun _ => h1, by simp [writesPixels], by simp [writesSize], by simp [writesDepth], fun _ => hz, fun _ => hzl,
      by simp [writesPalette], fun _ => hpng, fun _ => hico, by simp [writesCursor], fun _ => hx, hcode, fun hd hb => ?_, by simp,
      fun _ hf => absurd (hk.symm.trans hf) hn⟩
    exact (hpath (.inl rfl)).palette hd hb
  | decpng d =>
    rw [hk] at hruns hn
    obtain ⟨⟨hp, hpn, hbmp⟩, hico⟩ := hruns.agrees.decpng
    exact ⟨fun _ => h0, fun _ => h1, by simp [writesPixels], by simp [writesSize], by simp [writesDepth], by simp [writesZmem],
      by simp [writesZmem], fun _ => ⟨hp, hpn, hbmp⟩, by simp [writesPng], fun _ => hico, by simp [writesCursor], fun _ => hx, hcode,
      fun _ _ => ⟨hp, hpn⟩, by simp, fun _ hf => absurd (hk.symm.trans hf) hn⟩
  | decico d =>
    rw [hk] at hruns hpath hn
    refine ⟨fun _ => h0, fun _ => h1, by simp [writesPixels], by simp [writesSize], by simp [writesDepth], by simp [writesZmem],
      by simp [writesZmem], by simp [writesPalette], by simp [writesPng], by simp [writesDirectory], by simp [writesCursor],
      fun _ => hx, hcode, fun hd hb => ?_, fun _ _ hd => ?_, fun _ hf => absurd (hk.symm.trans hf) hn⟩
    · exact (hpath (.inr rfl)).palette hd hb
    · exact (hpath (.inr rfl)).other hd (hidle hd)
  | inflate =>
    obtain ⟨⟨hpm, hw, hh, hd⟩, ⟨hp, hpn, hbmp⟩, hpng, hico⟩ := hruns.agrees.inflate
    exact ⟨fun _ => h0, fun _ => h1, fun _ => hpm, fun _ => ⟨hw, hh⟩, fun _ => hd, by simp [writesZmem], by simp [writesZmem],
      fun _ => ⟨hp, hpn, hbmp⟩, fun _ => hpng, fun _ => hico, by simp [writesCursor], fun _ => hx, hcode, fun _ _ => ⟨hp, hpn⟩,
      by simp, fun _ hf => absurd hf hn⟩
  | unfilt =>
    obtain ⟨⟨hpm, hw, hh, hd⟩, ⟨hp, hpn, hbmp⟩, hzl, hpng, hico, hip⟩ := hruns.agrees.unfilt
    exact ⟨fun _ => h0, fun _ => h1, fun _ => hpm, fun _ => ⟨hw, hh⟩, fun _ => hd, by simp [writesZmem], fun _ => hzl,
      fun _ => ⟨hp, hpn, hbmp⟩, fun _ => hpng, fun _ => hico, fun _ => hip, fun _ => hx, hcode, fun _ _ => ⟨hp, hpn⟩, by simp,
      fun _ hf => absurd hf hn⟩
  | _ => exact absurd rfl hn

/-- Settles O17: what runs in one go is read off its next state; what runs the engine stays within its row, and within the path it
took. -/
theorem commandFrame : Obligations.CommandFrame := by
  unfold Obligations.CommandFrame
  intro i s t hi h
  by_cases hn : failureScope i = .nothing
  · exact execSimple_framedBy hi hn h
  · rcases execCommand_row hi h with ⟨hn', -⟩ | ⟨hk, u, hu, hr⟩
    · exact absurd hn' hn
    · exact execRun_framedBy hk hi hn hu hr

end Sys2Proof.Machine

/-! SUPPORT. Every command ends (70_reset R368): a stream step of a command in flight is never refused and lowers `engineWork`. -/

namespace Sys2Proof.Machine

/-! ## The engine reads opcodes of its own phase -/

/-- The format of the word that the engine reads next; a command where it reads none. -/
def engineFormat : Engine → Format
  | .idle => .command
  | .payload _ => .payloadHead
  | .header _ => .headerSize
  | .pixels _ => .bitCount
  | .chunks _ => .chunkType
  | .blocks _ => .blockHeader
  | .rows _ => .filterByte

theorem opcodeOr_eq_ok {e : ErrorKind} {d : Except DecodeError Instr} {o : Option Instr} (h : opcodeOr e d = .ok o) :
    ∃ i, d = .ok i ∧ o = some i := by
  unfold opcodeOr at h
  split at h
  case h_1 i => cases h; exact ⟨i, rfl, rfl⟩
  case h_2 => cases h

/-- An opcode that is fetched is of the phase's format. -/
theorem fetchStream_format {s : State} {i : Instr} (h : fetchStream s = .ok (some i)) : i.format = engineFormat s.engine := by
  unfold fetchStream at h
  cases he : s.engine with
  | idle => rw [he] at h; cases h
  | payload c =>
    rw [he] at h
    obtain ⟨head, -, h⟩ := bind_eq_ok.1 h
    obtain ⟨j, hj, hi⟩ := opcodeOr_eq_ok h
    cases hi
    exact (decodePayloadHead_answersWord _ _ hj).1
  | header c =>
    rw [he] at h
    obtain ⟨_, -, h⟩ := bind_eq_ok.1 h
    obtain ⟨hs, -, h⟩ := bind_eq_ok.1 h
    obtain ⟨j, hj, hi⟩ := opcodeOr_eq_ok h
    cases hi
    exact (decodeHeaderSize_answersWord _ _ hj).1
  | pixels c =>
    rw [he] at h
    obtain ⟨bits, -, h⟩ := bind_eq_ok.1 h
    obtain ⟨j, hj, hi⟩ := opcodeOr_eq_ok h
    cases hi
    exact (decodeBitCount_answersWord _ _ hj).1
  | chunks c =>
    rw [he] at h
    obtain ⟨⟨len, type⟩, -, h⟩ := bind_eq_ok.1 h
    dsimp only at h
    split at h
    case h_1 j hj =>
      cases h
      exact (decodeChunkType_answersWord _ _ hj).1
    case h_2 => cases h
  | blocks c =>
    rw [he] at h
    obtain ⟨⟨w, bp⟩, -, h⟩ := bind_eq_ok.1 h
    obtain ⟨j, hj, hi⟩ := opcodeOr_eq_ok h
    cases hi
    exact (decodeBlockHeader_answersWord _ _ hj).1
  | rows c =>
    rw [he] at h
    obtain ⟨ft, -, h⟩ := bind_eq_ok.1 h
    obtain ⟨j, hj, hi⟩ := opcodeOr_eq_ok h
    cases hi
    exact (decodeFilter_answersWord _ _ hj).1

/-- Only the chunk walk skips a word. -/
theorem fetchStream_eq_none {s : State} (hi : s.engine ≠ .idle) (h : fetchStream s = .ok none) : ∃ c, s.engine = .chunks c := by
  unfold fetchStream at h
  cases he : s.engine with
  | idle => exact absurd he hi
  | chunks c => exact ⟨c, rfl⟩
  | payload c =>
    rw [he] at h
    obtain ⟨_, -, h⟩ := bind_eq_ok.1 h
    obtain ⟨_, -, h⟩ := opcodeOr_eq_ok h
    cases h
  | header c =>
    rw [he] at h
    obtain ⟨_, -, h⟩ := bind_eq_ok.1 h
    obtain ⟨_, -, h⟩ := bind_eq_ok.1 h
    obtain ⟨_, -, h⟩ := opcodeOr_eq_ok h
    cases h
  | pixels c =>
    rw [he] at h
    obtain ⟨_, -, h⟩ := bind_eq_ok.1 h
    obtain ⟨_, -, h⟩ := opcodeOr_eq_ok h
    cases h
  | blocks c =>
    rw [he] at h
    obtain ⟨_, -, h⟩ := bind_eq_ok.1 h
    obtain ⟨_, -, h⟩ := opcodeOr_eq_ok h
    cases h
  | rows c =>
    rw [he] at h
    obtain ⟨_, -, h⟩ := bind_eq_ok.1 h
    obtain ⟨_, -, h⟩ := opcodeOr_eq_ok h
    cases h

/-! ## Nothing is refused in its phase -/

theorem skipChunk_ne_refused {s : State} {c : ChunkCtx} (he : s.engine = .chunks c) (r : Refusal) : skipChunk s ≠ .refused r := by
  unfold skipChunk
  rw [he]
  exact settle_ne_refused

theorem filterStep_ne_refused {pred : Byte → Byte → Byte → Byte} {s : State} {c : RowCtx} (he : s.engine = .rows c) (r : Refusal) :
    filterStep pred s ≠ .refused r := by
  unfold filterStep
  rw [he]
  exact settle_ne_refused

theorem blockStep_ne_refused {body : BlockBody} {b : Bool} {s : State} {c : BlockCtx} (he : s.engine = .blocks c) (r : Refusal) :
    blockStep body b s ≠ .refused r := by
  unfold blockStep
  rw [he]
  exact settle_ne_refused

theorem headerStep_ne_refused {parse : State → BmpCtx → Except Stop State} {s : State} {c : BmpCtx} (he : s.engine = .header c)
    (r : Refusal) : headerStep parse s ≠ .refused r := by
  unfold headerStep
  rw [he]
  exact settle_ne_refused

theorem pixelStep_ne_refused {decodeAll : State → BmpHeader → Except Stop State} {s : State} {c : BmpHeader}
    (he : s.engine = .pixels c) (r : Refusal) : pixelStep decodeAll s ≠ .refused r := by
  unfold pixelStep
  rw [he]
  exact settle_ne_refused

/-! Each format is read in one phase. -/

theorem engine_of_payloadHead {e : Engine} (h : Format.payloadHead = engineFormat e) : ∃ c, e = .payload c :=
  match e, h with
  | .payload c, _ => ⟨c, rfl⟩

theorem engine_of_headerSize {e : Engine} (h : Format.headerSize = engineFormat e) : ∃ c, e = .header c :=
  match e, h with
  | .header c, _ => ⟨c, rfl⟩

theorem engine_of_bitCount {e : Engine} (h : Format.bitCount = engineFormat e) : ∃ c, e = .pixels c :=
  match e, h with
  | .pixels c, _ => ⟨c, rfl⟩

theorem engine_of_chunkType {e : Engine} (h : Format.chunkType = engineFormat e) : ∃ c, e = .chunks c :=
  match e, h with
  | .chunks c, _ => ⟨c, rfl⟩

theorem engine_of_blockHeader {e : Engine} (h : Format.blockHeader = engineFormat e) : ∃ c, e = .blocks c :=
  match e, h with
  | .blocks c, _ => ⟨c, rfl⟩

theorem engine_of_filterByte {e : Engine} (h : Format.filterByte = engineFormat e) : ∃ c, e = .rows c :=
  match e, h with
  | .rows c, _ => ⟨c, rfl⟩

theorem execPngChunkIHDR_ne_refused {s : State} {c : ChunkCtx} (he : s.engine = .chunks c) (r : Refusal) :
    execPngChunkIHDR s ≠ .refused r := by
  unfold execPngChunkIHDR
  rw [he]
  exact settle_ne_refused

theorem execPngChunkIDAT_ne_refused {s : State} {c : ChunkCtx} (he : s.engine = .chunks c) (r : Refusal) :
    execPngChunkIDAT s ≠ .refused r := by
  unfold execPngChunkIDAT
  rw [he]
  exact settle_ne_refused

theorem execPngChunkIEND_ne_refused {s : State} {c : ChunkCtx} (he : s.engine = .chunks c) (r : Refusal) :
    execPngChunkIEND s ≠ .refused r := by
  unfold execPngChunkIEND
  rw [he]
  exact settle_ne_refused

theorem execIcoPayloadPng_ne_refused {s : State} {c : PayloadCtx} (he : s.engine = .payload c) (r : Refusal) :
    execIcoPayloadPng s ≠ .refused r := by
  unfold execIcoPayloadPng
  rw [he]
  exact settle_ne_refused

theorem execIcoPayloadBmp_ne_refused {head : BitVec 64} {s : State} {c : PayloadCtx} (he : s.engine = .payload c) (r : Refusal) :
    execIcoPayloadBmp head s ≠ .refused r := by
  unfold execIcoPayloadBmp
  rw [he]
  simp

/-- A stream opcode of the format the engine reads next is not refused. -/
theorem execStream_ne_refused {i : Instr} {s : State} (hi : i.format = engineFormat s.engine) (hc : i.format ≠ .command)
    (r : Refusal) : execStream i s ≠ .refused r := by
  cases i with
  | pngChunkIHDR => obtain ⟨c, he⟩ := engine_of_chunkType hi; exact execPngChunkIHDR_ne_refused he r
  | pngChunkIDAT => obtain ⟨c, he⟩ := engine_of_chunkType hi; exact execPngChunkIDAT_ne_refused he r
  | pngChunkIEND => obtain ⟨c, he⟩ := engine_of_chunkType hi; exact execPngChunkIEND_ne_refused he r
  | pngFilterNone => obtain ⟨c, he⟩ := engine_of_filterByte hi; exact filterStep_ne_refused he r
  | pngFilterSub => obtain ⟨c, he⟩ := engine_of_filterByte hi; exact filterStep_ne_refused he r
  | pngFilterUp => obtain ⟨c, he⟩ := engine_of_filterByte hi; exact filterStep_ne_refused he r
  | pngFilterAverage => obtain ⟨c, he⟩ := engine_of_filterByte hi; exact filterStep_ne_refused he r
  | pngFilterPaeth => obtain ⟨c, he⟩ := engine_of_filterByte hi; exact filterStep_ne_refused he r
  | deflateStored _ => obtain ⟨c, he⟩ := engine_of_blockHeader hi; exact blockStep_ne_refused he r
  | deflateFixed _ => obtain ⟨c, he⟩ := engine_of_blockHeader hi; exact blockStep_ne_refused he r
  | deflateDynamic _ => obtain ⟨c, he⟩ := engine_of_blockHeader hi; exact blockStep_ne_refused he r
  | bmpHeaderCore => obtain ⟨c, he⟩ := engine_of_headerSize hi; exact headerStep_ne_refused he r
  | bmpHeader40 => obtain ⟨c, he⟩ := engine_of_headerSize hi; exact headerStep_ne_refused he r
  | bmpHeader52 => obtain ⟨c, he⟩ := engine_of_headerSize hi; exact headerStep_ne_refused he r
  | bmpHeader56 => obtain ⟨c, he⟩ := engine_of_headerSize hi; exact headerStep_ne_refused he r
  | bmpHeader108 => obtain ⟨c, he⟩ := engine_of_headerSize hi; exact headerStep_ne_refused he r
  | bmpHeader124 => obtain ⟨c, he⟩ := engine_of_headerSize hi; exact headerStep_ne_refused he r
  | bmpBits1 => obtain ⟨c, he⟩ := engine_of_bitCount hi; exact pixelStep_ne_refused he r
  | bmpBits4 => obtain ⟨c, he⟩ := engine_of_bitCount hi; exact pixelStep_ne_refused he r
  | bmpBits8 => obtain ⟨c, he⟩ := engine_of_bitCount hi; exact pixelStep_ne_refused he r
  | bmpBits16 =>
    obtain ⟨c, he⟩ := engine_of_bitCount hi
    change execBmpBits16 s ≠ _
    unfold execBmpBits16
    exact pixelStep_ne_refused he r
  | bmpBits24 => obtain ⟨c, he⟩ := engine_of_bitCount hi; exact pixelStep_ne_refused he r
  | bmpBits32 => obtain ⟨c, he⟩ := engine_of_bitCount hi; exact pixelStep_ne_refused he r
  | icoPayloadPng => obtain ⟨c, he⟩ := engine_of_payloadHead hi; exact execIcoPayloadPng_ne_refused he r
  | icoPayloadBmp head => obtain ⟨c, he⟩ := engine_of_payloadHead hi; exact execIcoPayloadBmp_ne_refused (head := head) he r
  | _ => exact absurd rfl hc

/-- A command in flight meets no word it has no meaning for. -/
theorem engineStep_ne_refused {s : State} (hi : s.engine ≠ .idle) (r : Refusal) : engineStep s ≠ .refused r := by
  unfold engineStep
  split
  case h_1 => simp
  case h_2 => simp
  case h_3 h =>
    obtain ⟨c, hc⟩ := fetchStream_eq_none hi h
    exact skipChunk_ne_refused hc r
  case h_4 i h =>
    have hf := fetchStream_format h
    refine execStream_ne_refused hf ?_ r
    rw [hf]
    cases he : s.engine with
    | idle => exact absurd he hi
    | _ => exact Format.noConfusion

/-! ## Every step lowers the work left -/

/-- A block header that is fetched lies inside the compressed stream. -/
theorem fetchStream_blocks_inside {s : State} {c : BlockCtx} {o : Option Instr} (he : s.engine = .blocks c)
    (h : fetchStream s = .ok o) : c.bp + 3 ≤ 8 * srcLen c.src := by
  unfold fetchStream at h
  rw [he] at h
  obtain ⟨⟨w, bp⟩, hb, -⟩ := bind_eq_ok.1 h
  have := (getBits_eq_ok hb).2.2
  omega

/-- A command in flight, or one that has ended. -/
def InFlightOrEnded (s : State) : Prop := (s.st = .busy ∧ s.engine ≠ .idle) ∨ s.st = .done ∨ s.st = .err

theorem enterRows_work {s t : State} {c : RowCtx} (ht : enterRows s c = .ok t) :
    InFlightOrEnded t ∧ (t.st = .busy → engineWork t = c.rows - c.row + 1 ∧ c.row < c.rows) := by
  rcases enterRows_eq_ok.1 ht with ⟨hr, rfl⟩ | ⟨-, -, rfl⟩ | ⟨-, p, -, hf⟩
  · exact ⟨.inl ⟨rfl, by simp⟩, fun _ => ⟨rfl, hr⟩⟩
  · exact ⟨.inr (.inl rfl), fun h => by cases h⟩
  · obtain ⟨m, -, -, rfl⟩ := pngFinish_writes hf
    exact ⟨.inr (.inl rfl), fun h => by cases h⟩

/-- Scanlines of at least one byte each that fit ZMEM are no more than its bytes. -/
theorem rows_le_of_fit {h rowbytes z : Nat} (hz : h * (rowbytes + 1) ≤ z) : h ≤ z :=
  (Nat.le_mul_of_pos_right h (Nat.succ_pos rowbytes)).trans hz

/-- A stream step of a command in flight ends the command or lowers the work left. -/
theorem streamEffect_work {s t : State} (hb : s.st = .busy)
    (hin : ∀ c, s.engine = .blocks c → t.st = .busy → c.bp + 3 ≤ 8 * srcLen c.src) (he : StreamEffect s t) :
    InFlightOrEnded t ∧ (t.st = .busy → engineWork t < engineWork s) := by
  cases he with
  | error e => exact ⟨.inr (.inr rfl), fun h => by cases h⟩
  | payloadPng c hc hl =>
    refine ⟨.inl ⟨rfl, by simp⟩, fun _ => ?_⟩
    simp only [engineWork, hc, List.length_nil]
    omega
  | payloadBmp c hc =>
    refine ⟨.inl ⟨hb, by simp⟩, fun _ => ?_⟩
    simp only [engineWork, hc]
    omega
  | header c b hc =>
    refine ⟨.inl ⟨hb, by simp⟩, fun _ => ?_⟩
    simp only [engineWork, hc]
    omega
  | pixels => exact ⟨.inr (.inl rfl), fun h => by cases h⟩
  | ihdr c len hdr png hc hl =>
    refine ⟨.inl ⟨hb, by simp⟩, fun _ => ?_⟩
    simp only [engineWork, hc, nextChunk]
    omega
  | chunk c len idat hc hl hi =>
    refine ⟨.inl ⟨hb, by simp⟩, fun _ => ?_⟩
    simp only [engineWork, hc, nextChunk]
    omega
  | iend c len hdr png hc hl _ hz =>
    refine ⟨.inl ⟨hb, by simp⟩, fun _ => ?_⟩
    have := rows_le_of_fit hz
    simp only [engineWork, hc, srcLen, rowsAhead]
    omega
  | block c bp rout hc hbp =>
    refine ⟨.inl ⟨hb, by simp⟩, fun h => ?_⟩
    have := hin c hc h
    simp only [engineWork, hc]
    omega
  | inflated => exact ⟨.inr (.inl rfl), fun h => by cases h⟩
  | decompressed c rout p t hc hsome _ ht =>
    obtain ⟨hstate, hwork⟩ := enterRows_work ht
    refine ⟨hstate, fun h => ?_⟩
    have := hin c hc h
    rw [(hwork h).1]
    simp only [engineWork, hc, hsome, rowsAhead]
    omega
  | row c z t hc _ ht =>
    obtain ⟨hstate, hwork⟩ := enterRows_work ht
    refine ⟨hstate, fun h => ?_⟩
    obtain ⟨heq, hlt⟩ := hwork h
    rw [heq]
    simp only at hlt
    simp only [engineWork, hc]
    omega

theorem engineStep_work {s t : State} (hb : s.st = .busy) (h : engineStep s = .next t) :
    InFlightOrEnded t ∧ (t.st = .busy → engineWork t < engineWork s) := by
  refine streamEffect_work hb (fun c hc ht => ?_) (engineStep_effect h)
  unfold engineStep at h
  split at h
  case h_1 => cases h; cases ht
  case h_2 => cases h
  case h_3 hf => exact fetchStream_blocks_inside hc hf
  case h_4 hf => exact fetchStream_blocks_inside hc hf

/-- A command in flight has work left. -/
theorem engineWork_pos {s : State} (hi : s.engine ≠ .idle) : 0 < engineWork s := by
  unfold engineWork
  cases he : s.engine with
  | idle => exact absurd he hi
  | _ => exact Nat.succ_pos _

/-! ## The end of a run -/

/-- A run ends in DONE or in ERR, or the model faults. -/
def EndsOrFaults (o : Host.Outcome State Fault Refusal) : Prop :=
  (∃ t, o = .next t ∧ (t.st = .done ∨ t.st = .err)) ∨ ∃ f, o = .fault f

theorem runEngine_ends {n : Nat} {s : State} (hs : InFlightOrEnded s) (hn : s.st = .busy → engineWork s ≤ n) :
    EndsOrFaults (runEngine n s) := by
  induction n generalizing s with
  | zero =>
    rcases hs with ⟨hb, hi⟩ | hs
    · have := engineWork_pos hi
      have := hn hb
      omega
    · exact .inl ⟨s, rfl, hs⟩
  | succ n ih =>
    unfold runEngine
    rcases hs with ⟨hb, hi⟩ | hs
    · rw [if_pos hb]
      cases h : engineStep s with
      | next t =>
        obtain ⟨ht, hwork⟩ := engineStep_work hb h
        exact ih ht fun hb' => Nat.le_of_lt_succ ((hwork hb').trans_le (hn hb))
      | fault f => exact .inr ⟨f, rfl⟩
      | refused r => exact absurd h (engineStep_ne_refused hi r)
    · have hb : ¬ s.st = .busy := by rcases hs with hs | hs <;> simp [hs]
      rw [if_neg hb]
      exact .inl ⟨s, rfl, hs⟩

theorem startEffect_inFlightOrEnded {s u : State} {k : Scope} (he : StartEffect s k u) : InFlightOrEnded u := by
  cases he with
  | error => exact .inr (.inr rfl)
  | unfiltNone => exact .inr (.inl rfl)
  | bmp => exact .inl ⟨rfl, by simp⟩
  | png => exact .inl ⟨rfl, by simp⟩
  | ico => exact .inl ⟨rfl, by simp⟩
  | inflate => exact .inl ⟨rfl, by simp⟩
  | unfilt => exact .inl ⟨rfl, by simp⟩

/-- A start that is settled, and the run of the engine from it. -/
theorem runCommand_ends {k : Scope} {s : State} {x : Except Stop State} (hx : ∀ u, settle k s x = .next u → InFlightOrEnded u) :
    EndsOrFaults (runCommand (settle k s x)) := by
  cases h : settle k s x with
  | next u => exact runEngine_ends (hx u h) (fun _ => le_rfl)
  | fault f => exact .inr ⟨f, rfl⟩
  | refused r => exact absurd h settle_ne_refused

/-- A start that answers states which are in flight or have ended settles so. -/
theorem settle_inFlightOrEnded {k : Scope} {s u : State} {x : Except Stop State} (hx : x = .ok u → StartEffect s k u)
    (h : settle k s x = .next u) : InFlightOrEnded u := by
  rcases settle_eq_next.1 h with h | ⟨e, -, rfl⟩
  · exact startEffect_inFlightOrEnded (hx h)
  · exact .inr (.inr rfl)

theorem decodeCommandRun_ends {k : Scope} {d : BitVec 8} {start : State → Except Stop State} {s : State}
    (hs : ∀ u, legalDepth d = true → start s = .ok u → StartEffect s k u) : EndsOrFaults (decodeCommandRun k d start s) := by
  cases hd : legalDepth d with
  | false =>
    rw [decodeCommandRun_illegalDepth hd]
    exact .inl ⟨_, rfl, .inr rfl⟩
  | true =>
    have hsome : (depthOfField d).isSome = true := by rw [depthOfField_isSome, hd]
    obtain ⟨x, hx⟩ := Option.isSome_iff_exists.1 hsome
    simp only [decodeCommandRun, hx]
    exact runCommand_ends fun u => settle_inFlightOrEnded (hs u hd)

/-- A command that is settled in one go ends, whatever it computes. -/
theorem settle_ends {s : State} {x : Except Stop State} (hx : ∀ t, settle .nothing s x = .next t → t.st = .done ∨ t.st = .err) :
    EndsOrFaults (settle .nothing s x) := by
  cases h : settle .nothing s x with
  | next t => exact .inl ⟨t, rfl, hx t h⟩
  | fault f => exact .inr ⟨f, rfl⟩
  | refused r => exact absurd h settle_ne_refused

theorem execCommand_ends {i : Instr} (hi : i.format = .command) (hc : i ≠ .clr) (s : State) : EndsOrFaults (exec i s) := by
  cases i with
  | nop => exact .inl ⟨_, rfl, .inl rfl⟩
  | clr => exact absurd rfl hc
  | newbm d => exact settle_ends fun t ht => by rcases execNewbm_eq_next ht with ⟨_, _, _, _, rfl⟩ | ⟨_, rfl⟩ <;> simp
  | getpx => exact settle_ends fun t ht => by rcases execGetpx_eq_next ht with ⟨_, rfl⟩ | ⟨_, rfl⟩ <;> simp
  | setpx => exact settle_ends fun t ht => by rcases execSetpx_eq_next ht with ⟨_, rfl⟩ | ⟨_, rfl⟩ <;> simp
  | des d => exact settle_ends fun t ht => by rcases execDes_eq_next ht with ⟨_, _, rfl⟩ | ⟨_, rfl⟩ <;> simp
  | ser d => exact settle_ends fun t ht => by rcases execSer_eq_next ht with ⟨_, _, rfl⟩ | ⟨_, rfl⟩ <;> simp
  | conv d => exact settle_ends fun t ht => by rcases execConv_eq_next ht with ⟨_, _, rfl⟩ | ⟨_, rfl⟩ <;> simp
  | palmap => exact settle_ends fun t ht => by rcases execPalmap_eq_next ht with ⟨_, rfl⟩ | ⟨_, rfl⟩ <;> simp
  | decbmp d =>
    refine decodeCommandRun_ends (k := .decbmp) fun u hd hu => ?_
    obtain ⟨hl, off, rfl⟩ := bmpStart_eq_ok hu
    exact .bmp d hd off hl
  | decpng d =>
    refine decodeCommandRun_ends (k := .decpng) (start := fun t => pngStart t false d 0 t.ilen.toNat) fun u hd hu => ?_
    obtain ⟨hl, -, rfl⟩ := pngStart_eq_ok.1 hu
    exact .png d hd (by omega)
  | decico d =>
    refine decodeCommandRun_ends (k := .decico) fun u hd hu => ?_
    obtain ⟨r, off, lim, hr, hl, hi, rfl⟩ := icoStart_eq_ok hu
    exact .ico d hd r off lim hr hl hi
  | inflate =>
    refine runCommand_ends fun u => settle_inFlightOrEnded fun hu => ?_
    obtain ⟨hz, rfl⟩ := inflateStart_eq_ok.1 hu
    exact .inflate hz
  | unfilt =>
    refine runCommand_ends fun u => settle_inFlightOrEnded fun hu => ?_
    obtain ⟨-, -, z, -, -, ht⟩ := unfiltStart_eq_ok hu
    rcases enterRows_eq_ok.1 ht with ⟨hr, rfl⟩ | ⟨hr, -, rfl⟩ | ⟨-, p, hp, -⟩
    · exact .unfilt hr
    · exact .unfiltNone (Nat.le_zero.1 hr)
    · cases hp
  | _ => cases hi

/-- Settles O13: the work left bounds the stream steps of a command, each is a meaning or an error, and none leaves it BUSY at its
end. -/
theorem commandsTerminate : Obligations.CommandsTerminate := by
  unfold Obligations.CommandsTerminate
  intro i s hi
  by_cases hc : i = .clr
  case pos =>
    subst hc
    exact .inl ⟨_, rfl, .inr (.inr ⟨rfl, rfl⟩)⟩
  case neg =>
    rcases execCommand_ends hi hc s with ⟨t, ht, hst | hst⟩ | hf
    · exact .inl ⟨t, ht, .inl hst⟩
    · exact .inl ⟨t, ht, .inr (.inl hst)⟩
    · exact .inr hf

end Sys2Proof.Machine

/-! SUPPORT. The host interface: command issue, accesses while BUSY, registers and memories as the host reads and writes them
(10_state R30, R37; 20_memory R63, R67, R75; 60_exceptions R326 to R328; 70_reset R365). -/

namespace Sys2Proof.Machine

/-! ## Command issue -/

/-- Settles O4: the word written to CMD is issued, and in IDLE and DONE what is issued runs. -/
theorem stepRunsCommand : Obligations.StepRunsCommand := by
  unfold Obligations.StepRunsCommand
  intro s rest w i hscript hs hd
  have hd' : decodeCommand w = .ok i := by simpa [decode] using hd
  rw [step_write_cmd hscript]
  exact issue_of_decodeCommand_eq_ok hs hd'

/-- Settles O20: CLR's word is the only one that decodes to CLR, and no other is accepted. -/
theorem errAcceptsOnlyClr : Obligations.ErrAcceptsOnlyClr := by
  unfold Obligations.ErrAcceptsOnlyClr
  intro s rest w hscript hs
  split
  case isTrue hw =>
    subst hw
    rw [step_clr hscript (by simp [hs])]
    rfl
  case isFalse hw => exact step_ignored_in_err hscript hs hw

/-! ## Registers: the register map and the address map agree -/

/-- The register map of 10_state R37, from the machine's own order, offsets and read values. -/
theorem hostRegisters_eq_map (s : State) : hostRegisters s = regNames.map (fun r => (r, regOffset r, readReg s r)) := by
  unfold hostRegisters
  cases hs : s.st <;> cases he : s.errcode with
  | none => simp only [regNames, List.map, readReg, hs, he]; rfl
  | some e => cases e <;> simp only [regNames, List.map, readReg, hs, he] <;> rfl

theorem mem_hostRegisters {s : State} {r : RegName} {a : Nat} {x : Reg} (h : (r, a, x) ∈ hostRegisters s) :
    a = regOffset r ∧ x = readReg s r := by
  rw [hostRegisters_eq_map, List.mem_map] at h
  obtain ⟨r', -, h⟩ := h
  cases h
  exact ⟨rfl, rfl⟩

/-- An access that names a register is of a word, at the register's offset. -/
theorem resolve_eq_register {cap : Capacities} {w : Width} {a : Nat} {r : RegName} (h : resolve cap w a = some (.reg r)) :
    w = .word ∧ a = regOffset r := by
  have hnodup : regNames.Nodup := by decide
  unfold resolve at h
  dsimp only at h
  split at h
  case isTrue => cases h
  case isFalse ha =>
    split at h
    case isTrue =>
      split at h
      case isTrue hw =>
        subst hw
        split at h
        case h_1 r' hr =>
          cases h
          obtain ⟨hlt, hr⟩ := List.getElem?_eq_some_iff.1 hr
          have hidx : regNames.idxOf r = a / 4 := by rw [← hr, hnodup.idxOf_getElem]
          simp only [widthBytes] at ha
          exact ⟨rfl, by rw [regOffset, hidx]; omega⟩
        case h_2 => cases h
      case isFalse => cases h
    case isFalse =>
      split at h
      · split at h <;> cases h
      · cases h

/-! ## Accesses while BUSY -/

theorem hostWrite_refused_while_busy {s : State} {w : Width} {a v : Word} (hb : s.st = .busy) (h : ¬ (w = .word ∧ a = 0#32)) :
    hostWrite w a v s = .refused .accessWhileBusy ∨ hostWrite w a v s = .refused .busError := by
  unfold hostWrite
  split
  case h_1 => exact .inr rfl
  case h_2 hr =>
    obtain ⟨hw, ha⟩ := resolve_eq_register hr
    exact absurd ⟨hw, BitVec.eq_of_toNat_eq ha⟩ h
  case h_3 => rw [if_pos hb]; exact .inl rfl

theorem hostRead_refused_while_busy {s : State} {w : Width} {a : Word} (hb : s.st = .busy) (h : ¬ (w = .word ∧ a = 4#32)) :
    hostRead w a s = .refused .accessWhileBusy ∨ hostRead w a s = .refused .busError := by
  unfold hostRead
  split
  case h_1 => exact .inr rfl
  case h_2 hr =>
    obtain ⟨hw, ha⟩ := resolve_eq_register hr
    exact absurd ⟨hw, BitVec.eq_of_toNat_eq ha⟩ h
  case h_3 => rw [if_pos hb]; exact .inl rfl

/-- A read of a register delivers it; while BUSY only STATUS is read. -/
theorem hostRead_register {s : State} {r : RegName} (h : s.st ≠ .busy ∨ r = .status) :
    hostRead .word (BitVec.ofNat 32 (regOffset r)) s = deliver s (regValue r (readReg s r)) := by
  rw [hostRead, resolve_register]
  by_cases hr : r = .status
  · subst hr; rfl
  · have hb : ¬ s.st = .busy := h.resolve_right hr
    cases r with
    | status => exact absurd rfl hr
    | _ => simp only [if_neg hb]

theorem step_read_register {s : State} {r : RegName} {v : Word} {rest : List HostOp} (h : s.st ≠ .busy ∨ r = .status)
    (hs : s.script = .read .word (BitVec.ofNat 32 (regOffset r)) :: rest) (hv : readReg s r = .val v) :
    step s = .next { s with script := rest, rdata := some v, fresh := s.fresh + 1 } := by
  have hv' : readReg { s with script := rest } r = .val v := hv ▸ by cases r <;> rfl
  rw [step_read hs, hostRead_register (s := { s with script := rest }) h, hv']
  rfl

/-- Settles O21: a write resolves to CMD and a read to STATUS only as a word at its offset; the rest is refused. -/
theorem busyHostAccess : Obligations.BusyHostAccess := by
  unfold Obligations.BusyHostAccess
  intro s rest width a v hb
  refine ⟨fun h => ?cmd, fun h => ?status, fun h hne => ?write, fun h hne => ?read⟩
  case cmd =>
    rw [step_write_cmd h]
    simp only [issue, hb]
  case status => exact step_read_register (r := .status) (.inr rfl) h (by simp [readReg, hb, statusCode])
  case write => rw [step_write h]; exact hostWrite_refused_while_busy hb hne
  case read => rw [step_read h]; exact hostRead_refused_while_busy hb hne

/-! ## Reserved offsets -/

theorem resolve_reserved (cap : Capacities) {a : Nat} (h1 : 0x98 ≤ a) (h2 : a ≤ 0xFC) (ha : a % 4 = 0) :
    resolve cap .word (BitVec.ofNat 32 a).toNat = some .reserved := by
  have hn : regNames[a / 4]? = none := by
    rw [List.getElem?_eq_none_iff, show regNames.length = 38 from rfl]
    omega
  have ht : (BitVec.ofNat 32 a).toNat = a := by rw [BitVec.toNat_ofNat]; omega
  rw [ht]
  simp [resolve, widthBytes, ha, hn, show a < 256 by omega]

/-- Settles O23: a read delivers and nothing else; what it delivers of a register is the register map's value, and of a reserved offset 0. -/
theorem hostReadsChangeNothing : Obligations.HostReadsChangeNothing := by
  unfold Obligations.HostReadsChangeNothing
  refine ⟨fun s t rest width a hs ht => ?any, fun s rest r a v hr hb hs => ?register, fun s rest a v h1 h2 ha hb =>
    ⟨fun hs => ?reservedRead, fun hs => ?reservedWrite⟩⟩
  case any =>
    rw [step_read hs] at ht
    exact hostRead_eq_next ht
  case register =>
    obtain ⟨rfl, hv⟩ := mem_hostRegisters hr
    exact step_read_register hb hs hv.symm
  case reservedRead =>
    rw [step_read hs, hostRead, resolve_reserved _ h1 h2 ha]
    simp only [if_neg hb]
    rfl
  case reservedWrite =>
    rw [step_write hs, hostWrite, resolve_reserved _ h1 h2 ha]
    simp only [if_neg hb]

/-! ## Register writes -/

theorem and_one_eq_ite (v : Word) : v &&& 1#32 = if v.getLsbD 0 then 1#32 else 0#32 := by
  rw [BitVec.and_one_eq_setWidth_ofBool_getLsbD]
  cases v.getLsbD 0 <;> rfl

/-- What a register reads after a host write of it (10_state R29, R31 to R33, R37). -/
theorem readReg_writeReg_same (s : State) (r : RegName) (v : Word) : readReg (writeReg s r v) r = (match r with
    | .ctrl => .val (v &&& 1#32)
    | .ilen => .val (BitVec.ofNat 32 (min v.toNat s.cap.imemBytes))
    | .arg0 => .val v
    | .arg1 => .val v
    | .arg2 => .val v
    | .paln => .val (BitVec.ofNat 32 (min v.toNat 256))
    | .zlen => .val (BitVec.ofNat 32 (min v.toNat s.cap.zmemBytes))
    | _ => readReg s r) := by
  cases r with
  | ctrl => rw [and_one_eq_ite]; rfl
  | _ => rfl

/-- A register write leaves every other register. -/
theorem readReg_writeReg_ne (s : State) {r r' : RegName} (v : Word) (h : r' ≠ r) : readReg (writeReg s r v) r' = readReg s r' := by
  cases r with
  | ctrl => cases r' with
    | ctrl => exact absurd rfl h
    | _ => rfl
  | ilen => cases r' with
    | ilen => exact absurd rfl h
    | _ => rfl
  | arg0 => cases r' with
    | arg0 => exact absurd rfl h
    | _ => rfl
  | arg1 => cases r' with
    | arg1 => exact absurd rfl h
    | _ => rfl
  | arg2 => cases r' with
    | arg2 => exact absurd rfl h
    | _ => rfl
  | paln => cases r' with
    | paln => exact absurd rfl h
    | _ => rfl
  | zlen => cases r' with
    | zlen => exact absurd rfl h
    | _ => rfl
  | _ => rfl

/-- The script is no register. -/
theorem readReg_script (s : State) (rest : List HostOp) (r : RegName) : readReg { s with script := rest } r = readReg s r := by
  cases r <;> rfl

/-- Settles O25: the step is the register write, which stores in its own register and in no other. -/
theorem registerWrites : Obligations.RegisterWrites := by
  unfold Obligations.RegisterWrites
  intro s rest r v hb hr hs
  refine ⟨writeReg { s with script := rest } r v, ?step, ?same, fun r' hne => ?other, ?frame⟩
  case step => rw [step_write hs, hostWrite_register hr, if_neg hb]
  case same => rw [readReg_writeReg_same]; cases r <;> rfl
  case other => rw [readReg_writeReg_ne _ _ hne, readReg_script]
  case frame => simp

/-! ## Memory accesses -/

/-- The first window of the address map that holds an access is its target. -/
theorem resolve_cell_of_find {cap : Capacities} {w : Width} {sp : Space} {a i : Nat} (ha : a % widthBytes w = 0) (hr : 0x100 ≤ a)
    (hf : [Space.pal, .imem, .zmem, .pmem, .xmem].find? (fun sp' => inSpace cap sp' (widthBytes w) a) = some sp)
    (hw : spaceUnit sp = 4 → w = .word) (hi : (a - spaceBase sp) / spaceUnit sp = i) : resolve cap w a = some (.cell sp i) := by
  unfold resolve
  simp only [ha, ne_eq, not_true_eq_false, if_false, hf]
  rw [if_neg (by omega), if_neg (fun h => h.2 (hw h.1)), hi]

/-- An access inside IMEM names its location whatever the other capacities are: only PAL comes before it in the address map. -/
theorem resolve_imem {cap : Capacities} {w : Width} {i : Nat} (ha : i % widthBytes w = 0) (hi : i + widthBytes w ≤ cap.imemBytes) :
    resolve cap w (0x01000000 + i) = some (.cell .imem i) := by
  have hpal : inSpace cap .pal (widthBytes w) (0x01000000 + i) = false := by
    rw [← Bool.not_eq_true, inSpace_eq_true]
    simp only [spaceBase, spaceUnit, spaceSize]
    omega
  have himem : inSpace cap .imem (widthBytes w) (0x01000000 + i) = true := by
    rw [inSpace_eq_true]
    simp only [spaceBase, spaceUnit, spaceSize]
    omega
  refine resolve_cell_of_find ?_ (by omega) (by simp [hpal, himem]) (by simp [spaceUnit]) (by simp [spaceBase, spaceUnit])
  cases w <;> simp only [widthBytes] at * <;> omega

/-- A word access inside PAL names its entry whatever the capacities are. -/
theorem resolve_pal {cap : Capacities} {i : Nat} (hi : i < 256) : resolve cap .word (0x400 + 4 * i) = some (.cell .pal i) := by
  have hpal : inSpace cap .pal (widthBytes .word) (0x400 + 4 * i) = true := by
    rw [inSpace_eq_true]
    simp only [spaceBase, spaceUnit, spaceSize, widthBytes]
    omega
  exact resolve_cell_of_find (by simp only [widthBytes]; omega) (by omega) (by simp [hpal]) (fun _ => rfl)
    (by simp only [spaceBase, spaceUnit]; omega)

theorem hostWrite_cell {s : State} {w : Width} {a v : Word} {sp : Space} {i : Nat} (hb : s.st ≠ .busy)
    (hr : resolve s.cap w a.toNat = some (.cell sp i)) : hostWrite w a v s = .next (writeSpace s sp (widthBytes w) i v) := by
  simp only [hostWrite, hr, if_neg hb]

theorem hostRead_cell {s : State} {w : Width} {a : Word} {sp : Space} {i : Nat} (hb : s.st ≠ .busy)
    (hr : resolve s.cap w a.toNat = some (.cell sp i)) : hostRead w a s = deliver s (readSpace s sp (widthBytes w) i) := by
  simp only [hostRead, hr, if_neg hb]

theorem step_write_cell {s : State} {w : Width} {a v : Word} {sp : Space} {i : Nat} {rest : List HostOp} (hb : s.st ≠ .busy)
    (hs : s.script = .write w a v :: rest) (hr : resolve s.cap w a.toNat = some (.cell sp i)) :
    step s = .next (writeSpace { s with script := rest } sp (widthBytes w) i v) := by
  rw [step_write hs]
  exact hostWrite_cell (s := { s with script := rest }) hb hr

theorem step_read_cell {s : State} {w : Width} {a : Word} {sp : Space} {i : Nat} {rest : List HostOp} (hb : s.st ≠ .busy)
    (hs : s.script = .read w a :: rest) (hr : resolve s.cap w a.toNat = some (.cell sp i)) :
    step s = deliver { s with script := rest } (readSpace { s with script := rest } sp (widthBytes w) i) := by
  rw [step_read hs]
  exact hostRead_cell (s := { s with script := rest }) hb hr

/-- An address of the map fits a word. -/
theorem address_toNat {a : Nat} (h : a < 2 ^ 32) : (BitVec.ofNat 32 a).toNat = a := by
  rw [BitVec.toNat_ofNat, Nat.mod_eq_of_lt h]

/-- The byte memories as spaces of the address map. -/
theorem mem_byteMemories {s : State} {sp : Space} {base size : Nat} {m : Mem 8} (h : (sp, base, m, size) ∈ byteMemories s) :
    spaceUnit sp = 1 ∧ base = spaceBase sp ∧ size = spaceSize s.cap sp ∧
    (∀ n i v, writeSpace s sp n i v = s.withBytes sp (writeLE m n i v.toNat)) ∧
    (∀ n i, readSpace s sp n i = (hostBytes s sp m n 0 i >>= fun v => .ok (BitVec.ofNat 32 v))) := by
  simp only [byteMemories, List.mem_cons, List.not_mem_nil, or_false, Prod.mk.injEq] at h
  rcases h with ⟨rfl, rfl, rfl, rfl⟩ | ⟨rfl, rfl, rfl, rfl⟩ | ⟨rfl, rfl, rfl, rfl⟩ <;>
    exact ⟨rfl, rfl, rfl, fun _ _ _ => rfl, fun _ _ => rfl⟩

/-- The Color memories as spaces of the address map. -/
theorem mem_colorMemories {s : State} {sp : Space} {base size : Nat} {m : Mem 32} (h : (sp, base, m, size) ∈ colorMemories s) :
    spaceUnit sp = 4 ∧ base = spaceBase sp ∧ size = spaceSize s.cap sp ∧
    (∀ n i v, writeSpace s sp n i v = s.withColors sp (memWrite m i v)) ∧ (∀ n i, readSpace s sp n i = hostCell s sp m 0 i) := by
  simp only [colorMemories, List.mem_cons, List.not_mem_nil, or_false, Prod.mk.injEq] at h
  rcases h with ⟨rfl, rfl, rfl, rfl⟩ | ⟨rfl, rfl, rfl, rfl⟩ <;> exact ⟨rfl, rfl, rfl, fun _ _ _ => rfl, fun _ _ => rfl⟩

/-- Every address of a memory's window fits a word. -/
theorem window_fits_word {cap : Capacities} (hc : cap.legal = true) (sp : Space) :
    spaceBase sp + spaceUnit sp * spaceSize cap sp < 2 ^ 32 := by
  obtain ⟨hi, hz, hp⟩ := legal_bounds hc
  cases sp <;> simp only [spaceBase, spaceUnit, spaceSize] <;> omega

/-- An aligned access inside a byte memory names its location. -/
theorem resolve_byte {s : State} {sp : Space} {base size i : Nat} {m : Mem 8} {w : Width} (hc : s.cap.legal = true)
    (hm : (sp, base, m, size) ∈ byteMemories s) (ha : i % widthBytes w = 0) (hi : i + widthBytes w ≤ size) :
    resolve s.cap w (BitVec.ofNat 32 (base + i)).toNat = some (.cell sp i) := by
  obtain ⟨hu, rfl, rfl, -, -⟩ := mem_byteMemories hm
  have hfit := window_fits_word hc sp
  have hloc := resolve_location (w := w) (sp := sp) (i := i) hc (by simp [hu]) (by simpa [hu] using ha) (by simpa [hu] using hi)
  rw [hu] at hloc hfit
  rw [address_toNat (by omega)]
  simpa using hloc

/-- A word access inside a Color memory names its location. -/
theorem resolve_color {s : State} {sp : Space} {base size i : Nat} {m : Mem 32} (hc : s.cap.legal = true)
    (hm : (sp, base, m, size) ∈ colorMemories s) (hi : i < size) :
    resolve s.cap .word (BitVec.ofNat 32 (base + 4 * i)).toNat = some (.cell sp i) := by
  obtain ⟨hu, rfl, rfl, -, -⟩ := mem_colorMemories hm
  have hfit := window_fits_word hc sp
  have hloc := resolve_location (w := .word) (sp := sp) (i := i) hc (fun _ => rfl) (by simp [hu, widthBytes])
    (by rw [hu]; simp only [widthBytes]; omega)
  rw [hu] at hloc hfit
  rwa [address_toNat (by omega)]

/-- Bytes after a little-endian write: byte `k` of the word where it was written. -/
theorem memRead_writeLE_byte (m : Mem 8) {n i k : Nat} (v : Word) (hk : k < n) :
    memRead (writeLE m n i v.toNat) (i + k) = some (v.extractLsb' (8 * k) 8) := by
  have hb := extractByte_ofNat v.isLt k
  rw [BitVec.ofNat_toNat, BitVec.setWidth_eq] at hb
  rw [memRead_writeLE, if_pos (by omega), Nat.add_sub_cancel_left, hb]

theorem sameOutside_writeLE (m : Mem 8) (n i v : Nat) : sameOutside m (writeLE m n i v) i n :=
  fun k hk => by rw [memRead_writeLE, if_neg (by omega)]

/-! ## What a host read delivers -/

/-- A location that is part of the data is read as it is. -/
theorem beyondData_of_inData {s : State} {sp : Space} {k : Nat} (h : inData s sp k) : beyondData s sp k = false := by
  cases sp with
  | imem => rfl
  | zmem => obtain ⟨n, hn, hk⟩ := h; simp [beyondData, dataSize, hn, hk]
  | pal => obtain ⟨n, hn, hk⟩ := h; simp [beyondData, dataSize, hn, hk]
  | pmem => obtain ⟨w, hh, hw, hh', hk⟩ := h; simp [beyondData, dataSize, bitmapSize, hw, hh', hk]
  | xmem => obtain ⟨w, hh, hw, hh', hk⟩ := h; simp [beyondData, dataSize, bitmapSize, hw, hh', hk]

theorem hostCell_of_inData {n : Nat} {s : State} {sp : Space} {m : Mem n} {k i : Nat} {v : BitVec n} (hd : inData s sp i)
    (hv : memRead m i = some v) : hostCell s sp m k i = .ok v := by
  simp [hostCell, readCell_of_some hv, beyondData_of_inData hd]

/-- Bytes that are part of the data are delivered little-endian. -/
theorem hostBytes_of_inData {s : State} {sp : Space} {m : Mem 8} {k i : Nat} {bytes : List Byte} (hb : holdsAt m i bytes)
    (hd : ∀ j < bytes.length, inData s sp (i + j)) : hostBytes s sp m bytes.length k i = .ok (packBytes bytes) := by
  induction bytes generalizing k i with
  | nil => rfl
  | cons b bytes ih =>
    have h0 : memRead m i = some b := by simpa using hb 0 (by simp)
    have hrest : hostBytes s sp m bytes.length (k + 1) (i + 1) = .ok (packBytes bytes) := by
      refine ih (fun j hj => ?_) (fun j hj => ?_)
      · simpa [Nat.add_assoc, Nat.add_comm 1] using hb (j + 1) (by simpa using hj)
      · simpa [Nat.add_assoc, Nat.add_comm 1] using hd (j + 1) (by simpa using hj)
    simp only [List.length_cons, hostBytes, hostCell_of_inData (by simpa using hd 0 (by simp)) h0, hrest, bind_ok, packBytes]

/-- The data of the last read and the script do not say which locations are part of the data. -/
theorem inData_script {s : State} {sp : Space} {k : Nat} (rest : List HostOp) (h : inData s sp k) :
    inData { s with script := rest } sp k := by
  cases sp <;> exact h

theorem widthBytes_le_four (w : Width) : widthBytes w ≤ 4 := by
  cases w <;> decide

/-- The capacities and memories of a state do not depend on its script. -/
theorem byteMemories_script (s : State) (rest : List HostOp) : byteMemories { s with script := rest } = byteMemories s := rfl

theorem colorMemories_script (s : State) (rest : List HostOp) : colorMemories { s with script := rest } = colorMemories s := rfl

/-- A word written to IMEM, and one byte of it read. -/
theorem step_write_imem_word {s : State} {rest : List HostOp} {k : Nat} {v : Word} (hb : s.st ≠ .busy)
    (hk : 4 * k + 4 ≤ s.cap.imemBytes) (hc : s.cap.imemBytes ≤ 2 ^ 24)
    (hs : s.script = .write .word (BitVec.ofNat 32 (0x01000000 + 4 * k)) v :: rest) :
    step s = .next { s with imem := writeLE s.imem 4 (4 * k) v.toNat, script := rest } := by
  have hr : resolve s.cap .word (BitVec.ofNat 32 (0x01000000 + 4 * k)).toNat = some (.cell .imem (4 * k)) := by
    rw [address_toNat (by omega)]
    exact resolve_imem (by simp [widthBytes]) hk
  rw [step_write_cell hb hs hr]
  rfl

theorem step_read_imem_byte {s : State} {rest : List HostOp} {i : Nat} {b : Byte} (hb : s.st ≠ .busy) (hi : i < s.cap.imemBytes)
    (hc : s.cap.imemBytes ≤ 2 ^ 24) (hs : s.script = .read .byte (BitVec.ofNat 32 (0x01000000 + i)) :: rest)
    (hv : memRead s.imem i = some b) :
    step s = .next { s with script := rest, rdata := some (b.setWidth 32), fresh := s.fresh + 1 } := by
  have hr : resolve s.cap .byte (BitVec.ofNat 32 (0x01000000 + i)).toNat = some (.cell .imem i) := by
    rw [address_toNat (by omega)]
    exact resolve_imem (by simp [widthBytes, Nat.mod_one]) hi
  have hcell : hostCell { s with script := rest } .imem s.imem 0 i = .ok b := hostCell_of_inData trivial hv
  have hword : BitVec.ofNat 32 b.toNat = b.setWidth 32 := BitVec.ofNat_toNat 32 b
  rw [step_read_cell hb hs hr]
  simp only [readSpace, widthBytes, hostBytes, hcell, bind_ok, Nat.mul_zero, Nat.add_zero, deliver, hword]

/-- Settles O24: an access names its location, and the bytes of the word are the bytes at the rising addresses. -/
theorem wordThenBytes : Obligations.WordThenBytes := by
  unfold Obligations.WordThenBytes
  refine ⟨fun s rest sp base size i m width v hc hb hm ha hi hs => ?write,
    fun s rest sp base size i m width bytes hc hb hm ha hi hlen hholds hdata hs => ?read,
    fun s rest k j v hb hj hk hc hs => ?wordThenByte⟩
  case write =>
    have hm' : (sp, base, m, size) ∈ byteMemories { s with script := rest } := hm
    obtain ⟨-, -, -, hwrite, -⟩ := mem_byteMemories hm'
    refine ⟨writeLE m (widthBytes width) i v.toNat, ?_, fun k hk => memRead_writeLE_byte m v hk, sameOutside_writeLE m _ i _⟩
    rw [step_write_cell hb hs (resolve_byte hc hm ha hi), hwrite]
  case read =>
    have hm' : (sp, base, m, size) ∈ byteMemories { s with script := rest } := hm
    obtain ⟨-, -, -, -, hread⟩ := mem_byteMemories hm'
    rw [← hlen] at hdata
    have hbytes := hostBytes_of_inData (k := 0) hholds (fun j hj => inData_script rest (hdata j hj))
    have hlt : packBytes bytes < 256 ^ widthBytes width := hlen ▸ packBytes_lt_pow bytes
    have hword : packBytes bytes < 2 ^ 32 :=
      calc packBytes bytes < 256 ^ widthBytes width := hlt
        _ ≤ 256 ^ 4 := Nat.pow_le_pow_right (by decide) (widthBytes_le_four width)
        _ = 2 ^ 32 := by decide
    refine ⟨BitVec.ofNat 32 (packBytes bytes), ?_, fun k hk => ?_, ?_⟩
    · rw [step_read_cell hb hs (resolve_byte hc hm ha hi), hread, ← hlen, hbytes]
      rfl
    · rw [extractByte_ofNat hword, getElem?_eq_packBytes_byte (by omega)]
    · rwa [BitVec.toNat_ofNat, Nat.mod_eq_of_lt hword]
  case wordThenByte =>
    refine ⟨_, step_write_imem_word hb hk hc hs, sameOutside_writeLE _ _ _ _, ?_⟩
    refine step_read_imem_byte (i := 4 * k + j) (by exact hb) (by simp only; omega) hc (by rw [Nat.add_assoc]) ?_
    exact memRead_writeLE_byte s.imem v hj

/-! ## Colors of the host -/

theorem step_read_pal {s : State} {rest : List HostOp} {i : Nat} {n v : Word} (hb : s.st ≠ .busy) (hn : s.paln = .val n)
    (hi : i < n.toNat) (hi' : i < 256) (hs : s.script = .read .word (BitVec.ofNat 32 (0x400 + 4 * i)) :: rest)
    (hv : memRead s.pal i = some v) : step s = .next { s with script := rest, rdata := some v, fresh := s.fresh + 1 } := by
  have hr : resolve s.cap .word (BitVec.ofNat 32 (0x400 + 4 * i)).toNat = some (.cell .pal i) := by
    rw [address_toNat (by omega)]
    exact resolve_pal hi'
  have hcell : hostCell { s with script := rest } .pal s.pal 0 i = .ok v := hostCell_of_inData ⟨n, hn, hi⟩ hv
  rw [step_read_cell hb hs hr]
  simp only [readSpace, hcell, deliver]

theorem step_write_pal {s : State} {rest : List HostOp} {i : Nat} {v : Word} (hb : s.st ≠ .busy) (hi : i < 256)
    (hs : s.script = .write .word (BitVec.ofNat 32 (0x400 + 4 * i)) v :: rest) :
    step s = .next { s with pal := memWrite s.pal i v, script := rest } := by
  have hr : resolve s.cap .word (BitVec.ofNat 32 (0x400 + 4 * i)).toNat = some (.cell .pal i) := by
    rw [address_toNat (by omega)]
    exact resolve_pal hi
  rw [step_write_cell hb hs hr]
  rfl

/-- Settles O26: a word access names its entry, which alone is written, and is delivered where it is part of the data. -/
theorem paletteHoldsHostColors : Obligations.PaletteHoldsHostColors := by
  unfold Obligations.PaletteHoldsHostColors
  refine ⟨fun s rest sp base size i m v hc hb hm hi hs => ?write, fun s rest sp base size i m v hc hb hm hi hv hd hs => ?read,
    fun s rest i n v hb hn hi hi' hs => ?writeRead⟩
  case write =>
    have hm' : (sp, base, m, size) ∈ colorMemories { s with script := rest } := hm
    obtain ⟨-, -, -, hwrite, -⟩ := mem_colorMemories hm'
    refine ⟨memWrite m i v, ?_, memRead_memWrite_same m i v, sameOutside_memWrite m i v⟩
    rw [step_write_cell hb hs (resolve_color hc hm hi), hwrite]
  case read =>
    have hm' : (sp, base, m, size) ∈ colorMemories { s with script := rest } := hm
    obtain ⟨-, -, -, -, hread⟩ := mem_colorMemories hm'
    rw [step_read_cell hb hs (resolve_color hc hm hi), hread, hostCell_of_inData (inData_script rest hd) hv]
    rfl
  case writeRead =>
    have hsame : memRead (memWrite s.pal i v) i = some v := memRead_memWrite_same _ _ _
    exact ⟨_, step_write_pal hb hi' hs, hsame, sameOutside_memWrite _ _ _,
      step_read_pal (s := { s with pal := memWrite s.pal i v, script := _ }) hb hn hi hi' rfl hsame⟩

/-! ## Reads of what holds no value -/

theorem hostCell_of_none {n : Nat} {s : State} {sp : Space} {m : Mem n} {k i : Nat} (h : memRead m i = none) :
    hostCell s sp m k i = .error (.faulted (.unwrittenRead sp i)) := by
  simp [hostCell, readCell_of_none h]

theorem hostCell_of_some {n : Nat} {s : State} {sp : Space} {m : Mem n} {k i : Nat} (h : memRead m i ≠ none) :
    ∃ v, hostCell s sp m k i = .ok v := by
  obtain ⟨v, hv⟩ := Option.ne_none_iff_exists'.1 h
  rw [hostCell, readCell_of_some hv]
  exact ⟨_, rfl⟩

/-- A host access of several bytes faults at the first that holds none. -/
theorem hostBytes_faults {s : State} {sp : Space} {m : Mem 8} {n k i j : Nat} (hj : j < n)
    (hbefore : ∀ l < j, memRead m (i + l) ≠ none) (hnone : memRead m (i + j) = none) :
    hostBytes s sp m n k i = .error (.faulted (.unwrittenRead sp (i + j))) := by
  induction n generalizing k i j with
  | zero => omega
  | succ n ih =>
    cases j with
    | zero => simp only [hostBytes, Nat.add_zero] at *; rw [hostCell_of_none hnone]; rfl
    | succ j =>
      obtain ⟨v, hv⟩ := hostCell_of_some (s := s) (sp := sp) (k := k) (hbefore 0 (by omega))
      have hshift : ∀ l, i + 1 + l = i + (l + 1) := fun l => by omega
      have hrest := ih (k := k + 1) (i := i + 1) (j := j) (by omega) (fun l hl => hshift l ▸ hbefore (l + 1) (by omega))
        (hshift j ▸ hnone)
      rw [Nat.add_zero] at hv
      rw [hostBytes, hv, bind_ok, hrest, hshift]
      rfl

theorem readRun_faults {sp : Space} {m : Mem 8} {n i j : Nat} (hj : j < n) (hbefore : ∀ l < j, memRead m (i + l) ≠ none)
    (hnone : memRead m (i + j) = none) : readRun sp m n i = .error (.faulted (.unwrittenRead sp (i + j))) := by
  induction n generalizing i j with
  | zero => omega
  | succ n ih =>
    cases j with
    | zero => rw [readRun, Nat.add_zero, readCell_of_none (by simpa using hnone)]; rfl
    | succ j =>
      obtain ⟨v, hv⟩ := Option.ne_none_iff_exists'.1 (hbefore 0 (by omega))
      have hshift : ∀ l, i + 1 + l = i + (l + 1) := fun l => by omega
      rw [Nat.add_zero] at hv
      have hrest := ih (i := i + 1) (j := j) (by omega) (fun l hl => hshift l ▸ hbefore (l + 1) (by omega)) (hshift j ▸ hnone)
      rw [readRun, readCell_of_some hv, bind_ok, hrest, hshift]
      rfl

theorem regNat_of_unspecified {s : State} {r : RegName} (h : readReg s r = .unspecified) :
    regNat s r = .error (.faulted (.unspecifiedRead r)) := by
  simp [regNat, h, regValue]

/-- A command that reads an unspecified BM_W faults there. -/
theorem exec_faults_of_bmW {s : State} {i : Instr}
    (hi : i ∈ [Instr.getpx, .setpx, .palmap, .conv 1#8, .conv 8#8, .conv 16#8, .conv 24#8, .conv 32#8])
    (hw : s.bmW = .unspecified) : exec i s = .fault (.unspecifiedRead .bmW) := by
  have hn := regNat_of_unspecified (r := .bmW) hw
  simp only [List.mem_cons, List.not_mem_nil, or_false] at hi
  rcases hi with rfl | rfl | rfl | hconv
  · simp only [exec, execGetpx, pixelOperand, hn, bind_error, settle]
  · simp only [exec, execSetpx, pixelOperand, hn, bind_error, settle]
  · simp only [exec, execPalmap, hn, bind_error, settle]
  · rcases hconv with rfl | rfl | rfl | rfl | rfl <;>
      simp [exec, execConv, hn, depthOperand, depthOfField, settle]

/-- A command that reads an unspecified BM_H faults there. -/
theorem exec_faults_of_bmH {s : State} {i : Instr} {w : Word}
    (hi : i ∈ [Instr.getpx, .setpx, .palmap, .conv 1#8, .conv 8#8, .conv 16#8, .conv 24#8, .conv 32#8])
    (hw : s.bmW = .val w) (hh : s.bmH = .unspecified) : exec i s = .fault (.unspecifiedRead .bmH) := by
  have hn := regNat_of_val (r := .bmW) hw
  have hn' := regNat_of_unspecified (r := .bmH) hh
  simp only [List.mem_cons, List.not_mem_nil, or_false] at hi
  rcases hi with rfl | rfl | rfl | hconv
  · simp only [exec, execGetpx, pixelOperand, hn, hn', bind_ok, bind_error, settle]
  · simp only [exec, execSetpx, pixelOperand, hn, hn', bind_ok, bind_error, settle]
  · simp only [exec, execPalmap, hn, hn', bind_ok, bind_error, settle]
  · rcases hconv with rfl | rfl | rfl | rfl | rfl <;>
      simp [exec, execConv, hn, hn', depthOperand, depthOfField, settle]

/-- Settles O27: every read of a location goes through `readCell` and every read of a register through `regValue`, which fault there. -/
theorem unspecifiedReadsFault : Obligations.UnspecifiedReadsFault := by
  unfold Obligations.UnspecifiedReadsFault
  refine ⟨fun s rest sp base size i k m width hc hb hm ha hi hk hbefore hnone hs => ?bytes,
    fun s rest sp base size i m hc hb hm hi hnone hs => ?colors, fun s rest r a hb hr hs => ?register,
    fun s w h hw hh hx hy hnone => ?getpx, fun s f d k hd hfit hk hbefore hnone => ?des,
    fun s i hi => ⟨exec_faults_of_bmW hi, fun w => exec_faults_of_bmH hi⟩, fun s w h hw hh hpos hn => ?palmap,
    fun s h1 h8 hz => ?unfilt⟩
  case bytes =>
    have hm' : (sp, base, m, size) ∈ byteMemories { s with script := rest } := hm
    obtain ⟨-, -, -, -, hread⟩ := mem_byteMemories hm'
    rw [step_read_cell hb hs (resolve_byte hc hm ha hi), hread, hostBytes_faults hk hbefore hnone]
    rfl
  case colors =>
    have hm' : (sp, base, m, size) ∈ colorMemories { s with script := rest } := hm
    obtain ⟨-, -, -, -, hread⟩ := mem_colorMemories hm'
    rw [step_read_cell hb hs (resolve_color hc hm hi), hread, hostCell_of_none hnone]
    rfl
  case register =>
    obtain ⟨rfl, hval⟩ := mem_hostRegisters hr
    rw [step_read hs, hostRead_register (s := { s with script := rest }) (.inl hb), readReg_script, ← hval]
    rfl
  case getpx =>
    simp only [exec, execGetpx, pixelOperand_of_inside hw hh hx hy, bind_ok, readCell_of_none hnone, bind_error, settle]
  case des =>
    simp only [exec, execDes, depthOperand_of_field hd, need_of_le hfit, readRun_faults hk hbefore hnone, bind_ok, bind_error, settle]
  case palmap =>
    simp only [exec, execPalmap, regNat_of_val (r := .bmW) hw, regNat_of_val (r := .bmH) hh, bind_ok,
      if_neg (show ¬ w.toNat * h.toNat = 0 by omega), regNat_of_unspecified (r := .paln) hn, bind_error, settle]
  case unfilt =>
    have hbpp : ¬ (s.arg2.toNat < 1 ∨ s.arg2.toNat > 8) := by omega
    simp only [exec, execUnfilt, unfiltStart, if_neg hbpp, regNat_of_unspecified (r := .zlen) hz, bind_error, settle, runCommand]

end Sys2Proof.Machine

/-! SUPPORT. NEWBM (40_bitmap_ctrl R142), the laws of the depth converter (41_depth_converter R170) and the Paeth predictor (44_png R267). -/

namespace Sys2Proof.Machine

/-! ## NEWBM -/

theorem depthOperand_of_legal {f : BitVec 8} (h : legalDepth f = true) : ∃ d, depthOperand f = .ok d := by
  obtain ⟨d, hd⟩ := Option.isSome_iff_exists.1 ((depthOfField_isSome f).trans h)
  exact ⟨d, depthOperand_of_field hd⟩

/-- A run of one value holds it everywhere in the run. -/
theorem memRead_memWriteRun_replicate {n : Nat} (m : Mem n) (a len : Nat) (v : BitVec n) {k : Nat} (hk : k < len) :
    memRead (memWriteRun m a (List.replicate len v)) (a + k) = some v := by
  rw [memRead_memWriteRun, List.length_replicate, if_pos (by omega), Nat.add_sub_cancel_left]
  simp [hk]

theorem sameOutside_memWriteRun {n : Nat} (m : Mem n) (a : Nat) (vs : List (BitVec n)) :
    sameOutside m (memWriteRun m a vs) a vs.length :=
  fun k hk => by rw [memRead_memWriteRun, if_neg (by omega)]

/-- Settles O30: a legal size writes the run of zeros from PMEM's start; any other raises before anything is written. -/
theorem newbmMakesBitmap : Obligations.NewbmMakesBitmap := by
  unfold Obligations.NewbmMakesBitmap
  intro f s hf
  obtain ⟨d, hd⟩ := depthOperand_of_legal hf
  refine ⟨fun hw hh hfit => ⟨memWriteRun s.pmem 0 (List.replicate (s.arg0.toNat * s.arg1.toNat) 0#32), ?_, fun k hk => ?_, ?_⟩,
    fun hbad => ?_⟩
  · have hgood : ¬ (s.arg0.toNat = 0 ∨ s.arg1.toNat = 0 ∨ s.arg0.toNat * s.arg1.toNat > s.cap.pmemPixels) := by omega
    simp only [exec, execNewbm, hd, bind_ok, if_neg hgood, settle_ok]
    rfl
  · simpa using memRead_memWriteRun_replicate s.pmem 0 _ 0#32 hk
  · simpa using sameOutside_memWriteRun s.pmem 0 (List.replicate (s.arg0.toNat * s.arg1.toNat) 0#32)
  · simp only [exec, execNewbm, hd, bind_ok, if_pos hbad]
    rfl

/-! ## The laws of the depth converter -/

/-- At 1 bit a byte is shown as 0 or 1, so it is kept exactly when it is one of them. -/
theorem ser_des_d1 (b : Byte) : ser .d1 (des .d1 [b]) = [if b = 0#8 then 0#8 else 1#8] := by
  rw [des_d1, ser_d1]
  by_cases hb : b = 0#8 <;> simp [hb]

/-- At every other depth the bytes are kept. -/
theorem ser_des {d : Depth} {bytes : List Byte} (hd : d ≠ .d1) (hlen : bytes.length = nbytes d) : ser d (des d bytes) = bytes := by
  cases d with
  | d1 => exact absurd rfl hd
  | d8 =>
    obtain ⟨b0, rfl⟩ := List.length_eq_one_iff.1 hlen
    rfl
  | d16 =>
    obtain ⟨b0, b1, rfl⟩ := List.length_eq_two.1 hlen
    rfl
  | d24 =>
    obtain ⟨b0, b1, b2, rfl⟩ := List.length_eq_three.1 hlen
    rfl
  | d32 => match bytes, hlen with | [b0, b1, b2, b3], _ => rfl

/-- A Color shown at 1 bit is full red or nothing. -/
theorem des_ser_d1 (c : Color) : des .d1 (ser .d1 c) = ⟨if 127 < c.r.toNat then 255#8 else 0#8, 0#8, 0#8, 0#8⟩ := by
  rw [ser_d1, des_d1]
  by_cases hr : 127 < c.r.toNat <;> simp [hr]

theorem des_ser_d1_eq_iff (c : Color) : des .d1 (ser .d1 c) = c ↔ c = ⟨0#8, 0#8, 0#8, 0#8⟩ ∨ c = ⟨255#8, 0#8, 0#8, 0#8⟩ := by
  rw [des_ser_d1]
  constructor
  · intro h
    by_cases hr : 127 < c.r.toNat
    · exact .inr (by rw [← h, if_pos hr])
    · exact .inl (by rw [← h, if_neg hr])
  · rintro (rfl | rfl) <;> rfl

/-- Converting twice is converting once: what a depth shows is kept by showing it again. -/
theorem des_ser_des_ser (d : Depth) (c : Color) : des d (ser d (des d (ser d c))) = des d (ser d c) := by
  by_cases hd : d = .d1
  · subst hd
    rw [des_ser_d1_eq_iff, des_ser_d1]
    by_cases hr : 127 < c.r.toNat <;> simp [hr]
  · rw [ser_des hd (length_ser d c)]

/-- Settles O37: each law is read off the forms of its depth. -/
theorem depthLaws : Obligations.DepthLaws := by
  unfold Obligations.DepthLaws
  refine ⟨fun d bytes hlen => ?bytes, fun c => ⟨rfl, ?d24, ?d16, ?d8, des_ser_d1_eq_iff c⟩, des_ser_des_ser⟩
  case bytes =>
    by_cases hd : d = .d1
    · subst hd
      obtain ⟨b, rfl⟩ := List.length_eq_one_iff.1 hlen
      rw [ser_des_d1]
      by_cases hb : b = 0#8 <;> simp [hb, eq_comm]
    · simp [hd, ser_des hd hlen]
  case d24 =>
    obtain ⟨r, g, b, a⟩ := c
    simp only [des, ser, List.getD_cons_zero, List.getD_cons_succ, Color.mk.injEq, true_and]
    grind
  case d16 =>
    obtain ⟨r, g, b, a⟩ := c
    simp only [des, ser, List.getD_cons_zero, List.getD_cons_succ, Color.mk.injEq, true_and]
    grind
  case d8 =>
    obtain ⟨r, g, b, a⟩ := c
    simp only [des, ser, List.getD_cons_zero, Color.mk.injEq, true_and]
    grind

/-! ## The Paeth predictor -/

/-- Settles O41: the branch taken compares the three distances, and each neighbour's distance is one of them. -/
theorem paethPicksNearest : Obligations.PaethPicksNearest := by
  unfold Obligations.PaethPicksNearest
  intro a b c p
  have hpick : paeth a b c =
      if (p - a.toNat).natAbs ≤ (p - b.toNat).natAbs ∧ (p - a.toNat).natAbs ≤ (p - c.toNat).natAbs then a
      else if (p - b.toNat).natAbs ≤ (p - c.toNat).natAbs then b else c := rfl
  rw [hpick]
  split
  case isTrue h =>
    refine ⟨.inl rfl, ?_, fun _ _ => rfl, fun hb => absurd h.1 (by omega)⟩
    rintro x (rfl | rfl | rfl)
    exacts [le_refl _, h.1, h.2]
  case isFalse h =>
    split
    case isTrue hb =>
      refine ⟨.inr (.inl rfl), ?_, fun h1 h2 => absurd ⟨h1, h2⟩ h, fun _ _ => rfl⟩
      rintro x (rfl | rfl | rfl) <;> omega
    case isFalse hb =>
      refine ⟨.inr (.inr rfl), ?_, fun h1 h2 => absurd ⟨h1, h2⟩ h, fun _ h2 => absurd h2 hb⟩
      rintro x (rfl | rfl | rfl) <;> omega

end Sys2Proof.Machine

/-! SUPPORT. What a command in flight reads: fields of bytes and of bits where they stand, and the fetch of the next stream opcode
(00_scope R7, 43_inflate R212, 30_encoding R125, R126). -/

namespace Sys2Proof.Machine

/-! ## Bytes that stand in a memory -/

@[simp] theorem holdsAt_nil (m : Mem 8) (a : Nat) : holdsAt m a [] := fun _ hk => absurd hk (Nat.not_lt_zero _)

/-- What stands at a place is a first part and, behind it, the rest. -/
theorem stands_append {α : Type} {g : Nat → Option α} {a : Nat} {l l' : List α} :
    (∀ k < (l ++ l').length, g (a + k) = (l ++ l')[k]?) ↔
      (∀ k < l.length, g (a + k) = l[k]?) ∧ ∀ k < l'.length, g (a + l.length + k) = l'[k]? := by
  constructor
  · intro h
    refine ⟨fun k hk => ?_, fun k hk => ?_⟩
    · rw [h k (by simp only [List.length_append]; omega), List.getElem?_append_left hk]
    · rw [Nat.add_assoc, h _ (by simp only [List.length_append]; omega), List.getElem?_append_right (by omega), Nat.add_sub_cancel_left]
  · rintro ⟨h, h'⟩ k hk
    rw [List.length_append] at hk
    by_cases hlt : k < l.length
    · rw [h k hlt, List.getElem?_append_left hlt]
    · rw [List.getElem?_append_right (by omega), ← h' (k - l.length) (by omega)]
      congr 1
      omega

theorem holdsAt_append {m : Mem 8} {a : Nat} {l l' : List Byte} :
    holdsAt m a (l ++ l') ↔ holdsAt m a l ∧ holdsAt m (a + l.length) l' := stands_append

theorem holdsAt_singleton {m : Mem 8} {a : Nat} {b : Byte} : holdsAt m a [b] ↔ memRead m a = some b := by
  simp [holdsAt]

theorem holdsAt_cons {m : Mem 8} {a : Nat} {b : Byte} {l : List Byte} :
    holdsAt m a (b :: l) ↔ memRead m a = some b ∧ holdsAt m (a + 1) l := by
  rw [← List.singleton_append, holdsAt_append, holdsAt_singleton]
  rfl

theorem u8_of_memRead {s : State} {a : Nat} {b : Byte} (h : memRead s.imem a = some b) : u8 s a = .ok b := readCell_of_some h

/-! ## Fields of bytes -/

@[simp] theorem length_leBytes (n v : Nat) : (leBytes n v).length = n := by
  induction n generalizing v with
  | zero => rfl
  | succ n ih => simp [leBytes, ih]

@[simp] theorem length_beBytes (n v : Nat) : (beBytes n v).length = n := by
  rw [beBytes, List.length_reverse, length_leBytes]

@[simp] theorem length_le16 (v : Nat) : (le16 v).length = 2 := rfl

@[simp] theorem length_le32 (v : Nat) : (le32 v).length = 4 := rfl

@[simp] theorem length_be32 (v : Nat) : (be32 v).length = 4 := rfl

/-- The last byte of a little-endian field is its highest. -/
theorem leBytes_succ_last (n v : Nat) : leBytes (n + 1) v = leBytes n v ++ [BitVec.ofNat 8 (v / 256 ^ n)] := by
  induction n generalizing v with
  | zero => simp [leBytes]
  | succ n ih => rw [leBytes, ih, leBytes, List.cons_append, Nat.pow_succ', Nat.div_div_eq_div_mul]

/-- The first byte of a big-endian field is its highest. -/
theorem beBytes_succ (n v : Nat) : beBytes (n + 1) v = BitVec.ofNat 8 (v / 256 ^ n) :: beBytes n v := by
  rw [beBytes, leBytes_succ_last, List.reverse_append]
  rfl

theorem readLE_of_holdsAt {sp : Space} {m : Mem 8} {n a v : Nat} (hv : v < 256 ^ n) (h : holdsAt m a (leBytes n v)) :
    readLE sp m n a = .ok v := by
  induction n generalizing a v with
  | zero => simp only [Nat.pow_zero, Nat.lt_one_iff] at hv; rw [hv]; rfl
  | succ n ih =>
    obtain ⟨hb, hrest⟩ := holdsAt_cons.1 h
    rw [Nat.pow_succ'] at hv
    have hdiv : v / 256 < 256 ^ n := by omega
    have hbyte : (BitVec.ofNat 8 v).toNat = v % 256 := BitVec.toNat_ofNat v 8
    simp only [readLE, readCell_of_some hb, ih hdiv hrest, bind_ok, hbyte, Nat.mod_add_div]

theorem readBE_of_holdsAt {sp : Space} {m : Mem 8} {n a v : Nat} (h : holdsAt m a (beBytes n v)) :
    readBE sp m n a = .ok (v % 256 ^ n) := by
  induction n generalizing a with
  | zero => simp [readBE, Nat.mod_one]
  | succ n ih =>
    rw [beBytes_succ, holdsAt_cons] at h
    have hbyte : (BitVec.ofNat 8 (v / 256 ^ n)).toNat = v / 256 ^ n % 256 := BitVec.toNat_ofNat _ 8
    have hsplit : v / 256 ^ n % 256 * 256 ^ n + v % 256 ^ n = v % 256 ^ (n + 1) := by
      rw [Nat.mod_pow_succ]; ring
    simp only [readBE, readCell_of_some h.1, ih h.2, bind_ok, hbyte, hsplit]

theorem u16le_of_holdsAt {s : State} {a v : Nat} (hv : v < 2 ^ 16) (h : holdsAt s.imem a (le16 v)) : u16le s a = .ok v :=
  readLE_of_holdsAt (n := 2) (by omega) h

theorem u32le_of_holdsAt {s : State} {a v : Nat} (hv : v < 2 ^ 32) (h : holdsAt s.imem a (le32 v)) : u32le s a = .ok v :=
  readLE_of_holdsAt (n := 4) (by omega) h

theorem u32be_of_holdsAt {s : State} {a v : Nat} (hv : v < 2 ^ 32) (h : holdsAt s.imem a (be32 v)) : u32be s a = .ok v := by
  rw [u32be, readBE_of_holdsAt (n := 4) h, Nat.mod_eq_of_lt (by omega)]

/-- A field that holds any number is read, as some number. -/
theorem readLE_of_held {sp : Space} {m : Mem 8} {n a : Nat} (h : ∀ k < n, memRead m (a + k) ≠ none) : ∃ v, readLE sp m n a = .ok v := by
  induction n generalizing a with
  | zero => exact ⟨0, rfl⟩
  | succ n ih =>
    obtain ⟨b, hb⟩ := Option.ne_none_iff_exists'.1 (h 0 (by omega))
    obtain ⟨v, hv⟩ := ih (a := a + 1) (fun k hk => by rw [Nat.add_assoc, Nat.add_comm 1]; exact h (k + 1) (by omega))
    rw [Nat.add_zero] at hb
    exact ⟨b.toNat + 256 * v, by simp only [readLE, readCell_of_some hb, hv, bind_ok]⟩

theorem u16le_of_held {s : State} {a v : Nat} (h : holdsAt s.imem a (le16 v)) : ∃ v, u16le s a = .ok v :=
  readLE_of_held (n := 2) (fun k hk => by rw [h k hk]; simpa using hk)

/-- A signed field is read back from its two's-complement pattern. -/
theorem s32le_of_holdsAt {s : State} {a : Nat} {w : Int} (hlo : -2 ^ 31 ≤ w) (hhi : w < 2 ^ 31)
    (h : holdsAt s.imem a (le32 (BitVec.ofInt 32 w).toNat)) : s32le s a = .ok w := by
  have hread := u32le_of_holdsAt (BitVec.ofInt 32 w).isLt h
  have hval : sext32 (BitVec.ofInt 32 w).toNat = w := by
    rw [sext32, BitVec.ofNat_toNat, BitVec.setWidth_eq, BitVec.toInt_ofInt_eq_self (by decide) hlo hhi]
  simp only [s32le, hread, bind_ok, hval]

/-! ## Fields of bits -/

theorem srcByte_of_sourceByte {imem : Mem 8} {src : Source} {i : Nat} {b : Byte} (h : sourceByte imem src i = some b) :
    i < srcLen src ∧ srcByte imem src i = .ok b := by
  cases src with
  | imem n =>
    simp only [sourceByte] at h
    split at h
    case isTrue hi => exact ⟨hi, readCell_of_some h⟩
    case isFalse => cases h
  | bytes l =>
    simp only [sourceByte] at h
    obtain ⟨hi, hb⟩ := List.getElem?_eq_some_iff.1 h
    exact ⟨hi, by simp [srcByte, hi, hb]⟩

theorem getBit_of_sourceBit {imem : Mem 8} {src : Source} {bp b : Nat} (h : sourceBit imem src bp = some b) :
    getBit imem src bp = .ok b := by
  obtain ⟨x, hx, rfl⟩ := Option.map_eq_some_iff.1 h
  obtain ⟨hi, hread⟩ := srcByte_of_sourceByte hx
  have hbit : (x.toNat >>> (bp % 8)) % 2 = (x.getLsbD (bp % 8)).toNat := by
    rw [BitVec.getLsbD, Nat.toNat_testBit, Nat.shiftRight_eq_div_pow]
  simp only [getBit, if_neg (show ¬ bp / 8 ≥ srcLen src by omega), hread, bind_ok, hbit]

@[simp] theorem sourceBits_nil (imem : Mem 8) (src : Source) (bp : Nat) : sourceBits imem src bp [] :=
  fun _ hk => absurd hk (Nat.not_lt_zero _)

theorem sourceBits_append {imem : Mem 8} {src : Source} {bp : Nat} {l l' : List Nat} :
    sourceBits imem src bp (l ++ l') ↔ sourceBits imem src bp l ∧ sourceBits imem src (bp + l.length) l' := stands_append

theorem sourceHolds_append {imem : Mem 8} {src : Source} {i : Nat} {l l' : List Byte} :
    sourceHolds imem src i (l ++ l') ↔ sourceHolds imem src i l ∧ sourceHolds imem src (i + l.length) l' := stands_append

theorem sourceHolds_cons {imem : Mem 8} {src : Source} {i : Nat} {b : Byte} {l : List Byte} :
    sourceHolds imem src i (b :: l) ↔ sourceByte imem src i = some b ∧ sourceHolds imem src (i + 1) l := by
  rw [← List.singleton_append, sourceHolds_append]
  simp [sourceHolds]

theorem sourceBits_cons {imem : Mem 8} {src : Source} {bp b : Nat} {l : List Nat} :
    sourceBits imem src bp (b :: l) ↔ sourceBit imem src bp = some b ∧ sourceBits imem src (bp + 1) l := by
  rw [← List.singleton_append, sourceBits_append]
  simp [sourceBits]

@[simp] theorem length_bitsLsb (n v : Nat) : (bitsLsb n v).length = n := by
  induction n generalizing v with
  | zero => rfl
  | succ n ih => simp [bitsLsb, ih]

theorem getBits_of_sourceBits {imem : Mem 8} {src : Source} {n bp v : Nat} (hv : v < 2 ^ n)
    (h : sourceBits imem src bp (bitsLsb n v)) : getBits imem src n bp = .ok (v, bp + n) := by
  induction n generalizing bp v with
  | zero => simp only [Nat.pow_zero, Nat.lt_one_iff] at hv; rw [hv]; rfl
  | succ n ih =>
    obtain ⟨hb, hrest⟩ := sourceBits_cons.1 h
    rw [Nat.pow_succ'] at hv
    have hread := ih (v := v / 2) (by omega) hrest
    simp only [getBits, getBit_of_sourceBit hb, hread, bind_ok, Nat.mod_add_div, Nat.add_assoc, Nat.add_comm 1]

/-! ## The fetch -/

/-- What the fetch makes of the decoder's answer in each format (30_encoding R102, R126). -/
def fetchAnswer (f : Format) (d : Except DecodeError Instr) : Except Stop (Option Instr) :=
  match f with
  | .payloadHead | .blockHeader | .filterByte => opcodeOr .corruptData d
  | .headerSize | .bitCount => opcodeOr .unsupportedFormat d
  | .chunkType | .command =>
    match d with
    | .ok i => .ok (some i)
    | .error _ => .ok none

theorem chunkHead_of_holdsAt {s : State} {c : ChunkCtx} {len type : Nat} (hlen : len < 2 ^ 32) (htype : type < 2 ^ 32)
    (hlim : c.pos + 12 + len ≤ c.lim) (h : holdsAt s.imem c.pos (be32 len ++ be32 type)) : chunkHead s c = .ok (len, type) := by
  obtain ⟨hl, ht⟩ := holdsAt_append.1 h
  exact chunkHead_eq_ok.2 ⟨hlim, u32be_of_holdsAt hlen hl, u32be_of_holdsAt htype (by simpa using ht)⟩

/-- Where a word stands, the fetch reads it and the decoder answers. -/
theorem fetchStream_of_streamWordAt {s : State} {f : Format} {w : Nat} (hw : w < 2 ^ f.width) (h : streamWordAt s f w) :
    fetchStream s = fetchAnswer f (decode f w) := by
  unfold streamWordAt at h
  unfold fetchStream
  split at h
  case h_1 c he =>
    have hread := readBE_of_holdsAt (sp := .imem) (n := 8) h
    rw [Nat.mod_eq_of_lt (by simpa [Format.width] using hw)] at hread
    simp only [he, hread, bind_ok]
    rfl
  case h_2 c he =>
    simp only [he, need_of_le h.1, u32le_of_holdsAt hw h.2, bind_ok]
    rfl
  case h_3 c he =>
    simp only [he, u16le_of_holdsAt hw h, bind_ok]
    rfl
  case h_4 c he =>
    obtain ⟨len, hlen, hlim, hholds⟩ := h
    simp only [he, chunkHead_of_holdsAt hlen hw hlim hholds, bind_ok]
    rfl
  case h_5 c he =>
    simp only [he, getBits_of_sourceBits (n := 3) hw h, bind_ok]
    rfl
  case h_6 c he =>
    simp only [he, readCell_of_some h, bind_ok]
    rfl
  case h_7 => exact h.elim

theorem step_engine {s : State} (hs : s.script = []) (hb : s.st = .busy) : step s = engineStep s := by
  simp only [step, hs, if_pos hb]

theorem engineStep_of_fetch {s : State} {i : Instr} (h : fetchStream s = .ok (some i)) : engineStep s = execStream i s := by
  simp only [engineStep, h]

theorem engineStep_of_skip {s : State} (h : fetchStream s = .ok none) : engineStep s = skipChunk s := by
  simp only [engineStep, h]

theorem engineStep_of_raise {s : State} {e : ErrorKind} (h : fetchStream s = raise e) :
    engineStep s = .next (takeError (engineScope s.engine) e s) := by
  simp only [engineStep, h, raise]

/-- The words of the stream are no commands. -/
theorem streamWordAt_format {s : State} {f : Format} {w : Nat} (h : streamWordAt s f w) : f ≠ .command := by
  rintro rfl
  unfold streamWordAt at h
  split at h <;> simp_all

/-- Settles O5: the fetch gives the decoded instruction, and its meaning in the stream is `exec`'s. -/
theorem stepRunsStreamOpcode : Obligations.StepRunsStreamOpcode := by
  unfold Obligations.StepRunsStreamOpcode
  intro s f w i hs hb hw hword hd
  have hfetch : fetchStream s = .ok (some i) := by
    rw [fetchStream_of_streamWordAt hw hword, hd]
    cases f <;> rfl
  have hformat : i.format = f := (encodeInvertsDecode f w i hw hd).1
  rw [step_engine hs hb, engineStep_of_fetch hfetch, exec_eq_execStream (hformat ▸ streamWordAt_format hword)]

/-- Settles O6: the fetch raises the error of the format; of a chunk it gives none, which is skipped. -/
theorem illegalStreamWordRaises : Obligations.IllegalStreamWordRaises := by
  unfold Obligations.IllegalStreamWordRaises
  intro s f w e hs hb hw hword hd
  have hfetch := fetchStream_of_streamWordAt hw hword
  rw [hd] at hfetch
  rw [step_engine hs hb]
  refine ⟨fun hf => ?unsupported, fun hf => ?corrupt, fun hf c len he hlen hlim hholds => ?skipped⟩
  case unsupported => exact engineStep_of_raise (by rcases hf with rfl | rfl <;> exact hfetch)
  case corrupt => exact engineStep_of_raise (by rcases hf with rfl | rfl <;> exact hfetch)
  case skipped =>
    subst hf
    rw [engineStep_of_skip hfetch]
    simp only [skipChunk, he, chunkHead_of_holdsAt hlen hw hlim hholds, bind_ok, nextChunk]
    cases c.hdr <;> rfl

/-! ## PNG chunks -/

theorem acceptedFormat_iff {ct bd : Nat} : acceptedFormat ct bd = true ↔ (ct, bd) ∈ pngFormats := by
  simp only [acceptedFormat, pngFormats, List.mem_cons, Prod.mk.injEq, List.not_mem_nil, or_false]
  split
  case isTrue h => simp [h, or_assoc]
  case isFalse h =>
    split
    case isTrue h' => rcases h' with rfl | rfl | rfl <;> simp
    case isFalse h' =>
      simp only [not_or] at h'
      simp [h, h']

/-- The 13 fields of an IHDR where they stand, judged in the order of 44_png R254. -/
theorem parseIhdr_of_holdsAt {s : State} {q len w h : Nat} {bd ct cm fm il : Byte} (hlen : 13 ≤ len) (hw : w < 2 ^ 32) (hh : h < 2 ^ 32)
    (hfields : holdsAt s.imem q (be32 w ++ (be32 h ++ [bd, ct, cm, fm, il]))) : parseIhdr s q len =
      if il ≠ 0#8 then raise .unsupportedFormat
      else if acceptedFormat ct.toNat bd.toNat = false then raise .unsupportedFormat
      else if w = 0 ∨ h = 0 ∨ w * h > s.cap.pmemPixels then raise .unsupportedFormat
      else .ok ⟨w, h, bd.toNat, ct.toNat⟩ := by
  simp only [holdsAt_append, holdsAt_cons, holdsAt_nil, length_be32, and_true, Nat.add_assoc, Nat.reduceAdd] at hfields
  obtain ⟨hW, hH, hBd, hCt, hCm, hFm, hIl⟩ := hfields
  simp only [parseIhdr, if_neg (show ¬ len < 13 by omega), u32be_of_holdsAt hw hW, u32be_of_holdsAt hh hH, u8_of_memRead hBd,
    u8_of_memRead hCt, u8_of_memRead hCm, u8_of_memRead hFm, u8_of_memRead hIl, bind_ok]

/-- A chunk's head and what follows it. -/
theorem holdsAt_chunk {m : Mem 8} {a len type : Nat} {l : List Byte} (h : holdsAt m a (be32 len ++ (be32 type ++ l))) :
    holdsAt m a (be32 len ++ be32 type) ∧ holdsAt m (a + 8) l := by
  rw [← List.append_assoc, holdsAt_append] at h
  exact h

theorem exec_ihdr {s : State} {c : ChunkCtx} {len : Nat} (he : s.engine = .chunks c) (hc : c.hdr = none) (hlen : len < 2 ^ 32)
    (hlim : c.pos + 12 + len ≤ c.lim) (h : holdsAt s.imem c.pos (be32 len ++ be32 0x49484452)) :
    exec .pngChunkIHDR s = settle (pngScope c.ico) s (parseIhdr s (c.pos + 8) len >>= fun h => .ok { s with
      png := { s.png with w := regOf h.w, h := regOf h.h, bd := regOf h.bd, ct := regOf h.ct }
      engine := .chunks { nextChunk c len with hdr := some h } }) := by
  simp only [exec, execPngChunkIHDR, he, chunkHead_of_holdsAt hlen (by decide) hlim h, bind_ok, hc, engineScope]
  rfl

/-- Settles O49: the head moves the cursor, and the fields are judged in their order. -/
theorem ihdrIsParsed : Obligations.IhdrIsParsed := by
  unfold Obligations.IhdrIsParsed
  refine ⟨fun s c len w h bd ct cm fm he hc hlen hlen' hlim hw hw' hh hh' hfit hformat hholds => ?accepted,
    fun s c len he hc hlen hlim hholds => ?short,
    fun s c len w h bd ct cm fm il he hc hlen hlen' hlim hw hh hbad hholds => ?rejected⟩
  case accepted =>
    obtain ⟨hhead, hfields⟩ := holdsAt_chunk hholds
    have hsize : ¬ (w = 0 ∨ h = 0 ∨ w * h > s.cap.pmemPixels) := by omega
    rw [exec_ihdr he hc hlen' hlim hhead, parseIhdr_of_holdsAt hlen hw' hh' hfields]
    simp only [acceptedFormat_iff.2 hformat, if_neg hsize, ne_eq, not_true_eq_false, if_false, reduceCtorEq, bind_ok, settle_ok, regOf,
      BitVec.ofNat_toNat]
    rfl
  case short =>
    rw [exec_ihdr he hc (by omega) hlim hholds]
    simp only [parseIhdr, if_pos hlen]
    rfl
  case rejected =>
    obtain ⟨hhead, hfields⟩ := holdsAt_chunk hholds
    rw [exec_ihdr he hc hlen' hlim hhead, parseIhdr_of_holdsAt hlen hw hh hfields]
    by_cases hil : il ≠ 0#8
    · rw [if_pos hil]; rfl
    · rw [if_neg hil]
      by_cases hformat : acceptedFormat ct.toNat bd.toNat = false
      · rw [if_pos hformat]; rfl
      · have hin : (ct.toNat, bd.toNat) ∈ pngFormats := acceptedFormat_iff.1 (by simpa using hformat)
        have hsize : w = 0 ∨ h = 0 ∨ w * h > s.cap.pmemPixels := (hbad.resolve_left hil).resolve_left (not_not_intro hin)
        rw [if_neg hformat, if_pos hsize]; rfl

/-- Settles O50: the payload is read as a run and joins the accumulator. -/
theorem idatIsAccumulated : Obligations.IdatIsAccumulated := by
  unfold Obligations.IdatIsAccumulated
  intro s c hdr payload he hc hlen hlim hholds
  obtain ⟨hhead, hpayload⟩ := holdsAt_chunk hholds
  simp only [exec, execPngChunkIDAT, he, chunkHead_of_holdsAt hlen (by decide) hlim hhead, readRun_of_holdsAt hpayload, bind_ok, hc, nextChunk]
  rfl

/-- A zlib header that passes the check of 43_inflate R211. -/
def zlibHeaderOk (cmf flg : Byte) : Prop :=
  cmf.toNat % 16 = 8 ∧ cmf.toNat / 16 ≤ 7 ∧ (cmf.toNat * 256 + flg.toNat) % 31 = 0 ∧ flg.getLsbD 5 = false

/-- The check's condition in the fields of the two bytes. -/
theorem zlibHeader_bad_iff (cmf flg : Byte) :
    (cmf.extractLsb' 0 4 ≠ 8#4 ∨ (cmf.extractLsb' 4 4).toNat > 7 ∨ (cmf.toNat * 256 + flg.toNat) % 31 ≠ 0 ∨ flg.getLsbD 5 = true) ↔
      ¬ zlibHeaderOk cmf flg := by
  have hlow : (cmf.extractLsb' 0 4).toNat = cmf.toNat % 16 := by simp [BitVec.extractLsb'_toNat]
  have hhigh : (cmf.extractLsb' 4 4).toNat = cmf.toNat / 16 := by
    have := cmf.isLt
    rw [BitVec.extractLsb'_toNat, Nat.shiftRight_eq_div_pow]; omega
  have hmethod : cmf.extractLsb' 0 4 = 8#4 ↔ cmf.toNat % 16 = 8 := by rw [← hlow, BitVec.toNat_eq]; rfl
  rw [zlibHeaderOk, hhigh, ne_eq, hmethod]
  cases flg.getLsbD 5 with
  | true => simp
  | false => simp; omega

theorem checkZlibHeader_of_ok {imem : Mem 8} {src : Source} {a : Nat} {cmf flg : Byte} (h : sourceHolds imem src a [cmf, flg])
    (hok : zlibHeaderOk cmf flg) : checkZlibHeader imem src a = .ok () := by
  obtain ⟨-, hcmf⟩ := srcByte_of_sourceByte (b := cmf) (by simpa using h 0 (by simp))
  obtain ⟨hin, hflg⟩ := srcByte_of_sourceByte (b := flg) (by simpa using h 1 (by simp))
  simp only [checkZlibHeader, need_of_le (show a + 2 ≤ srcLen src by omega), hcmf, hflg, bind_ok]
  exact if_neg (mt (zlibHeader_bad_iff cmf flg).1 (not_not_intro hok))

theorem checkZlibHeader_of_bad {imem : Mem 8} {src : Source} {a : Nat} {cmf flg : Byte} (h : sourceHolds imem src a [cmf, flg])
    (hbad : ¬ zlibHeaderOk cmf flg) : checkZlibHeader imem src a = raise .corruptData := by
  obtain ⟨-, hcmf⟩ := srcByte_of_sourceByte (b := cmf) (by simpa using h 0 (by simp))
  obtain ⟨hin, hflg⟩ := srcByte_of_sourceByte (b := flg) (by simpa using h 1 (by simp))
  simp only [checkZlibHeader, need_of_le (show a + 2 ≤ srcLen src by omega), hcmf, hflg, bind_ok]
  exact if_pos ((zlibHeader_bad_iff cmf flg).2 hbad)

/-- The first two bytes of an accumulated stream. -/
theorem sourceHolds_bytes_head (imem : Mem 8) (b0 b1 : Byte) (l : List Byte) : sourceHolds imem (.bytes (b0 :: b1 :: l)) 0 [b0, b1] := by
  intro k hk
  simp only [List.length_cons, List.length_nil] at hk
  match k, hk with
  | 0, _ => rfl
  | 1, _ => rfl

/-- Samples per pixel as the statements list them. -/
theorem samplesPerPixel_of_format {ct bd : Nat} (h : (ct, bd) ∈ pngFormats) :
    samplesPerPixel ct = if ct = 0 then 1 else if ct = 2 then 3 else if ct = 4 then 2 else 4 := by
  have hct : ct = 0 ∨ ct = 2 ∨ ct = 4 ∨ ct = 6 := by simp [pngFormats] at h; omega
  rcases hct with rfl | rfl | rfl | rfl <;> rfl

/-- Settles O51: the walk's end checks the capacity and the zlib header and enters the blocks after it. -/
theorem iendStartsInflate : Obligations.IendStartsInflate := by
  unfold Obligations.IendStartsInflate
  intro s c hdr len cmf flg stream he hc hlen hlim hholds hformat hfit hidat h1 h2 h3 h4
  have hcheck : checkZlibHeader s.imem (.bytes c.idat) 0 = .ok () :=
    checkZlibHeader_of_ok (hidat ▸ sourceHolds_bytes_head s.imem cmf flg stream) ⟨h1, h2, h3, h4⟩
  simp only [exec, execPngChunkIEND, he, chunkHead_of_holdsAt hlen (by decide) hlim hholds, bind_ok, hc, pngDecompress,
    if_neg (show ¬ hdr.h * (rowBytes hdr + 1) > s.cap.zmemBytes by omega), hcheck, settle_ok]
  simp only [bytesPerPixel, rowBytes, samplesPerPixel_of_format hformat]
  rfl

/-- Settles O52: with the chunk's head read, the place of IHDR in the walk is judged before anything else. -/
theorem ihdrIsFirstAndOnly : Obligations.IhdrIsFirstAndOnly := by
  unfold Obligations.IhdrIsFirstAndOnly
  intro s c i len he hlen hlim hcase hholds
  rcases hcase with ⟨rfl, hc⟩ | ⟨rfl | rfl, hc⟩
  · obtain ⟨hdr, hc⟩ := Option.ne_none_iff_exists'.1 hc
    simp only [exec, execPngChunkIHDR, he, chunkHead_of_holdsAt hlen (by decide) hlim hholds, bind_ok, hc]
    rfl
  · simp only [exec, execPngChunkIDAT, he, chunkHead_of_holdsAt hlen (by decide) hlim hholds, bind_ok, hc]
    rfl
  · simp only [exec, execPngChunkIEND, he, chunkHead_of_holdsAt hlen (by decide) hlim hholds, bind_ok, hc]
    rfl

/-! ## BMP headers and the payload select -/

/-- The header instructions of the modern sizes. -/
theorem exec_modernHeader {hs : Nat} {i : Instr} {s : State} {c : BmpCtx} (he : s.engine = .header c)
    (hi : (hs, i) ∈ [(40, Instr.bmpHeader40), (52, .bmpHeader52), (56, .bmpHeader56), (108, .bmpHeader108), (124, .bmpHeader124)]) :
    exec i s = settle (bmpScope c.ico) s (modernHeader hs s c) := by
  have hstep : headerStep (modernHeader hs) s = settle (bmpScope c.ico) s (modernHeader hs s c) := by simp only [headerStep, he, engineScope]
  rw [← hstep]
  simp only [List.mem_cons, Prod.mk.injEq, List.not_mem_nil, or_false] at hi
  rcases hi with ⟨rfl, rfl⟩ | ⟨rfl, rfl⟩ | ⟨rfl, rfl⟩ | ⟨rfl, rfl⟩ | ⟨rfl, rfl⟩ <;> rfl

/-- The fields of a modern header where they stand. -/
theorem modernHeader_of_holdsAt {s : State} {c : BmpCtx} {hs planes bits comp size x y clrUsed : Nat} {w h : Int}
    (hlim : c.h0 + hs ≤ c.lim) (hw : -2 ^ 31 ≤ w) (hw' : w < 2 ^ 31) (hh : -2 ^ 31 ≤ h) (hh' : h < 2 ^ 31) (hcomp : comp < 2 ^ 32)
    (hclr : clrUsed < 2 ^ 32) (hfields : holdsAt s.imem c.h0 (le32 hs ++ (le32 (BitVec.ofInt 32 w).toNat ++
      (le32 (BitVec.ofInt 32 h).toNat ++ (le16 planes ++ (le16 bits ++ (le32 comp ++ (le32 size ++ (le32 x ++ (le32 y ++ le32 clrUsed)))))))))) :
    modernHeader hs s c = if comp ≠ 0 then raise .unsupportedFormat
      else .ok { s with engine := .pixels ⟨c, hs, false, w, h, clrUsed⟩ } := by
  simp only [holdsAt_append, length_le32, length_le16, Nat.add_assoc, Nat.reduceAdd] at hfields
  obtain ⟨-, hW, hH, -, hBits, hComp, -, -, -, hClr⟩ := hfields
  obtain ⟨b, hb⟩ := u16le_of_held hBits
  simp only [modernHeader, need_of_le hlim, s32le_of_holdsAt hw hw' hW, s32le_of_holdsAt hh hh' hH, hb, u32le_of_holdsAt hcomp hComp,
    u32le_of_holdsAt hclr hClr, bind_ok]

/-- Settles O53: each header's fields are read at its offsets, and compression decides. -/
theorem bmpHeadersAreParsed : Obligations.BmpHeadersAreParsed := by
  unfold Obligations.BmpHeadersAreParsed
  refine ⟨fun s c w h planes bits he hico hlim hw hh hfields => ?core, fun s c he hico => ?coreInIco,
    fun hs i s c w h planes bits comp size x y clrUsed hi he hlim hw hw' hh hh' hcomp hclr hfields => ?modern⟩
  case core =>
    simp only [holdsAt_append, length_le32, length_le16, Nat.add_assoc, Nat.reduceAdd] at hfields
    obtain ⟨-, hW, hH, -, hBits⟩ := hfields
    obtain ⟨b, hb⟩ := u16le_of_held hBits
    simp only [exec, execBmpHeaderCore, headerStep, he, coreHeader, hico, Bool.false_eq_true, if_false, need_of_le hlim,
      u16le_of_holdsAt hw hW, u16le_of_holdsAt hh hH, hb, bind_ok, settle_ok]
  case coreInIco =>
    simp only [exec, execBmpHeaderCore, headerStep, he, coreHeader, hico, if_true, settle_raise, engineScope, bmpScope]
  case modern =>
    rw [exec_modernHeader he hi, modernHeader_of_holdsAt hlim hw hw' hh hh' hcomp hclr hfields]
    by_cases hc : comp = 0
    · rw [if_pos hc, if_neg (not_not_intro hc), settle_ok]
    · rw [if_neg hc, if_pos hc, settle_raise]

theorem pngStart_of_holdsAt {s : State} {ico : Bool} {d : BitVec 8} {base lim : Nat} (hlim : base + 8 ≤ lim)
    (h : holdsAt s.imem base pngSignature) :
    pngStart s ico d base lim = .ok { s with st := .busy, engine := .chunks ⟨ico, d, lim, base + 8, none, []⟩ } := by
  have hread : readRun .imem s.imem 8 base = .ok pngSignature := readRun_of_holdsAt h
  simp only [pngStart, need_of_le hlim, hread, bind_ok, ne_eq, not_true_eq_false, if_false]

theorem exec_icoPayloadPng {s : State} {c : PayloadCtx} (he : s.engine = .payload c) : exec .icoPayloadPng s =
    settle .decico s (pngStart { s with ico := { s.ico with sel := regOf 1 } } true c.depth c.off c.lim) := by
  simp only [exec, execIcoPayloadPng, he]
  rfl

/-- Settles O57: the signature starts the chunk walk, any other head the info header. -/
theorem payloadSelect : Obligations.PayloadSelect := by
  unfold Obligations.PayloadSelect
  refine ⟨fun s c he hlim hsig => ?png, fun s c head he => ?bmp⟩
  case png =>
    rw [exec_icoPayloadPng he, pngStart_of_holdsAt (s := { s with ico := { s.ico with sel := regOf 1 } }) hlim hsig]
    rfl
  case bmp => simp only [exec, execIcoPayloadBmp, he]; rfl

end Sys2Proof.Machine

/-! SUPPORT. Canonical Huffman codes: the codes of an accepted set of lengths are prefix-free and their decoder gives the symbol back
(43_inflate R219, R220). -/

namespace Sys2Proof.Machine

/-! ## Code values of each length -/

/-- One past the last code value of length `l`. -/
def codeEnd (lens : List Nat) (l : Nat) : Nat := firstCode lens l + countLen lens l

theorem firstCode_succ (lens : List Nat) (l : Nat) : firstCode lens (l + 1) = codeEnd lens l * 2 := rfl

/-- What `validate` keeps: the values left free at each length are those that are not given to codes, so none is given twice. -/
theorem codeEnd_le_of_leftOver {lens : List Nat} {n l left r : Nat} (h : leftOver lens n (l + 1) left = .ok r)
    (hleft : left + codeEnd lens l = 2 ^ l) {j : Nat} (hlo : l < j) (hhi : j ≤ l + n) : codeEnd lens j ≤ 2 ^ j := by
  induction n generalizing l left with
  | zero => omega
  | succ n ih =>
    unfold leftOver at h
    split at h
    case isTrue => cases h
    case isFalse hfit =>
      have hend : codeEnd lens (l + 1) = codeEnd lens l * 2 + countLen lens (l + 1) := rfl
      have hnext : left * 2 - countLen lens (l + 1) + codeEnd lens (l + 1) = 2 ^ (l + 1) := by
        rw [Nat.pow_succ]; omega
      rcases Nat.eq_or_lt_of_le (Nat.succ_le_of_lt hlo) with rfl | hlt
      · show codeEnd lens (l + 1) ≤ 2 ^ (l + 1)
        omega
      · exact ih h hnext hlt (by omega)

theorem hasCode_iff {lens : List Nat} {sym : Nat} : hasCode lens sym = true ↔ 1 ≤ lens.getD sym 0 ∧ lens.getD sym 0 ≤ 15 := by
  simp [hasCode]

/-- A symbol with a code has a place in the list of lengths. -/
theorem getElem?_of_hasCode {lens : List Nat} {sym : Nat} (h : 1 ≤ lens.getD sym 0) : lens[sym]? = some (lens.getD sym 0) := by
  rw [List.getD_eq_getElem?_getD] at h ⊢
  cases hx : lens[sym]? with
  | none => simp [hx] at h
  | some x => rfl

/-- An accepted set of lengths gives each length at most as many values as it has. -/
theorem codeEnd_le {lens : List Nat} {kind : TableKind} {sym : Nat} (hv : validateCode lens kind = .ok ())
    (hsym : hasCode lens sym = true) {j : Nat} (hlo : 0 < j) (hhi : j ≤ 15) : codeEnd lens j ≤ 2 ^ j := by
  obtain ⟨h1, -⟩ := hasCode_iff.1 hsym
  have hmem : lens.getD sym 0 ∈ lens := List.mem_of_getElem? (getElem?_of_hasCode h1)
  unfold validateCode at hv
  split at hv
  case isTrue hzero =>
    have := List.all_eq_true.1 hzero _ hmem
    simp only [beq_iff_eq] at this
    omega
  case isFalse =>
    obtain ⟨left, hleft, -⟩ := bind_eq_ok.1 hv
    exact codeEnd_le_of_leftOver hleft rfl hlo (by omega)

/-- The values of longer codes lie at or above the values of shorter ones, shifted. -/
theorem codeEnd_shift_le (lens : List Nat) (l k : Nat) : codeEnd lens l * 2 ^ (k + 1) ≤ firstCode lens (l + k + 1) := by
  induction k with
  | zero => rw [firstCode_succ]; omega
  | succ k ih =>
    have hle : firstCode lens (l + k + 1) ≤ codeEnd lens (l + k + 1) := Nat.le_add_right _ _
    rw [firstCode_succ, Nat.pow_succ, ← Nat.mul_assoc]
    exact Nat.mul_le_mul_right 2 (ih.trans hle)

/-! ## The symbols of each length -/

theorem symbolsOf_from {l : Nat} (lens : List Nat) (k : Nat) :
    ((lens.zipIdx k).filter (fun p => p.1 == l)).length = lens.count l := by
  induction lens generalizing k with
  | nil => rfl
  | cons x lens ih =>
    rw [List.zipIdx_cons, List.filter_cons, List.count_cons]
    by_cases hx : x = l <;> simp [hx, ih]

theorem length_symbolsOf (lens : List Nat) (l : Nat) : (symbolsOf lens l).length = lens.count l := by
  rw [symbolsOf, List.length_map, symbolsOf_from]

/-- The symbols of a length in order: a symbol stands behind those of its length before it. -/
theorem getElem?_symbols_from {lens : List Nat} {l sym : Nat} (h : lens[sym]? = some l) (k : Nat) :
    (((lens.zipIdx k).filter (fun p => p.1 == l)).map (fun p => p.2))[(lens.take sym).count l]? = some (k + sym) := by
  induction lens generalizing sym k with
  | nil => simp at h
  | cons x lens ih =>
    rw [List.zipIdx_cons, List.filter_cons]
    cases sym with
    | zero =>
      simp only [List.getElem?_cons_zero, Option.some.injEq] at h
      simp [h]
    | succ sym =>
      have hrest := ih (by simpa using h) (k + 1)
      rw [List.take_succ_cons, List.count_cons]
      by_cases hx : x = l
      · simpa [hx, Nat.add_assoc, Nat.add_comm 1] using hrest
      · simpa [hx, Nat.add_assoc, Nat.add_comm 1] using hrest

theorem getElem?_symbolsOf {lens : List Nat} {l sym : Nat} (h : lens[sym]? = some l) :
    (symbolsOf lens l)[(lens.take sym).count l]? = some sym := by
  simpa [symbolsOf] using getElem?_symbols_from h 0

/-! ## The lookup -/

theorem lookupCode_of_build {lens : List Nat} {kind : TableKind} {t : Code} (ht : buildCode lens kind = .ok t) {l v : Nat}
    (hlo : 1 ≤ l) (hhi : l ≤ 15) :
    lookupCode t l v = if firstCode lens l ≤ v then (symbolsOf lens l)[v - firstCode lens l]? else none := by
  obtain ⟨-, -, heq⟩ := bind_eq_ok.1 ht
  cases heq
  have hget : (List.range 15)[l - 1]? = some (l - 1) := List.getElem?_range (by omega)
  simp only [lookupCode, List.getElem?_map, hget, Option.map_some, Nat.sub_add_cancel hlo]

theorem validateCode_of_build {lens : List Nat} {kind : TableKind} {t : Code} (ht : buildCode lens kind = .ok t) :
    validateCode lens kind = .ok () := by
  obtain ⟨⟨⟩, hv, -⟩ := bind_eq_ok.1 ht
  exact hv

/-- A code value stands between the first and the last of its length. -/
theorem codeValue_lt {lens : List Nat} {sym : Nat} (h : 1 ≤ lens.getD sym 0) : codeValue lens sym < codeEnd lens (lens.getD sym 0) := by
  have hlt := (List.getElem?_eq_some_iff.1 (getElem?_symbolsOf (getElem?_of_hasCode h))).1
  rw [length_symbolsOf] at hlt
  rw [codeValue, codeEnd, countLen, if_neg (by omega)]
  omega

/-- The whole code of a symbol is found. -/
theorem lookupCode_codeValue {lens : List Nat} {kind : TableKind} {t : Code} {sym : Nat} (ht : buildCode lens kind = .ok t)
    (hsym : hasCode lens sym = true) : lookupCode t (lens.getD sym 0) (codeValue lens sym) = some sym := by
  obtain ⟨hlo, hhi⟩ := hasCode_iff.1 hsym
  rw [lookupCode_of_build ht hlo hhi, codeValue, if_pos (Nat.le_add_right _ _), Nat.add_sub_cancel_left]
  exact getElem?_symbolsOf (getElem?_of_hasCode hlo)

/-- No proper prefix of the code of a symbol is a code: its value lies beyond the last of its length. -/
theorem lookupCode_prefix {lens : List Nat} {kind : TableKind} {t : Code} {sym l k : Nat} (ht : buildCode lens kind = .ok t)
    (hsym : hasCode lens sym = true) (hlo : 1 ≤ l) (hl : l + k + 1 = lens.getD sym 0) :
    lookupCode t l (codeValue lens sym / 2 ^ (k + 1)) = none := by
  obtain ⟨-, hhi⟩ := hasCode_iff.1 hsym
  have hge : codeEnd lens l ≤ codeValue lens sym / 2 ^ (k + 1) := by
    rw [Nat.le_div_iff_mul_le (Nat.two_pow_pos _)]
    exact (codeEnd_shift_le lens l k).trans (hl ▸ Nat.le_add_right _ _)
  rw [lookupCode_of_build ht hlo (by omega)]
  split
  case isTrue =>
    rw [List.getElem?_eq_none_iff, length_symbolsOf]
    rw [codeEnd, countLen, if_neg (by omega)] at hge
    omega
  case isFalse => rfl

/-! ## The decoder -/

@[simp] theorem length_bitsMsb (n v : Nat) : (bitsMsb n v).length = n := by
  induction n with
  | zero => rfl
  | succ n ih => simp [bitsMsb, ih]

/-- With the first bits of a code read, the rest of it leads to its symbol. -/
theorem decodeSymFrom_of_bits {lens : List Nat} {kind : TableKind} {t : Code} {imem : Mem 8} {src : Source} {sym n l m bp : Nat}
    (ht : buildCode lens kind = .ok t) (hsym : hasCode lens sym = true) (hl : l + m + 1 = lens.getD sym 0) (hn : m < n)
    (hbits : sourceBits imem src bp (bitsMsb (m + 1) (codeValue lens sym))) :
    decodeSymFrom imem src t n l (codeValue lens sym / 2 ^ (m + 1)) bp = .ok (sym, bp + (m + 1)) := by
  induction m generalizing n l bp with
  | zero =>
    obtain ⟨n, rfl⟩ := Nat.exists_eq_add_of_lt hn
    obtain ⟨hbit, -⟩ := sourceBits_cons.1 hbits
    have hcode : codeValue lens sym / 2 ^ (0 + 1) * 2 + codeValue lens sym / 2 ^ 0 % 2 = codeValue lens sym := by
      simp only [Nat.zero_add, Nat.pow_one, Nat.pow_zero, Nat.div_one]; omega
    have hfound : lookupCode t (l + 1) (codeValue lens sym) = some sym := by
      rw [show l + 1 = lens.getD sym 0 by omega]; exact lookupCode_codeValue ht hsym
    simp only [Nat.zero_add, decodeSymFrom, getBit_of_sourceBit hbit, bind_ok]
    rw [Nat.zero_add] at hcode
    simp only [hcode, hfound]
  | succ m ih =>
    obtain ⟨n, rfl⟩ : ∃ n', n = n' + 1 := ⟨n - 1, by omega⟩
    obtain ⟨hbit, hrest⟩ := sourceBits_cons.1 hbits
    have hcode : codeValue lens sym / 2 ^ (m + 1 + 1) * 2 + codeValue lens sym / 2 ^ (m + 1) % 2 = codeValue lens sym / 2 ^ (m + 1) := by
      rw [Nat.pow_succ 2 (m + 1), ← Nat.div_div_eq_div_mul]; omega
    have hnone := lookupCode_prefix (k := m) (l := l + 1) ht hsym (by omega) (by omega)
    simp only [decodeSymFrom, getBit_of_sourceBit hbit, bind_ok, hcode, hnone]
    rw [ih (n := n) (l := l + 1) (by omega) (by omega) hrest]
    congr 2
    omega

theorem decodeSym_of_codeBits {lens : List Nat} {kind : TableKind} {t : Code} {imem : Mem 8} {src : Source} {bp sym : Nat}
    (ht : buildCode lens kind = .ok t) (hsym : hasCode lens sym = true) (hbits : sourceBits imem src bp (codeBits lens sym)) :
    decodeSym imem src t bp = .ok (sym, bp + lens.getD sym 0) := by
  obtain ⟨hlo, hhi⟩ := hasCode_iff.1 hsym
  obtain ⟨m, hm⟩ : ∃ m, lens.getD sym 0 = m + 1 := ⟨lens.getD sym 0 - 1, by omega⟩
  have hzero : codeValue lens sym / 2 ^ (m + 1) = 0 :=
    Nat.div_eq_of_lt ((codeValue_lt hlo).trans_le (hm ▸ codeEnd_le (validateCode_of_build ht) hsym hlo hhi))
  rw [codeBits, hm] at hbits
  have hrun := decodeSymFrom_of_bits (n := 15) (l := 0) ht hsym (by omega) (by omega) hbits
  rw [hzero] at hrun
  rw [decodeSym, hrun, hm]

/-- Settles O46: no prefix of a code is a code, and the code itself is found where its symbol stands. -/
theorem huffmanDecodesItsCodes : Obligations.HuffmanDecodesItsCodes := by
  unfold Obligations.HuffmanDecodesItsCodes
  intro lens kind t imem src bp sym ht hsym hbits
  exact decodeSym_of_codeBits ht hsym hbits

end Sys2Proof.Machine

/-! SUPPORT. The run of a command through its stream steps (30_encoding R91), and the blocks of a DEFLATE stream: stored, fixed and dynamic
(43_inflate R210 to R227). -/

namespace Sys2Proof.Machine

/-! ## Running to the end -/

/-- A run takes no more steps than the work it has, so more fuel makes no difference. -/
theorem runEngine_of_work_le {n : Nat} {s : State} (hs : InFlightOrEnded s) (hn : s.st = .busy → engineWork s ≤ n) :
    runEngine n s = runEngine (engineWork s) s := by
  by_cases hb : s.st = .busy
  case neg =>
    have hstop : ∀ n, runEngine n s = .next s := by
      rintro (_ | n)
      · rfl
      · rw [runEngine, if_neg hb]
    rw [hstop, hstop]
  case pos =>
    have hi : s.engine ≠ .idle := by
      rcases hs with ⟨-, hi⟩ | hs
      · exact hi
      · rw [hb] at hs; simp at hs
    induction n using Nat.strong_induction_on generalizing s with
    | h n ih =>
      obtain ⟨w, hw⟩ : ∃ w, engineWork s = w + 1 := ⟨engineWork s - 1, by have := engineWork_pos hi; omega⟩
      obtain ⟨k, rfl⟩ : ∃ k, n = k + 1 := ⟨n - 1, by have := hn hb; omega⟩
      have := hn hb
      rw [hw, runEngine, runEngine, if_pos hb, if_pos hb]
      cases h : engineStep s with
      | fault f => rfl
      | refused r => rfl
      | next t =>
        obtain ⟨ht, hwork⟩ := engineStep_work hb h
        by_cases hbt : t.st = .busy
        · have hit : t.engine ≠ .idle := by
            rcases ht with ⟨-, hit⟩ | ht
            · exact hit
            · rw [hbt] at ht; simp at ht
          have hlt := hwork hbt
          show runEngine k t = runEngine w t
          rw [ih k (by omega) ht (fun _ => by omega) hbt hit]
          rcases Nat.eq_or_lt_of_le (show w ≤ k by omega) with rfl | hwk
          · rw [ih w (by omega) ht (fun _ => by omega) hbt hit]
          · rw [ih w (by omega) ht (fun _ => by omega) hbt hit]
        · show runEngine k t = runEngine w t
          cases k <;> cases w <;> simp [runEngine, hbt]

/-- The run of a command from a state of it. -/
def runOn (s : State) : Host.Outcome State Fault Refusal := runEngine (engineWork s) s

theorem runCommand_next (s : State) : runCommand (.next s) = runOn s := rfl

theorem runOn_ended {s : State} (h : s.st ≠ .busy) : runOn s = .next s := by
  rw [runOn]
  cases engineWork s with
  | zero => rfl
  | succ n => rw [runEngine, if_neg h]

/-- A stream step leads the run on. -/
theorem runOn_step {s t : State} (hb : s.st = .busy) (hi : s.engine ≠ .idle) (h : engineStep s = .next t) : runOn s = runOn t := by
  obtain ⟨w, hw⟩ : ∃ w, engineWork s = w + 1 := ⟨engineWork s - 1, by have := engineWork_pos hi; omega⟩
  obtain ⟨ht, hwork⟩ := engineStep_work hb h
  rw [runOn, hw, runEngine, if_pos hb, h]
  exact runEngine_of_work_le ht (fun hbt => by have := hwork hbt; omega)

/-- Where a word stands that decodes, the run goes on after its instruction. -/
theorem runOn_word {s t : State} {f : Format} {w : Nat} {i : Instr} (hb : s.st = .busy) (hw : w < 2 ^ f.width) (hword : streamWordAt s f w)
    (hd : decode f w = .ok i) (h : exec i s = .next t) : runOn s = runOn t := by
  have hfetch : fetchStream s = .ok (some i) := by
    rw [fetchStream_of_streamWordAt hw hword, hd]
    cases f <;> rfl
  have hformat : i.format = f := (encodeInvertsDecode f w i hw hd).1
  rw [exec_eq_execStream (hformat ▸ streamWordAt_format hword)] at h
  refine runOn_step hb (fun hi => ?_) ((engineStep_of_fetch hfetch).trans h)
  simp [streamWordAt, hi] at hword

/-! ## The zlib header of INFLATE -/

theorem exec_inflate (s : State) : exec .inflate s = runCommand (settle .inflate s (inflateStart s)) := rfl

theorem exec_inflate_raises {s : State} {e : ErrorKind} (h : checkZlibHeader s.imem (.imem s.ilen.toNat) s.arg0.toNat = raise e) :
    exec .inflate s = .next (takeError .inflate e s) := by
  simp only [exec_inflate, inflateStart, h]
  exact runOn_ended (s := takeError .inflate e s) Status.noConfusion

theorem sourceHolds_imem {imem : Mem 8} {n a : Nat} {l : List Byte} (hn : a + l.length ≤ n) (h : holdsAt imem a l) :
    sourceHolds imem (.imem n) a l := by
  intro k hk
  rw [← h k hk, sourceByte, if_pos (by omega)]

/-- Settles O44: the header is needed, then judged, before the engine starts. -/
theorem zlibHeaderIsChecked : Obligations.ZlibHeaderIsChecked := by
  unfold Obligations.ZlibHeaderIsChecked
  refine fun s => ⟨fun hshort => ?missing, fun cmf flg hin hholds hbad => ?wrong⟩
  case missing =>
    refine exec_inflate_raises ?_
    rw [checkZlibHeader, srcLen, need_of_lt hshort]
    rfl
  case wrong =>
    refine exec_inflate_raises (checkZlibHeader_of_bad (sourceHolds_imem (by simpa using hin) hholds) ?_)
    rintro ⟨h1, h2, h3, h4⟩
    rw [h4] at hbad
    simp at hbad
    omega

/-! ## Stored blocks -/

theorem putByte_of_lt {cap : Nat} {rout : List Byte} (b : Byte) (h : rout.length < cap) : putByte cap rout b = .ok (b :: rout) :=
  if_neg (by omega)

/-- Bytes that stand in the source are copied to the output, the newest first. -/
theorem storedLoop_copies {imem : Mem 8} {src : Source} {cap p i : Nat} {data rout : List Byte}
    (hdata : sourceHolds imem src (p + i) data) (hcap : rout.length + data.length ≤ cap) :
    forLoop (fun i out => do
      let b ← srcByte imem src (p + i)
      putByte cap out b) data.length i rout = .ok (data.reverse ++ rout) := by
  induction data generalizing i rout with
  | nil => rfl
  | cons b data ih =>
    obtain ⟨hb, hrest⟩ := sourceHolds_cons.1 hdata
    obtain ⟨-, hread⟩ := srcByte_of_sourceByte hb
    rw [List.length_cons] at hcap
    have hnext := ih (i := i + 1) (rout := b :: rout) hrest (by simp only [List.length_cons]; omega)
    simp only [List.length_cons, forLoop, hread, bind_ok, putByte_of_lt b (show rout.length < cap by omega), hnext, List.reverse_cons,
      List.append_assoc, List.singleton_append]

/-- Two bytes of a field, read from the source. -/
theorem srcBytes_of_le16 {imem : Mem 8} {src : Source} {a v : Nat} (hv : v < 2 ^ 16) (h : sourceHolds imem src a (le16 v)) :
    ∃ lo hi : Byte, srcByte imem src a = .ok lo ∧ srcByte imem src (a + 1) = .ok hi ∧ lo.toNat + 256 * hi.toNat = v ∧ a + 1 < srcLen src := by
  obtain ⟨hlo, hhi⟩ := sourceHolds_cons.1 h
  obtain ⟨-, hlo⟩ := srcByte_of_sourceByte hlo
  obtain ⟨hin, hhi⟩ := srcByte_of_sourceByte (sourceHolds_cons.1 hhi).1
  exact ⟨_, _, hlo, hhi, by simp only [BitVec.toNat_ofNat]; omega, hin⟩

/-- The bytes of a source lie inside it. -/
theorem sourceHolds_inside {imem : Mem 8} {src : Source} {a : Nat} {l : List Byte} (hl : l ≠ []) (h : sourceHolds imem src a l) :
    a + l.length ≤ srcLen src := by
  have hpos : 0 < l.length := List.length_pos_iff.2 hl
  have hlast := h (l.length - 1) (by omega)
  rw [List.getElem?_eq_getElem (by omega)] at hlast
  have := (srcByte_of_sourceByte hlast).1
  omega

theorem storedBlock_of_sourceHolds {imem : Mem 8} {src : Source} {cap bp : Nat} {data rout : List Byte} (hlen : data.length ≤ 65535)
    (hcap : rout.length + data.length ≤ cap)
    (h : sourceHolds imem src ((bp + 7) / 8) (le16 data.length ++ (le16 (65535 - data.length) ++ data))) :
    storedBlock imem src cap bp rout = .ok (8 * ((bp + 7) / 8 + 4 + data.length), data.reverse ++ rout) := by
  have hinside := sourceHolds_inside (by simp [le16, leBytes]) h
  obtain ⟨hlenField, hrest⟩ := sourceHolds_append.1 h
  obtain ⟨hnlenField, hdata⟩ := sourceHolds_append.1 hrest
  obtain ⟨l0, l1, hl0, hl1, hl, -⟩ := srcBytes_of_le16 (by omega) hlenField
  obtain ⟨n0, n1, hn0, hn1, hn, -⟩ := srcBytes_of_le16 (by omega) hnlenField
  simp only [length_le16, Nat.add_assoc, Nat.reduceAdd] at hn0 hn1 hdata
  simp only [List.length_append, length_le16] at hinside
  have hloop := storedLoop_copies (p := (bp + 7) / 8 + 4) (i := 0) hdata hcap
  have hmatch : ¬ data.length ≠ 0xFFFF - (65535 - data.length) := by omega
  simp only [storedBlock, need_of_le (show (bp + 7) / 8 + 4 ≤ srcLen src by omega), hl0, hl1, hn0, hn1, hl, hn, bind_ok, if_neg hmatch,
    need_of_le (show (bp + 7) / 8 + 4 + data.length ≤ srcLen src by omega), hloop]

/-- A block whose body ends well leaves what `afterBlock` says. -/
theorem blockStep_of_body {body : Mem 8 → Source → Nat → Nat → List Byte → Except Stop (Nat × List Byte)} {s : State} {c : BlockCtx}
    {b : Bool} {bp : Nat} {out : List Byte} (he : s.engine = .blocks c) (hends : blockEnds c b out)
    (hbody : body s.imem c.src s.cap.zmemBytes (c.bp + 3) c.rout = .ok (bp, out.reverse)) :
    blockStep body b s = .next (afterBlock s c b bp out) := by
  simp only [blockStep, he, hbody, bind_ok, afterBlock]
  cases b with
  | false => rfl
  | true =>
    simp only [if_true, inflateDone, List.reverse_reverse]
    cases hp : c.png with
    | none => rfl
    | some p =>
      obtain ⟨hrow, hfit⟩ := hends rfl p hp
      simp only [if_neg (show ¬ out.length < p.hdr.h * (rowBytes p.hdr + 1) by omega), enterRows, if_pos (show 0 < p.hdr.h from hrow)]
      rfl

/-- Settles O45: the stored block's body is a copy. -/
theorem storedBlockCopies : Obligations.StoredBlockCopies := by
  unfold Obligations.StoredBlockCopies
  intro s c b data he hlen hcap hends hholds
  refine blockStep_of_body he hends ?_
  rw [storedBlock_of_sourceHolds hlen hcap hholds, List.reverse_append, List.reverse_reverse]

/-- The first three bits of a byte, as a block header. -/
theorem sourceBits_of_byte {imem : Mem 8} {src : Source} {i w : Nat} {b : Byte} (h : sourceByte imem src i = some b)
    (hb : b.toNat % 8 = w) : sourceBits imem src (8 * i) (bitsLsb 3 w) := by
  intro k hk
  simp only [length_bitsLsb] at hk
  have hbyte : (8 * i + k) / 8 = i := by omega
  have hbit : (8 * i + k) % 8 = k := by omega
  have hval : (b.getLsbD k).toNat = b.toNat / 2 ^ k % 2 := by rw [BitVec.getLsbD, Nat.toNat_testBit]
  rw [sourceBit, hbyte, hbit, h, Option.map_some, hval]
  match k, hk with
  | 0, _ => simp [bitsLsb]; omega
  | 1, _ => simp [bitsLsb]; omega
  | 2, _ => simp [bitsLsb]; omega

theorem holdsAt_memWriteRun (m : Mem 8) (a : Nat) (l : List Byte) : holdsAt (memWriteRun m a l) a l := by
  intro k hk
  rw [memRead_memWriteRun, if_pos (by omega), Nat.add_sub_cancel_left]

/-- Where a final stored block begins at a byte, with nothing decompressed before it, the run goes on with its bytes as the output. -/
theorem runOn_storedBlock {s : State} {src : Source} {a : Nat} {png : Option PngImage} {pad : Byte} {data : List Byte} (hb : s.st = .busy)
    (he : s.engine = .blocks ⟨src, 8 * a, [], png⟩) (hpad : pad.toNat % 8 = 1) (hlen : data.length ≤ 65535)
    (hcap : data.length ≤ s.cap.zmemBytes) (hends : blockEnds ⟨src, 8 * a, [], png⟩ true data)
    (h : sourceHolds s.imem src a (pad :: (le16 data.length ++ (le16 (65535 - data.length) ++ data)))) :
    runOn s = runOn (afterBlock s ⟨src, 8 * a, [], png⟩ true (8 * (a + 5 + data.length)) data) := by
  obtain ⟨hpadByte, hdata⟩ := sourceHolds_cons.1 h
  have hword : streamWordAt s .blockHeader 1 := by
    simp only [streamWordAt, he]
    exact sourceBits_of_byte hpadByte hpad
  have hbyte : (8 * a + 3 + 7) / 8 = a + 1 := by omega
  have hexec := storedBlockCopies s _ true data he hlen (by simpa using hcap) hends (by rw [hbyte]; exact hdata)
  rw [hbyte, Nat.add_assoc a 1 4] at hexec
  exact runOn_word hb (by decide) hword rfl hexec

/-- INFLATE behind its zlib header. -/
def inflateEntered (s : State) : State :=
  { s with st := .busy, engine := .blocks ⟨.imem s.ilen.toNat, 8 * (s.arg0.toNat + 2), [], none⟩ }

theorem exec_inflate_of_header {s : State} {cmf flg : Byte} (hin : s.arg0.toNat + 2 ≤ s.ilen.toNat)
    (h : holdsAt s.imem s.arg0.toNat [cmf, flg]) (hok : zlibHeaderOk cmf flg) : exec .inflate s = runOn (inflateEntered s) := by
  have hsource := sourceHolds_imem (n := s.ilen.toNat) (by simpa using hin) h
  simp only [exec_inflate, inflateStart, checkZlibHeader_of_ok hsource hok, bind_ok]
  rfl

/-- Settles O43: the zlib header starts the engine, which meets one final stored block. -/
theorem inflateStoredStream : Obligations.InflateStoredStream := by
  unfold Obligations.InflateStoredStream
  intro s cmf flg pad data h1 h2 h3 h4 hpad hlen hcap hfit hholds
  obtain ⟨hhead, hblock⟩ := (holdsAt_append (l := [cmf, flg])).1 hholds
  have hsource : sourceHolds s.imem (.imem s.ilen.toNat) (s.arg0.toNat + 2) (pad :: (le16 data.length ++ (le16 (65535 - data.length) ++ data))) :=
    sourceHolds_imem (by simp only [List.length_cons, List.length_append, length_le16]; omega) hblock
  have hrun := runOn_storedBlock (s := inflateEntered s) rfl rfl hpad hlen hcap (fun _ p hp => by cases hp) hsource
  have hcursor : (8 * (s.arg0.toNat + 2 + 5 + data.length) + 7) / 8 = s.arg0.toNat + 7 + data.length := by omega
  refine ⟨memWriteRun s.zmem 0 data, ?_, holdsAt_memWriteRun _ _ _, sameOutside_memWriteRun _ _ _⟩
  rw [exec_inflate_of_header (by omega) hhead ⟨h1, h2, h3, h4⟩, hrun, runOn_ended Status.noConfusion, afterBlock, if_pos rfl, hcursor]
  rfl

end Sys2Proof.Machine

/-! SUPPORT. Compressed data: the literals and copies of a block in the codes of the fixed or of a dynamic header
(43_inflate R215 to R218, R221 to R225). -/

namespace Sys2Proof.Machine

/-! ## The output of a token -/

@[simp] theorem length_copyOut (d n : Nat) (out : List Byte) : (copyOut d n out).length = out.length + n := by
  induction n generalizing out with
  | zero => rfl
  | succ n ih => rw [copyOut, ih, List.length_append, List.length_singleton]; omega

theorem length_le_of_emit {t : Token} {out out' : List Byte} (h : t.emit out = some out') : out.length ≤ out'.length := by
  cases t with
  | literal b => cases h; simp
  | copy l lx d dx =>
    rw [Token.emit] at h
    split at h
    · cases h; simp
    · cases h

theorem emitAll_cons {t : Token} {ts : List Token} {out out' : List Byte} (h : emitAll (t :: ts) out = some out') :
    ∃ mid, t.emit out = some mid ∧ emitAll ts mid = some out' := by
  rw [emitAll] at h
  split at h
  case h_1 mid hmid => exact ⟨mid, hmid, h⟩
  case h_2 => cases h

theorem length_le_of_emitAll {ts : List Token} {out out' : List Byte} (h : emitAll ts out = some out') : out.length ≤ out'.length := by
  induction ts generalizing out with
  | nil => cases h; exact le_rfl
  | cons t ts ih =>
    obtain ⟨mid, hmid, hrest⟩ := emitAll_cons h
    exact (length_le_of_emit hmid).trans (ih hrest)

/-- The byte `d` before the end, with the output held newest first. -/
theorem getD_reverse_back {rout : List Byte} {d : Nat} (hd : 1 ≤ d) (hle : d ≤ rout.length) :
    rout.reverse.getD (rout.reverse.length - d) 0#8 = rout.getD (d - 1) 0#8 := by
  rw [List.getD_eq_getElem?_getD, List.getD_eq_getElem?_getD, List.length_reverse, List.getElem?_reverse (by omega),
    show rout.length - 1 - (rout.length - d) = d - 1 by omega]

/-- The machine's copy, newest byte first, is the vocabulary's. -/
theorem copyLoop_eq_copyOut {cap d n : Nat} {rout : List Byte} (hd : 1 ≤ d) (hle : d ≤ rout.length) (hcap : rout.length + n ≤ cap) :
    copyLoop cap d n rout = .ok (copyOut d n rout.reverse).reverse := by
  induction n generalizing rout with
  | zero => rw [copyLoop, copyOut, List.reverse_reverse]
  | succ n ih =>
    rw [copyLoop, copyOut, putByte_of_lt _ (by omega), bind_ok, ih (by simp only [List.length_cons]; omega)
      (by simp only [List.length_cons]; omega), getD_reverse_back hd hle, List.reverse_cons]

theorem copyBack_of_emit {cap d n : Nat} {rout : List Byte} (hd : 1 ≤ d) (hle : d ≤ rout.length) (hcap : rout.length + n ≤ cap) :
    copyBack cap n d rout = .ok (copyOut d n rout.reverse).reverse := by
  rw [copyBack, if_neg (by omega), copyLoop_eq_copyOut hd hle hcap]

/-! ## One token -/

theorem getElem?_of_lt_length {α : Type} {l : List α} {i : Nat} (h : i < l.length) (a : α) : l[i]? = some (l.getD i a) := by
  rw [List.getD_eq_getElem?_getD, List.getElem?_eq_getElem h, Option.getD_some]

theorem baseAndExtra_of_bits {imem : Mem 8} {src : Source} {table : List (Nat × Nat)} {k x bp : Nat} (hk : k < table.length)
    (hx : x < 2 ^ (table.getD k (0, 0)).2) (h : sourceBits imem src bp (bitsLsb (table.getD k (0, 0)).2 x)) :
    baseAndExtra imem src table k bp = .ok ((table.getD k (0, 0)).1 + x, bp + (table.getD k (0, 0)).2) := by
  rw [baseAndExtra, getElem?_of_lt_length hk (0, 0)]
  simp only [getBits_of_sourceBits hx h, bind_ok]

theorem length_codeBits (lens : List Nat) (sym : Nat) : (codeBits lens sym).length = lens.getD sym 0 := length_bitsMsb _ _

/-- Every distance of the table is at least 1. -/
theorem one_le_copyDistance {d : Nat} (hd : d < 30) (dx : Nat) : 1 ≤ copyDistance d dx := by
  have hbase : ∀ d < 30, 1 ≤ (distanceTable.getD d (0, 0)).1 := by decide
  exact (hbase d hd).trans (Nat.le_add_right _ _)

theorem legal_copy {lit dist : List Nat} {l lx d dx : Nat} (h : (Token.copy l lx d dx).legal lit dist = true) :
    l < 29 ∧ hasCode lit (257 + l) = true ∧ lx < 2 ^ (lengthTable.getD l (0, 0)).2 ∧
      d < 30 ∧ hasCode dist d = true ∧ dx < 2 ^ (distanceTable.getD d (0, 0)).2 := by
  simp only [Token.legal, Bool.and_eq_true, decide_eq_true_eq] at h
  obtain ⟨⟨⟨⟨⟨hl, hlc⟩, hlx⟩, hd⟩, hdc⟩, hdx⟩ := h
  exact ⟨hl, hlc, hlx, hd, hdc, hdx⟩

section
variable {imem : Mem 8} {src : Source} {cap : Nat} {lit dist : List Nat} {klit kdist : TableKind} {tlit tdist : Code}
  (hlit : buildCode lit klit = .ok tlit) (hdist : buildCode dist kdist = .ok tdist)
include hlit hdist

/-- A token's bits are read, its bytes are put out, and the block goes on. -/
theorem compressedBlock_token {t : Token} {n bp : Nat} {rout out : List Byte} (hlegal : t.legal lit dist = true)
    (hbits : sourceBits imem src bp (t.bits lit dist)) (hemit : t.emit rout.reverse = some out) (hcap : out.length ≤ cap) :
    compressedBlock imem src cap tlit tdist (n + 1) bp rout =
      compressedBlock imem src cap tlit tdist n (bp + (t.bits lit dist).length) out.reverse := by
  cases t with
  | literal b =>
    cases hemit
    have hsym := decodeSym_of_codeBits hlit hlegal hbits
    have hlt : rout.length < cap := by
      simp only [List.length_append, List.length_reverse, List.length_singleton] at hcap; omega
    rw [compressedBlock, hsym]
    simp only [bind_ok, if_pos (show b.toNat ≤ 255 by have := b.isLt; omega), BitVec.ofNat_toNat, BitVec.setWidth_eq,
      putByte_of_lt b hlt, Token.bits, length_codeBits, List.reverse_append, List.reverse_reverse, List.reverse_singleton,
      List.singleton_append]
  | copy l lx d dx =>
    obtain ⟨hl, hlc, hlx, hd, hdc, hdx⟩ := legal_copy hlegal
    obtain ⟨hbl, hrest⟩ := sourceBits_append.1 hbits
    obtain ⟨hblx, hrest⟩ := sourceBits_append.1 hrest
    obtain ⟨hbd, hbdx⟩ := sourceBits_append.1 hrest
    simp only [length_codeBits, length_bitsLsb] at hblx hbd hbdx
    rw [Token.emit] at hemit
    split at hemit
    case isFalse => cases hemit
    case isTrue hback =>
      cases hemit
      rw [List.length_reverse] at hback
      rw [length_copyOut, List.length_reverse] at hcap
      have hcopy := copyBack_of_emit (one_le_copyDistance hd dx) hback hcap
      simp only [copyLength, copyDistance] at hcopy
      rw [compressedBlock, decodeSym_of_codeBits hlit hlc hbl]
      simp only [bind_ok, if_neg (show ¬ 257 + l ≤ 255 by omega), if_neg (show ¬ 257 + l = 256 by omega), Nat.add_sub_cancel_left,
        baseAndExtra_of_bits hl hlx hblx, decodeSym_of_codeBits hdist hdc hbd, baseAndExtra_of_bits hd hdx hbdx, hcopy, Token.bits,
        List.length_append, length_codeBits, length_bitsLsb, copyLength, copyDistance, ← Nat.add_assoc]

/-- A block's tokens and its end symbol are read to the last bit. -/
theorem compressedBlock_of_tokens {ts : List Token} {n bp : Nat} {rout out : List Byte} (hend : hasCode lit 256 = true)
    (hlegal : ∀ t ∈ ts, t.legal lit dist = true) (hemit : emitAll ts rout.reverse = some out) (hcap : out.length ≤ cap)
    (hfuel : ts.length < n) (hbits : sourceBits imem src bp (blockBits lit dist ts)) :
    compressedBlock imem src cap tlit tdist n bp rout = .ok (bp + (blockBits lit dist ts).length, out.reverse) := by
  induction ts generalizing n bp rout with
  | nil =>
    obtain ⟨n, rfl⟩ : ∃ n', n = n' + 1 := ⟨n - 1, by simp at hfuel; omega⟩
    cases hemit
    rw [compressedBlock, decodeSym_of_codeBits hlit hend hbits]
    simp [blockBits, length_codeBits]
  | cons t ts ih =>
    obtain ⟨n, rfl⟩ : ∃ n', n = n' + 1 := ⟨n - 1, by simp at hfuel; omega⟩
    obtain ⟨mid, hmid, hrest⟩ := emitAll_cons hemit
    have hsplit : blockBits lit dist (t :: ts) = t.bits lit dist ++ blockBits lit dist ts := by
      rw [blockBits, List.flatMap_cons, List.append_assoc, blockBits]
    rw [hsplit] at hbits ⊢
    obtain ⟨hbt, hbts⟩ := sourceBits_append.1 hbits
    rw [compressedBlock_token hlit hdist (hlegal t (by simp)) hbt hmid ((length_le_of_emitAll hrest).trans hcap),
      ih (fun t' ht' => hlegal t' (by simp [ht'])) (by rwa [List.reverse_reverse]) (by simpa using hfuel) hbts,
      List.length_append, Nat.add_assoc]

end

/-- The bits of a source lie inside it. -/
theorem sourceBits_inside {imem : Mem 8} {src : Source} {bp : Nat} {l : List Nat} (hl : l ≠ []) (h : sourceBits imem src bp l) :
    bp + l.length ≤ 8 * srcLen src := by
  have hpos : 0 < l.length := List.length_pos_iff.2 hl
  have hlast := h (l.length - 1) (by omega)
  rw [List.getElem?_eq_getElem (by omega), sourceBit] at hlast
  obtain ⟨b, hb, -⟩ := Option.map_eq_some_iff.1 hlast
  have := (srcByte_of_sourceByte hb).1
  omega

/-- Every token takes at least one bit, so the bits left are enough turns. -/
theorem length_le_length_blockBits {lit dist : List Nat} {ts : List Token} (hend : hasCode lit 256 = true)
    (hlegal : ∀ t ∈ ts, t.legal lit dist = true) : ts.length < (blockBits lit dist ts).length := by
  induction ts with
  | nil =>
    show 0 < (codeBits lit 256).length
    rw [length_codeBits]
    exact (hasCode_iff.1 hend).1
  | cons t ts ih =>
    have hrest := ih fun t' ht' => hlegal t' (by simp [ht'])
    have hbit : 1 ≤ (t.bits lit dist).length := by
      have ht := hlegal t (by simp)
      cases t with
      | literal b => simpa [Token.bits, length_codeBits] using (hasCode_iff.1 ht).1
      | copy l lx d dx =>
        have := (hasCode_iff.1 (legal_copy ht).2.1).1
        simp only [Token.bits, List.length_append, length_codeBits]
        omega
    simp only [blockBits, List.flatMap_cons, List.length_append, List.length_cons] at hrest ⊢
    omega

theorem compressedBlock_of_blockBits {imem : Mem 8} {src : Source} {cap bp : Nat} {lit dist : List Nat} {klit kdist : TableKind}
    {tlit tdist : Code} {ts : List Token} {rout out : List Byte} (hlit : buildCode lit klit = .ok tlit)
    (hdist : buildCode dist kdist = .ok tdist) (hend : hasCode lit 256 = true) (hlegal : ∀ t ∈ ts, t.legal lit dist = true)
    (hemit : emitAll ts rout.reverse = some out) (hcap : out.length ≤ cap) (hbits : sourceBits imem src bp (blockBits lit dist ts)) :
    compressedBlock imem src cap tlit tdist (bitsLeft src bp) bp rout = .ok (bp + (blockBits lit dist ts).length, out.reverse) := by
  have hlen := length_le_length_blockBits hend hlegal
  have hinside := sourceBits_inside (List.length_pos_iff.1 (by omega)) hbits
  exact compressedBlock_of_tokens hlit hdist hend hlegal hemit hcap (by rw [bitsLeft]; omega) hbits

/-! ## Fixed blocks -/

theorem buildCode_of_validate {lens : List Nat} {kind : TableKind} (h : validateCode lens kind = .ok ()) :
    ∃ t, buildCode lens kind = .ok t := ⟨_, by rw [buildCode, h, bind_ok]⟩

theorem validateCode_fixedLit : validateCode fixedLitLens .lens = .ok () := by decide +kernel

theorem validateCode_fixedDist : validateCode fixedDistLens .dists = .ok () := by decide +kernel

/-- Settles O47: the fixed codes pass validation, so their codes are read and the tokens put out. -/
theorem fixedBlockExpands : Obligations.FixedBlockExpands := by
  unfold Obligations.FixedBlockExpands
  intro s c b ts out he hlegal hemit hcap hends hbits
  obtain ⟨tlit, hlit⟩ := buildCode_of_validate validateCode_fixedLit
  obtain ⟨tdist, hdist⟩ := buildCode_of_validate validateCode_fixedDist
  refine blockStep_of_body he hends ?_
  simp only [fixedBlock, fixedCodes, hlit, hdist, bind_ok]
  exact compressedBlock_of_blockBits hlit hdist (by decide +kernel) hlegal hemit hcap hbits

/-! ## The header of a dynamic block -/

/-- The lengths of the code-length code, set one after another. -/
def setLens (cl : List Nat) (syms init : List Nat) : List Nat := syms.foldl (fun acc sym => acc.set sym (cl.getD sym 0)) init

theorem getElem?_setLens (cl syms init : List Nat) (i : Nat) :
    (setLens cl syms init)[i]? = if i ∈ syms ∧ i < init.length then some (cl.getD i 0) else init[i]? := by
  induction syms generalizing init with
  | nil => simp [setLens]
  | cons sym syms ih =>
    have hstep : setLens cl (sym :: syms) init = setLens cl syms (init.set sym (cl.getD sym 0)) := rfl
    rw [hstep, ih, List.length_set, List.getElem?_set]
    by_cases hs : sym = i
    · subst hs
      by_cases hlt : sym < init.length <;> simp [hlt]
    · simp [hs, show ¬ i = sym from fun h => hs h.symm]

theorem readCodeLens_of_bits {imem : Mem 8} {src : Source} {cl syms init : List Nat} {bp : Nat} (hcl : ∀ sym, cl.getD sym 0 < 8)
    (h : sourceBits imem src bp (syms.flatMap (fun sym => bitsLsb 3 (cl.getD sym 0)))) :
    readCodeLens imem src syms bp init = .ok (setLens cl syms init, bp + 3 * syms.length) := by
  induction syms generalizing bp init with
  | nil => rfl
  | cons sym syms ih =>
    rw [List.flatMap_cons, sourceBits_append, length_bitsLsb] at h
    simp only [readCodeLens, getBits_of_sourceBits (n := 3) (hcl sym) h.1, bind_ok, ih h.2]
    rw [List.length_cons, Nat.mul_succ, Nat.add_assoc, Nat.add_comm 3]
    rfl

/-- The lengths of the header are read whole: those that are not sent are 0. -/
theorem setLens_codeOrder {cl : List Nat} {n : Nat} (hlen : cl.length = 19) (hzero : ∀ sym ∈ codeOrder.drop n, cl.getD sym 0 = 0) :
    setLens cl (codeOrder.take n) (List.replicate 19 0) = cl := by
  have hall : ∀ i < 19, i ∈ codeOrder := by decide
  refine List.ext_getElem? fun i => ?_
  rw [getElem?_setLens, List.length_replicate]
  by_cases hi : i < 19
  · by_cases htake : i ∈ codeOrder.take n
    · rw [if_pos ⟨htake, hi⟩, getElem?_of_lt_length (show i < cl.length by omega) 0]
    · have hdrop : i ∈ codeOrder.drop n := by
        have := hall i hi
        rw [← List.take_append_drop n codeOrder, List.mem_append] at this
        exact this.resolve_left htake
      rw [if_neg (fun h => htake h.1), getElem?_of_lt_length (show i < cl.length by omega) 0, hzero i hdrop,
        List.getElem?_replicate, if_pos hi]
  · rw [if_neg (fun h => hi h.2), List.getElem?_eq_none (by simpa using hi), List.getElem?_eq_none (by omega)]

/-! ## The length sequence of a dynamic block -/

theorem expandAll_cons {i : LenItem} {is : List LenItem} {ls ls' : List Nat} (h : expandAll (i :: is) ls = some ls') :
    ∃ mid, i.expand ls = some mid ∧ expandAll is mid = some ls' := by
  rw [expandAll] at h
  split at h
  case h_1 mid hmid => exact ⟨mid, hmid, h⟩
  case h_2 => cases h

/-- An entry adds at least one length. -/
theorem length_lt_of_expand {i : LenItem} {ls mid : List Nat} (h : i.expand ls = some mid) : ls.length < mid.length := by
  cases i with
  | len l => cases h; simp
  | repeatLast x =>
    rw [LenItem.expand] at h
    split at h
    · cases h; simp
    · cases h
  | zerosShort x => cases h; simp
  | zerosLong x => cases h; simp

theorem length_le_of_expandAll {is : List LenItem} {ls ls' : List Nat} (h : expandAll is ls = some ls') : ls.length ≤ ls'.length := by
  induction is generalizing ls with
  | nil => cases h; exact le_rfl
  | cons i is ih =>
    obtain ⟨mid, hmid, hrest⟩ := expandAll_cons h
    exact (length_lt_of_expand hmid).le.trans (ih hrest)

/-- Every length of the sequence is a code length. -/
theorem le_of_mem_expand {cl : List Nat} {i : LenItem} {ls mid : List Nat} (hlegal : i.legal cl = true) (h : i.expand ls = some mid)
    (hls : ∀ l ∈ ls, l ≤ 15) : ∀ l ∈ mid, l ≤ 15 := by
  cases i with
  | len x =>
    cases h
    simp only [LenItem.legal, Bool.and_eq_true, decide_eq_true_eq] at hlegal
    intro l hl
    rcases List.mem_append.1 hl with hl | hl
    · exact hls l hl
    · rw [List.mem_singleton.1 hl]; exact hlegal.1
  | repeatLast x =>
    rw [LenItem.expand] at h
    split at h
    case h_1 last hlast =>
      cases h
      intro l hl
      rcases List.mem_append.1 hl with hl | hl
      · exact hls l hl
      · rw [List.eq_of_mem_replicate hl]; exact hls last (List.mem_of_getLast? hlast)
    case h_2 => cases h
  | zerosShort x =>
    cases h
    intro l hl
    rcases List.mem_append.1 hl with hl | hl
    · exact hls l hl
    · rw [List.eq_of_mem_replicate hl]; omega
  | zerosLong x =>
    cases h
    intro l hl
    rcases List.mem_append.1 hl with hl | hl
    · exact hls l hl
    · rw [List.eq_of_mem_replicate hl]; omega

theorem le_of_mem_expandAll {cl : List Nat} {is : List LenItem} {ls ls' : List Nat} (hlegal : ∀ i ∈ is, i.legal cl = true)
    (h : expandAll is ls = some ls') (hls : ∀ l ∈ ls, l ≤ 15) : ∀ l ∈ ls', l ≤ 15 := by
  induction is generalizing ls with
  | nil => cases h; exact hls
  | cons i is ih =>
    obtain ⟨mid, hmid, hrest⟩ := expandAll_cons h
    exact ih (fun i' hi' => hlegal i' (by simp [hi'])) hrest (le_of_mem_expand (hlegal i (by simp)) hmid hls)

/-- Lengths appended, with the list held newest first. -/
theorem replicate_append_reverse (ls : List Nat) (n v : Nat) : List.replicate n v ++ ls.reverse = (ls ++ List.replicate n v).reverse := by
  rw [List.reverse_append, List.reverse_replicate]

section
variable {imem : Mem 8} {src : Source} {cl : List Nat} {kind : TableKind} {tcl : Code} (hcl : buildCode cl kind = .ok tcl)
include hcl

/-- An entry's bits are read, its lengths are appended, and the sequence goes on. -/
theorem readLens_item {i : LenItem} {total n bp : Nat} {ls mid : List Nat} (hlegal : i.legal cl = true)
    (hbits : sourceBits imem src bp (i.bits cl)) (hexpand : i.expand ls = some mid) (hfit : mid.length ≤ total) :
    readLens imem src tcl total (n + 1) bp ls.reverse = readLens imem src tcl total n (bp + (i.bits cl).length) mid.reverse := by
  have hmore : ¬ ls.reverse.length ≥ total := by
    have := length_lt_of_expand hexpand
    rw [List.length_reverse]; omega
  rw [readLens, if_neg hmore]
  cases i with
  | len l =>
    cases hexpand
    simp only [LenItem.legal, Bool.and_eq_true, decide_eq_true_eq] at hlegal
    simp only [decodeSym_of_codeBits hcl hlegal.2 hbits, bind_ok, if_pos hlegal.1, LenItem.bits, length_codeBits, List.reverse_append,
      List.reverse_singleton, List.singleton_append]
  | repeatLast x =>
    simp only [LenItem.legal, Bool.and_eq_true, decide_eq_true_eq] at hlegal
    obtain ⟨hsym, hx⟩ := sourceBits_append.1 hbits
    rw [length_codeBits] at hx
    rw [LenItem.expand] at hexpand
    split at hexpand
    case h_2 => cases hexpand
    case h_1 last hlast =>
      cases hexpand
      obtain ⟨tail, htail⟩ : ∃ tail, ls.reverse = last :: tail := by
        rw [← List.head?_reverse] at hlast
        exact List.head?_eq_some_iff.1 hlast
      have hrep : readRepeat imem src 16 ls.reverse (bp + cl.getD 16 0) = .ok (last, 3 + x, bp + cl.getD 16 0 + 2) := by
        simp only [readRepeat, htail, if_true, getBits_of_sourceBits (n := 2) hlegal.2 hx, bind_ok]
      have hroom : ¬ ls.reverse.length + (3 + x) > total := by
        simp only [List.length_append, List.length_replicate] at hfit; rw [List.length_reverse]; omega
      simp only [decodeSym_of_codeBits hcl hlegal.1 hsym, bind_ok, if_neg (show ¬ 16 ≤ 15 by omega), hrep, if_neg hroom, LenItem.bits,
        List.length_append, length_codeBits, length_bitsLsb, replicate_append_reverse, Nat.add_assoc]
  | zerosShort x =>
    cases hexpand
    simp only [LenItem.legal, Bool.and_eq_true, decide_eq_true_eq] at hlegal
    obtain ⟨hsym, hx⟩ := sourceBits_append.1 hbits
    rw [length_codeBits] at hx
    have hrep : readRepeat imem src 17 ls.reverse (bp + cl.getD 17 0) = .ok (0, 3 + x, bp + cl.getD 17 0 + 3) := by
      simp only [readRepeat, if_neg (show ¬ 17 = 16 by omega), if_true, getBits_of_sourceBits (n := 3) hlegal.2 hx, bind_ok]
    have hroom : ¬ ls.reverse.length + (3 + x) > total := by
      simp only [List.length_append, List.length_replicate] at hfit; rw [List.length_reverse]; omega
    simp only [decodeSym_of_codeBits hcl hlegal.1 hsym, bind_ok, if_neg (show ¬ 17 ≤ 15 by omega), hrep, if_neg hroom, LenItem.bits,
      List.length_append, length_codeBits, length_bitsLsb, replicate_append_reverse, Nat.add_assoc]
  | zerosLong x =>
    cases hexpand
    simp only [LenItem.legal, Bool.and_eq_true, decide_eq_true_eq] at hlegal
    obtain ⟨hsym, hx⟩ := sourceBits_append.1 hbits
    rw [length_codeBits] at hx
    have hrep : readRepeat imem src 18 ls.reverse (bp + cl.getD 18 0) = .ok (0, 11 + x, bp + cl.getD 18 0 + 7) := by
      simp only [readRepeat, if_neg (show ¬ 18 = 16 by omega), if_neg (show ¬ 18 = 17 by omega),
        getBits_of_sourceBits (n := 7) hlegal.2 hx, bind_ok]
    have hroom : ¬ ls.reverse.length + (11 + x) > total := by
      simp only [List.length_append, List.length_replicate] at hfit; rw [List.length_reverse]; omega
    simp only [decodeSym_of_codeBits hcl hlegal.1 hsym, bind_ok, if_neg (show ¬ 18 ≤ 15 by omega), hrep, if_neg hroom, LenItem.bits,
      List.length_append, length_codeBits, length_bitsLsb, replicate_append_reverse, Nat.add_assoc]

theorem readLens_of_items {is : List LenItem} {total n bp : Nat} {ls lens : List Nat} (hlegal : ∀ i ∈ is, i.legal cl = true)
    (hbits : sourceBits imem src bp (is.flatMap (fun i => i.bits cl))) (hexpand : expandAll is ls = some lens)
    (htotal : lens.length = total) (hfuel : total ≤ ls.length + n) :
    readLens imem src tcl total n bp ls.reverse = .ok (lens.reverse, bp + (is.flatMap (fun i => i.bits cl)).length) := by
  induction is generalizing n bp ls with
  | nil =>
    cases hexpand
    cases n with
    | zero => rfl
    | succ n => rw [readLens, if_pos (by rw [List.length_reverse]; omega)]; rfl
  | cons i is ih =>
    obtain ⟨mid, hmid, hrest⟩ := expandAll_cons hexpand
    rw [List.flatMap_cons] at hbits ⊢
    obtain ⟨hbi, hbis⟩ := sourceBits_append.1 hbits
    have hlt := length_lt_of_expand hmid
    have hle := length_le_of_expandAll hrest
    obtain ⟨n, rfl⟩ : ∃ n', n = n' + 1 := ⟨n - 1, by omega⟩
    rw [readLens_item hcl (hlegal i (by simp)) hbi hmid (by omega),
      ih (fun i' hi' => hlegal i' (by simp [hi'])) hbis hrest (by omega), List.length_append, Nat.add_assoc]

end

/-! ## Dynamic blocks -/

/-- A symbol of the first part of the lengths has the length it has in all of them. -/
theorem getD_take_of_lt {l : List Nat} {i n : Nat} (h : i < n) : (l.take n).getD i 0 = l.getD i 0 := by
  rw [List.getD_eq_getElem?_getD, List.getD_eq_getElem?_getD, List.getElem?_take_of_lt h]

theorem getD_le_of_mem {l : List Nat} {n : Nat} (h : ∀ x ∈ l, x ≤ n) (i : Nat) : l.getD i 0 ≤ n := by
  rw [List.getD_eq_getElem?_getD]
  cases hx : l[i]? with
  | none => exact Nat.zero_le n
  | some x => exact h x (List.mem_of_getElem? hx)

/-- The end-of-block symbol of a legal header has a code. -/
theorem DynHeader.legal.hasCode_end {h : DynHeader} (hl : h.legal) : hasCode h.lit 256 = true := by
  obtain ⟨h257, -, -, -, -, -, -, -, -, hitems, hexpand, -, hend, -, -, -⟩ := hl
  have hle := getD_le_of_mem (le_of_mem_expandAll hitems hexpand (by simp)) 256
  rw [hasCode_iff, DynHeader.lit, getD_take_of_lt (by omega)]
  omega

theorem dynamicCodes_of_header {imem : Mem 8} {src : Source} {bp : Nat} {h : DynHeader} (hl : h.legal)
    (hbits : sourceBits imem src bp h.bits) : ∃ tlit tdist, buildCode h.lit .lens = .ok tlit ∧ buildCode h.dist .dists = .ok tdist ∧
      dynamicCodes imem src bp = .ok (tlit, tdist, bp + h.bits.length) := by
  obtain ⟨hlo, hhi, hdlo, hdhi, hclo, hchi, hlen, hcl, hzero, hitems, hexpand, htotal, hend, hvcl, hvlit, hvdist⟩ := hl
  obtain ⟨tcl, htcl⟩ := buildCode_of_validate hvcl
  obtain ⟨tlit, htlit⟩ := buildCode_of_validate hvlit
  obtain ⟨tdist, htdist⟩ := buildCode_of_validate hvdist
  obtain ⟨hb1, hrest⟩ := sourceBits_append.1 hbits
  obtain ⟨hb2, hrest⟩ := sourceBits_append.1 hrest
  obtain ⟨hb3, hrest⟩ := sourceBits_append.1 hrest
  obtain ⟨hb4, hb5⟩ := sourceBits_append.1 hrest
  have hordered : (codeOrder.take h.hclen).length = h.hclen := by
    rw [List.length_take, show codeOrder.length = 19 from rfl]; omega
  have hthree : ((codeOrder.take h.hclen).flatMap (fun sym => bitsLsb 3 (h.cl.getD sym 0))).length = 3 * h.hclen := by
    simp only [List.length_flatMap, length_bitsLsb, List.map_const', List.sum_replicate, hordered, smul_eq_mul, Nat.mul_comm]
  simp only [length_bitsLsb, hthree] at hb2 hb3 hb4 hb5
  have hcodeLens := readCodeLens_of_bits (init := List.replicate 19 0)
    (fun sym => Nat.lt_succ_of_le (getD_le_of_mem hcl sym)) hb4
  rw [hordered, setLens_codeOrder hlen hzero] at hcodeLens
  have hlens := readLens_of_items (n := h.hlit + h.hdist) (ls := []) htcl hitems hb5 hexpand htotal (by simp)
  rw [List.reverse_nil] at hlens
  have hrange : ¬ (h.hlit > 286 ∨ h.hdist > 30) := by omega
  refine ⟨tlit, tdist, htlit, htdist, ?_⟩
  simp only [DynHeader.lit, DynHeader.dist] at htlit htdist
  simp only [dynamicCodes, getBits_of_sourceBits (n := 5) (show h.hlit - 257 < 2 ^ 5 by omega) hb1,
    getBits_of_sourceBits (n := 5) (show h.hdist - 1 < 2 ^ 5 by omega) hb2,
    getBits_of_sourceBits (n := 4) (show h.hclen - 4 < 2 ^ 4 by omega) hb3, bind_ok, Nat.sub_add_cancel hlo, Nat.sub_add_cancel hdlo,
    Nat.sub_add_cancel hclo, if_neg hrange, hcodeLens, htcl, hlens, List.reverse_reverse, if_neg hend, htlit, htdist]
  simp only [DynHeader.bits, List.length_append, length_bitsLsb, hthree, ← Nat.add_assoc]

/-- Settles O48: the header's bits give its codes, which read the block's tokens. -/
theorem dynamicBlockExpands : Obligations.DynamicBlockExpands := by
  unfold Obligations.DynamicBlockExpands
  intro s c b h ts out he hl hlegal hemit hcap hends hbits
  obtain ⟨hheader, hblock⟩ := sourceBits_append.1 hbits
  obtain ⟨tlit, tdist, hlit, hdist, hcodes⟩ := dynamicCodes_of_header hl hheader
  refine blockStep_of_body he hends ?_
  simp only [dynamicBlock, hcodes, bind_ok, List.length_append, ← Nat.add_assoc]
  exact compressedBlock_of_blockBits hlit hdist hl.hasCode_end hlegal hemit hcap hblock

end Sys2Proof.Machine

/-! SUPPORT. Loops that write one location a turn, and pictures written pixel by pixel; scanline filters and PNG samples
(44_png R258 to R271). -/

namespace Sys2Proof.Machine

/-! ## Loops that write -/

/-- Of the locations of `m`, those of the turns in `done` hold their values in `m'`, and no other changed. -/
def WritesOn {α : Type} {n : Nat} (done : α → Prop) (loc : α → Nat) (val : α → BitVec n) (m m' : Mem n) : Prop :=
  (∀ p, done p → memRead m' (loc p) = some (val p)) ∧ ∀ a, (∀ p, done p → loc p ≠ a) → memRead m' a = memRead m a

section
variable {α : Type} {n : Nat} {done done' : α → Prop} {loc : α → Nat} {val : α → BitVec n} {m m' : Mem n}

theorem writesOn_start (h : ∀ p, ¬ done p) : WritesOn done loc val m m := ⟨fun p hp => absurd hp (h p), fun _ _ => rfl⟩

theorem WritesOn.congr (h : WritesOn done loc val m m') (hd : ∀ p, done' p ↔ done p) : WritesOn done' loc val m m' :=
  ⟨fun p hp => h.1 p ((hd p).1 hp), fun a ha => h.2 a fun p hp => ha p ((hd p).2 hp)⟩

/-- A location of no turn done yet is as it was. -/
theorem WritesOn.untouched (h : WritesOn done loc val m m') {p : α} (hp : ∀ q, done q → loc q ≠ loc p) :
    memRead m' (loc p) = memRead m (loc p) := h.2 _ hp

/-- One more turn. -/
theorem WritesOn.write (h : WritesOn done loc val m m') {p : α} (hd : ∀ q, done' q ↔ done q ∨ q = p)
    (hp : ∀ q, done q → loc q ≠ loc p) : WritesOn done' loc val m (memWrite m' (loc p) (val p)) := by
  refine ⟨fun q hq => ?_, fun a ha => ?_⟩
  · rcases (hd q).1 hq with hq | rfl
    · rw [memRead_memWrite_ne _ _ (hp q hq), h.1 q hq]
    · rw [memRead_memWrite_same]
  · rw [memRead_memWrite_ne _ _ (ha p ((hd p).2 (.inr rfl))).symm, h.2 a fun q hq => ha q ((hd q).2 (.inl hq))]

end

/-- A loop whose turns each write their own location, as long as that still holds what it held. -/
theorem forLoop_writesOn {n k : Nat} {f : Nat → Mem n → Except Stop (Mem n)} {loc : Nat → Nat} {val : Nat → BitVec n} {m : Mem n}
    (hinj : ∀ i < k, ∀ j < k, loc i = loc j → i = j)
    (hf : ∀ i < k, ∀ y, memRead y (loc i) = memRead m (loc i) → f i y = .ok (memWrite y (loc i) (val i))) :
    ∃ m', forLoop f k 0 m = .ok m' ∧ WritesOn (· < k) loc val m m' := by
  have hturn : ∀ i y, 0 ≤ i → i < 0 + k → WritesOn (· < i) loc val m y → ∃ z, f i y = .ok z ∧ WritesOn (· < i + 1) loc val m z := by
    intro i y _ hi hy
    have hfresh : ∀ j, j < i → loc j ≠ loc i := fun j hj h => by
      have := hinj j (by omega) i (by omega) h
      omega
    exact ⟨_, hf i (by omega) y (hy.untouched hfresh), hy.write (fun q => by omega) hfresh⟩
  obtain ⟨m', hm', hw⟩ := forLoop_ends (P := fun i y => WritesOn (· < i) loc val m y) (writesOn_start fun p => Nat.not_lt_zero p) hturn
  exact ⟨m', hm', by rwa [Nat.zero_add] at hw⟩

/-- Where pixel `x` of stored row `r` stands. -/
def pixelLoc (y : Nat → Nat) (w : Nat) (p : Nat × Nat) : Nat := y p.1 * w + p.2

/-- The pixels before pixel `x` of row `r`, in the order in which rows are written. -/
def PixelsBefore (w r x : Nat) (p : Nat × Nat) : Prop := p.2 < w ∧ (p.1 < r ∨ p.1 = r ∧ p.2 < x)

/-- Pixels of rows stored in different image rows stand apart. -/
theorem pixelLoc_inj {y : Nat → Nat} {w h : Nat} (hy : ∀ r < h, ∀ r' < h, y r = y r' → r = r') {p q : Nat × Nat} (hp : p.1 < h) (hpx : p.2 < w)
    (hq : q.1 < h) (hqx : q.2 < w) (heq : pixelLoc y w p = pixelLoc y w q) : p = q := by
  have hcol : p.2 = q.2 := by
    have := congrArg (· % w) heq
    simpa [pixelLoc, Nat.mul_comm _ w, Nat.mul_add_mod, Nat.mod_eq_of_lt hpx, Nat.mod_eq_of_lt hqx] using this
  have hrow : y p.1 = y q.1 := by
    rw [pixelLoc, pixelLoc, hcol] at heq
    exact Nat.eq_of_mul_eq_mul_right (by omega) (Nat.add_right_cancel heq)
  exact Prod.ext (hy _ hp _ hq hrow) hcol

/-- The loops of a picture: rows one after another, each written pixel by pixel. -/
theorem forLoop_picture {n : Nat} {f : Nat → Nat → Mem n → Except Stop (Mem n)} {y : Nat → Nat} {w h : Nat} {val : Nat × Nat → BitVec n} {m : Mem n}
    (hy : ∀ r < h, ∀ r' < h, y r = y r' → r = r')
    (hf : ∀ r < h, ∀ x < w, ∀ a, memRead a (y r * w + x) = memRead m (y r * w + x) → f r x a = .ok (memWrite a (y r * w + x) (val (r, x)))) :
    ∃ m', forLoop (fun r a => forLoop (f r) w 0 a) h 0 m = .ok m' ∧ WritesOn (fun p => p.1 < h ∧ p.2 < w) (pixelLoc y w) val m m' := by
  have hpixel : ∀ r < h, ∀ x a, 0 ≤ x → x < 0 + w → WritesOn (PixelsBefore w r x) (pixelLoc y w) val m a →
      ∃ b, f r x a = .ok b ∧ WritesOn (PixelsBefore w r (x + 1)) (pixelLoc y w) val m b := by
    intro r hr x a _ hx ha
    have hfresh : ∀ q, PixelsBefore w r x q → pixelLoc y w q ≠ pixelLoc y w (r, x) := by
      rintro ⟨r', x'⟩ ⟨hx', hbefore⟩ heq
      simp only at hx' hbefore
      obtain ⟨rfl, rfl⟩ := Prod.mk.inj (pixelLoc_inj hy (p := (r', x')) (q := (r, x)) (by simp only; omega) hx' hr (by simp only; omega) heq)
      omega
    refine ⟨_, hf r hr x (by omega) a (ha.untouched hfresh), ha.write (p := (r, x)) (fun q => ?_) hfresh⟩
    obtain ⟨r', x'⟩ := q
    simp only [PixelsBefore, Prod.mk.injEq]
    omega
  have hrow : ∀ r a, 0 ≤ r → r < 0 + h → WritesOn (PixelsBefore w r 0) (pixelLoc y w) val m a →
      ∃ b, forLoop (f r) w 0 a = .ok b ∧ WritesOn (PixelsBefore w (r + 1) 0) (pixelLoc y w) val m b := by
    intro r a _ hr ha
    obtain ⟨b, hb, hwb⟩ := forLoop_ends (P := fun x a => WritesOn (PixelsBefore w r x) (pixelLoc y w) val m a) ha (hpixel r (by omega))
    refine ⟨b, hb, hwb.congr fun p => ?_⟩
    simp only [PixelsBefore]
    omega
  have hstart : WritesOn (PixelsBefore w 0 0) (pixelLoc y w) val m m := writesOn_start fun p hp => by
    simp only [PixelsBefore] at hp
    omega
  obtain ⟨m', hm', hw⟩ := forLoop_ends (P := fun r a => WritesOn (PixelsBefore w r 0) (pixelLoc y w) val m a) hstart hrow
  refine ⟨m', hm', hw.congr fun p => ?_⟩
  simp only [PixelsBefore]
  omega

/-- A picture whose rows all lie in the image touches nothing outside it. -/
theorem WritesOn.sameOutside {n : Nat} {y : Nat → Nat} {w h : Nat} {val : Nat × Nat → BitVec n} {m m' : Mem n} (hy : ∀ r < h, y r < h)
    (hw : WritesOn (fun p => p.1 < h ∧ p.2 < w) (pixelLoc y w) val m m') : sameOutside m m' 0 (w * h) := by
  refine fun k hk => hw.2 k ?_
  rintro ⟨r, x⟩ ⟨hr, hx⟩ rfl
  have := pixel_index_lt hx (hy r hr)
  simp only [pixelLoc] at hk
  omega

/-! ## Reconstruction of a scanline -/

theorem readCell_of_held {sp : Space} {m : Mem 8} {a : Nat} (h : memRead m a ≠ none) : readCell sp m a = .ok (byteAt m a) := by
  obtain ⟨v, hv⟩ := Option.ne_none_iff_exists'.1 h
  rw [readCell_of_some hv, byteAt, hv, Option.getD_some]

theorem byteAt_congr {m m' : Mem 8} {a : Nat} (h : memRead m' a = memRead m a) : byteAt m' a = byteAt m a := by
  rw [byteAt, byteAt, h]

theorem neighbour_of_held {m : Mem 8} {there : Bool} {a : Nat} (h : there = true → memRead m a ≠ none) :
    neighbour m there a = .ok (if there then byteAt m a else 0#8) := by
  cases there with
  | false => rfl
  | true => exact readCell_of_held (h rfl)

/-- The filtered byte and its neighbours, as byte `i` of scanline `r` is reconstructed in `z` (44_png R262). -/
def reconstructed (pred : Byte → Byte → Byte → Byte) (z : Mem 8) (rowbytes bpp r i : Nat) : Byte :=
  byteAt z (scanAddr rowbytes r i) + pred (if bpp ≤ i then byteAt z (scanAddr rowbytes r (i - bpp)) else 0#8)
    (if 1 ≤ r then byteAt z (scanAddr rowbytes (r - 1) i) else 0#8)
    (if 1 ≤ r ∧ bpp ≤ i then byteAt z (scanAddr rowbytes (r - 1) (i - bpp)) else 0#8)

theorem scanAddr_sub {rowbytes bpp r i : Nat} (h : bpp ≤ i) : scanAddr rowbytes r i - bpp = scanAddr rowbytes r (i - bpp) := by
  simp only [scanAddr]
  omega

theorem unfilterByte_of_held {pred : Byte → Byte → Byte → Byte} {rowbytes bpp r i : Nat} {z : Mem 8}
    (hx : memRead z (scanAddr rowbytes r i) ≠ none) (hleft : bpp ≤ i → memRead z (scanAddr rowbytes r (i - bpp)) ≠ none)
    (hup : 1 ≤ r → memRead z (scanAddr rowbytes (r - 1) i) ≠ none)
    (hupLeft : 1 ≤ r → bpp ≤ i → memRead z (scanAddr rowbytes (r - 1) (i - bpp)) ≠ none) :
    unfilterByte pred rowbytes bpp r i z = .ok (memWrite z (scanAddr rowbytes r i) (reconstructed pred z rowbytes bpp r i)) := by
  have ha : neighbour z (decide (bpp ≤ i)) (scanAddr rowbytes r i - bpp) =
      .ok (if bpp ≤ i then byteAt z (scanAddr rowbytes r (i - bpp)) else 0#8) := by
    by_cases h : bpp ≤ i
    · rw [neighbour_of_held (fun _ => by rw [scanAddr_sub h]; exact hleft h), scanAddr_sub h]; simp [h]
    · rw [neighbour_of_held (fun h' => absurd (of_decide_eq_true h') h)]; simp [h]
  have hb : neighbour z (decide (1 ≤ r)) (scanAddr rowbytes (r - 1) i) =
      .ok (if 1 ≤ r then byteAt z (scanAddr rowbytes (r - 1) i) else 0#8) := by
    rw [neighbour_of_held (fun h => hup (of_decide_eq_true h))]; simp
  have hc : neighbour z (decide (1 ≤ r) && decide (bpp ≤ i)) (scanAddr rowbytes (r - 1) i - bpp) =
      .ok (if 1 ≤ r ∧ bpp ≤ i then byteAt z (scanAddr rowbytes (r - 1) (i - bpp)) else 0#8) := by
    by_cases h : bpp ≤ i
    · rw [neighbour_of_held (fun h' => by rw [scanAddr_sub h]; exact hupLeft (by simp at h'; omega) h), scanAddr_sub h]; simp [h]
    · rw [neighbour_of_held (fun h' => absurd (by simp at h'; omega) h)]; simp [h]
  simp only [scanAddr] at ha hb hc hx
  simp only [unfilterByte, readCell_of_held hx, ha, hb, hc, bind_ok]
  rfl

theorem scanAddr_inj {rowbytes r i r' i' : Nat} (hi : i < rowbytes) (hi' : i' < rowbytes) (h : scanAddr rowbytes r i = scanAddr rowbytes r' i') :
    r = r' ∧ i = i' := by
  have hp := pixelLoc_inj (y := id) (w := rowbytes + 1) (h := max r r' + 1) (fun _ _ _ _ h => h) (p := (r, i + 1)) (q := (r', i' + 1))
    (by simp only; omega) (by simp only; omega) (by simp only; omega) (by simp only; omega)
    (by simp only [pixelLoc, id, scanAddr] at h ⊢; omega)
  simpa using hp

/-- The loop of one scanline before its byte `i`: the bytes before it are reconstructed from `before`, no other location changed. -/
def RowBelow (before : Mem 8) (rowbytes bpp r ft i : Nat) (z : Mem 8) : Prop :=
  (∀ k < i, reconstructedAt before z rowbytes bpp r k ft) ∧ ∀ a, (∀ k < i, scanAddr rowbytes r k ≠ a) → memRead z a = memRead before a

/-- A byte is reconstructed in a memory whose neighbours of it are those it was computed from. -/
theorem reconstructedAt_of_neighbours {before z z' : Mem 8} {rowbytes bpp r k ft : Nat}
    (hhere : memRead z' (scanAddr rowbytes r k) = some (byteAt before (scanAddr rowbytes r k) + predictorOf ft
      (if bpp ≤ k then byteAt z (scanAddr rowbytes r (k - bpp)) else 0#8)
      (if 1 ≤ r then byteAt z (scanAddr rowbytes (r - 1) k) else 0#8)
      (if 1 ≤ r ∧ bpp ≤ k then byteAt z (scanAddr rowbytes (r - 1) (k - bpp)) else 0#8)))
    (hleft : bpp ≤ k → memRead z' (scanAddr rowbytes r (k - bpp)) = memRead z (scanAddr rowbytes r (k - bpp)))
    (hup : 1 ≤ r → ∀ j ≤ k, memRead z' (scanAddr rowbytes (r - 1) j) = memRead z (scanAddr rowbytes (r - 1) j)) :
    reconstructedAt before z' rowbytes bpp r k ft := by
  have h1 : (if bpp ≤ k then byteAt z' (scanAddr rowbytes r (k - bpp)) else 0#8) =
      if bpp ≤ k then byteAt z (scanAddr rowbytes r (k - bpp)) else 0#8 := by
    split
    case isTrue h => exact byteAt_congr (hleft h)
    case isFalse => rfl
  have h2 : (if 1 ≤ r then byteAt z' (scanAddr rowbytes (r - 1) k) else 0#8) =
      if 1 ≤ r then byteAt z (scanAddr rowbytes (r - 1) k) else 0#8 := by
    split
    case isTrue h => exact byteAt_congr (hup h k le_rfl)
    case isFalse => rfl
  have h3 : (if 1 ≤ r ∧ bpp ≤ k then byteAt z' (scanAddr rowbytes (r - 1) (k - bpp)) else 0#8) =
      if 1 ≤ r ∧ bpp ≤ k then byteAt z (scanAddr rowbytes (r - 1) (k - bpp)) else 0#8 := by
    split
    case isTrue h => exact byteAt_congr (hup h.1 _ (Nat.sub_le _ _))
    case isFalse => rfl
  rw [reconstructedAt, hhere, h1, h2, h3]

/-- A write in a scanline leaves its other bytes and the scanline above it. -/
theorem memRead_memWrite_row {z : Mem 8} {rowbytes r i j : Nat} (v : Byte) (hj : j < rowbytes) (hi : i < rowbytes) (hne : j ≠ i) :
    memRead (memWrite z (scanAddr rowbytes r i) v) (scanAddr rowbytes r j) = memRead z (scanAddr rowbytes r j) :=
  memRead_memWrite_ne _ _ fun heq => hne (scanAddr_inj hj hi heq).2

theorem memRead_memWrite_above {z : Mem 8} {rowbytes r i j : Nat} (v : Byte) (hr : 1 ≤ r) (hj : j < rowbytes) (hi : i < rowbytes) :
    memRead (memWrite z (scanAddr rowbytes r i) v) (scanAddr rowbytes (r - 1) j) = memRead z (scanAddr rowbytes (r - 1) j) :=
  memRead_memWrite_ne _ _ fun heq => by
    have := (scanAddr_inj hj hi heq).1
    omega

/-- What is reconstructed stays so when a later byte of the scanline is written. -/
theorem reconstructedAt_memWrite {before z : Mem 8} {rowbytes bpp r k ft i : Nat} {v : Byte} (hk : k < i) (hi : i < rowbytes)
    (h : reconstructedAt before z rowbytes bpp r k ft) :
    reconstructedAt before (memWrite z (scanAddr rowbytes r i) v) rowbytes bpp r k ft :=
  reconstructedAt_of_neighbours ((memRead_memWrite_row v (by omega) hi (by omega)).trans h)
    (fun _ => memRead_memWrite_row v (by omega) hi (by omega)) (fun hr j hj => memRead_memWrite_above v hr (by omega) hi)

/-- The filters and their predictors. -/
def filterRows : List (Nat × Instr) :=
  [(0, Instr.pngFilterNone), (1, .pngFilterSub), (2, .pngFilterUp), (3, .pngFilterAverage), (4, .pngFilterPaeth)]

/-- One scanline is reconstructed whole, in place. -/
theorem unfilterRow_reconstructs {pred : Byte → Byte → Byte → Byte} {rowbytes bpp r ft : Nat} {before : Mem 8}
    (hpred : pred = predictorOf ft) (hbpp : 1 ≤ bpp) (hrow : ∀ k < rowbytes, memRead before (scanAddr rowbytes r k) ≠ none)
    (hup : 1 ≤ r → ∀ k < rowbytes, memRead before (scanAddr rowbytes (r - 1) k) ≠ none) :
    ∃ z, unfilterRow pred rowbytes bpp r before = .ok z ∧ RowBelow before rowbytes bpp r ft rowbytes z := by
  have hturn : ∀ i z, 0 ≤ i → i < 0 + rowbytes → RowBelow before rowbytes bpp r ft i z →
      ∃ z', unfilterByte pred rowbytes bpp r i z = .ok z' ∧ RowBelow before rowbytes bpp r ft (i + 1) z' := by
    rintro i z _ hi ⟨hdone, hsame⟩
    rw [Nat.zero_add] at hi
    have hhere : memRead z (scanAddr rowbytes r i) = memRead before (scanAddr rowbytes r i) :=
      hsame _ fun k hk heq => by
        have := (scanAddr_inj (by omega) hi heq).2
        omega
    have habove : 1 ≤ r → ∀ j ≤ i, memRead z (scanAddr rowbytes (r - 1) j) = memRead before (scanAddr rowbytes (r - 1) j) :=
      fun hr j hj => hsame _ fun k hk heq => by
        have := (scanAddr_inj (by omega) (by omega) heq).1
        omega
    have hstep := unfilterByte_of_held (pred := pred) (bpp := bpp) (z := z) (by rw [hhere]; exact hrow i hi)
      (fun hle => by rw [hdone (i - bpp) (by omega)]; simp)
      (fun hr => by rw [habove hr i le_rfl]; exact hup hr i hi)
      (fun hr hle => by rw [habove hr _ (Nat.sub_le _ _)]; exact hup hr _ (by omega))
    refine ⟨_, hstep, fun k hk => ?_, fun a ha => ?_⟩
    · rcases Nat.lt_succ_iff_lt_or_eq.1 hk with hk | rfl
      · exact reconstructedAt_memWrite hk hi (hdone k hk)
      · refine reconstructedAt_of_neighbours (z := z) ?_ (fun hle => memRead_memWrite_row _ (by omega) hi (by omega))
          (fun hr j hj => memRead_memWrite_above _ hr (by omega) hi)
        rw [memRead_memWrite_same, reconstructed, hpred, byteAt_congr hhere]
    · rw [memRead_memWrite_ne _ _ (ha i (by omega)).symm, hsame a fun k hk => ha k (by omega)]
  have hstart : RowBelow before rowbytes bpp r ft 0 before := ⟨fun k hk => absurd hk (Nat.not_lt_zero k), fun _ _ => rfl⟩
  obtain ⟨z, hz, hrowz⟩ := forLoop_ends (P := RowBelow before rowbytes bpp r ft) hstart hturn
  exact ⟨z, hz, by rwa [Nat.zero_add] at hrowz⟩

/-- The five filter instructions are steps with the predictors of their bytes. -/
theorem exec_filter {ft : Nat} {i : Instr} {s : State} {c : RowCtx} (hi : (ft, i) ∈ filterRows) (he : s.engine = .rows c) :
    ∃ pred, pred = predictorOf ft ∧ exec i s = settle (engineScope s.engine) s (unfilterRow pred c.rowbytes c.bpp c.row s.zmem >>=
      fun z => enterRows { s with zmem := z } { c with row := c.row + 1 }) := by
  have hstep : ∀ pred, filterStep pred s = settle (engineScope s.engine) s (unfilterRow pred c.rowbytes c.bpp c.row s.zmem >>=
      fun z => enterRows { s with zmem := z } { c with row := c.row + 1 }) := fun pred => by
    simp only [filterStep, he]
  simp only [filterRows, List.mem_cons, Prod.mk.injEq, List.not_mem_nil, or_false] at hi
  rcases hi with ⟨rfl, rfl⟩ | ⟨rfl, rfl⟩ | ⟨rfl, rfl⟩ | ⟨rfl, rfl⟩ | ⟨rfl, rfl⟩
  · exact ⟨predNone, rfl, hstep _⟩
  · exact ⟨predSub, rfl, hstep _⟩
  · exact ⟨predUp, rfl, hstep _⟩
  · exact ⟨predAverage, rfl, hstep _⟩
  · exact ⟨predPaeth, rfl, hstep _⟩

theorem exec_filter_reconstructs {ft : Nat} {i : Instr} {s : State} {c : RowCtx} (hi : (ft, i) ∈ filterRows) (he : s.engine = .rows c)
    (hbpp : 1 ≤ c.bpp) (hrow : ∀ k < c.rowbytes, memRead s.zmem (scanAddr c.rowbytes c.row k) ≠ none)
    (hup : 1 ≤ c.row → ∀ k < c.rowbytes, memRead s.zmem (scanAddr c.rowbytes (c.row - 1) k) ≠ none) :
    ∃ z, RowBelow s.zmem c.rowbytes c.bpp c.row ft c.rowbytes z ∧
      exec i s = settle (engineScope s.engine) s (enterRows { s with zmem := z } { c with row := c.row + 1 }) := by
  obtain ⟨pred, hpred, hexec⟩ := exec_filter hi he
  obtain ⟨z, hz, hdone⟩ := unfilterRow_reconstructs hpred hbpp hrow hup
  exact ⟨z, hdone, by rw [hexec, hz, bind_ok]⟩

/-- Settles O39: the scanline is reconstructed, and then the next one, the end or the samples follow. -/
theorem filterReconstructsRow : Obligations.FilterReconstructsRow := by
  unfold Obligations.FilterReconstructsRow
  intro ft i s c hi he hbpp hrow hup
  obtain ⟨z, ⟨hdone, hsame⟩, hexec⟩ := exec_filter_reconstructs hi he hbpp hrow hup
  refine ⟨z, hdone, fun a ha => hsame a fun k hk heq => ?frame, fun hmore => ?next, fun hlast hp => ?done, fun hlast p hp => ?samples⟩
  case frame => simp only [scanAddr] at ha heq; omega
  case next => rw [hexec, enterRows, if_pos hmore, settle_ok]
  case done =>
    rw [hexec, enterRows, if_neg (show ¬ c.row + 1 < c.rows by omega)]
    simp only [hp, settle_ok, complete]
  case samples =>
    rw [hexec, enterRows, if_neg (show ¬ c.row + 1 < c.rows by omega)]
    simp only [hp]

end Sys2Proof.Machine

/-! SUPPORT. The run through all scanlines, UNFILT, and the samples of a PNG (44_png R258 to R271). -/

namespace Sys2Proof.Machine

/-! ## All scanlines -/

/-- The scanlines before `r` are reconstructed from `before`, each by its filter, and no other location changed. -/
def RowsDone (before : Mem 8) (rowbytes bpp : Nat) (ft : Nat → Nat) (r : Nat) (z : Mem 8) : Prop :=
  (∀ r' < r, ∀ k < rowbytes, reconstructedAt before z rowbytes bpp r' k (ft r')) ∧
  ∀ a, (∀ r' < r, ∀ k < rowbytes, scanAddr rowbytes r' k ≠ a) → memRead z a = memRead before a

section
variable {before z z' : Mem 8} {rowbytes bpp r : Nat} {ft : Nat → Nat}

theorem rowsDone_zero : RowsDone before rowbytes bpp ft 0 before :=
  ⟨fun _ h => absurd h (Nat.not_lt_zero _), fun _ _ => rfl⟩

theorem RowsDone.succ (h : RowsDone before rowbytes bpp ft r z) (hrow : RowBelow z rowbytes bpp r (ft r) rowbytes z') :
    RowsDone before rowbytes bpp ft (r + 1) z' := by
  obtain ⟨hdone, hsame⟩ := h
  obtain ⟨hthis, hother⟩ := hrow
  have hkeep : ∀ r' ≠ r, ∀ k < rowbytes, memRead z' (scanAddr rowbytes r' k) = memRead z (scanAddr rowbytes r' k) :=
    fun r' hr' k hk => hother _ fun j hj heq => hr' (scanAddr_inj hj hk heq).1.symm
  refine ⟨fun r' hr' k hk => ?_, fun a ha => ?_⟩
  · rcases Nat.lt_succ_iff_lt_or_eq.1 hr' with hlt | rfl
    · exact reconstructedAt_of_neighbours ((hkeep r' (by omega) k hk).trans (hdone r' hlt k hk))
        (fun _ => hkeep r' (by omega) _ (by omega)) (fun _ j hj => hkeep (r' - 1) (by omega) j (by omega))
    · have hhere := hsame (scanAddr rowbytes r' k) fun r'' hr'' j hj heq => by
        have := (scanAddr_inj hj hk heq).1
        omega
      have hrec := hthis k hk
      unfold reconstructedAt at hrec ⊢
      rw [hrec, byteAt_congr hhere]
  · rw [hother a fun k hk => ha r (by omega) k hk, hsame a fun r' hr' k hk => ha r' (by omega) k hk]

/-- What held a value still does. -/
theorem RowsDone.held (h : RowsDone before rowbytes bpp ft r z) {a : Nat} (ha : memRead before a ≠ none) : memRead z a ≠ none := by
  by_cases hrow : ∃ r' < r, ∃ k < rowbytes, scanAddr rowbytes r' k = a
  · obtain ⟨r', hr', k, hk, rfl⟩ := hrow
    rw [h.1 r' hr' k hk]
    simp
  · rwa [h.2 a fun r' hr' k hk heq => hrow ⟨r', hr', k, hk, heq⟩]

/-- The filter bytes stand before the scanlines. -/
theorem scanAddr_ne_filterAddr {r' k : Nat} (hk : k < rowbytes) : scanAddr rowbytes r' k ≠ r * (rowbytes + 1) := by
  intro heq
  have := congrArg (· % (rowbytes + 1)) heq
  simp only [scanAddr, Nat.add_assoc, Nat.mul_comm _ (rowbytes + 1), Nat.mul_add_mod, Nat.mul_mod_right] at this
  rw [Nat.mod_eq_of_lt (by omega)] at this
  omega

theorem RowsDone.filterByte {r₀ : Nat} (h : RowsDone before rowbytes bpp ft r z) :
    memRead z (r₀ * (rowbytes + 1)) = memRead before (r₀ * (rowbytes + 1)) :=
  h.2 _ fun _ _ _ hk => scanAddr_ne_filterAddr hk

end

theorem scanAddr_lt {rowbytes rows r k : Nat} (hr : r < rows) (hk : k < rowbytes) : scanAddr rowbytes r k < rows * (rowbytes + 1) := by
  have := pixel_index_lt (x := k + 1) (w := rowbytes + 1) (by omega) hr
  rw [Nat.mul_comm rows]
  simp only [scanAddr]
  omega

theorem filterAddr_lt {rowbytes rows r : Nat} (hr : r < rows) : r * (rowbytes + 1) < rows * (rowbytes + 1) :=
  Nat.mul_lt_mul_of_pos_right hr (Nat.succ_pos _)

/-- A filter byte of at most 4 is one of the five filters. -/
theorem decode_filterByte {w : Nat} (hw : w ≤ 4) : ∃ i, decode .filterByte w = .ok i ∧ (w, i) ∈ filterRows := by
  obtain rfl | rfl | rfl | rfl | rfl : w = 0 ∨ w = 1 ∨ w = 2 ∨ w = 3 ∨ w = 4 := by omega
  · exact ⟨.pngFilterNone, rfl, by simp [filterRows]⟩
  · exact ⟨.pngFilterSub, rfl, by simp [filterRows]⟩
  · exact ⟨.pngFilterUp, rfl, by simp [filterRows]⟩
  · exact ⟨.pngFilterAverage, rfl, by simp [filterRows]⟩
  · exact ⟨.pngFilterPaeth, rfl, by simp [filterRows]⟩

/-- A filter byte above 4 is none. -/
theorem decode_filterByte_illegal {w : Nat} (hw : 4 < w) (hw' : w < 256) : decode .filterByte w = .error .illegalFilter := by
  have hne : ∀ v ≤ 4, BitVec.ofNat 8 w ≠ BitVec.ofNat 8 v := fun v hv heq => by
    have := congrArg BitVec.toNat heq
    simp only [BitVec.toNat_ofNat] at this
    omega
  simp only [decode, decodeFilter, if_neg (hne 0 (by omega)), if_neg (hne 1 (by omega)), if_neg (hne 2 (by omega)),
    if_neg (hne 3 (by omega)), if_neg (hne 4 (by omega))]

section
variable {s : State} {c : RowCtx} {before : Mem 8} {ft : Nat → Nat} (hb : s.st = .busy) (he : s.engine = .rows c)
  (hdone : RowsDone before c.rowbytes c.bpp ft c.row s.zmem) (hheld : ∀ a < c.rows * (c.rowbytes + 1), memRead before a ≠ none)
  (hft : ∀ r < c.rows, (byteAt before (r * (c.rowbytes + 1))).toNat = ft r) (hrow : c.row < c.rows)
include hb he hdone hheld hft hrow

omit hb in
/-- The filter byte of the next scanline stands where the engine reads it. -/
theorem streamWordAt_filterByte : streamWordAt s .filterByte (ft c.row) := by
  obtain ⟨v, hv⟩ := Option.ne_none_iff_exists'.1 (hheld _ (filterAddr_lt hrow))
  have hval : v.toNat = ft c.row := by rw [← hft c.row hrow, byteAt, hv, Option.getD_some]
  simp only [streamWordAt, he]
  rw [hdone.filterByte, hv, ← hval, BitVec.ofNat_toNat, BitVec.setWidth_eq]

omit hb he hdone hheld in
theorem filterByte_lt : ft c.row < 2 ^ Format.filterByte.width := by
  rw [← hft c.row hrow]
  exact (byteAt before _).isLt

/-- One scanline of the run. -/
theorem runOn_row (hbpp : 1 ≤ c.bpp) (hlegal : ft c.row ≤ 4) : ∃ z, RowsDone before c.rowbytes c.bpp ft (c.row + 1) z ∧
    ∀ t, enterRows { s with zmem := z } { c with row := c.row + 1 } = .ok t → runOn s = runOn t := by
  obtain ⟨i, hd, hi⟩ := decode_filterByte hlegal
  obtain ⟨z, hz, hexec⟩ := exec_filter_reconstructs hi he hbpp
    (fun k hk => hdone.held (hheld _ (scanAddr_lt hrow hk)))
    (fun _ k hk => hdone.held (hheld _ (scanAddr_lt (by omega) hk)))
  refine ⟨z, hdone.succ hz, fun t ht => ?_⟩
  rw [ht, settle_ok] at hexec
  exact runOn_word hb (filterByte_lt hft hrow) (streamWordAt_filterByte he hdone hheld hft hrow) hd hexec

/-- The scanline's filter byte is illegal: the command ends. -/
theorem runOn_badRow (hbad : 4 < ft c.row) : runOn s = .next (takeError (engineScope s.engine) .corruptData s) := by
  have hlt := filterByte_lt hft hrow
  have hd := decode_filterByte_illegal hbad hlt
  have hfetch := fetchStream_of_streamWordAt hlt (streamWordAt_filterByte he hdone hheld hft hrow)
  rw [hd] at hfetch
  rw [runOn_step hb (by rw [he]; exact Engine.noConfusion) (engineStep_of_raise hfetch)]
  exact runOn_ended (s := takeError (engineScope s.engine) .corruptData s) Status.noConfusion

end

/-- Scanlines that are entered are next. -/
theorem enterRows_next {s : State} {c : RowCtx} (h : c.row < c.rows) : enterRows s c = .ok { s with st := .busy, engine := .rows c } :=
  if_pos h

/-- The run through all scanlines that are left, each with a legal filter byte. -/
theorem runOn_rows {s : State} {c : RowCtx} {before : Mem 8} {ft : Nat → Nat} (hb : s.st = .busy) (he : s.engine = .rows c)
    (hdone : RowsDone before c.rowbytes c.bpp ft c.row s.zmem) (hheld : ∀ a < c.rows * (c.rowbytes + 1), memRead before a ≠ none)
    (hft : ∀ r < c.rows, (byteAt before (r * (c.rowbytes + 1))).toNat = ft r) (hrow : c.row < c.rows) (hbpp : 1 ≤ c.bpp)
    (hlegal : ∀ r < c.rows, ft r ≤ 4) : ∃ z, RowsDone before c.rowbytes c.bpp ft c.rows z ∧
      ∀ t, enterRows { s with zmem := z } { c with row := c.rows } = .ok t → runOn s = runOn t := by
  obtain ⟨n, hn⟩ : ∃ n, c.row + n + 1 = c.rows := ⟨c.rows - c.row - 1, by omega⟩
  induction n generalizing s c with
  | zero =>
    obtain ⟨z, hz, hrun⟩ := runOn_row hb he hdone hheld hft hrow hbpp (hlegal _ hrow)
    rw [show c.row + 1 = c.rows by omega] at hz hrun
    exact ⟨z, hz, hrun⟩
  | succ n ih =>
    obtain ⟨z, hz, hrun⟩ := runOn_row hb he hdone hheld hft hrow hbpp (hlegal _ hrow)
    obtain ⟨z', hz', hrun'⟩ := ih (s := { s with zmem := z, st := .busy, engine := .rows { c with row := c.row + 1 } })
      (c := { c with row := c.row + 1 }) rfl rfl hz hheld hft (by simp only; omega) hbpp hlegal (by simp only; omega)
    refine ⟨z', hz', fun t ht => (hrun _ (enterRows_next (by simp only; omega))).trans (hrun' t ?_)⟩
    rw [← ht]
    rfl

/-- The run to the first scanline whose filter byte is illegal. -/
theorem runOn_rows_raises {s : State} {c : RowCtx} {before : Mem 8} {ft : Nat → Nat} (hb : s.st = .busy) (he : s.engine = .rows c)
    (hdone : RowsDone before c.rowbytes c.bpp ft c.row s.zmem) (hheld : ∀ a < c.rows * (c.rowbytes + 1), memRead before a ≠ none)
    (hft : ∀ r < c.rows, (byteAt before (r * (c.rowbytes + 1))).toNat = ft r) (hpng : c.png = none) (hbpp : 1 ≤ c.bpp)
    {r : Nat} (hlo : c.row ≤ r) (hhi : r < c.rows) (hbad : 4 < ft r) : runOn s = .next (takeError .unfilt .corruptData s) := by
  obtain ⟨n, hn⟩ : ∃ n, r = c.row + n := ⟨r - c.row, by omega⟩
  have hscope : engineScope s.engine = .unfilt := by simp only [he, engineScope, hpng]
  induction n generalizing s c with
  | zero =>
    obtain rfl : r = c.row := by omega
    rw [runOn_badRow hb he hdone hheld hft hhi hbad, hscope]
  | succ n ih =>
    by_cases hrow : 4 < ft c.row
    · rw [runOn_badRow hb he hdone hheld hft (by omega) hrow, hscope]
    · obtain ⟨z, hz, hrun⟩ := runOn_row hb he hdone hheld hft (by omega) hbpp (by omega)
      rw [hrun _ (enterRows_next (by simp only; omega)), ih (c := { c with row := c.row + 1 }) rfl rfl hz hheld hft hpng hbpp
        (by simp only; omega) hhi (by simp only; omega) (by simp only [engineScope, hpng])]
      rfl

/-! ## UNFILT -/

theorem exec_unfilt (s : State) : exec .unfilt s = runCommand (settle .unfilt s (unfiltStart s)) := rfl

theorem exec_unfilt_raises {s : State} {e : ErrorKind} (h : unfiltStart s = raise e) : exec .unfilt s = .next (takeError .unfilt e s) := by
  rw [exec_unfilt, h]
  exact runOn_ended (s := takeError .unfilt e s) Status.noConfusion

/-- The scanlines of UNFILT. -/
def unfiltRows (s : State) : RowCtx := ⟨s.arg0.toNat, s.arg1.toNat, s.arg2.toNat, 0, none⟩

theorem unfiltStart_of_legal {s : State} {z : Word} (h1 : 1 ≤ s.arg2.toNat) (h8 : s.arg2.toNat ≤ 8) (hz : s.zlen = .val z) :
    unfiltStart s = if s.arg1.toNat * (s.arg0.toNat + 1) > z.toNat then raise .truncatedData else enterRows s (unfiltRows s) := by
  simp only [unfiltStart, if_neg (show ¬ (s.arg2.toNat < 1 ∨ s.arg2.toNat > 8) by omega), regNat_of_val (r := .zlen) hz, bind_ok, unfiltRows]

theorem exec_unfilt_of_rows {s t : State} (h : unfiltStart s = .ok t) : exec .unfilt s = runOn t := by
  rw [exec_unfilt, h, settle_ok, runCommand_next]

/-- Settles O40: the checks, and then one scanline after another to the end or to the first illegal filter byte. -/
theorem unfiltReconstructs : Obligations.UnfiltReconstructs := by
  unfold Obligations.UnfiltReconstructs
  refine ⟨fun s z h1 h8 hz hfit hheld hlegal => ?rows, fun s hbpp => ?badUnit, fun s z h1 h8 hz => ⟨fun hshort => ?short, fun hfit hheld hbad => ?badFilter⟩⟩
  case rows =>
    have hstart := unfiltStart_of_legal h1 h8 hz
    rw [if_neg (by omega)] at hstart
    by_cases hnone : s.arg1.toNat = 0
    · have hend : unfiltStart s = .ok (complete s) := by
        rw [hstart, enterRows, if_neg (by simp only [unfiltRows]; omega)]
        rfl
      refine ⟨s.zmem, ?_, fun r hr => by omega, fun r hr => by omega, fun _ _ => rfl⟩
      rw [exec_unfilt_of_rows hend, runOn_ended Status.noConfusion]
      rfl
    · have henter : unfiltStart s = .ok { s with st := .busy, engine := .rows (unfiltRows s) } := by
        rw [hstart, enterRows_next (by simp only [unfiltRows]; omega)]
      obtain ⟨m, ⟨hdone, hsame⟩, hrun⟩ := runOn_rows (s := { s with st := .busy, engine := .rows (unfiltRows s) }) (c := unfiltRows s)
        (ft := fun r => (byteAt s.zmem (r * (s.arg0.toNat + 1))).toNat) rfl rfl rowsDone_zero hheld (fun r hr => rfl)
        (by simp only [unfiltRows]; omega) h1 hlegal
      refine ⟨m, ?_, hdone, fun r hr => hsame _ fun _ _ _ hk => scanAddr_ne_filterAddr hk, fun a ha => hsame a fun r hr k hk heq => ?_⟩
      · rw [exec_unfilt_of_rows henter, hrun (complete { s with zmem := m }) (by rw [enterRows, if_neg (by simp only; omega)]; rfl),
          runOn_ended Status.noConfusion]
        rfl
      · have := scanAddr_lt hr hk
        simp only [unfiltRows] at this heq
        omega
  case badUnit =>
    refine exec_unfilt_raises ?_
    rw [unfiltStart]
    exact if_pos hbpp
  case short =>
    refine exec_unfilt_raises ?_
    rw [unfiltStart_of_legal h1 h8 hz, if_pos hshort]
  case badFilter =>
    obtain ⟨r, hr, hr4⟩ := hbad
    have henter : unfiltStart s = .ok { s with st := .busy, engine := .rows (unfiltRows s) } := by
      rw [unfiltStart_of_legal h1 h8 hz, if_neg (by omega), enterRows_next (by simp only [unfiltRows]; omega)]
    rw [exec_unfilt_of_rows henter, runOn_rows_raises (s := { s with st := .busy, engine := .rows (unfiltRows s) })
      (c := unfiltRows s) (before := s.zmem)
      (ft := fun r => (byteAt s.zmem (r * (s.arg0.toNat + 1))).toNat) rfl rfl rowsDone_zero hheld (fun r hr => rfl) rfl h1
      (Nat.zero_le r) hr hr4]
    rfl

/-! ## Samples -/

/-- Bytes of a row at 8 and 16 bits, and the byte of a sample of fewer bits. -/
theorem sample_of_held {zmem : Mem 8} {h : Ihdr} {y i : Nat} (hbd : h.bd ∈ [1, 2, 4, 8, 16])
    (hi : (i + 1) * h.bd ≤ h.w * samplesPerPixel h.ct * h.bd)
    (hheld : ∀ k < rowBytes h, memRead zmem (y * (rowBytes h + 1) + 1 + k) ≠ none) : sample zmem h y i = .ok (sampleByte zmem h y i) := by
  have hin : ∀ k, k * 8 ≤ h.w * samplesPerPixel h.ct * h.bd → 1 ≤ k → k - 1 < rowBytes h := by
    intro k hk hk'
    rw [rowBytes]
    omega
  rw [sample, sampleByte]
  by_cases h8 : h.bd = 8
  · rw [if_pos h8, if_pos h8]
    rw [h8] at hi
    exact readCell_of_held (hheld i (by rw [rowBytes, h8]; omega))
  rw [if_neg h8, if_neg h8]
  by_cases h16 : h.bd = 16
  · rw [if_pos h16, if_pos h16]
    rw [h16] at hi
    exact readCell_of_held (hheld (2 * i) (by rw [rowBytes, h16]; omega))
  · have hpos : 1 ≤ h.bd := by simp only [List.mem_cons, List.not_mem_nil, or_false] at hbd; omega
    have hbit : i * h.bd / 8 < rowBytes h := by
      rw [Nat.add_mul] at hi
      rw [rowBytes]
      omega
    simp only [if_neg h16, readCell_of_held (hheld _ hbit), bind_ok, subByteSample, Nat.shiftRight_eq_div_pow]

/-- The Color of a pixel is read from its samples. -/
theorem sampleColor_of_held {zmem : Mem 8} {h : Ihdr} {y x : Nat} (hformat : (h.ct, h.bd) ∈ pngFormats) (hx : x < h.w)
    (hheld : ∀ k < rowBytes h, memRead zmem (y * (rowBytes h + 1) + 1 + k) ≠ none) : sampleColor zmem h y x = .ok (pngColor zmem h y x) := by
  have hfields : (h.ct = 0 ∨ h.ct = 2 ∨ h.ct = 4 ∨ h.ct = 6) ∧ h.bd ∈ [1, 2, 4, 8, 16] := by
    simp only [pngFormats, List.mem_cons, Prod.mk.injEq, List.not_mem_nil, or_false] at hformat ⊢
    omega
  obtain ⟨hct, hbd⟩ := hfields
  have hread : ∀ i < h.w * samplesPerPixel h.ct, sample zmem h y i = .ok (sampleByte zmem h y i) :=
    fun i hi => sample_of_held hbd (Nat.mul_le_mul_right h.bd hi) hheld
  rcases hct with hct | hct | hct | hct
  · have hn : samplesPerPixel h.ct = 1 := by rw [hct]; rfl
    rw [hn] at hread
    simp [sampleColor, pngColor, hct, hread x (by omega)]
  · have hn : samplesPerPixel h.ct = 3 := by rw [hct]; rfl
    rw [hn] at hread
    simp [sampleColor, pngColor, hct, hread (3 * x) (by omega), hread (3 * x + 1) (by omega), hread (3 * x + 2) (by omega)]
  · have hn : samplesPerPixel h.ct = 2 := by rw [hct]; rfl
    rw [hn] at hread
    simp [sampleColor, pngColor, hct, hread (2 * x) (by omega), hread (2 * x + 1) (by omega)]
  · have hn : samplesPerPixel h.ct = 4 := by rw [hct]; rfl
    rw [hn] at hread
    simp [sampleColor, pngColor, hct, hread (4 * x) (by omega), hread (4 * x + 1) (by omega), hread (4 * x + 2) (by omega),
      hread (4 * x + 3) (by omega)]

theorem unpackSamples_of_held {zmem : Mem 8} {h : Ihdr} {pmem : Mem 32} (hformat : (h.ct, h.bd) ∈ pngFormats)
    (hheld : ∀ y < h.h, ∀ k < rowBytes h, memRead zmem (y * (rowBytes h + 1) + 1 + k) ≠ none) :
    ∃ m, unpackSamples zmem h pmem = .ok m ∧
      (∀ y < h.h, ∀ x < h.w, memRead m (y * h.w + x) = some (packColor (pngColor zmem h y x))) ∧ sameOutside pmem m 0 (h.w * h.h) := by
  obtain ⟨m, hm, hw⟩ := forLoop_picture (f := unpackPixel zmem h) (y := id) (w := h.w) (h := h.h)
    (val := fun p => packColor (pngColor zmem h p.1 p.2)) (m := pmem) (fun _ _ _ _ heq => heq)
    (fun y hy x hx a _ => by rw [unpackPixel, sampleColor_of_held hformat hx (hheld y hy)]; rfl)
  exact ⟨m, hm, fun y hy x hx => hw.1 (y, x) ⟨hy, hx⟩, hw.sameOutside fun r hr => hr⟩

/-- Settles O42: every pixel of the picture is the Color of its samples. -/
theorem pngUnpacksSamples : Obligations.PngUnpacksSamples := by
  unfold Obligations.PngUnpacksSamples
  intro s p hformat hheld
  obtain ⟨m, hm, hpixels, hframe⟩ := unpackSamples_of_held (pmem := s.pmem) hformat hheld
  exact ⟨m, pngFinish_eq_ok.2 ⟨m, hm, rfl⟩, hpixels, hframe⟩

end Sys2Proof.Machine

/-! SUPPORT. Pixels of a BMP: the color table, direct and indexed rows, and the AND mask of an ICO (42_bmp R183 to R194, 46_ico R306 to R309). -/

namespace Sys2Proof.Machine

/-! ## Loops that raise -/

theorem forLoop_ok_or_raises {σ : Type} {e : Stop} {f : Nat → σ → Except Stop σ} {n i : Nat}
    (hf : ∀ j, i ≤ j → j < i + n → ∀ y, (∃ z, f j y = .ok z) ∨ f j y = .error e) (x : σ) :
    (∃ r, forLoop f n i x = .ok r) ∨ forLoop f n i x = .error e := by
  induction n generalizing i x with
  | zero => exact .inl ⟨x, rfl⟩
  | succ n ih =>
    rcases hf i le_rfl (by omega) x with ⟨y, hy⟩ | hy
    · rw [forLoop, hy, bind_ok]
      exact ih (fun j h1 h2 => hf j (by omega) (by omega)) y
    · exact .inr (by rw [forLoop, hy, bind_error])

/-- A loop whose turns end well or raise `e`, one of them always raising it, raises it. -/
theorem forLoop_raises {σ : Type} {e : Stop} {f : Nat → σ → Except Stop σ} {n i j : Nat}
    (hf : ∀ j, i ≤ j → j < i + n → ∀ y, (∃ z, f j y = .ok z) ∨ f j y = .error e) (hlo : i ≤ j) (hhi : j < i + n)
    (hbad : ∀ y, f j y = .error e) (x : σ) : forLoop f n i x = .error e := by
  induction n generalizing i x with
  | zero => omega
  | succ n ih =>
    rcases hf i le_rfl (by omega) x with ⟨y, hy⟩ | hy
    · rcases Nat.eq_or_lt_of_le hlo with rfl | hlt
      · rw [hbad] at hy
        cases hy
      · rw [forLoop, hy, bind_ok]
        exact ih (fun j h1 h2 => hf j (by omega) (by omega)) hlt (by omega) y
    · rw [forLoop, hy, bind_error]

/-! ## Rows -/

theorem imageRow_inj {td : Bool} {h r r' : Nat} (hr : r < h) (hr' : r' < h) (heq : imageRow td h r = imageRow td h r') : r = r' := by
  unfold imageRow at heq
  split at heq <;> omega

/-- Rows whose pixels all have a Color become the picture. -/
theorem unpackRows_of_colors {pix : Nat → Nat → Except Stop Word} {color : Nat → Nat → Option Word} {pos stride w h : Nat} {td : Bool}
    {pmem : Mem 32} (hpix : ∀ r < h, ∀ x < w, ∃ v, color r x = some v ∧ pix (pos + r * stride) x = .ok v) :
    ∃ m, unpackRows pix pos stride w h td pmem = .ok m ∧ imageIs pmem m w h td color := by
  obtain ⟨m, hm, hw⟩ := forLoop_picture (y := imageRow td h) (w := w) (h := h) (m := pmem) (val := fun p => (color p.1 p.2).getD 0#32)
    (f := fun r x m' => do
      let c ← pix (pos + r * stride) x
      .ok (memWrite m' (imageRow td h r * w + x) c))
    (fun r hr r' hr' heq => imageRow_inj hr hr' heq)
    (fun r hr x hx a _ => by
      obtain ⟨v, hv, hread⟩ := hpix r hr x hx
      simp only [hread, hv, bind_ok, Option.getD_some])
  refine ⟨m, hm, fun r hr x hx => ?_, hw.sameOutside fun r hr => imageRow_lt hr⟩
  obtain ⟨v, hv, -⟩ := hpix r hr x hx
  have hread := hw.1 (r, x) ⟨hr, hx⟩
  simp only [pixelLoc, hv, Option.getD_some] at hread
  rw [hread, hv]

/-- Rows of pixels that have a Color or raise `e`, one of them raising it, raise it. -/
theorem unpackRows_raises {pix : Nat → Nat → Except Stop Word} {pos stride w h : Nat} {td : Bool} {pmem : Mem 32} {e : Stop}
    (hpix : ∀ r < h, ∀ x < w, (∃ v, pix (pos + r * stride) x = .ok v) ∨ pix (pos + r * stride) x = .error e)
    {r x : Nat} (hr : r < h) (hx : x < w) (hbad : pix (pos + r * stride) x = .error e) :
    unpackRows pix pos stride w h td pmem = .error e := by
  have hturn : ∀ r < h, ∀ x, 0 ≤ x → x < 0 + w → ∀ a : Mem 32,
      (∃ z, (do let c ← pix (pos + r * stride) x; .ok (memWrite a (imageRow td h r * w + x) c)) = (.ok z : Except Stop (Mem 32))) ∨
        (do let c ← pix (pos + r * stride) x; .ok (memWrite a (imageRow td h r * w + x) c)) = (.error e : Except Stop (Mem 32)) := by
    intro r hr x _ hx a
    rcases hpix r hr x (by omega) with ⟨v, hv⟩ | hv
    · exact .inl ⟨_, by rw [hv, bind_ok]⟩
    · exact .inr (by rw [hv, bind_error])
  refine forLoop_raises (j := r) (fun r' _ hr' a => forLoop_ok_or_raises (hturn r' (by omega)) a) (Nat.zero_le r) (by omega) (fun a => ?_) pmem
  exact forLoop_raises (j := x) (hturn r hr) (Nat.zero_le x) (by omega) (fun a => by simp only [hbad, bind_error]) a

/-! ## The checks before the pixels -/

theorem bmpSize_of_file {cap : Capacities} {c : BmpHeader} (hico : c.ctx.ico = false) (hw : 0 < c.w) (hh : c.h ≠ 0)
    (hfit : c.w.toNat * c.h.natAbs ≤ cap.pmemPixels) : bmpSize cap c = .ok (c.w.toNat, c.h.natAbs, decide (c.h < 0)) := by
  rw [bmpSize, if_neg (by simp [hico]), if_neg (by omega), if_neg (by omega)]

theorem bmpSize_of_bad_file {cap : Capacities} {c : BmpHeader} (hico : c.ctx.ico = false)
    (hbad : c.w ≤ 0 ∨ c.h = 0 ∨ cap.pmemPixels < c.w.toNat * c.h.natAbs) : bmpSize cap c = raise .unsupportedFormat := by
  rw [bmpSize, if_neg (by simp [hico])]
  by_cases hsign : c.w ≤ 0 ∨ c.h = 0
  · rw [if_pos hsign]
  · rw [if_neg hsign, if_pos (by omega)]

theorem bmpSize_of_ico {cap : Capacities} {c : BmpHeader} (hico : c.ctx.ico = true) (hw : 0 < c.w) (hh : 1 < c.h)
    (hfit : c.w.toNat * (c.h.toNat / 2) ≤ cap.pmemPixels) : bmpSize cap c = .ok (c.w.toNat, c.h.toNat / 2, false) := by
  rw [bmpSize, if_pos hico, if_neg (by omega), if_neg (by omega)]

theorem pixelTable_direct {bits : Nat} {s : State} {c : BmpHeader} (hbits : 8 < bits) :
    pixelTable bits s c = .ok (s, 0, c.ctx.h0 + c.hs) := if_neg (by omega)

theorem pixelTable_indexed {bits : Nat} {s : State} {c : BmpHeader} (hbits : bits ≤ 8) :
    pixelTable bits s c = loadColorTable s (c.ctx.h0 + c.hs) c.ctx.lim bits c.clrUsed (if c.core then 3 else 4) := if_pos hbits

theorem pixelStart_of_file {c : BmpHeader} {pos : Nat} (hico : c.ctx.ico = false) (h : pos ≤ c.ctx.off) : pixelStart c pos = .ok c.ctx.off := by
  rw [pixelStart, if_neg (by simp [hico]), if_neg (by omega)]

theorem pixelStart_of_bad_file {c : BmpHeader} {pos : Nat} (hico : c.ctx.ico = false) (h : c.ctx.off < pos) :
    pixelStart c pos = raise .corruptData := by
  rw [pixelStart, if_neg (by simp [hico]), if_pos h]

theorem pixelStart_of_ico {c : BmpHeader} {pos : Nat} (hico : c.ctx.ico = true) : pixelStart c pos = .ok pos := if_pos hico

section
variable {bits : Nat} {pix : State → Nat → Nat → Nat → Except Stop Word} {s t : State} {c : BmpHeader} {w h n after pos : Nat} {td : Bool}
  {e : ErrorKind}

theorem decodePixels_raises_size (hsize : bmpSize s.cap c = raise e) : decodePixels bits pix s c = raise e := by
  rw [decodePixels, hsize]
  rfl

theorem decodePixels_raises_table (hsize : bmpSize s.cap c = .ok (w, h, td)) (htable : pixelTable bits s c = raise e) :
    decodePixels bits pix s c = raise e := by
  simp only [decodePixels, hsize, htable, bind_ok]
  rfl

theorem decodePixels_raises_start (hsize : bmpSize s.cap c = .ok (w, h, td)) (htable : pixelTable bits s c = .ok (t, n, after))
    (hstart : pixelStart c after = raise e) : decodePixels bits pix s c = raise e := by
  simp only [decodePixels, hsize, htable, hstart, bind_ok]
  rfl

theorem decodePixels_raises_need (hsize : bmpSize s.cap c = .ok (w, h, td)) (htable : pixelTable bits s c = .ok (t, n, after))
    (hstart : pixelStart c after = .ok pos) (hneed : c.ctx.lim < pos + bmpStride bits w * h) :
    decodePixels bits pix s c = raise .truncatedData := by
  simp only [decodePixels, hsize, htable, hstart, bind_ok, need_of_lt hneed]
  rfl

theorem decodePixels_raises_rows (hsize : bmpSize s.cap c = .ok (w, h, td)) (htable : pixelTable bits s c = .ok (t, n, after))
    (hstart : pixelStart c after = .ok pos) (hneed : pos + bmpStride bits w * h ≤ c.ctx.lim)
    (hrows : unpackRows (pix t n) pos (bmpStride bits w) w h td t.pmem = raise e) : decodePixels bits pix s c = raise e := by
  simp only [decodePixels, hsize, htable, hstart, bind_ok, need_of_le hneed, hrows]
  rfl

/-- Pixels that all have a Color: the picture is written, and the command goes to its end. -/
theorem decodePixels_of_colors {color : Nat → Nat → Option Word} (hsize : bmpSize s.cap c = .ok (w, h, td))
    (htable : pixelTable bits s c = .ok (t, n, after)) (hstart : pixelStart c after = .ok pos)
    (hneed : pos + bmpStride bits w * h ≤ c.ctx.lim)
    (hpix : ∀ r < h, ∀ x < w, ∃ v, color r x = some v ∧ pix t n (pos + r * bmpStride bits w) x = .ok v) :
    ∃ m, imageIs t.pmem m w h td color ∧
      decodePixels bits pix s c = bmpFinish t c bits w h (bmpStride bits w) (pos + bmpStride bits w * h) m := by
  obtain ⟨m, hm, himage⟩ := unpackRows_of_colors (td := td) (pmem := t.pmem) hpix
  exact ⟨m, himage, by simp only [decodePixels, hsize, htable, hstart, bind_ok, need_of_le hneed, hm]⟩

end

/-! ## Direct pixels -/

/-- The bitCounts of direct pixels. -/
def directPixels : List (Nat × Instr) := [(16, Instr.bmpBits16), (24, .bmpBits24), (32, .bmpBits32)]

/-- The bitCounts of indices. -/
def indexedPixels : List (Nat × Instr) := [(1, Instr.bmpBits1), (4, .bmpBits4), (8, .bmpBits8)]

/-- A reader of direct pixels gives the Color that is stored. -/
def ReadsColors (bits : Nat) (pix : State → Nat → Nat → Nat → Except Stop Word) : Prop :=
  ∀ t n rb x v, storedColor t.imem bits rb x = some v → pix t n rb x = .ok v

/-- A reader of indices looks the stored one up. -/
def ReadsIndices (bits : Nat) (pix : State → Nat → Nat → Nat → Except Stop Word) : Prop :=
  ∀ t n rb x k, storedIndex t.imem bits rb x = some k → pix t n rb x = indexColor t n k

theorem pixel16_readsColors : ReadsColors 16 pixel16 := by
  intro t n rb x v h
  simp only [storedColor, if_true] at h
  split at h
  case h_1 lo hi hlo hhi =>
    cases h
    simp only [pixel16, u16le, readLE, readCell_of_some hlo, readCell_of_some hhi, bind_ok, Nat.mul_zero, Nat.add_zero]
  case h_2 => cases h

theorem pixel24_readsColors : ReadsColors 24 pixel24 := by
  intro t n rb x v h
  simp only [storedColor, if_true, if_neg (show ¬ 24 = 16 by omega)] at h
  split at h
  case h_1 b g r hb hg hr =>
    cases h
    simp only [pixel24, u8_of_memRead hb, u8_of_memRead hg, u8_of_memRead hr, bind_ok]
  case h_2 => cases h

theorem pixel32_readsColors : ReadsColors 32 pixel32 := by
  intro t n rb x v h
  simp only [storedColor, if_neg (show ¬ 32 = 16 by omega), if_neg (show ¬ 32 = 24 by omega)] at h
  split at h
  case h_1 b g r a hb hg hr ha =>
    cases h
    simp only [pixel32, u8_of_memRead hb, u8_of_memRead hg, u8_of_memRead hr, u8_of_memRead ha, bind_ok]
  case h_2 => cases h

theorem pixel1_readsIndices : ReadsIndices 1 pixel1 := by
  intro t n rb x k h
  obtain ⟨b, hb, rfl⟩ := Option.map_eq_some_iff.1 h
  rw [Nat.mul_one] at hb
  have hidx : (b.toNat >>> (7 - x % 8)) % 2 = b.toNat / 2 ^ (8 - 1 - x * 1 % 8) % 2 ^ 1 := by
    rw [Nat.shiftRight_eq_div_pow, Nat.mul_one, Nat.pow_one]
  simp only [pixel1, u8_of_memRead hb, bind_ok, hidx]

theorem pixel4_readsIndices : ReadsIndices 4 pixel4 := by
  intro t n rb x k h
  obtain ⟨b, hb, rfl⟩ := Option.map_eq_some_iff.1 h
  have hlt := b.isLt
  rw [show x * 4 / 8 = x / 2 by omega] at hb
  have hidx : (if x % 2 = 0 then b.toNat / 16 else b.toNat % 16) = b.toNat / 2 ^ (8 - 4 - x * 4 % 8) % 2 ^ 4 := by
    by_cases heven : x % 2 = 0
    · rw [if_pos heven, show x * 4 % 8 = 0 by omega]; omega
    · rw [if_neg heven, show x * 4 % 8 = 4 by omega]; omega
  simp only [pixel4, u8_of_memRead hb, bind_ok, hidx]

theorem pixel8_readsIndices : ReadsIndices 8 pixel8 := by
  intro t n rb x k h
  obtain ⟨b, hb, rfl⟩ := Option.map_eq_some_iff.1 h
  have hlt := b.isLt
  rw [show x * 8 / 8 = x by omega] at hb
  have hidx : b.toNat = b.toNat / 2 ^ (8 - 8 - x * 8 % 8) % 2 ^ 8 := by
    rw [show 8 - 8 - x * 8 % 8 = 0 by omega]; omega
  rw [pixel8, u8_of_memRead hb, bind_ok, ← hidx]

theorem exec_directPixels {bits : Nat} {i : Instr} {s : State} {c : BmpHeader} (hi : (bits, i) ∈ directPixels) (he : s.engine = .pixels c)
    (hico : c.ctx.ico = false ∨ bits ≠ 16) :
    ∃ pix, ReadsColors bits pix ∧ 8 < bits ∧ exec i s = settle (bmpScope c.ctx.ico) s (decodePixels bits pix s c) := by
  simp only [directPixels, List.mem_cons, Prod.mk.injEq, List.not_mem_nil, or_false] at hi
  rcases hi with ⟨rfl, rfl⟩ | ⟨rfl, rfl⟩ | ⟨rfl, rfl⟩
  · refine ⟨pixel16, pixel16_readsColors, by omega, ?_⟩
    have hno : c.ctx.ico = false := by simpa using hico
    simp only [exec, execBmpBits16, pixelStep, he, hno, engineScope, Bool.false_eq_true, if_false]
  · exact ⟨pixel24, pixel24_readsColors, by omega, by simp only [exec, execBmpBits24, pixelStep, he, engineScope]⟩
  · exact ⟨pixel32, pixel32_readsColors, by omega, by simp only [exec, execBmpBits32, pixelStep, he, engineScope]⟩

theorem exec_indexedPixels {bits : Nat} {i : Instr} {s : State} {c : BmpHeader} (hi : (bits, i) ∈ indexedPixels) (he : s.engine = .pixels c) :
    ∃ pix, ReadsIndices bits pix ∧ bits ≤ 8 ∧ exec i s = settle (bmpScope c.ctx.ico) s (decodePixels bits pix s c) := by
  simp only [indexedPixels, List.mem_cons, Prod.mk.injEq, List.not_mem_nil, or_false] at hi
  rcases hi with ⟨rfl, rfl⟩ | ⟨rfl, rfl⟩ | ⟨rfl, rfl⟩
  · exact ⟨pixel1, pixel1_readsIndices, by omega, by simp only [exec, execBmpBits1, pixelStep, he, engineScope]⟩
  · exact ⟨pixel4, pixel4_readsIndices, by omega, by simp only [exec, execBmpBits4, pixelStep, he, engineScope]⟩
  · exact ⟨pixel8, pixel8_readsIndices, by omega, by simp only [exec, execBmpBits8, pixelStep, he, engineScope]⟩

/-- The write-back at the end of a file. -/
theorem bmpFinish_of_file {s : State} {c : BmpHeader} {bits w h pos : Nat} {pal pmem : Mem 32} {paln : Reg} (hico : c.ctx.ico = false) :
    bmpFinish { s with pal := pal, paln := paln } c bits w h (bmpStride bits w) pos pmem = .ok (afterPixels s c bits w h pos pal pmem paln) := by
  simp only [bmpFinish, hico, Bool.false_eq_true, if_false]
  rfl

/-- Stored Colors that are all there are read by a reader of them. -/
theorem reads_stored {bits : Nat} {pix : State → Nat → Nat → Nat → Except Stop Word} (hpix : ReadsColors bits pix) {t : State} {n rb x : Nat}
    (h : storedColor t.imem bits rb x ≠ none) : ∃ v, storedColor t.imem bits rb x = some v ∧ pix t n rb x = .ok v := by
  obtain ⟨v, hv⟩ := Option.ne_none_iff_exists'.1 h
  exact ⟨v, hv, hpix t n rb x v hv⟩

/-- Settles O54: the checks in their order, then the rows, then the write-back. -/
theorem bmpDirectPixels : Obligations.BmpDirectPixels := by
  unfold Obligations.BmpDirectPixels
  refine ⟨fun bits i s c hi he hico hw hh hfit hoff hlim hstored => ?decoded,
    fun bits i s c hi he hico => ⟨fun hbad => ?size, fun hw hh hfit => ⟨fun hoff => ?offset, fun hoff hlim => ?rows⟩⟩⟩
  case decoded =>
    obtain ⟨pix, hpix, hbits, hexec⟩ := exec_directPixels hi he (.inl hico)
    obtain ⟨m, himage, hdecode⟩ := decodePixels_of_colors (bmpSize_of_file hico hw hh hfit) (pixelTable_direct hbits)
      (pixelStart_of_file hico hoff) hlim (fun r hr x hx => reads_stored hpix (hstored r hr x hx))
    refine ⟨m, ?_, himage⟩
    rw [hexec, hdecode]
    exact congrArg (settle _ s) (bmpFinish_of_file hico)
  case size =>
    obtain ⟨pix, -, -, hexec⟩ := exec_directPixels hi he (.inl hico)
    rw [hexec, decodePixels_raises_size (bmpSize_of_bad_file hico hbad), settle_raise, hico]
    rfl
  case offset =>
    obtain ⟨pix, -, hbits, hexec⟩ := exec_directPixels hi he (.inl hico)
    rw [hexec, decodePixels_raises_start (bmpSize_of_file hico hw hh hfit) (pixelTable_direct hbits) (pixelStart_of_bad_file hico hoff),
      settle_raise, hico]
    rfl
  case rows =>
    obtain ⟨pix, -, hbits, hexec⟩ := exec_directPixels hi he (.inl hico)
    rw [hexec, decodePixels_raises_need (bmpSize_of_file hico hw hh hfit) (pixelTable_direct hbits) (pixelStart_of_file hico hoff) hlim,
      settle_raise, hico]
    rfl

/-! ## The color table and indexed pixels -/

theorem tableEntry_of_stored {s : State} {pos es i : Nat} {pal : Mem 32} {v : Word} (h : storedEntry s.imem pos es i = some v) :
    tableEntry s pos es i pal = .ok (memWrite pal i v) := by
  rw [storedEntry] at h
  split at h
  case h_1 b g r hb hg hr =>
    cases h
    simp only [tableEntry, u8_of_memRead hb, u8_of_memRead hg, u8_of_memRead hr, bind_ok]
  case h_2 => cases h

/-- The state with the table loaded. -/
def withTable (s : State) (pal : Mem 32) (n : Nat) : State := { s with pal := pal, paln := regOf n }

/-- A table that is all there is loaded as it is stored. -/
theorem loadColorTable_of_stored {s : State} {pos lim bits clrUsed es n : Nat} (hn : n = tableEntries bits clrUsed) (hmax : n ≤ 256)
    (hlim : pos + n * es ≤ lim) (hstored : ∀ k < n, storedEntry s.imem pos es k ≠ none) :
    ∃ pal, loadColorTable s pos lim bits clrUsed es = .ok (withTable s pal n, n, pos + n * es) ∧
      (∀ k < n, memRead pal k = storedEntry s.imem pos es k) ∧ sameOutside s.pal pal 0 n := by
  have hentry : ∀ k < n, storedEntry s.imem pos es k = some ((storedEntry s.imem pos es k).getD 0#32) := fun k hk => by
    obtain ⟨v, hv⟩ := Option.ne_none_iff_exists'.1 (hstored k hk)
    rw [hv, Option.getD_some]
  obtain ⟨pal, hpal, hheld, hframe⟩ := forLoop_writesOn (f := tableEntry s pos es) (k := n) (loc := id)
    (val := fun k => (storedEntry s.imem pos es k).getD 0#32) (m := s.pal) (fun i _ j _ h => h)
    (fun k hk a _ => tableEntry_of_stored (hentry k hk))
  refine ⟨pal, ?_, fun k hk => (hheld k hk).trans (hentry k hk).symm, fun k hk => hframe k fun p hp heq => ?_⟩
  · simp only [loadColorTable, ← hn, if_neg (show ¬ n > 256 by omega), need_of_le hlim, hpal, bind_ok]
    rfl
  · simp only [id] at heq
    omega

theorem loadColorTable_too_many {s : State} {pos lim bits clrUsed es : Nat} (h : 256 < tableEntries bits clrUsed) :
    loadColorTable s pos lim bits clrUsed es = raise .unsupportedFormat := if_pos h

theorem loadColorTable_truncated {s : State} {pos lim bits clrUsed es : Nat} (hmax : tableEntries bits clrUsed ≤ 256)
    (hlim : lim < pos + tableEntries bits clrUsed * es) : loadColorTable s pos lim bits clrUsed es = raise .truncatedData := by
  simp only [loadColorTable, if_neg (show ¬ tableEntries bits clrUsed > 256 by omega), need_of_lt hlim]
  rfl

/-- An index below the number of entries is the Color of its entry. -/
theorem indexColor_of_entry {s : State} {n k : Nat} {v : Word} (hk : k < n) (hv : memRead s.pal k = some v) : indexColor s n k = .ok v := by
  rw [indexColor, if_neg (by omega), readCell_of_some hv]

theorem indexColor_beyond {s : State} {n k : Nat} (hk : n ≤ k) : indexColor s n k = raise .corruptData := if_pos hk

section
variable {bits : Nat} {pix : State → Nat → Nat → Nat → Except Stop Word} {s : State} {pal : Mem 32} {n pos es : Nat}
  (hpix : ReadsIndices bits pix) (hstored : ∀ k < n, storedEntry s.imem pos es k ≠ none)
  (hpal : ∀ k < n, memRead pal k = storedEntry s.imem pos es k)
include hpix hstored hpal

/-- An index within the table is read as the Color stored there. -/
theorem reads_indexed {rb x k : Nat} (hk : k < n) (h : storedIndex s.imem bits rb x = some k) :
    ∃ v, (storedIndex s.imem bits rb x).bind (storedEntry s.imem pos es) = some v ∧ pix (withTable s pal n) n rb x = .ok v := by
  obtain ⟨v, hv⟩ := Option.ne_none_iff_exists'.1 (hstored k hk)
  refine ⟨v, by rw [h, Option.bind_some, hv], ?_⟩
  rw [hpix (withTable s pal n) n rb x k h]
  exact indexColor_of_entry hk ((hpal k hk).trans hv)

/-- An index is looked up or raises CorruptData. -/
theorem reads_indexed_or_raises {rb x : Nat} (h : storedIndex s.imem bits rb x ≠ none) :
    (∃ v, pix (withTable s pal n) n rb x = .ok v) ∨ pix (withTable s pal n) n rb x = raise .corruptData := by
  obtain ⟨k, hk⟩ := Option.ne_none_iff_exists'.1 h
  by_cases hlt : k < n
  · obtain ⟨v, -, hv⟩ := reads_indexed hpix hstored hpal hlt hk
    exact .inl ⟨v, hv⟩
  · exact .inr ((hpix (withTable s pal n) n rb x k hk).trans (indexColor_beyond (by omega)))

end

/-- Settles O55: the checks in their order, with the table loaded between them, then the rows through it, then the write-back. -/
theorem bmpIndexedPixels : Obligations.BmpIndexedPixels := by
  unfold Obligations.BmpIndexedPixels
  refine ⟨fun bits i s c n es hi he hico hn hmax hes hw hh hfit htable hoff hlim hstored hindex => ?decoded,
    fun bits i s c n es hi he hico hn hes => ⟨fun hbad => ?size, fun hw hh hfit => ⟨fun hmany => ?entries, fun hmax hshort => ?tableShort,
      fun hmax htable hstored => ⟨fun hoff => ?offset, fun hoff => ⟨fun hlim => ?rows, fun hlim hheld hbad => ?index⟩⟩⟩⟩⟩
  case decoded =>
    obtain ⟨pix, hpix, hbits, hexec⟩ := exec_indexedPixels hi he
    obtain ⟨pal, hload, hpal, hpalFrame⟩ := loadColorTable_of_stored hn hmax htable hstored
    rw [hes, ← pixelTable_indexed hbits, ← hes] at hload
    obtain ⟨m, himage, hdecode⟩ := decodePixels_of_colors (bmpSize_of_file hico hw hh hfit) hload (pixelStart_of_file hico hoff) hlim
      (color := fun r x => (storedIndex s.imem bits (c.ctx.off + r * bmpStride bits c.w.toNat) x).bind
        (storedEntry s.imem (c.ctx.h0 + c.hs) es))
      (fun r hr x hx => by
        obtain ⟨k, hk, hidx⟩ := hindex r hr x hx
        exact reads_indexed hpix hstored hpal hk hidx)
    refine ⟨pal, m, ?_, hpal, hpalFrame, himage⟩
    rw [hexec, hdecode]
    exact congrArg (settle _ s) (bmpFinish_of_file hico)
  case size =>
    obtain ⟨pix, -, -, hexec⟩ := exec_indexedPixels hi he
    rw [hexec, decodePixels_raises_size (bmpSize_of_bad_file hico hbad), settle_raise, hico]
    rfl
  case entries =>
    obtain ⟨pix, -, hbits, hexec⟩ := exec_indexedPixels hi he
    have hraise := (pixelTable_indexed (s := s) (c := c) hbits).trans (loadColorTable_too_many ((show n = tableEntries bits c.clrUsed from hn) ▸ hmany))
    rw [hexec, decodePixels_raises_table (bmpSize_of_file hico hw hh hfit) hraise, settle_raise, hico]
    rfl
  case tableShort =>
    obtain ⟨pix, -, hbits, hexec⟩ := exec_indexedPixels hi he
    obtain rfl : n = tableEntries bits c.clrUsed := hn
    subst hes
    have hraise := (pixelTable_indexed (s := s) (c := c) hbits).trans (loadColorTable_truncated hmax hshort)
    rw [hexec, decodePixels_raises_table (bmpSize_of_file hico hw hh hfit) hraise, settle_raise, hico]
    rfl
  case offset =>
    obtain ⟨pix, -, hbits, hexec⟩ := exec_indexedPixels hi he
    obtain ⟨pal, hload, -, -⟩ := loadColorTable_of_stored hn hmax htable hstored
    rw [hes, ← pixelTable_indexed hbits, ← hes] at hload
    rw [hexec, decodePixels_raises_start (bmpSize_of_file hico hw hh hfit) hload (pixelStart_of_bad_file hico hoff), settle_raise, hico]
    rfl
  case rows =>
    obtain ⟨pix, -, hbits, hexec⟩ := exec_indexedPixels hi he
    obtain ⟨pal, hload, -, -⟩ := loadColorTable_of_stored hn hmax htable hstored
    rw [hes, ← pixelTable_indexed hbits, ← hes] at hload
    rw [hexec, decodePixels_raises_need (bmpSize_of_file hico hw hh hfit) hload (pixelStart_of_file hico hoff) hlim, settle_raise, hico]
    rfl
  case index =>
    obtain ⟨pix, hpix, hbits, hexec⟩ := exec_indexedPixels hi he
    obtain ⟨pal, hload, hpal, -⟩ := loadColorTable_of_stored hn hmax htable hstored
    rw [hes, ← pixelTable_indexed hbits, ← hes] at hload
    obtain ⟨r, hr, x, hx, k, hk, hidx⟩ := hbad
    have hrows := unpackRows_raises (td := decide (c.h < 0)) (pmem := s.pmem)
      (fun r hr x hx => reads_indexed_or_raises hpix hstored hpal (hheld r hr x hx)) hr hx
      ((hpix (withTable s pal n) n _ x k hidx).trans (indexColor_beyond hk))
    rw [hexec, decodePixels_raises_rows (bmpSize_of_file hico hw hh hfit) hload (pixelStart_of_file hico hoff) hlim hrows, settle_raise, hico]
    rfl

/-! ## The AND mask -/

theorem maskPixel_of_stored {s : State} {mrow y w x : Nat} {a : Mem 32} {v : Word} {bit : Bool} (hbit : storedMask s.imem mrow x = some bit)
    (hv : memRead a (y * w + x) = some v) : maskPixel s mrow y w x a = .ok (memWrite a (y * w + x) (masked v bit)) := by
  obtain ⟨b, hb, rfl⟩ := Option.map_eq_some_iff.1 hbit
  have hset : (b.toNat >>> (7 - x % 8)) % 2 = 1 ↔ b.getLsbD (7 - x % 8) = true := by
    rw [BitVec.getLsbD, Nat.testBit_eq_decide_div_mod_eq, decide_eq_true_eq, Nat.shiftRight_eq_div_pow]
  simp only [maskPixel, u8_of_memRead hb, readCell_of_some hv, bind_ok, masked, hset]

/-- Under the mask every pixel keeps its Color but for its alpha. -/
theorem mergeMask_of_stored {s : State} {pos w h : Nat} {before m : Mem 32} {color : Nat → Nat → Option Word}
    (himage : imageIs before m w h false color) (hcolor : ∀ r < h, ∀ x < w, color r x ≠ none)
    (hmask : ∀ r < h, ∀ x < w, storedMask s.imem (pos + r * bmpStride 1 w) x ≠ none) :
    ∃ m', mergeMask s pos w h m = .ok m' ∧ imageIs before m' w h false
      (fun r x => (color r x).bind fun col => (storedMask s.imem (pos + r * bmpStride 1 w) x).map (masked col)) := by
  obtain ⟨hpixels, hframe⟩ := himage
  have hturn : ∀ r < h, ∀ x < w, ∃ v bit, color r x = some v ∧ memRead m (imageRow false h r * w + x) = some v ∧
      storedMask s.imem (pos + r * bmpStride 1 w) x = some bit := fun r hr x hx => by
    obtain ⟨v, hv⟩ := Option.ne_none_iff_exists'.1 (hcolor r hr x hx)
    obtain ⟨bit, hbit⟩ := Option.ne_none_iff_exists'.1 (hmask r hr x hx)
    exact ⟨v, bit, hv, (hpixels r hr x hx).trans hv, hbit⟩
  obtain ⟨m', hm', hw⟩ := forLoop_picture (y := imageRow false h) (w := w) (h := h) (m := m)
    (f := fun r => maskPixel s (pos + r * bmpStride 1 w) (imageRow false h r) w)
    (val := fun p => ((color p.1 p.2).bind fun col => (storedMask s.imem (pos + p.1 * bmpStride 1 w) p.2).map (masked col)).getD 0#32)
    (fun r hr r' hr' heq => imageRow_inj hr hr' heq)
    (fun r hr x hx a ha => by
      obtain ⟨v, bit, hv, hread, hbit⟩ := hturn r hr x hx
      simp only [maskPixel_of_stored hbit (ha.trans hread), hv, hbit, Option.bind_some, Option.map_some, Option.getD_some])
  refine ⟨m', hm', fun r hr x hx => ?_, fun k hk => (hw.sameOutside (fun r hr => imageRow_lt hr) k hk).trans (hframe k hk)⟩
  obtain ⟨v, bit, hv, -, hbit⟩ := hturn r hr x hx
  have hread := hw.1 (r, x) ⟨hr, hx⟩
  simp only [pixelLoc, hv, hbit, Option.bind_some, Option.map_some, Option.getD_some] at hread
  simp only [hread, hv, hbit, Option.bind_some, Option.map_some]

/-- The mask and the write-back at the end of an ICO's pixels. -/
theorem bmpFinish_of_ico {s : State} {c : BmpHeader} {bits w h pos : Nat} {pal m m' : Mem 32} {paln : Reg} (hico : c.ctx.ico = true)
    (hlim : pos + bmpStride 1 w * h ≤ c.ctx.lim) (hmask : mergeMask { s with pal := pal, paln := paln } pos w h m = .ok m') :
    bmpFinish { s with pal := pal, paln := paln } c bits w h (bmpStride bits w) pos m =
      .ok (afterPixels s c bits w h (pos + bmpStride 1 w * h) pal m' paln) := by
  simp only [bmpFinish, hico, if_true, need_of_le hlim, hmask, bind_ok]
  rfl

theorem exec_directPixels_ico {bits : Nat} {i : Instr} {s : State} {c : BmpHeader} {w h pos mask : Nat}
    (hi : (bits, i) ∈ [(24, Instr.bmpBits24), (32, .bmpBits32)]) (he : s.engine = .pixels c) (hico : c.ctx.ico = true) (hw : 0 < c.w)
    (hh : 1 < c.h) (hwe : w = c.w.toNat) (hhe : h = c.h.toNat / 2) (hfit : w * h ≤ s.cap.pmemPixels) (hpos : pos = c.ctx.h0 + c.hs)
    (hmaskPos : mask = pos + bmpStride bits w * h) (hlim : mask + bmpStride 1 w * h ≤ c.ctx.lim)
    (hstored : ∀ r < h, ∀ x < w, storedColor s.imem bits (pos + r * bmpStride bits w) x ≠ none)
    (hmask : ∀ r < h, ∀ x < w, storedMask s.imem (mask + r * bmpStride 1 w) x ≠ none) :
    ∃ m, exec i s = .next (afterPixels s c bits w h (mask + bmpStride 1 w * h) s.pal m s.paln) ∧
      imageIs s.pmem m w h false (fun r x => (storedColor s.imem bits (pos + r * bmpStride bits w) x).bind fun col =>
        (storedMask s.imem (mask + r * bmpStride 1 w) x).map (masked col)) := by
  subst hwe hhe hpos hmaskPos
  have hi' : (bits, i) ∈ directPixels ∧ bits ≠ 16 := by
    simp only [directPixels, List.mem_cons, Prod.mk.injEq, List.not_mem_nil, or_false] at hi ⊢
    rcases hi with ⟨rfl, rfl⟩ | ⟨rfl, rfl⟩ <;> simp
  obtain ⟨pix, hpix, hbits, hexec⟩ := exec_directPixels hi'.1 he (.inr hi'.2)
  obtain ⟨m, himage, hdecode⟩ := decodePixels_of_colors (bmpSize_of_ico hico hw hh hfit) (pixelTable_direct hbits) (pixelStart_of_ico hico)
    (by omega) (fun r hr x hx => reads_stored hpix (hstored r hr x hx))
  obtain ⟨m', hmerge, himage'⟩ := mergeMask_of_stored himage hstored hmask
  refine ⟨m', ?_, himage'⟩
  rw [hexec, hdecode]
  exact congrArg (settle _ s) (bmpFinish_of_ico hico hlim hmerge)

/-- Settles O56: the rows as for a file, from the end of the header or table on, and then the mask over them. -/
theorem icoPixelsAreMasked : Obligations.IcoPixelsAreMasked := by
  unfold Obligations.IcoPixelsAreMasked
  refine ⟨fun bits i s c w h pos mask hi he hico hw hh hwe hhe hfit hpos hmaskPos hlim hstored hmask =>
      exec_directPixels_ico hi he hico hw hh hwe hhe hfit hpos hmaskPos hlim hstored hmask,
    fun bits i s c w h n table pos mask hi he hico hcore hn hmax hw hh hwe hhe hfit htable hpos hmaskPos hlim hstored hindex hmask =>
      ?indexed, fun s c he hico => ?bits16⟩
  case indexed =>
    subst hwe hhe htable hpos hmaskPos
    obtain ⟨pix, hpix, hbits, hexec⟩ := exec_indexedPixels hi he
    obtain ⟨pal, hload, hpal, hpalFrame⟩ := loadColorTable_of_stored (lim := c.ctx.lim) hn hmax (by omega) hstored
    have htab := pixelTable_indexed (s := s) (c := c) hbits
    rw [if_neg (show ¬ c.core = true by simp [hcore]), hload] at htab
    have hcolor : ∀ r < c.h.toNat / 2, ∀ x < c.w.toNat, ∃ v,
        (storedIndex s.imem bits (c.ctx.h0 + c.hs + n * 4 + r * bmpStride bits c.w.toNat) x).bind (storedEntry s.imem (c.ctx.h0 + c.hs) 4) =
          some v ∧ pix (withTable s pal n) n (c.ctx.h0 + c.hs + n * 4 + r * bmpStride bits c.w.toNat) x = .ok v := fun r hr x hx => by
      obtain ⟨k, hk, hidx⟩ := hindex r hr x hx
      exact reads_indexed hpix hstored hpal hk hidx
    obtain ⟨m, himage, hdecode⟩ := decodePixels_of_colors (bmpSize_of_ico hico hw hh hfit) htab (pixelStart_of_ico hico) (by omega) hcolor
    obtain ⟨m', hmerge, himage'⟩ := mergeMask_of_stored (s := withTable s pal n) himage
      (fun r hr x hx => by obtain ⟨v, hv, -⟩ := hcolor r hr x hx; simp [hv]) hmask
    refine ⟨pal, m', ?_, hpal, hpalFrame, himage'⟩
    rw [hexec, hdecode]
    exact congrArg (settle _ s) (bmpFinish_of_ico hico hlim hmerge)
  case bits16 =>
    simp only [exec, execBmpBits16, pixelStep, he, hico, if_true, settle_raise, engineScope, bmpScope]

end Sys2Proof.Machine

/-! SUPPORT. Whole files: BMP, PNG and ICO from their first byte to the end of the command (42_bmp R180 to R194, 44_png R250 to R258,
46_ico R300 to R309). -/

namespace Sys2Proof.Machine

/-- A decode command with a legal DEPTH runs from where it starts. -/
theorem decodeCommandRun_of_start {k : Scope} {d : BitVec 8} {start : State → Except Stop State} {s t : State} (hd : legalDepth d = true)
    (h : start s = .ok t) : decodeCommandRun k d start s = runOn t := by
  obtain ⟨x, hx⟩ := Option.isSome_iff_exists.1 ((depthOfField_isSome d).trans hd)
  simp only [decodeCommandRun, hx, h, settle_ok, runCommand_next]

/-! ## BMP files -/

theorem decode_bitCount {bits : Nat} {i : Instr} (hi : (bits, i) ∈ directPixels) : decode .bitCount bits = .ok i ∧ bits < 2 ^ 16 := by
  simp only [directPixels, List.mem_cons, Prod.mk.injEq, List.not_mem_nil, or_false] at hi
  rcases hi with ⟨rfl, rfl⟩ | ⟨rfl, rfl⟩ | ⟨rfl, rfl⟩
  · exact ⟨rfl, by decide⟩
  · exact ⟨rfl, by decide⟩
  · exact ⟨rfl, by decide⟩

/-- The fields of a 40-byte info header that a decode reads. -/
theorem holdsAt_infoHeader {m : Mem 8} {a : Nat} {w h : Int} {planes bits imageSize ppmX ppmY clrUsed clrImportant : Nat}
    (hh : holdsAt m a (infoHeader w h planes bits imageSize ppmX ppmY clrUsed clrImportant)) :
    holdsAt m a (le32 40) ∧ holdsAt m (a + 14) (le16 bits) ∧ holdsAt m a (le32 40 ++ (le32 (BitVec.ofInt 32 w).toNat ++
      (le32 (BitVec.ofInt 32 h).toNat ++ (le16 planes ++ (le16 bits ++ (le32 0 ++ (le32 imageSize ++ (le32 ppmX ++ (le32 ppmY ++
        le32 clrUsed))))))))) := by
  simp only [infoHeader, holdsAt_append, length_le32, length_le16, Nat.add_assoc, Nat.reduceAdd] at hh ⊢
  obtain ⟨hsize, hw, hh', hplanes, hbits, hcomp, himage, hx, hy, hclr, -⟩ := hh
  exact ⟨hsize, hbits, hsize, hw, hh', hplanes, hbits, hcomp, himage, hx, hy, hclr⟩

/-- From a 40-byte info header through direct pixels that decode. -/
theorem runOn_infoHeader {s t : State} {c : BmpCtx} {w h : Int} {planes bits imageSize ppmX ppmY clrUsed clrImportant : Nat} {i : Instr}
    (hb : s.st = .busy) (he : s.engine = .header c) (hlim : c.h0 + 40 ≤ c.lim) (hw : -2 ^ 31 ≤ w) (hw' : w < 2 ^ 31) (hh : -2 ^ 31 ≤ h)
    (hh' : h < 2 ^ 31) (hclr : clrUsed < 2 ^ 32)
    (hheader : holdsAt s.imem c.h0 (infoHeader w h planes bits imageSize ppmX ppmY clrUsed clrImportant)) (hi : (bits, i) ∈ directPixels)
    (hexec : exec i { s with engine := .pixels ⟨c, 40, false, w, h, clrUsed⟩ } = .next t) : runOn s = runOn t := by
  obtain ⟨hsize, hbits, hfields⟩ := holdsAt_infoHeader hheader
  have hsizeWord : streamWordAt s .headerSize 40 := by
    simp only [streamWordAt, he]
    exact ⟨by omega, hsize⟩
  have hparsed : exec .bmpHeader40 s = .next { s with engine := .pixels ⟨c, 40, false, w, h, clrUsed⟩ } := by
    rw [exec_modernHeader (hs := 40) he (by simp), modernHeader_of_holdsAt hlim hw hw' hh hh' (by decide) hclr hfields, if_neg (by simp), settle_ok]
  obtain ⟨hd, hlt⟩ := decode_bitCount hi
  rw [runOn_word hb (by decide) hsizeWord rfl hparsed]
  exact runOn_word (f := .bitCount) (w := bits) hb hlt hbits hd hexec

theorem bmpStart_of_holdsAt {s : State} {d : BitVec 8} {size reserved off : Nat} {rest : List Byte} (hlim : 14 ≤ s.ilen.toNat)
    (hoff : off < 2 ^ 32) (h : holdsAt s.imem 0 (fileHeader size reserved off ++ rest)) :
    bmpStart d s = .ok { s with st := .busy, engine := .header ⟨false, d, 14, s.ilen.toNat, off⟩ } ∧ holdsAt s.imem 14 rest := by
  simp only [fileHeader, holdsAt_append, holdsAt_cons, List.length_append, List.length_cons, List.length_nil, length_le32, Nat.zero_add,
    Nat.reduceAdd] at h
  obtain ⟨⟨⟨hb0, hb1, -⟩, -, -, hoffField⟩, hrest⟩ := h
  refine ⟨?_, hrest⟩
  simp only [bmpStart, need_of_le (show 0 + 2 ≤ s.ilen.toNat by omega), need_of_le (show 0 + 14 ≤ s.ilen.toNat by omega), u8_of_memRead hb0,
    u8_of_memRead hb1, u32le_of_holdsAt hoff hoffField, bind_ok, ne_eq, not_true_eq_false, or_self, if_false]

/-- The instruction of a direct bitCount. -/
theorem exists_directPixels {bits : Nat} (h : bits = 16 ∨ bits = 24 ∨ bits = 32) : ∃ i, (bits, i) ∈ directPixels := by
  rcases h with rfl | rfl | rfl
  · exact ⟨.bmpBits16, by simp [directPixels]⟩
  · exact ⟨.bmpBits24, by simp [directPixels]⟩
  · exact ⟨.bmpBits32, by simp [directPixels]⟩

/-- Settles O58: file header, info header and pixels, each where the one before it ends. -/
theorem decbmpDecodesFile : Obligations.DecbmpDecodesFile := by
  unfold Obligations.DecbmpDecodesFile
  intro s d size reserved off planes bits imageSize ppmX ppmY clrUsed clrImportant w h hd hbits hw hw' hh hlo hhi hfit hoff h54 hclr hlim
    hheaders hstored
  obtain ⟨i, hi⟩ := exists_directPixels hbits
  obtain ⟨hstart, hinfo⟩ := bmpStart_of_holdsAt (d := d) (by omega) hoff hheaders
  obtain ⟨m, hexec, himage⟩ := bmpDirectPixels.1 bits i
    { s with st := .busy, engine := .pixels ⟨⟨false, d, 14, s.ilen.toNat, off⟩, 40, false, w, h, clrUsed⟩ }
    ⟨⟨false, d, 14, s.ilen.toNat, off⟩, 40, false, w, h, clrUsed⟩ hi rfl rfl hw hh hfit h54 hlim hstored
  refine ⟨m, ?_, himage⟩
  have hrun := runOn_infoHeader (s := { s with st := .busy, engine := .header ⟨false, d, 14, s.ilen.toNat, off⟩ }) rfl rfl
    (by simp only; omega) (by omega) hw' hlo hhi hclr hinfo hi hexec
  rw [exec, execDecbmp, decodeCommandRun_of_start hd hstart, hrun, runOn_ended Status.noConfusion]
  rfl

/-! ## Rows with filter byte 0 -/

theorem length_unfilteredRows {rowbytes h : Nat} {pixels : List Byte} (hlen : pixels.length = rowbytes * h) :
    (unfilteredRows rowbytes h pixels).length = h * (rowbytes + 1) := by
  induction h generalizing pixels with
  | zero => simp [unfilteredRows]
  | succ h ih =>
    rw [Nat.mul_succ] at hlen
    rw [unfilteredRows, List.length_append, ih (by rw [List.length_drop]; omega), List.length_cons, List.length_take, Nat.succ_mul]
    omega

/-- Row `y` begins with its filter byte 0, and its data bytes follow. -/
theorem getElem?_unfilteredRows {rowbytes h y : Nat} {pixels : List Byte} (hlen : pixels.length = rowbytes * h) (hy : y < h) :
    (unfilteredRows rowbytes h pixels)[y * (rowbytes + 1)]? = some 0#8 ∧
    ∀ k < rowbytes, (unfilteredRows rowbytes h pixels)[scanAddr rowbytes y k]? = pixels[y * rowbytes + k]? := by
  induction h generalizing pixels y with
  | zero => omega
  | succ h ih =>
    rw [Nat.mul_succ] at hlen
    have hhead : (0#8 :: pixels.take rowbytes).length = rowbytes + 1 := by
      rw [List.length_cons, List.length_take]; omega
    rw [unfilteredRows]
    cases y with
    | zero =>
      refine ⟨by simp, fun k hk => ?_⟩
      rw [List.getElem?_append_left (by rw [hhead, scanAddr]; omega), scanAddr, Nat.zero_mul, Nat.zero_add, Nat.add_comm 1,
        List.getElem?_cons_succ, List.getElem?_take_of_lt hk, Nat.zero_mul, Nat.zero_add]
    | succ y =>
      obtain ⟨hfilter, hdata⟩ := ih (y := y) (pixels := pixels.drop rowbytes) (by rw [List.length_drop]; omega) (by omega)
      have hskip : ∀ j, (y + 1) * (rowbytes + 1) + j = (rowbytes + 1) + (y * (rowbytes + 1) + j) := fun j => by ring
      have hlater : ∀ j, ((0#8 :: pixels.take rowbytes) ++ unfilteredRows rowbytes h (pixels.drop rowbytes))[(y + 1) * (rowbytes + 1) + j]? =
          (unfilteredRows rowbytes h (pixels.drop rowbytes))[y * (rowbytes + 1) + j]? := fun j => by
        rw [hskip, List.getElem?_append_right (by omega), hhead, Nat.add_sub_cancel_left]
      refine ⟨(hlater 0).trans hfilter, fun k hk => ?_⟩
      have hpix : rowbytes + (y * rowbytes + k) = (y + 1) * rowbytes + k := by ring
      rw [scanAddr, Nat.add_assoc, hlater, ← Nat.add_assoc]
      exact (hdata k hk).trans (by rw [List.getElem?_drop, hpix])

/-! ## The PNG of one stored block -/

section
variable {s : State} {c : ChunkCtx} (hb : s.st = .busy) (he : s.engine = .chunks c)
include hb he

/-- A chunk that is whole in the window is fetched and run. -/
theorem runOn_chunk {t : State} {type : Nat} {i : Instr} {payload rest : List Byte} (htype : type < 2 ^ 32)
    (hlen : payload.length < 2 ^ 32) (hlim : c.pos + 12 + payload.length ≤ c.lim)
    (h : holdsAt s.imem c.pos (be32 payload.length ++ (be32 type ++ rest))) (hd : decode .chunkType type = .ok i)
    (hexec : exec i s = .next t) : runOn s = runOn t := by
  have hword : streamWordAt s .chunkType type := by
    simp only [streamWordAt, he]
    exact ⟨payload.length, hlen, hlim, (holdsAt_chunk h).1⟩
  exact runOn_word hb htype hword hd hexec

end

/-- The bytes of a list stand in the source it is. -/
theorem sourceHolds_bytes (imem : Mem 8) (l : List Byte) : sourceHolds imem (.bytes l) 0 l := fun k _ => by
  rw [Nat.zero_add]
  rfl

/-- The header of the image of `pngFile`. -/
def rgbaHeader (w h : Nat) : Ihdr := ⟨w, h, 8, 6⟩

theorem rowBytes_rgba (w h : Nat) : rowBytes (rgbaHeader w h) = 4 * w := by
  show (w * 4 * 8 + 7) / 8 = 4 * w
  omega

@[simp] theorem length_pngChunk (type : Nat) (payload crc : List Byte) : (pngChunk type payload crc).length = 8 + payload.length + crc.length := by
  simp only [pngChunk, List.length_append, length_be32]
  omega

@[simp] theorem length_ihdrBytes (w h : Nat) (bd ct cm fm : Byte) : (ihdrBytes w h bd ct cm fm).length = 13 := rfl

@[simp] theorem length_storedStream (data adler : List Byte) : (storedStream data adler).length = 7 + data.length + adler.length := by
  simp only [storedStream, List.length_append, List.length_cons, List.length_nil, length_le16]
  omega

/-- A chunk's length, type and payload, without its CRC. -/
theorem holdsAt_pngChunk {m : Mem 8} {a type : Nat} {payload crc : List Byte} (h : holdsAt m a (pngChunk type payload crc)) :
    holdsAt m a (be32 payload.length ++ (be32 type ++ payload)) := by
  simp only [pngChunk, holdsAt_append] at h ⊢
  obtain ⟨hlen, htype, hpayload, -⟩ := h
  exact ⟨hlen, htype, hpayload⟩

/-- The chunk walk of an 8-bit RGBA image behind its IHDR. -/
def pngWalking (s : State) (ico : Bool) (d : BitVec 8) (lim pos w h : Nat) (idat : List Byte) : State :=
  { s with
    png := { s.png with w := .val (BitVec.ofNat 32 w), h := .val (BitVec.ofNat 32 h), bd := .val 8#32, ct := .val 6#32 }
    engine := .chunks ⟨ico, d, lim, pos, some (rgbaHeader w h), idat⟩ }

/-- Its decompression, with the geometry recorded. -/
def pngInflating (s : State) (ico : Bool) (d : BitVec 8) (pos w h : Nat) (idat : List Byte) : State :=
  { s with
    png := ⟨.val (BitVec.ofNat 32 w), .val (BitVec.ofNat 32 h), .val 8#32, .val 6#32, .val 4#32, .val (BitVec.ofNat 32 (4 * w))⟩
    engine := .blocks ⟨.bytes idat, 8 * 2, [], some ⟨ico, d, rgbaHeader w h, pos⟩⟩ }

section
variable {s : State} {ico : Bool} {d : BitVec 8} {lim pos w h : Nat} {crc : List Byte} (hb : s.st = .busy)
include hb

theorem runOn_rgbaIhdr (he : s.engine = .chunks ⟨ico, d, lim, pos, none, []⟩) (hw : 1 ≤ w) (hw' : w < 2 ^ 32) (hh : 1 ≤ h) (hh' : h < 2 ^ 32)
    (hfit : w * h ≤ s.cap.pmemPixels) (hlim : pos + 25 ≤ lim)
    (hholds : holdsAt s.imem pos (pngChunk 0x49484452 (ihdrBytes w h 8#8 6#8 0#8 0#8) crc)) :
    runOn s = runOn (pngWalking s ico d lim (pos + 25) w h []) := by
  have hchunk := holdsAt_pngChunk hholds
  have hexec := ihdrIsParsed.1 s _ 13 w h 8#8 6#8 0#8 0#8 he rfl le_rfl (by decide) hlim hw hw' hh hh' hfit (by decide) hchunk
  exact runOn_chunk (payload := ihdrBytes w h 8#8 6#8 0#8 0#8) hb he (by decide) (by rw [length_ihdrBytes]; decide) hlim hchunk rfl hexec

theorem runOn_rgbaIdat {payload : List Byte} (hlen : payload.length < 2 ^ 32) (hlim : pos + 12 + payload.length ≤ lim)
    (hholds : holdsAt s.imem pos (pngChunk 0x49444154 payload crc)) :
    runOn (pngWalking s ico d lim pos w h []) = runOn (pngWalking s ico d lim (pos + 12 + payload.length) w h payload) := by
  have hchunk := holdsAt_pngChunk hholds
  have hexec := idatIsAccumulated (pngWalking s ico d lim pos w h []) _ (rgbaHeader w h) payload rfl rfl hlen hlim hchunk
  exact runOn_chunk (s := pngWalking s ico d lim pos w h []) hb rfl (by decide) hlen hlim hchunk rfl hexec

theorem runOn_rgbaIend {data adler : List Byte} (hzmem : h * (4 * w + 1) ≤ s.cap.zmemBytes) (hlim : pos + 12 ≤ lim)
    (hholds : holdsAt s.imem pos (pngChunk 0x49454E44 [] crc)) :
    runOn (pngWalking s ico d lim pos w h (storedStream data adler)) =
      runOn (pngInflating s ico d (pos + 12) w h (storedStream data adler)) := by
  have hchunk := holdsAt_pngChunk hholds
  have hexec := iendStartsInflate (pngWalking s ico d lim pos w h (storedStream data adler)) _ (rgbaHeader w h) 0 0x78#8 0x01#8 _ rfl rfl
    (by decide) hlim hchunk (by simp [rgbaHeader, pngFormats]) (by rw [rowBytes_rgba]; exact hzmem) rfl (by decide) (by decide) (by decide)
    (by decide)
  have hrow : (w * 4 * 8 + 7) / 8 = 4 * w := by omega
  have hct : (rgbaHeader w h).ct = 6 := rfl
  have hbd : (rgbaHeader w h).bd = 8 := rfl
  have hw : (rgbaHeader w h).w = w := rfl
  simp only [hct, hbd, hw, Nat.reduceEqDiff, if_false, hrow] at hexec
  exact runOn_chunk (s := pngWalking s ico d lim pos w h (storedStream data adler)) (payload := []) hb rfl (by decide) (by decide) hlim hchunk
    rfl hexec

end

/-- The three chunks of the file are walked, and the decompression of its stream begins. -/
theorem runOn_pngChunks {s : State} {ico : Bool} {d : BitVec 8} {base lim w h : Nat} {data crc1 crc2 crc3 adler : List Byte}
    (hb : s.st = .busy) (he : s.engine = .chunks ⟨ico, d, lim, base + 8, none, []⟩) (hw : 1 ≤ w) (hh : 1 ≤ h)
    (hfit : w * h ≤ s.cap.pmemPixels) (hmax : h * (4 * w + 1) ≤ 65535) (hzmem : h * (4 * w + 1) ≤ s.cap.zmemBytes)
    (hdata : data.length = h * (4 * w + 1)) (h1 : crc1.length = 4) (h2 : crc2.length = 4) (hadler : adler.length = 4)
    (hlim : base + (68 + data.length) ≤ lim)
    (hholds : holdsAt s.imem (base + 8) (pngChunk 0x49484452 (ihdrBytes w h 8#8 6#8 0#8 0#8) crc1 ++
      (pngChunk 0x49444154 (storedStream data adler) crc2 ++ pngChunk 0x49454E44 [] crc3))) :
    runOn s = runOn (pngInflating s ico d (base + 68 + data.length) w h (storedStream data adler)) := by
  have hwide : w < 65536 := by
    have : 1 * (4 * w + 1) ≤ h * (4 * w + 1) := Nat.mul_le_mul_right _ hh
    omega
  have hhigh : h < 65536 := by
    have : h * 1 ≤ h * (4 * w + 1) := Nat.mul_le_mul_left _ (by omega)
    omega
  have hstream : (storedStream data adler).length = data.length + 11 := by rw [length_storedStream, hadler]; omega
  obtain ⟨hihdr, hrest⟩ := holdsAt_append.1 hholds
  obtain ⟨hidat, hiend⟩ := holdsAt_append.1 hrest
  rw [length_pngChunk, length_ihdrBytes, h1] at hidat hiend
  rw [length_pngChunk, hstream, h2, show base + 8 + (8 + 13 + 4) + (8 + (data.length + 11) + 4) =
    base + 8 + 25 + 12 + (data.length + 11) by omega] at hiend
  have hend : base + 8 + 25 + 12 + (data.length + 11) + 12 = base + 68 + data.length := by omega
  rw [runOn_rgbaIhdr hb he hw (by omega) hh (by omega) hfit (by omega) hihdr,
    runOn_rgbaIdat hb (by omega) (by omega) hidat, hstream, runOn_rgbaIend hb hzmem (by omega) hiend, hend]

end Sys2Proof.Machine

/-! SUPPORT. Whole files, continued: the scanlines and pixels of the PNG in one stored block, and the two paths of an ICO
(44_png R257, R258, R271; 46_ico R300 to R309). -/

namespace Sys2Proof.Machine

/-! ## Scanlines with filter byte 0 -/

/-- Scanlines with filter byte 0 stay as they are. -/
theorem RowsDone.unfiltered {before z : Mem 8} {rowbytes bpp r : Nat} (h : RowsDone before rowbytes bpp (fun _ => 0) r z)
    (hheld : ∀ r' < r, ∀ k < rowbytes, memRead before (scanAddr rowbytes r' k) ≠ none) (a : Nat) : memRead z a = memRead before a := by
  by_cases hrow : ∃ r' < r, ∃ k < rowbytes, scanAddr rowbytes r' k = a
  · obtain ⟨r', hr', k, hk, rfl⟩ := hrow
    obtain ⟨v, hv⟩ := Option.ne_none_iff_exists'.1 (hheld r' hr' k hk)
    have hrec := h.1 r' hr' k hk
    rw [reconstructedAt, byteAt, hv, predictorOf, if_pos rfl] at hrec
    simpa [hv] using hrec
  · exact h.2 a fun r' hr' k hk heq => hrow ⟨r', hr', k, hk, heq⟩

section
variable {w h : Nat} {pixels : List Byte} {z : Mem 8} (hlen : pixels.length = 4 * w * h) (hz : holdsAt z 0 (unfilteredRows (4 * w) h pixels))
include hlen hz

theorem memRead_unfilteredRow {y k : Nat} (hy : y < h) (hk : k < 4 * w) :
    memRead z (scanAddr (4 * w) y k) = some (pixels.getD (y * (4 * w) + k) 0#8) := by
  have hlt := scanAddr_lt hy hk
  have hread := hz (scanAddr (4 * w) y k) (by rwa [length_unfilteredRows hlen])
  have hpix : y * (4 * w) + k < pixels.length := by
    rw [hlen]
    exact pixel_index_lt hk hy
  rw [Nat.zero_add] at hread
  rw [hread, (getElem?_unfilteredRows hlen hy).2 k hk, getElem?_of_lt_length hpix]

theorem memRead_unfilteredFilter {y : Nat} (hy : y < h) : memRead z (y * (4 * w + 1)) = some 0#8 := by
  have hlt := filterAddr_lt (rowbytes := 4 * w) hy
  have hread := hz (y * (4 * w + 1)) (by rwa [length_unfilteredRows hlen])
  rw [Nat.zero_add] at hread
  rw [hread, (getElem?_unfilteredRows hlen hy).1]

theorem sampleByte_rgba {y i : Nat} (hy : y < h) (hi : i < 4 * w) :
    sampleByte z (rgbaHeader w h) y i = pixels.getD (y * (4 * w) + i) 0#8 := by
  have hread := memRead_unfilteredRow hlen hz hy hi
  rw [sampleByte, rowBytes_rgba, if_pos (show (rgbaHeader w h).bd = 8 from rfl), byteAt]
  rw [scanAddr] at hread
  rw [hread, Option.getD_some]

/-- The pixels of the image are the RGBA bytes of the file. -/
theorem pngColor_rgba {y x : Nat} (hy : y < h) (hx : x < w) :
    packColor (pngColor z (rgbaHeader w h) y x) = rgbaAt pixels (y * w + x) := by
  have hct : (rgbaHeader w h).ct = 6 := rfl
  have hplace : ∀ j, y * (4 * w) + (4 * x + j) = 4 * (y * w + x) + j := fun j => by ring
  have hsample : ∀ j < 4, sampleByte z (rgbaHeader w h) y (4 * x + j) = pixels.getD (4 * (y * w + x) + j) 0#8 := fun j hj => by
    rw [sampleByte_rgba hlen hz hy (by omega), hplace]
  have h0 := hsample 0 (by omega)
  simp only [Nat.add_zero] at h0
  simp only [pngColor, hct, Nat.reduceEqDiff, if_false, rgbaAt, h0, hsample 1 (by omega), hsample 2 (by omega), hsample 3 (by omega)]

end

/-! ## The PNG of one stored block -/

theorem bytesPerPixel_rgba (w h : Nat) : bytesPerPixel (rgbaHeader w h) = 4 := by
  simp [bytesPerPixel, rgbaHeader, samplesPerPixel]

/-- A PNG decode with its scanlines in ZMEM. -/
def pngRows (s : State) (ico : Bool) (d : BitVec 8) (pos w h : Nat) (idat : List Byte) (data : List Byte) : State :=
  { pngInflating s ico d pos w h idat with
    zmem := memWriteRun s.zmem 0 data, zlen := .val (BitVec.ofNat 32 data.length), st := .busy
    engine := .rows ⟨rowBytes (rgbaHeader w h), h, bytesPerPixel (rgbaHeader w h), 0, some ⟨ico, d, rgbaHeader w h, pos⟩⟩ }

theorem runOn_pngStored {s : State} {ico : Bool} {d : BitVec 8} {pos w h : Nat} {data adler : List Byte} (hb : s.st = .busy) (hh : 1 ≤ h)
    (hmax : data.length ≤ 65535) (hzmem : data.length ≤ s.cap.zmemBytes) (hdata : data.length = h * (4 * w + 1)) :
    runOn (pngInflating s ico d pos w h (storedStream data adler)) = runOn (pngRows s ico d pos w h (storedStream data adler) data) := by
  have hstream : sourceHolds s.imem (.bytes (storedStream data adler)) 2
      (0x01#8 :: (le16 data.length ++ (le16 (65535 - data.length) ++ data))) := by
    have hall := sourceHolds_bytes s.imem (storedStream data adler)
    have hsplit : storedStream data adler =
        [0x78#8, 0x01#8] ++ (0x01#8 :: (le16 data.length ++ (le16 (0xFFFF - data.length) ++ (data ++ adler)))) := rfl
    nth_rw 2 [hsplit] at hall
    have htail := (sourceHolds_append.1 hall).2
    simp only [sourceHolds_cons, sourceHolds_append] at htail ⊢
    obtain ⟨hpad, hlen, hnlen, hdata, -⟩ := htail
    exact ⟨hpad, hlen, hnlen, hdata⟩
  rw [runOn_storedBlock (s := pngInflating s ico d pos w h (storedStream data adler)) hb rfl (by decide) hmax hzmem
    (fun _ p hp => by
      cases hp
      exact ⟨hh, by rw [rowBytes_rgba, hdata]; exact le_rfl⟩) hstream]
  rfl

/-- Scanlines with filter byte 0 are reconstructed as they are, and their samples become the Bitmap. -/
theorem runOn_pngRows {s : State} {ico : Bool} {d : BitVec 8} {base w h : Nat} {pixels idat : List Byte} (hw : 1 ≤ w) (hh : 1 ≤ h)
    (hlen : pixels.length = 4 * w * h) :
    ∃ m z, runOn (pngRows s ico d (base + 68 + h * (4 * w + 1)) w h idat (unfilteredRows (4 * w) h pixels)) =
        .next (afterPng s d base w h m z) ∧
      (∀ k < w * h, memRead m k = some (rgbaAt pixels k)) ∧ sameOutside s.pmem m 0 (w * h) ∧
      holdsAt z 0 (unfilteredRows (4 * w) h pixels) ∧ sameOutside s.zmem z 0 (h * (4 * w + 1)) := by
  have hdata : (unfilteredRows (4 * w) h pixels).length = h * (4 * w + 1) := length_unfilteredRows hlen
  have hbefore := holdsAt_memWriteRun s.zmem 0 (unfilteredRows (4 * w) h pixels)
  have hframe := sameOutside_memWriteRun s.zmem 0 (unfilteredRows (4 * w) h pixels)
  rw [hdata] at hframe
  have hall : ∀ a < h * (rowBytes (rgbaHeader w h) + 1), memRead (memWriteRun s.zmem 0 (unfilteredRows (4 * w) h pixels)) a ≠ none := by
    intro a ha
    rw [rowBytes_rgba, ← hdata] at ha
    have hread := hbefore a ha
    rw [Nat.zero_add] at hread
    rw [hread, List.getElem?_eq_getElem ha]
    simp
  have hfilter : ∀ r < h, (byteAt (memWriteRun s.zmem 0 (unfilteredRows (4 * w) h pixels)) (r * (rowBytes (rgbaHeader w h) + 1))).toNat = 0 := by
    intro r hr
    rw [rowBytes_rgba, byteAt, memRead_unfilteredFilter hlen hbefore hr]
    rfl
  obtain ⟨z, hdone, hrows⟩ := runOn_rows
    (s := pngRows s ico d (base + 68 + h * (4 * w + 1)) w h idat (unfilteredRows (4 * w) h pixels)) (ft := fun _ => 0) rfl rfl rowsDone_zero
    hall hfilter hh (show 1 ≤ bytesPerPixel (rgbaHeader w h) by rw [bytesPerPixel_rgba]; decide) (fun r _ => Nat.zero_le 4)
  have hsame := hdone.unfiltered (fun r hr k hk => hall _ (scanAddr_lt hr hk))
  have hz : holdsAt z 0 (unfilteredRows (4 * w) h pixels) := fun k hk => (hsame (0 + k)).trans (hbefore k hk)
  obtain ⟨m, hfinish, hpixels, hpmem⟩ := pngUnpacksSamples
    { pngRows s ico d (base + 68 + h * (4 * w + 1)) w h idat (unfilteredRows (4 * w) h pixels) with zmem := z }
    ⟨ico, d, rgbaHeader w h, base + 68 + h * (4 * w + 1)⟩ (by simp [rgbaHeader, pngFormats])
    (fun y hy k hk => by
      rw [hsame]
      exact hall _ (scanAddr_lt hy hk))
  refine ⟨m, z, ?_, fun k hk => ?_, hpmem, hz, fun k hk => (hsame k).trans (hframe k hk)⟩
  · have hend := hrows _ ((if_neg (lt_irrefl h)).trans hfinish)
    rw [hend, runOn_ended Status.noConfusion, afterPng, ← hdata]
    rfl
  · have hx : k % w < w := Nat.mod_lt _ hw
    have hy : k / w < h := Nat.div_lt_of_lt_mul hk
    have hread := hpixels (k / w) hy (k % w) hx
    rw [pngColor_rgba hlen hz hy hx] at hread
    rwa [show k / w * (rgbaHeader w h).w + k % w = k from Nat.div_add_mod' k w, Nat.div_add_mod' k w] at hread

/-- From the chunk walk of the file to the end of the command. -/
theorem runOn_png {s : State} {ico : Bool} {d : BitVec 8} {base lim w h : Nat} {pixels crc1 crc2 crc3 adler : List Byte}
    (hb : s.st = .busy) (he : s.engine = .chunks ⟨ico, d, lim, base + 8, none, []⟩) (hw : 1 ≤ w) (hh : 1 ≤ h)
    (hfit : w * h ≤ s.cap.pmemPixels) (hmax : h * (4 * w + 1) ≤ 65535) (hzmem : h * (4 * w + 1) ≤ s.cap.zmemBytes)
    (hlen : pixels.length = 4 * w * h) (h1 : crc1.length = 4) (h2 : crc2.length = 4) (h3 : crc3.length = 4) (hadler : adler.length = 4)
    (hlim : base + (pngFile w h pixels crc1 crc2 crc3 adler).length ≤ lim)
    (hholds : holdsAt s.imem base (pngFile w h pixels crc1 crc2 crc3 adler)) :
    ∃ m z, runOn s = .next (afterPng s d base w h m z) ∧
      (∀ k < w * h, memRead m k = some (rgbaAt pixels k)) ∧ sameOutside s.pmem m 0 (w * h) ∧
      holdsAt z 0 (unfilteredRows (4 * w) h pixels) ∧ sameOutside s.zmem z 0 (h * (4 * w + 1)) := by
  have hdata : (unfilteredRows (4 * w) h pixels).length = h * (4 * w + 1) := length_unfilteredRows hlen
  have hfile : (pngFile w h pixels crc1 crc2 crc3 adler).length = 68 + h * (4 * w + 1) := by
    simp only [pngFile, List.length_append, length_pngChunk, length_ihdrBytes, length_storedStream, hdata, h1, h2, h3, hadler, pngSignature,
      List.length_cons, List.length_nil]
    omega
  have hchunks := ((holdsAt_append (l := pngSignature)).1 hholds).2
  have hrun := runOn_pngChunks hb he hw hh hfit hmax hzmem hdata h1 h2 hadler (by omega) hchunks
  rw [runOn_pngStored hb hh (by omega) (by omega) hdata, hdata] at hrun
  rw [hrun]
  exact runOn_pngRows hw hh hlen

/-- Settles O59: the signature, the three chunks, the stored block, the scanlines and the samples, one after another. -/
theorem decpngDecodesFile : Obligations.DecpngDecodesFile := by
  unfold Obligations.DecpngDecodesFile
  intro s d w h pixels crc1 crc2 crc3 adler hd hw hh hfit hmax hzmem hlen h1 h2 h3 hadler hlim hholds
  have hsig := ((holdsAt_append (l := pngSignature)).1 hholds).1
  have h8 : 0 + 8 ≤ s.ilen.toNat := by
    simp only [pngFile, List.length_append, pngSignature, List.length_cons, List.length_nil] at hlim
    omega
  rw [exec, execDecpng, decodeCommandRun_of_start hd (pngStart_of_holdsAt h8 hsig)]
  exact runOn_png (s := { s with st := .busy, engine := .chunks ⟨false, d, s.ilen.toNat, 0 + 8, none, []⟩ }) rfl rfl hw hh hfit hmax hzmem hlen
    h1 h2 h3 hadler (by rwa [Nat.zero_add]) hholds

/-! ## ICO -/

/-- The ICO registers after a directory of one entry. -/
def icoRegs (eW eH eCc : BitVec 8) (planes ebits size : Nat) (sel : Reg) : IcoRegs :=
  ⟨.val 1#32, .val (eW.setWidth 32), .val (eH.setWidth 32), .val (eCc.setWidth 32), .val (BitVec.ofNat 32 planes),
    .val (BitVec.ofNat 32 ebits), .val (BitVec.ofNat 32 size), .val 22#32, sel⟩

/-- A DECICO in flight. -/
def icoRunning (s : State) (ico : IcoRegs) (e : Engine) : State := { s with st := .busy, ico := ico, engine := e }

theorem icoStart_of_directory {s : State} {d eW eH eCc eRes : BitVec 8} {planes ebits size : Nat} (hplanes : planes < 2 ^ 16)
    (hebits : ebits < 2 ^ 16) (hsize : size < 2 ^ 32) (h8 : 8 ≤ size) (hlim : 22 + size ≤ s.ilen.toNat)
    (h : holdsAt s.imem 0 (icoDirectory eW eH eCc eRes planes ebits size)) :
    icoStart d s = .ok (icoRunning s (icoRegs eW eH eCc planes ebits size s.ico.sel) (.payload ⟨d, 22, 22 + size⟩)) := by
  simp only [icoDirectory, holdsAt_append, holdsAt_cons, List.length_cons, List.length_nil, length_le32, length_le16, Nat.zero_add,
    Nat.reduceAdd] at h
  obtain ⟨hreserved, htype, hcount, ⟨hW, hH, hCc, -, -⟩, hPlanes, hBits, hSize, hOff⟩ := h
  simp only [icoStart, need_of_le (show 0 + 6 ≤ s.ilen.toNat by omega), u16le_of_holdsAt (by decide) hreserved,
    u16le_of_holdsAt (by decide) htype, u16le_of_holdsAt (by decide) hcount, bind_ok, need_of_le (show 6 + 16 * 1 ≤ s.ilen.toNat by omega),
    u8_of_memRead hW, u8_of_memRead hH, u8_of_memRead hCc, u16le_of_holdsAt hplanes hPlanes, u16le_of_holdsAt hebits hBits,
    u32le_of_holdsAt hsize hSize, u32le_of_holdsAt (by decide) hOff, if_neg (show ¬ 22 + size > s.ilen.toNat by omega),
    need_of_le (show 22 + 8 ≤ 22 + size by omega), regOf, BitVec.ofNat_toNat, icoRegs]
  rfl

/-- A list of bytes is the big-endian field of its number. -/
theorem leBytes_packBytes (l : List Byte) : leBytes l.length (packBytes l) = l := by
  induction l with
  | nil => rfl
  | cons b l ih =>
    have hb := b.isLt
    have hlow : BitVec.ofNat 8 (packBytes (b :: l)) = b := BitVec.eq_of_toNat_eq (by simp only [packBytes, BitVec.toNat_ofNat]; omega)
    have hhigh : packBytes (b :: l) / 256 = packBytes l := by simp only [packBytes]; omega
    rw [List.length_cons, leBytes, hlow, hhigh, ih]

theorem exists_beBytes (l : List Byte) : ∃ v < 256 ^ l.length, beBytes l.length v = l := by
  have hlt := packBytes_lt_pow l.reverse
  have hle := leBytes_packBytes l.reverse
  rw [List.length_reverse] at hlt hle
  exact ⟨packBytes l.reverse, hlt, by rw [beBytes, hle, List.reverse_reverse]⟩

/-- A head that does not begin with the first byte of the PNG signature selects the BMP path. -/
theorem decode_payloadHead_bmp {v : Nat} {b : Byte} {l : List Byte} (hv : v < 2 ^ 64) (h : beBytes 8 v = b :: l) (hb : b ≠ 0x89#8) :
    ∃ head, decode .payloadHead v = .ok (.icoPayloadBmp head) := by
  refine ⟨BitVec.ofNat 64 v, ?_⟩
  rw [decode, decodePayloadHead, if_neg]
  intro heq
  have hval : v = 0x89504E470D0A1A0A := by
    have := congrArg BitVec.toNat heq
    rwa [BitVec.toNat_ofNat, Nat.mod_eq_of_lt hv] at this
  subst hval
  exact hb (List.cons.inj h).1.symm

/-- The BMP path of the payload select: the first four bytes of the payload are a header size. -/
theorem runOn_payloadBmp {s : State} {d : BitVec 8} {off lim n : Nat} {rest : List Byte} (hb : s.st = .busy)
    (he : s.engine = .payload ⟨d, off, lim⟩) (hrest : rest.length = 4) (hn : BitVec.ofNat 8 n ≠ 0x89#8)
    (h : holdsAt s.imem off (le32 n ++ rest)) :
    runOn s = runOn { s with ico := { s.ico with sel := .val 0#32 }, engine := .header ⟨true, d, off, lim, 0⟩ } := by
  obtain ⟨v, hv, hbytes⟩ := exists_beBytes (le32 n ++ rest)
  have hlen : (le32 n ++ rest).length = 8 := by rw [List.length_append, length_le32, hrest]
  rw [hlen] at hv hbytes
  have hword : streamWordAt s .payloadHead v := by
    simp only [streamWordAt, he]
    rw [hbytes]
    exact h
  obtain ⟨head, hd⟩ := decode_payloadHead_bmp hv hbytes hn
  exact runOn_word (f := .payloadHead) hb hv hword hd (payloadSelect.2 s _ head he)

/-- Settles O60: the directory, the payload select, and then the PNG or the masked BMP as for a file. -/
theorem decicoDecodesFile : Obligations.DecicoDecodesFile := by
  unfold Obligations.DecicoDecodesFile
  intro s d eW eH eCc eRes planes ebits size hd hplanes hebits hsize hlim hdir
  refine ⟨fun w h pixels crc1 crc2 crc3 adler hw hh hfit hmax hzmem hlen h1 h2 h3 hadler hfile hholds => ?png,
    fun bplanes bits imageSize ppmX ppmY clrUsed clrImportant w h h2 hbits hw hw' hh hh' hhe hfit hclr hfile hheader hstored hmask => ?bmp⟩
  case png =>
    have h8 : 8 ≤ size := by
      simp only [pngFile, List.length_append, pngSignature, List.length_cons, List.length_nil] at hfile
      omega
    have hsig := ((holdsAt_append (l := pngSignature)).1 hholds).1
    have hselect := payloadSelect.1 (icoRunning s (icoRegs eW eH eCc planes ebits size s.ico.sel) (.payload ⟨d, 22, 22 + size⟩)) _ rfl
      (by simp only; omega) hsig
    rw [exec, execDecico, decodeCommandRun_of_start hd (icoStart_of_directory hplanes hebits hsize h8 hlim hdir),
      runOn_word (s := icoRunning s (icoRegs eW eH eCc planes ebits size s.ico.sel) (.payload ⟨d, 22, 22 + size⟩)) (f := .payloadHead)
        (w := 0x89504E470D0A1A0A) rfl (by decide) hsig rfl hselect]
    exact runOn_png
      (s := icoRunning s (icoRegs eW eH eCc planes ebits size (.val 1#32)) (.chunks ⟨true, d, 22 + size, 22 + 8, none, []⟩))
      rfl rfl hw hh hfit hmax hzmem hlen h1 h2 h3 hadler (by omega) hholds
  case bmp =>
    have h8 : 8 ≤ size := by omega
    have hi : ∃ i, (bits, i) ∈ [(24, Instr.bmpBits24), (32, .bmpBits32)] := by
      rcases hbits with rfl | rfl
      · exact ⟨.bmpBits24, by simp⟩
      · exact ⟨.bmpBits32, by simp⟩
    obtain ⟨i, hi⟩ := hi
    have hhead : holdsAt s.imem 22 (le32 40 ++ le32 (BitVec.ofInt 32 (w : Int)).toNat) := by
      rw [infoHeader, ← List.append_assoc, holdsAt_append] at hheader
      exact hheader.1
    obtain ⟨m, hexec, himage⟩ := exec_directPixels_ico
      (s := icoRunning s (icoRegs eW eH eCc planes ebits size (.val 0#32)) (.pixels ⟨⟨true, d, 22, 22 + size, 0⟩, 40, false, w, h2, clrUsed⟩))
      (w := w) (h := h) (pos := 62) hi rfl rfl (by simp only; omega) hh (by simp only; omega) hhe hfit rfl rfl (by simp only; omega)
      hstored hmask
    refine ⟨m, ?_, himage⟩
    have hdirect : (bits, i) ∈ directPixels := List.mem_cons_of_mem _ hi
    have hselect := runOn_payloadBmp
      (s := icoRunning s (icoRegs eW eH eCc planes ebits size s.ico.sel) (.payload ⟨d, 22, 22 + size⟩)) rfl rfl (length_le32 _) (by decide) hhead
    have hpixels := runOn_infoHeader
      (s := icoRunning s (icoRegs eW eH eCc planes ebits size (.val 0#32)) (.header ⟨true, d, 22, 22 + size, 0⟩))
      rfl rfl (by simp only; omega) (by omega) (by omega) (by omega) hh' hclr hheader hdirect hexec
    rw [exec, execDecico, decodeCommandRun_of_start hd (icoStart_of_directory hplanes hebits hsize h8 hlim hdir), hselect]
    exact hpixels.trans (runOn_ended Status.noConfusion)

end Sys2Proof.Machine

/-! SUPPORT. The input window (20_memory R68): two IMEMs that hold the same below ILEN cannot be told apart by a command. Every read of
IMEM lies below the end of a window that the run keeps within ILEN. -/

namespace Sys2Proof.Machine

/-! ## Reads below a bound -/

/-- The two memories hold the same below `n`. -/
def SameBelow (n : Nat) (m m' : Mem 8) : Prop := ∀ a < n, memRead m a = memRead m' a

theorem SameBelow.mono {n n' : Nat} {m m' : Mem 8} (h : SameBelow n m m') (hn : n' ≤ n) : SameBelow n' m m' :=
  fun a ha => h a (Nat.lt_of_lt_of_le ha hn)

theorem readCell_sameBelow {n a : Nat} {m m' : Mem 8} (hw : SameBelow n m m') (ha : a + 1 ≤ n) (sp : Space) :
    readCell sp m a = readCell sp m' a := by
  simp only [readCell, hw a ha]

theorem readLE_sameBelow {n k a : Nat} {m m' : Mem 8} (hw : SameBelow n m m') (ha : a + k ≤ n) (sp : Space) :
    readLE sp m k a = readLE sp m' k a := by
  induction k generalizing a with
  | zero => rfl
  | succ k ih => simp only [readLE, readCell_sameBelow hw (show a + 1 ≤ n by omega), ih (show a + 1 + k ≤ n by omega)]

theorem readBE_sameBelow {n k a : Nat} {m m' : Mem 8} (hw : SameBelow n m m') (ha : a + k ≤ n) (sp : Space) :
    readBE sp m k a = readBE sp m' k a := by
  induction k generalizing a with
  | zero => rfl
  | succ k ih => simp only [readBE, readCell_sameBelow hw (show a + 1 ≤ n by omega), ih (show a + 1 + k ≤ n by omega)]

theorem readRun_sameBelow {n k a : Nat} {m m' : Mem 8} (hw : SameBelow n m m') (ha : a + k ≤ n) (sp : Space) :
    readRun sp m k a = readRun sp m' k a := by
  induction k generalizing a with
  | zero => rfl
  | succ k ih => simp only [readRun, readCell_sameBelow hw (show a + 1 ≤ n by omega), ih (show a + 1 + k ≤ n by omega)]

section
variable {s : State} {m : Mem 8} {n a : Nat}

theorem u8_withImem (hw : SameBelow n m s.imem) (ha : a + 1 ≤ n) : u8 { s with imem := m } a = u8 s a :=
  readCell_sameBelow hw ha _

theorem u16le_withImem (hw : SameBelow n m s.imem) (ha : a + 2 ≤ n) : u16le { s with imem := m } a = u16le s a :=
  readLE_sameBelow hw ha _

theorem u32le_withImem (hw : SameBelow n m s.imem) (ha : a + 4 ≤ n) : u32le { s with imem := m } a = u32le s a :=
  readLE_sameBelow hw ha _

theorem u32be_withImem (hw : SameBelow n m s.imem) (ha : a + 4 ≤ n) : u32be { s with imem := m } a = u32be s a :=
  readBE_sameBelow hw ha _

theorem s32le_withImem (hw : SameBelow n m s.imem) (ha : a + 4 ≤ n) : s32le { s with imem := m } a = s32le s a := by
  simp only [s32le, u32le_withImem hw ha]

theorem regNat_withImem (r : RegName) : regNat { s with imem := m } r = regNat s r := by
  cases r <;> rfl

end

/-! ## Parts of a step that end in another IMEM -/

/-- The end of a part of a command, with another IMEM. -/
def mapImem (m : Mem 8) (x : Except Stop State) : Except Stop State := x.map fun t => { t with imem := m }

section
variable {α : Type} {m : Mem 8}

@[simp] theorem mapImem_ok (t : State) : mapImem m (.ok t) = .ok { t with imem := m } := rfl

@[simp] theorem mapImem_raise (e : ErrorKind) : mapImem m (raise e) = raise e := rfl

@[simp] theorem mapImem_bind (x : Except Stop α) (f : α → Except Stop State) : mapImem m (x >>= f) = x >>= fun a => mapImem m (f a) := by
  cases x <;> rfl

@[simp] theorem mapImem_ite {p : Prop} [Decidable p] (x y : Except Stop State) :
    mapImem m (if p then x else y) = if p then mapImem m x else mapImem m y := apply_ite _ _ _ _

/-- What follows a sequence needs to agree only on what the sequence can give. -/
theorem bind_congr_of_ok {β : Type} {x : Except Stop α} {f g : α → Except Stop β} (h : ∀ a, x = .ok a → f a = g a) :
    (x >>= f) = (x >>= g) := by
  cases x with
  | ok a => exact h a rfl
  | error => rfl

/-- What follows a bounds check may use the bound. -/
theorem need_bind_congr {β : Type} {p n lim : Nat} {f g : Unit → Except Stop β} (h : p + n ≤ lim → f () = g ()) :
    (need p n lim >>= f) = (need p n lim >>= g) :=
  bind_congr_of_ok fun _ hu => h (need_eq_ok.1 hu)

theorem takeError_withImem (k : Scope) (e : ErrorKind) (s : State) :
    takeError k e { s with imem := m } = { takeError k e s with imem := m } := by
  cases k <;> rfl

/-- A part that ends the same but for IMEM settles the same but for IMEM. -/
theorem settle_withImem (k : Scope) (s : State) (x : Except Stop State) :
    settle k { s with imem := m } (mapImem m x) = withImem m (settle k s x) := by
  cases x with
  | ok t => rfl
  | error e =>
    cases e with
    | raised e => exact congrArg Host.Outcome.next (takeError_withImem k e s)
    | faulted f => rfl

end

/-! ## The decompressor -/

/-- The source holds the same bytes over both memories. -/
def SameSource (src : Source) (m m' : Mem 8) : Prop := ∀ i < srcLen src, srcByte m src i = srcByte m' src i

/-- A source in IMEM ends at or below `n`. -/
def sourceWithin (n : Nat) : Source → Prop
  | .imem len => len ≤ n
  | .bytes _ => True

theorem SameSource.of_sameBelow {n : Nat} {src : Source} {m m' : Mem 8} (hw : SameBelow n m m') (hs : sourceWithin n src) :
    SameSource src m m' := by
  intro i hi
  cases src with
  | imem len => exact readCell_sameBelow hw (Nat.le_trans hi hs) _
  | bytes l => rfl

section
variable {src : Source} {m m' : Mem 8} (h : SameSource src m m')
include h

theorem getBit_sameSource (bp : Nat) : getBit m src bp = getBit m' src bp := by
  unfold getBit
  split
  · rfl
  · next hi => rw [h _ (by omega)]

theorem getBits_sameSource (n bp : Nat) : getBits m src n bp = getBits m' src n bp := by
  induction n generalizing bp with
  | zero => rfl
  | succ n ih => simp only [getBits, getBit_sameSource h, ih]

theorem decodeSymFrom_sameSource (c : Code) (n l code bp : Nat) :
    decodeSymFrom m src c n l code bp = decodeSymFrom m' src c n l code bp := by
  induction n generalizing l code bp with
  | zero => rfl
  | succ n ih => simp only [decodeSymFrom, getBit_sameSource h, ih]

theorem decodeSym_sameSource (c : Code) (bp : Nat) : decodeSym m src c bp = decodeSym m' src c bp :=
  decodeSymFrom_sameSource h c 15 0 0 bp

theorem baseAndExtra_sameSource (table : List (Nat × Nat)) (k bp : Nat) :
    baseAndExtra m src table k bp = baseAndExtra m' src table k bp := by
  simp only [baseAndExtra, getBits_sameSource h]

theorem compressedBlock_sameSource (cap : Nat) (lit dist : Code) (n bp : Nat) (rout : List Byte) :
    compressedBlock m src cap lit dist n bp rout = compressedBlock m' src cap lit dist n bp rout := by
  induction n generalizing bp rout with
  | zero => rfl
  | succ n ih => simp only [compressedBlock, decodeSym_sameSource h, baseAndExtra_sameSource h, ih]

theorem storedBlock_sameSource (cap bp : Nat) (rout : List Byte) : storedBlock m src cap bp rout = storedBlock m' src cap bp rout := by
  unfold storedBlock
  refine need_bind_congr fun hn => ?_
  simp only [h ((bp + 7) / 8) (by omega), h ((bp + 7) / 8 + 1) (by omega), h ((bp + 7) / 8 + 2) (by omega),
    h ((bp + 7) / 8 + 3) (by omega)]
  refine bind_congr_of_ok fun len0 _ => bind_congr_of_ok fun len1 _ => bind_congr_of_ok fun nlen0 _ => bind_congr_of_ok fun nlen1 _ => ?_
  split
  · rfl
  · refine need_bind_congr fun hlen => ?_
    rw [forLoop_congr rout fun j y _ hj => by rw [h _ (by omega)]]

theorem readCodeLens_sameSource (syms : List Nat) (bp : Nat) (cl : List Nat) :
    readCodeLens m src syms bp cl = readCodeLens m' src syms bp cl := by
  induction syms generalizing bp cl with
  | nil => rfl
  | cons sym syms ih => simp only [readCodeLens, getBits_sameSource h, ih]

theorem readRepeat_sameSource (s : Nat) (rlens : List Nat) (bp : Nat) : readRepeat m src s rlens bp = readRepeat m' src s rlens bp := by
  simp only [readRepeat, getBits_sameSource h]

theorem readLens_sameSource (clcode : Code) (total n bp : Nat) (rlens : List Nat) :
    readLens m src clcode total n bp rlens = readLens m' src clcode total n bp rlens := by
  induction n generalizing bp rlens with
  | zero => rfl
  | succ n ih => simp only [readLens, decodeSym_sameSource h, readRepeat_sameSource h, ih]

theorem dynamicCodes_sameSource (bp : Nat) : dynamicCodes m src bp = dynamicCodes m' src bp := by
  simp only [dynamicCodes, getBits_sameSource h, readCodeLens_sameSource h, readLens_sameSource h]

theorem fixedBlock_sameSource (cap bp : Nat) (rout : List Byte) : fixedBlock m src cap bp rout = fixedBlock m' src cap bp rout := by
  simp only [fixedBlock, compressedBlock_sameSource h]

theorem dynamicBlock_sameSource (cap bp : Nat) (rout : List Byte) :
    dynamicBlock m src cap bp rout = dynamicBlock m' src cap bp rout := by
  simp only [dynamicBlock, dynamicCodes_sameSource h, compressedBlock_sameSource h]

theorem checkZlibHeader_sameSource (s0 : Nat) : checkZlibHeader m src s0 = checkZlibHeader m' src s0 := by
  unfold checkZlibHeader
  refine need_bind_congr fun hn => ?_
  rw [h s0 (by omega), h (s0 + 1) (by omega)]

end

/-! ## The chunk walk, the filters and the blocks -/

section
variable {s : State} {m : Mem 8}

theorem pngFinish_withImem (p : PngImage) : pngFinish { s with imem := m } p = mapImem m (pngFinish s p) := by
  simp only [pngFinish, mapImem_bind, mapImem_ok, complete]

theorem enterRows_withImem (c : RowCtx) : enterRows { s with imem := m } c = mapImem m (enterRows s c) := by
  unfold enterRows
  rw [mapImem_ite, mapImem_ok]
  cases c.png with
  | none => rfl
  | some p => exact congrArg _ (pngFinish_withImem p)

theorem filterStep_withImem (pred : Byte → Byte → Byte → Byte) :
    filterStep pred { s with imem := m } = withImem m (filterStep pred s) := by
  unfold filterStep
  dsimp only
  split
  · next c =>
    rw [← settle_withImem, mapImem_bind]
    exact congrArg _ (bind_congr_of_ok fun z _ => enterRows_withImem (s := { s with zmem := z }) _)
  · rfl

theorem inflateDone_withImem (c : BlockCtx) (bp : Nat) (rout : List Byte) :
    inflateDone { s with imem := m } c bp rout = mapImem m (inflateDone s c bp rout) := by
  unfold inflateDone
  cases c.png with
  | none => rfl
  | some p =>
    dsimp only
    rw [mapImem_ite, mapImem_raise]
    exact congrArg _ (enterRows_withImem (s := { s with zmem := memWriteRun s.zmem 0 rout.reverse, zlen := regOf rout.reverse.length }) _)

theorem blockStep_withImem {body : Mem 8 → Source → Nat → Nat → List Byte → Except Stop (Nat × List Byte)} (b : Bool)
    (hbody : ∀ c, s.engine = .blocks c → ∀ cap bp rout, body m c.src cap bp rout = body s.imem c.src cap bp rout) :
    blockStep body b { s with imem := m } = withImem m (blockStep body b s) := by
  unfold blockStep
  dsimp only
  split
  · next c he =>
    rw [← settle_withImem, mapImem_bind, hbody c he]
    refine congrArg _ (bind_congr_of_ok fun r _ => ?_)
    simp only [mapImem_ite, mapImem_ok, inflateDone_withImem]
  · rfl

theorem pngStart_withImem {lim : Nat} (hw : SameBelow lim m s.imem) (ico : Bool) (depth : BitVec 8) (base : Nat) :
    pngStart { s with imem := m } ico depth base lim = mapImem m (pngStart s ico depth base lim) := by
  unfold pngStart
  rw [mapImem_bind]
  refine need_bind_congr fun hn => ?_
  simp only [readRun_sameBelow hw hn, mapImem_bind, mapImem_ite, mapImem_raise, mapImem_ok]

theorem chunkHead_withImem {c : ChunkCtx} (hw : SameBelow c.lim m s.imem) : chunkHead { s with imem := m } c = chunkHead s c := by
  unfold chunkHead
  refine need_bind_congr fun hn => ?_
  rw [u32be_withImem hw (by omega), u32be_withImem hw (by omega)]

theorem parseIhdr_withImem {n q len : Nat} (hw : SameBelow n m s.imem) (hq : q + len ≤ n) :
    parseIhdr { s with imem := m } q len = parseIhdr s q len := by
  unfold parseIhdr
  split
  · rfl
  · simp (disch := omega) only [u32be_withImem hw, u8_withImem hw]

/-- A chunk opcode: the head lies in the window and bounds what its meaning reads. -/
theorem chunkStep_withImem {c : ChunkCtx} (hw : SameBelow c.lim m s.imem) (k : Scope) {f g : Nat × Nat → Except Stop State}
    (hfg : ∀ len type, c.pos + 12 + len ≤ c.lim → f (len, type) = mapImem m (g (len, type))) :
    settle k { s with imem := m } (chunkHead { s with imem := m } c >>= f) = withImem m (settle k s (chunkHead s c >>= g)) := by
  rw [← settle_withImem, mapImem_bind, chunkHead_withImem hw]
  exact congrArg _ (bind_congr_of_ok fun r hr => hfg r.1 r.2 (chunkHead_eq_ok.1 hr).1)

end

end Sys2Proof.Machine

/-! SUPPORT. The input window (20_memory R68), continued: the meanings of the stream opcodes, the run of the engine, the commands. -/

namespace Sys2Proof.Machine

/-! ## The chunks -/

theorem pngDecompress_withImem {s : State} {m : Mem 8} (p : PngImage) (idat : List Byte) :
    pngDecompress { s with imem := m } p idat = mapImem m (pngDecompress s p idat) := by
  have hz := checkZlibHeader_sameSource (src := .bytes idat) (m := m) (m' := s.imem) (fun _ _ => rfl) 0
  simp only [pngDecompress, mapImem_ite, mapImem_raise, mapImem_bind, mapImem_ok, hz]

section
variable {s : State} {m : Mem 8} (hw : ∀ c, s.engine = .chunks c → SameBelow c.lim m s.imem)
include hw

theorem execPngChunkIHDR_withImem : execPngChunkIHDR { s with imem := m } = withImem m (execPngChunkIHDR s) := by
  unfold execPngChunkIHDR
  dsimp only
  split
  · next c he =>
    refine chunkStep_withImem (hw c he) _ fun len type hl => ?_
    simp only [mapImem_ite, mapImem_raise, mapImem_bind, mapImem_ok,
      parseIhdr_withImem (hw c he) (show c.pos + 8 + len ≤ c.lim by omega)]
  · rfl

theorem execPngChunkIDAT_withImem : execPngChunkIDAT { s with imem := m } = withImem m (execPngChunkIDAT s) := by
  unfold execPngChunkIDAT
  dsimp only
  split
  · next c he =>
    refine chunkStep_withImem (hw c he) _ fun len type hl => ?_
    simp only [mapImem_ite, mapImem_raise, mapImem_bind, mapImem_ok,
      readRun_sameBelow (hw c he) (show c.pos + 8 + len ≤ c.lim by omega)]
  · rfl

theorem execPngChunkIEND_withImem : execPngChunkIEND { s with imem := m } = withImem m (execPngChunkIEND s) := by
  unfold execPngChunkIEND
  dsimp only
  split
  · next c he =>
    refine chunkStep_withImem (hw c he) _ fun len type hl => ?_
    cases c.hdr with
    | none => rfl
    | some h => exact pngDecompress_withImem _ _
  · rfl

theorem skipChunk_withImem : skipChunk { s with imem := m } = withImem m (skipChunk s) := by
  unfold skipChunk
  dsimp only
  split
  · next c he =>
    refine chunkStep_withImem (hw c he) _ fun len type hl => ?_
    simp only [mapImem_ite, mapImem_raise, mapImem_ok]
  · rfl

end

/-! ## BMP -/

theorem bmpStart_withImem {s : State} {m : Mem 8} (hw : SameBelow s.ilen.toNat m s.imem) (depth : BitVec 8) :
    bmpStart depth { s with imem := m } = mapImem m (bmpStart depth s) := by
  unfold bmpStart
  rw [mapImem_bind]
  refine need_bind_congr fun (h2 : 0 + 2 ≤ s.ilen.toNat) => ?_
  simp (disch := omega) only [u8_withImem hw, mapImem_bind, mapImem_ite, mapImem_raise]
  refine bind_congr_of_ok fun b0 _ => bind_congr_of_ok fun b1 _ => ?_
  refine congrArg _ (need_bind_congr fun (h14 : 0 + 14 ≤ s.ilen.toNat) => ?_)
  simp (disch := omega) only [u32le_withImem hw, mapImem_ok]

section
variable {s : State} {m : Mem 8} {n : Nat} (hw : SameBelow n m s.imem)
include hw

theorem coreHeader_withImem (c : BmpCtx) (hc : c.lim ≤ n) : coreHeader { s with imem := m } c = mapImem m (coreHeader s c) := by
  unfold coreHeader
  rw [mapImem_ite, mapImem_raise, mapImem_bind]
  refine congrArg _ (need_bind_congr fun h12 => ?_)
  simp (disch := omega) only [u16le_withImem hw, mapImem_bind, mapImem_ok]

theorem modernHeader_withImem {hs : Nat} (h36 : 36 ≤ hs) (c : BmpCtx) (hc : c.lim ≤ n) :
    modernHeader hs { s with imem := m } c = mapImem m (modernHeader hs s c) := by
  unfold modernHeader
  rw [mapImem_bind]
  refine need_bind_congr fun hl => ?_
  simp (disch := omega) only [s32le_withImem hw, u16le_withImem hw, u32le_withImem hw, mapImem_bind, mapImem_ite, mapImem_raise, mapImem_ok]

end

theorem headerStep_withImem {s : State} {m : Mem 8} {parse : State → BmpCtx → Except Stop State}
    (hp : ∀ c, s.engine = .header c → parse { s with imem := m } c = mapImem m (parse s c)) :
    headerStep parse { s with imem := m } = withImem m (headerStep parse s) := by
  unfold headerStep
  dsimp only
  split
  · next c he => rw [hp c he, settle_withImem]
  · rfl

theorem pixelStep_withImem {s : State} {m : Mem 8} {decodeAll : State → BmpHeader → Except Stop State}
    (hp : ∀ c, s.engine = .pixels c → decodeAll { s with imem := m } c = mapImem m (decodeAll s c)) :
    pixelStep decodeAll { s with imem := m } = withImem m (pixelStep decodeAll s) := by
  unfold pixelStep
  dsimp only
  split
  · next c he => rw [hp c he, settle_withImem]
  · rfl

/-- A row of `w` pixels of `bits` bits fills at most its stride. -/
theorem rowBits_le_stride (bits w : Nat) : bits * w ≤ 8 * bmpStride bits w := by
  unfold bmpStride
  omega

/-- The stored row `r` of `h` ends within the rows. -/
theorem storedRow_end_le {r h stride : Nat} (hr : r < h) : r * stride + stride ≤ stride * h := by
  calc r * stride + stride = stride * (r + 1) := by rw [Nat.mul_add, Nat.mul_one, Nat.mul_comm]
    _ ≤ stride * h := Nat.mul_le_mul_left _ hr

/-- The reader of a pixel of `bits` bits reads IMEM only where the bits of the row's pixels up to it lie. -/
def ReadsItsBits (bits : Nat) (pix : State → Nat → Nat → Nat → Except Stop Word) : Prop :=
  ∀ (s : State) (m : Mem 8) (n p rb x len : Nat), SameBelow n m s.imem → rb + len ≤ n → bits * (x + 1) ≤ 8 * len →
    pix { s with imem := m } p rb x = pix s p rb x

theorem pixel1_readsItsBits : ReadsItsBits 1 pixel1 := fun s m n p rb x len hw hn hx => by
  simp only [pixel1, u8_withImem hw (show rb + x / 8 + 1 ≤ n by omega), indexColor]

theorem pixel4_readsItsBits : ReadsItsBits 4 pixel4 := fun s m n p rb x len hw hn hx => by
  simp only [pixel4, u8_withImem hw (show rb + x / 2 + 1 ≤ n by omega), indexColor]

theorem pixel8_readsItsBits : ReadsItsBits 8 pixel8 := fun s m n p rb x len hw hn hx => by
  simp only [pixel8, u8_withImem hw (show rb + x + 1 ≤ n by omega), indexColor]

theorem pixel16_readsItsBits : ReadsItsBits 16 pixel16 := fun s m n p rb x len hw hn hx => by
  simp only [pixel16, u16le_withImem hw (show rb + 2 * x + 2 ≤ n by omega)]

theorem pixel24_readsItsBits : ReadsItsBits 24 pixel24 := fun s m n p rb x len hw hn hx => by
  simp (disch := omega) only [pixel24, u8_withImem hw]

theorem pixel32_readsItsBits : ReadsItsBits 32 pixel32 := fun s m n p rb x len hw hn hx => by
  simp (disch := omega) only [pixel32, u8_withImem hw]

theorem unpackRows_congr {pix pix' : Nat → Nat → Except Stop Word} {pos stride w h : Nat}
    (hp : ∀ r < h, ∀ x < w, pix (pos + r * stride) x = pix' (pos + r * stride) x) (td : Bool) (pmem : Mem 32) :
    unpackRows pix pos stride w h td pmem = unpackRows pix' pos stride w h td pmem :=
  forLoop_congr pmem fun r y _ hr => forLoop_congr y fun x z _ hx => by rw [hp r (by omega) x (by omega)]

section
variable {s : State} {m : Mem 8} {n : Nat}

theorem tableEntry_withImem (hw : SameBelow n m s.imem) {pos es i : Nat} (hi : pos + es * i + 3 ≤ n) (pal : Mem 32) :
    tableEntry { s with imem := m } pos es i pal = tableEntry s pos es i pal := by
  simp (disch := omega) only [tableEntry, u8_withImem hw]

/-- The answer of the color table, with another IMEM. -/
def mapTable (m : Mem 8) (r : State × Nat × Nat) : State × Nat × Nat := ({ r.1 with imem := m }, r.2)

theorem loadColorTable_withImem {lim : Nat} (hw : SameBelow lim m s.imem) {es : Nat} (hes : 3 ≤ es) (pos bits clrUsed : Nat) :
    loadColorTable { s with imem := m } pos lim bits clrUsed es = (loadColorTable s pos lim bits clrUsed es).map (mapTable m) := by
  unfold loadColorTable
  dsimp only
  rw [apply_ite (Except.map _)]
  refine congrArg _ ?_
  cases hn : need pos (tableEntries bits clrUsed * es) lim with
  | error => rfl
  | ok =>
    have hl := need_eq_ok.1 hn
    have hloop := forLoop_congr (f := tableEntry { s with imem := m } pos es) (g := tableEntry s pos es)
      (n := tableEntries bits clrUsed) (i := 0) s.pal fun j y _ hj => tableEntry_withImem hw (by
        have := storedRow_end_le (r := j) (h := tableEntries bits clrUsed) (stride := es) (by omega)
        rw [Nat.mul_comm j, Nat.mul_comm es (tableEntries _ _)] at this
        omega) y
    rw [bind_ok, bind_ok, hloop]
    cases forLoop (tableEntry s pos es) (tableEntries bits clrUsed) 0 s.pal <;> rfl

theorem pixelTable_withImem {c : BmpHeader} (hw : SameBelow c.ctx.lim m s.imem) (bits : Nat) :
    pixelTable bits { s with imem := m } c = (pixelTable bits s c).map (mapTable m) := by
  unfold pixelTable
  rw [apply_ite (Except.map _), loadColorTable_withImem hw (by split <;> omega)]
  rfl

theorem pixelTable_imem {bits p after : Nat} {t : State} {c : BmpHeader} (h : pixelTable bits s c = .ok (t, p, after)) :
    t.imem = s.imem := by
  by_cases hb : bits ≤ 8
  · rw [pixelTable_indexed hb] at h
    obtain ⟨-, -, -, -, pal, -, rfl⟩ := loadColorTable_eq_ok h
    rfl
  · rw [pixelTable_direct (by omega)] at h
    cases h
    rfl

theorem maskPixel_withImem (hw : SameBelow n m s.imem) {mrow w x : Nat} (hx : mrow + x / 8 + 1 ≤ n) (y : Nat) (pmem : Mem 32) :
    maskPixel { s with imem := m } mrow y w x pmem = maskPixel s mrow y w x pmem := by
  simp only [maskPixel, u8_withImem hw hx]

theorem mergeMask_withImem (hw : SameBelow n m s.imem) {pos w h : Nat} (hl : pos + bmpStride 1 w * h ≤ n) (pmem : Mem 32) :
    mergeMask { s with imem := m } pos w h pmem = mergeMask s pos w h pmem :=
  forLoop_congr pmem fun r y _ hr => forLoop_congr y fun x z _ hx => maskPixel_withImem hw (by
    have hrow := storedRow_end_le (r := r) (h := h) (stride := bmpStride 1 w) (by omega)
    have hbits := rowBits_le_stride 1 w
    omega) _ z

theorem bmpFinish_withImem {c : BmpHeader} (hw : SameBelow c.ctx.lim m s.imem) (bits w h stride pos : Nat) (pmem : Mem 32) :
    bmpFinish { s with imem := m } c bits w h stride pos pmem = mapImem m (bmpFinish s c bits w h stride pos pmem) := by
  unfold bmpFinish
  dsimp only
  split
  · rw [mapImem_bind]
    refine need_bind_congr fun hl => ?_
    rw [mergeMask_withImem hw hl, mapImem_bind]
    rfl
  · rfl

theorem decodePixels_withImem {bits : Nat} {pix : State → Nat → Nat → Nat → Except Stop Word} (hpix : ReadsItsBits bits pix)
    {c : BmpHeader} (hw : SameBelow c.ctx.lim m s.imem) :
    decodePixels bits pix { s with imem := m } c = mapImem m (decodePixels bits pix s c) := by
  unfold decodePixels
  rw [mapImem_bind]
  refine bind_congr_of_ok fun size _ => ?_
  obtain ⟨w, h, td⟩ := size
  dsimp only
  rw [pixelTable_withImem hw]
  cases ht : pixelTable bits s c with
  | error => rfl
  | ok r =>
    obtain ⟨t, p, after⟩ := r
    have hwt : SameBelow c.ctx.lim m t.imem := pixelTable_imem ht ▸ hw
    show (pixelStart c after >>= _) = mapImem m (pixelStart c after >>= _)
    rw [mapImem_bind]
    refine bind_congr_of_ok fun pos _ => ?_
    rw [mapImem_bind]
    refine need_bind_congr fun hl => ?_
    rw [mapImem_bind]
    have hrows := unpackRows_congr (pix := pix { t with imem := m } p) (pix' := pix t p) (pos := pos) (stride := bmpStride bits w)
      (w := w) (h := h) (fun r hr x hx => hpix t m c.ctx.lim p _ x (bmpStride bits w) hwt
        (by have := storedRow_end_le (stride := bmpStride bits w) hr; omega)
        (Nat.le_trans (Nat.mul_le_mul_left _ hx) (rowBits_le_stride bits w)))
    dsimp only [mapTable]
    rw [hrows]
    exact bind_congr_of_ok fun pmem _ => bmpFinish_withImem hwt _ _ _ _ _ _

end

end Sys2Proof.Machine

/-! SUPPORT. The input window (20_memory R68), concluded: the run of the engine keeps its windows within ILEN, so that every command gives
the same over two IMEMs that agree there. -/

namespace Sys2Proof.Machine

/-! ## ICO -/

section
variable {s : State} {m : Mem 8}

theorem icoStart_withImem (hw : SameBelow s.ilen.toNat m s.imem) (depth : BitVec 8) :
    icoStart depth { s with imem := m } = mapImem m (icoStart depth s) := by
  unfold icoStart
  dsimp only
  rw [mapImem_bind]
  refine need_bind_congr fun h6 => ?_
  simp (disch := omega) only [u16le_withImem hw, mapImem_bind, mapImem_ite, mapImem_raise]
  refine bind_congr_of_ok fun reserved _ => bind_congr_of_ok fun type _ => bind_congr_of_ok fun count _ => ?_
  split
  · rfl
  · refine need_bind_congr fun hdir => ?_
    simp (disch := omega) only [u8_withImem hw, u16le_withImem hw, u32le_withImem hw, mapImem_ok]

theorem execIcoPayloadPng_withImem (hw : ∀ c, s.engine = .payload c → SameBelow c.lim m s.imem) :
    execIcoPayloadPng { s with imem := m } = withImem m (execIcoPayloadPng s) := by
  unfold execIcoPayloadPng
  dsimp only
  split
  · next c he =>
    rw [← settle_withImem]
    exact congrArg _ (pngStart_withImem (s := { s with ico := { s.ico with sel := regOf 1 } }) (hw c he) _ _ _)
  · rfl

theorem execIcoPayloadBmp_withImem (head : BitVec 64) :
    execIcoPayloadBmp head { s with imem := m } = withImem m (execIcoPayloadBmp head s) := by
  unfold execIcoPayloadBmp
  dsimp only
  split <;> rfl

end

/-! ## The windows of a command in flight -/

/-- The windows of the command in flight end at or below `n`, and where the engine reads its next word is known to lie in them. -/
def engineWithin (n : Nat) : Engine → Prop
  | .idle => True
  | .payload c => c.off + 8 ≤ c.lim ∧ c.lim ≤ n
  | .header c => c.lim ≤ n
  | .pixels c => bitCountAddr c + 2 ≤ c.ctx.lim ∧ c.ctx.lim ≤ n
  | .chunks c => c.lim ≤ n
  | .blocks c => sourceWithin n c.src
  | .rows _ => True

theorem startEffect_within {s u : State} {k : Scope} (h : StartEffect s k u) :
    engineWithin u.ilen.toNat u.engine := by
  cases h with
  | error => trivial
  | bmp => exact Nat.le_refl s.ilen.toNat
  | png => exact Nat.le_refl s.ilen.toNat
  | ico d hd r off lim hr hl hi => exact ⟨hl, hi⟩
  | inflate => exact Nat.le_refl s.ilen.toNat
  | unfilt => trivial
  | unfiltNone => trivial

/-- After an info header the place of bitCount is known to lie in the window. -/
theorem header_within {n : Nat} {s t : State} {c : BmpCtx} (he : s.engine = .header c) (hc : c.lim ≤ n) (h : engineStep s = .next t) :
    engineWithin n t.engine := by
  have hmodern : ∀ {hs : Nat}, 16 ≤ hs → headerStep (modernHeader hs) s = .next t → engineWithin n t.engine := fun h16 h => by
    obtain ⟨c', he', hok | ⟨e, rfl⟩⟩ := headerStep_eq_next h
    · obtain ⟨hl, w, ht, k, rfl⟩ := modernHeader_eq_ok hok
      obtain rfl : c = c' := by simpa [he] using he'
      exact ⟨show c.h0 + 14 + 2 ≤ c.lim by omega, hc⟩
    · trivial
  unfold engineStep at h
  split at h
  case h_1 => cases h; trivial
  case h_2 => cases h
  case h_3 => simp [skipChunk, he] at h
  case h_4 i hi =>
    have hformat := fetchStream_format hi
    rw [he] at hformat
    cases i with
    | bmpHeaderCore =>
      obtain ⟨c', he', hok | ⟨e, rfl⟩⟩ := headerStep_eq_next h
      · obtain ⟨-, hl, w, ht, rfl⟩ := coreHeader_eq_ok hok
        obtain rfl : c = c' := by simpa [he] using he'
        exact ⟨show c.h0 + 10 + 2 ≤ c.lim by omega, hc⟩
      · trivial
    | bmpHeader40 => exact hmodern (hs := 40) (by omega) h
    | bmpHeader52 => exact hmodern (hs := 52) (by omega) h
    | bmpHeader56 => exact hmodern (hs := 56) (by omega) h
    | bmpHeader108 => exact hmodern (hs := 108) (by omega) h
    | bmpHeader124 => exact hmodern (hs := 124) (by omega) h
    | _ => cases hformat

theorem enterRows_within {n : Nat} {s t : State} {c : RowCtx} (h : enterRows s c = .ok t) : engineWithin n t.engine := by
  rcases enterRows_eq_ok.1 h with ⟨-, rfl⟩ | ⟨-, -, rfl⟩ | ⟨-, p, -, hf⟩
  · trivial
  · trivial
  · obtain ⟨pm, -, -, rfl⟩ := pngFinish_writes hf
    trivial

/-- A stream step keeps the windows. -/
theorem engineStep_within {n : Nat} {s t : State} (hin : engineWithin n s.engine) (h : engineStep s = .next t) :
    engineWithin n t.engine := by
  cases engineStep_effect h with
  | error => trivial
  | payloadPng c he => rw [he] at hin; exact hin.2
  | payloadBmp c he => rw [he] at hin; exact hin.2
  | header c b he => rw [he] at hin; exact header_within he hin h
  | pixels => trivial
  | ihdr c len hdr png he => rw [he] at hin; exact hin
  | chunk c len idat he => rw [he] at hin; exact hin
  | iend => trivial
  | block c bp rout he => rw [he] at hin; exact hin
  | inflated => trivial
  | decompressed c rout p t he hp hr ht => exact enterRows_within ht
  | row c z t he hz ht => exact enterRows_within ht

/-! ## A stream step -/

section
variable {s : State} {m : Mem 8} (hw : SameBelow s.ilen.toNat m s.imem) (hin : engineWithin s.ilen.toNat s.engine)
include hw hin

theorem sameBelow_payload (c : PayloadCtx) (he : s.engine = .payload c) : SameBelow c.lim m s.imem := by
  rw [he] at hin; exact hw.mono hin.2

theorem sameBelow_header (c : BmpCtx) (he : s.engine = .header c) : SameBelow c.lim m s.imem := by
  rw [he] at hin; exact hw.mono hin

theorem sameBelow_pixels (c : BmpHeader) (he : s.engine = .pixels c) : SameBelow c.ctx.lim m s.imem := by
  rw [he] at hin; exact hw.mono hin.2

theorem sameBelow_chunks (c : ChunkCtx) (he : s.engine = .chunks c) : SameBelow c.lim m s.imem := by
  rw [he] at hin; exact hw.mono hin

theorem sameSource_blocks (c : BlockCtx) (he : s.engine = .blocks c) : SameSource c.src m s.imem := by
  rw [he] at hin; exact .of_sameBelow hw hin

/-- FETCH reads within the windows. -/
theorem fetchStream_withImem : fetchStream { s with imem := m } = fetchStream s := by
  unfold fetchStream
  dsimp only
  split
  case h_1 => rfl
  case h_2 c he =>
    rw [he] at hin
    obtain ⟨hoff, hlim⟩ := hin
    rw [readBE_sameBelow hw (show c.off + 8 ≤ s.ilen.toNat by omega)]
  case h_3 c he =>
    refine need_bind_congr fun h4 => ?_
    rw [u32le_withImem (sameBelow_header hw hin c he) h4]
  case h_4 c he =>
    have hwc := sameBelow_pixels hw hin c he
    rw [he] at hin
    rw [u16le_withImem hwc hin.1]
  case h_5 c he => rw [chunkHead_withImem (sameBelow_chunks hw hin c he)]
  case h_6 c he => rw [getBits_sameSource (sameSource_blocks hw hin c he)]
  case h_7 => rfl

theorem modernHeaderStep_withImem {hs : Nat} (h36 : 36 ≤ hs) :
    headerStep (modernHeader hs) { s with imem := m } = withImem m (headerStep (modernHeader hs) s) :=
  headerStep_withImem fun c he => modernHeader_withImem (sameBelow_header hw hin c he) h36 c (Nat.le_refl _)

theorem pixelStep_decodePixels_withImem {bits : Nat} {pix : State → Nat → Nat → Nat → Except Stop Word} (hpix : ReadsItsBits bits pix) :
    pixelStep (decodePixels bits pix) { s with imem := m } = withImem m (pixelStep (decodePixels bits pix) s) :=
  pixelStep_withImem fun c he => decodePixels_withImem hpix (sameBelow_pixels hw hin c he)

/-- The meaning of a stream opcode reads within the windows. -/
theorem execStream_withImem (i : Instr) : execStream i { s with imem := m } = withImem m (execStream i s) := by
  cases i with
  | pngChunkIHDR => exact execPngChunkIHDR_withImem (sameBelow_chunks hw hin)
  | pngChunkIDAT => exact execPngChunkIDAT_withImem (sameBelow_chunks hw hin)
  | pngChunkIEND => exact execPngChunkIEND_withImem (sameBelow_chunks hw hin)
  | pngFilterNone => exact filterStep_withImem predNone
  | pngFilterSub => exact filterStep_withImem predSub
  | pngFilterUp => exact filterStep_withImem predUp
  | pngFilterAverage => exact filterStep_withImem predAverage
  | pngFilterPaeth => exact filterStep_withImem predPaeth
  | deflateStored b => exact blockStep_withImem b fun c he => storedBlock_sameSource (sameSource_blocks hw hin c he)
  | deflateFixed b => exact blockStep_withImem b fun c he => fixedBlock_sameSource (sameSource_blocks hw hin c he)
  | deflateDynamic b => exact blockStep_withImem b fun c he => dynamicBlock_sameSource (sameSource_blocks hw hin c he)
  | bmpHeaderCore => exact headerStep_withImem fun c he => coreHeader_withImem (sameBelow_header hw hin c he) c (Nat.le_refl _)
  | bmpHeader40 => exact modernHeaderStep_withImem hw hin (by omega)
  | bmpHeader52 => exact modernHeaderStep_withImem hw hin (by omega)
  | bmpHeader56 => exact modernHeaderStep_withImem hw hin (by omega)
  | bmpHeader108 => exact modernHeaderStep_withImem hw hin (by omega)
  | bmpHeader124 => exact modernHeaderStep_withImem hw hin (by omega)
  | bmpBits1 => exact pixelStep_decodePixels_withImem hw hin pixel1_readsItsBits
  | bmpBits4 => exact pixelStep_decodePixels_withImem hw hin pixel4_readsItsBits
  | bmpBits8 => exact pixelStep_decodePixels_withImem hw hin pixel8_readsItsBits
  | bmpBits16 =>
    change execBmpBits16 { s with imem := m } = withImem m (execBmpBits16 s)
    unfold execBmpBits16
    refine pixelStep_withImem fun c he => ?_
    rw [mapImem_ite, mapImem_raise, decodePixels_withImem pixel16_readsItsBits (sameBelow_pixels hw hin c he)]
  | bmpBits24 => exact pixelStep_decodePixels_withImem hw hin pixel24_readsItsBits
  | bmpBits32 => exact pixelStep_decodePixels_withImem hw hin pixel32_readsItsBits
  | icoPayloadPng => exact execIcoPayloadPng_withImem (sameBelow_payload hw hin)
  | icoPayloadBmp head => exact execIcoPayloadBmp_withImem head
  | _ => rfl

theorem engineStep_withImem : engineStep { s with imem := m } = withImem m (engineStep s) := by
  unfold engineStep
  rw [fetchStream_withImem hw hin]
  cases fetchStream s with
  | error e =>
    cases e with
    | raised e => exact congrArg Host.Outcome.next (takeError_withImem _ e s)
    | faulted f => rfl
  | ok o =>
    cases o with
    | none => exact skipChunk_withImem (sameBelow_chunks hw hin)
    | some i => exact execStream_withImem hw hin i

end

/-! ## Runs and commands -/

theorem runEngine_withImem {n : Nat} {s : State} {m : Mem 8} (hw : SameBelow s.ilen.toNat m s.imem)
    (hin : engineWithin s.ilen.toNat s.engine) : runEngine n { s with imem := m } = withImem m (runEngine n s) := by
  induction n generalizing s with
  | zero => rfl
  | succ n ih =>
    unfold runEngine
    dsimp only
    split
    · rw [engineStep_withImem hw hin]
      cases ht : engineStep s with
      | next t =>
        obtain ⟨himem, hilen, -⟩ := streamEffect_sameInput (engineStep_effect ht)
        exact ih (by rw [himem, hilen]; exact hw) (by rw [hilen]; exact engineStep_within hin ht)
      | fault f => rfl
      | refused r => rfl
    · rfl

/-- A start and the run from it. -/
theorem runCommand_withImem {k : Scope} {s : State} {m : Mem 8} {x : Except Stop State} (hw : SameBelow s.ilen.toNat m s.imem)
    (hx : ∀ u, x = .ok u → StartEffect s k u) :
    runCommand (settle k { s with imem := m } (mapImem m x)) = withImem m (runCommand (settle k s x)) := by
  rw [settle_withImem]
  cases hu : settle k s x with
  | next u =>
    have he : StartEffect s k u := by
      rcases settle_eq_next.1 hu with h | ⟨e, -, rfl⟩
      · exact hx u h
      · exact .error k e
    obtain ⟨himem, hilen, -⟩ := startEffect_sameInput he
    exact runEngine_withImem (by rw [himem, hilen]; exact hw) (startEffect_within he)
  | fault f => rfl
  | refused r => rfl

theorem decodeCommandRun_withImem {k : Scope} {d : BitVec 8} {start : State → Except Stop State} {s : State} {m : Mem 8}
    (hw : SameBelow s.ilen.toNat m s.imem) (hstart : start { s with imem := m } = mapImem m (start s))
    (hx : ∀ u, legalDepth d = true → start s = .ok u → StartEffect s k u) :
    decodeCommandRun k d start { s with imem := m } = withImem m (decodeCommandRun k d start s) := by
  unfold decodeCommandRun
  cases hd : depthOfField d with
  | none => rfl
  | some x =>
    have hl : legalDepth d = true := by rw [← depthOfField_isSome, hd]; rfl
    dsimp only
    rw [hstart]
    exact runCommand_withImem hw fun u => hx u hl

/-- Of the commands that run in one go only DES reads IMEM. -/
theorem execDes_withImem {s : State} {m : Mem 8} (hw : SameBelow s.ilen.toNat m s.imem) (d : BitVec 8) :
    execDes d { s with imem := m } = withImem m (execDes d s) := by
  unfold execDes
  rw [← settle_withImem, mapImem_bind]
  refine congrArg _ (bind_congr_of_ok fun depth _ => ?_)
  rw [mapImem_bind]
  refine need_bind_congr fun hn => ?_
  rw [readRun_sameBelow hw hn, mapImem_bind]
  rfl

section
variable {m : Mem 8} (s : State)

theorem execNewbm_withImem (d : BitVec 8) : execNewbm d { s with imem := m } = withImem m (execNewbm d s) := by
  simp only [execNewbm, ← settle_withImem, mapImem_bind, mapImem_ite, mapImem_raise, mapImem_ok, complete]

theorem pixelOperand_withImem : pixelOperand { s with imem := m } = pixelOperand s := by
  simp only [pixelOperand, regNat_withImem]

theorem execGetpx_withImem : execGetpx { s with imem := m } = withImem m (execGetpx s) := by
  simp only [execGetpx, ← settle_withImem, pixelOperand_withImem, mapImem_bind, mapImem_ok, complete]

theorem execSetpx_withImem : execSetpx { s with imem := m } = withImem m (execSetpx s) := by
  simp only [execSetpx, ← settle_withImem, pixelOperand_withImem, mapImem_bind, mapImem_ok, complete]

theorem execSer_withImem (d : BitVec 8) : execSer d { s with imem := m } = withImem m (execSer d s) := by
  simp only [execSer, ← settle_withImem, mapImem_bind, mapImem_ok, complete]

theorem execConv_withImem (d : BitVec 8) : execConv d { s with imem := m } = withImem m (execConv d s) := by
  simp only [execConv, ← settle_withImem, regNat_withImem, mapImem_bind, mapImem_ok, complete]

theorem execPalmap_withImem : execPalmap { s with imem := m } = withImem m (execPalmap s) := by
  simp only [execPalmap, ← settle_withImem, regNat_withImem, mapImem_bind, mapImem_ite, mapImem_raise, mapImem_ok, complete]

theorem unfiltStart_withImem : unfiltStart { s with imem := m } = mapImem m (unfiltStart s) := by
  simp only [unfiltStart, regNat_withImem, enterRows_withImem, mapImem_bind, mapImem_ite, mapImem_raise]

end

section
variable {s : State} {m : Mem 8} (hw : SameBelow s.ilen.toNat m s.imem)
include hw

theorem execDecbmp_withImem (d : BitVec 8) : execDecbmp d { s with imem := m } = withImem m (execDecbmp d s) :=
  decodeCommandRun_withImem hw (bmpStart_withImem hw d) fun u hd hu => by
    obtain ⟨hl, off, rfl⟩ := bmpStart_eq_ok hu
    exact .bmp d hd off hl

theorem execDecpng_withImem (d : BitVec 8) : execDecpng d { s with imem := m } = withImem m (execDecpng d s) :=
  decodeCommandRun_withImem hw (pngStart_withImem hw false d 0) fun u hd hu => by
    obtain ⟨hl, -, rfl⟩ := pngStart_eq_ok.1 hu
    exact .png d hd (by omega)

theorem execDecico_withImem (d : BitVec 8) : execDecico d { s with imem := m } = withImem m (execDecico d s) :=
  decodeCommandRun_withImem hw (icoStart_withImem hw d) fun u hd hu => by
    obtain ⟨ico, off, lim, hsel, hl, hi, rfl⟩ := icoStart_eq_ok hu
    exact .ico d hd ico off lim hsel hl hi

theorem inflateStart_withImem : inflateStart { s with imem := m } = mapImem m (inflateStart s) := by
  have hz := checkZlibHeader_sameSource (src := .imem s.ilen.toNat) (.of_sameBelow hw (Nat.le_refl _)) s.arg0.toNat
  simp only [inflateStart, hz, mapImem_bind, mapImem_ok]

theorem execInflate_withImem : execInflate { s with imem := m } = withImem m (execInflate s) := by
  unfold execInflate
  rw [inflateStart_withImem hw]
  refine runCommand_withImem hw fun u hu => ?_
  obtain ⟨hz, rfl⟩ := inflateStart_eq_ok.1 hu
  exact .inflate hz

theorem execUnfilt_withImem : execUnfilt { s with imem := m } = withImem m (execUnfilt s) := by
  unfold execUnfilt
  rw [unfiltStart_withImem]
  refine runCommand_withImem hw fun u hu => ?_
  obtain ⟨-, -, z, -, -, ht⟩ := unfiltStart_eq_ok hu
  rcases enterRows_eq_ok.1 ht with ⟨hr, rfl⟩ | ⟨hr, -, rfl⟩ | ⟨-, p, hp, -⟩
  · exact .unfilt hr
  · exact .unfiltNone (Nat.le_zero.1 hr)
  · cases hp

end

/-- Settles O18: a command reads IMEM only within windows that end at or below ILEN. -/
theorem inputWindowIsIlen : Obligations.InputWindowIsIlen := by
  unfold Obligations.InputWindowIsIlen
  intro i s m hi hw
  cases i with
  | nop => rfl
  | clr => rfl
  | newbm d => exact execNewbm_withImem s d
  | getpx => exact execGetpx_withImem s
  | setpx => exact execSetpx_withImem s
  | des d => exact execDes_withImem hw d
  | ser d => exact execSer_withImem s d
  | conv d => exact execConv_withImem s d
  | decbmp d => exact execDecbmp_withImem hw d
  | decpng d => exact execDecpng_withImem hw d
  | decico d => exact execDecico_withImem hw d
  | inflate => exact execInflate_withImem hw
  | unfilt => exact execUnfilt_withImem hw
  | palmap => exact execPalmap_withImem s
  | _ => cases hi

end Sys2Proof.Machine
